-- ==== Sys2Proof/Word.lean ====
section
/-! DEFINITION. Sys2Proof/Word.lean: the plain data types every other file shares: the byte and the 32-bit register word, a stored value that may be UNSPECIFIED, and the code tree. -/

namespace Sys2Proof

/-- A byte of a buffer or table (R17). -/
abbrev Byte := BitVec 8

/-- The value of a 32-bit register (R15). -/
abbrev Word := BitVec 32

/-- The 256 bits of one entry of table CODE; code bit `i` is the `i`-th bit from the most significant end (R147). -/
abbrev CodeWord := BitVec 256

/-- What a register or table entry holds: a value, or the mark UNSPECIFIED of R23 (a failed command's outputs, R184).
An UNSPECIFIED place gives a free value at each read, possibly a different one each time. -/
inductive Held (α : Type) where
  | val (v : α)
  | unspecified
deriving DecidableEq, Repr

/-- A nonempty code tree (R49): the spec's CodeTree is either empty or one of these, so TREE is an `Option CodeTree`. -/
inductive CodeTree where
  | leaf (symbol : Byte) (freq seq : Nat)
  | node (left right : CodeTree) (freq seq : Nat)
deriving DecidableEq, Repr

end Sys2Proof
end

