-- ==== Sys2Proof/Syntax.lean ====
section
/-! DEFINITION. Sys2Proof/Syntax.lean: the commands (R122), the host's bus transactions (R86, R151), the host-script notation (R150), and the RLC token (R140). -/

namespace Sys2Proof

/-- The 17 commands, one constructor per row of the opcode map (R122). A command word has no operand field (R121, R125). -/
inductive Instr where
  | nop
  | rtFwd
  | rtInv
  | rrtEnc
  | rrtDec
  | rlcEnc
  | rlcDec
  | ecCount
  | ecBuild
  | ecPack
  | ecUnpack
  | frameSer
  | frameDes
  | compressBlock
  | decompressFrame
  | streamReset
  | clearError
deriving DecidableEq, Repr

/-- The width of a host access: 1, 2 or 4 bytes; no other width exists (R86). -/
inductive Width where
  | w1
  | w2
  | w4
deriving DecidableEq, Repr

/-- One thing the outside world does to the block (R100, R380): a single read or write of the device window, a hardware reset,
nothing (`pause`: the host is silent, so the engine may take its step), or the polling loop of WAIT (R150, R152), which reads STATUS
until BUSY reads 0. `wait polls` carries the one thing R172 and R176 leave open, how many of its polls come before the engine step if
a command is pending (log entry 3). A list of actions is one total order of host accesses and engine steps. -/
inductive HostAction where
  | read (offset : Nat) (width : Width)
  | write (offset : Nat) (width : Width) (value : Word)
  | hardReset
  | pause
  | wait (polls : Nat)
deriving DecidableEq, Repr

/-- A statement of the host-script notation (R150); a register name stands for its window offset. `wait polls` is WAIT, with the
number of polls that `HostAction.wait` explains. R150 does not say how wide the read of an EXPECT is, so
`expect` carries the width (DESIGN CHOICE, log entry 15). -/
inductive HostStmt where
  | w32 (offset : Nat) (value : Word)
  | w8 (offset : Nat) (value : Byte)
  | r32 (offset : Nat)
  | r8 (offset : Nat)
  | wbytes (offset : Nat) (bytes : List Byte)
  | rbytes (offset count : Nat)
  | cmd (command : Instr)
  | wait (polls : Nat)
  | expect (offset : Nat) (width : Width) (value : Word)
deriving DecidableEq, Repr

/-- A token of the run-length stream (R140): a literal byte, or `count` copies of a byte. -/
inductive Token where
  | literal (symbol : Byte)
  | run (symbol count : Byte)
deriving DecidableEq, Repr

end Sys2Proof
end

