-- ==== Sys2Proof/WellFormed.lean ====
section
/-! DEFINITION. Sys2Proof/WellFormed.lean: which terms of the syntax the spec admits. -/

namespace Sys2Proof

/-- Every command is well formed: a command word has no field that could hold a wrong value (R121, R125). -/
def Instr.wellFormed : Instr → Bool
  | .nop | .rtFwd | .rtInv | .rrtEnc | .rrtDec | .rlcEnc | .rlcDec | .ecCount | .ecBuild | .ecPack | .ecUnpack
  | .frameSer | .frameDes | .compressBlock | .decompressFrame | .streamReset | .clearError => true

/-- The number of values an access of a width carries: 256 to the number of bytes (R86). -/
def Width.span : Width → Nat
  | .w1 => 256
  | .w2 => 65536
  | .w4 => 4294967296

/-- A bus transaction names an offset of the 2^20-byte window (R80) and a value its width can carry (R86). -/
def HostAction.wellFormed : HostAction → Bool
  | .read offset _ => offset < 0x100000
  | .write offset width value => offset < 0x100000 && value.toNat < width.span
  | .hardReset | .pause | .wait _ => true

/-- A script statement touches only offsets of the window (R150). -/
def HostStmt.wellFormed : HostStmt → Bool
  | .w32 offset _ | .w8 offset _ | .r32 offset | .r8 offset | .expect offset _ _ => offset < 0x100000
  | .wbytes offset bytes => offset + bytes.length ≤ 0x100000
  | .rbytes offset count => offset + count ≤ 0x100000
  | .cmd command => command.wellFormed
  | .wait _ => true

/-- A run token has a count of at least 2 (R140, R141). -/
def Token.wellFormed : Token → Bool
  | .literal _ => true
  | .run _ count => 2 ≤ count.toNat

end Sys2Proof
end

