-- ==== Sys2Proof/Decode.lean ====
section
/-! DEFINITION. Sys2Proof/Decode.lean: the command decoder, total on 32-bit words (R121 to R126), and after it the encoder from the same opcode map. -/

namespace Sys2Proof

/-- Why a command word is illegal (R123). -/
inductive DecodeReject where
  | reservedBitsSet
  | unknownOpcode
deriving DecidableEq, Repr

/-- Field OPC, bits 7:0 of a command word (R121). -/
def opcField (w : Word) : Byte := w.extractLsb' 0 8

/-- Field RSV, bits 31:8 of a command word (R121). -/
def rsvField (w : Word) : BitVec 24 := w.extractLsb' 8 24

/-- The opcode map (R122). -/
def commandOfOpcode : Nat → Option Instr
  | 0x00 => some .nop
  | 0x01 => some .rtFwd
  | 0x02 => some .rtInv
  | 0x03 => some .rrtEnc
  | 0x04 => some .rrtDec
  | 0x05 => some .rlcEnc
  | 0x06 => some .rlcDec
  | 0x07 => some .ecCount
  | 0x08 => some .ecBuild
  | 0x09 => some .ecPack
  | 0x0A => some .ecUnpack
  | 0x0B => some .frameSer
  | 0x0C => some .frameDes
  | 0x0D => some .compressBlock
  | 0x0E => some .decompressFrame
  | 0x0F => some .streamReset
  | 0x10 => some .clearError
  | _ => none

/-- A word is a legal command exactly when RSV = 0 and OPC is in the opcode map (R122); otherwise it is illegal (R123). -/
def decode (w : Word) : Except DecodeReject Instr :=
  if rsvField w ≠ 0 then .error .reservedBitsSet
  else
    match commandOfOpcode (opcField w).toNat with
    | some i => .ok i
    | none => .error .unknownOpcode

/-- The opcode of a command (R122). -/
def Instr.opcode : Instr → Byte
  | .nop => 0x00
  | .rtFwd => 0x01
  | .rtInv => 0x02
  | .rrtEnc => 0x03
  | .rrtDec => 0x04
  | .rlcEnc => 0x05
  | .rlcDec => 0x06
  | .ecCount => 0x07
  | .ecBuild => 0x08
  | .ecPack => 0x09
  | .ecUnpack => 0x0A
  | .frameSer => 0x0B
  | .frameDes => 0x0C
  | .compressBlock => 0x0D
  | .decompressFrame => 0x0E
  | .streamReset => 0x0F
  | .clearError => 0x10

/-- The word of a command: OPC in bits 7:0, RSV = 0 (R121). -/
def encode (i : Instr) : Word := (0 : BitVec 24) ++ i.opcode

/-- The command the decoder reads from a table word: bit 0 is the word's least significant bit and every bit from `nbits` up
is 0. A command word is one 32-bit word (R121), so a longer row is none. -/
def decodeTableWord (nbits w : Nat) : Option Instr :=
  if 32 < nbits then none
  else
    match decode (BitVec.ofNat 32 (w % 2 ^ nbits)) with
    | .ok i => some i
    | .error _ => none

end Sys2Proof
end

