-- ==== Sys2Proof/Config.lean ====
section
/-! DEFINITION. Sys2Proof/Config.lean: what is fixed for one instance (the parameters of R11, R80 and R360) and the free values of R23, constants without a body. -/

namespace Sys2Proof

/-- The parameters of one instance, fixed for its life. `blockMax` is BLOCK_MAX (R11). `windowBase` and `irqLine` are the
platform's WINDOW_BASE (R80) and IRQ_LINE (R360). -/
structure Config where
  blockMax : Nat
  windowBase : Nat
  irqLine : Nat
deriving DecidableEq, Repr

/-- The instance `State.reset` is written for: BLOCK_MAX at its default 1024 (R11). The spec gives WINDOW_BASE and IRQ_LINE no
default; 0 stands for them (DESIGN CHOICE, log entry 2). Statements quantify over every `Config`. -/
def Config.default : Config where
  blockMax := 1024
  windowBase := 0
  irqLine := 0

/-- The legal range of BLOCK_MAX (R11): 1 to 65536. -/
abbrev Config.Legal (c : Config) : Prop := 1 ≤ c.blockMax ∧ c.blockMax ≤ 65536

/-- A free draw of a 32-bit value: the first argument is the number of the step that reads (State.epoch), the second the window
offset that is read (R23; log entry 1). -/
opaque Config.freeWord : Nat → Nat → Word

/-- A free draw of a byte, by step number and window offset (R23; log entry 1). -/
opaque Config.freeByte : Nat → Nat → Byte

/-- A free draw of one CODE entry, by step number and symbol (R23; log entry 1). -/
opaque Config.freeCode : Nat → Nat → CodeWord

/-- A free draw of the hidden TREE, by step number (R23; log entry 1). -/
opaque Config.freeTree : Nat → Option CodeTree

end Sys2Proof
end

