-- ==== Sys2Proof/Machine/State.lean ====
section
/-! DEFINITION. Sys2Proof/Machine/State.lean: everything the spec gives the machine (R30), as plain data, its state after reset (R58, R59), and why a step may stop. -/

namespace Sys2Proof.Machine

/-- The error kinds a command can raise, in the order of their codes 1 to 11 (R340). -/
inductive ErrorKind where
  | truncatedFrame
  | inconsistentFreqTable
  | invalidRotationIndex
  | paddingOutOfRange
  | malformedRunToken
  | lengthOutOfRange
  | outputOverflow
  | frameTooLarge
  | symbolNotInCode
  | invalidColumn
  | illegalCommand
deriving DecidableEq, Repr

/-- The six byte buffers (R50). -/
inductive Buf where
  | a
  | c
  | r
  | t
  | p
  | f
deriving DecidableEq, Repr

/-- Register CTRL (R33): its stored fields. SRST is an action and reads 0; bits 31:3 read 0. -/
structure Ctrl where
  doneIe : Bool
  errIe : Bool
deriving DecidableEq, Repr

/-- Register STATUS (R35): its stored bits. Bit 6 (IRQ) is derived (R56); bits 31:7 read 0. -/
structure Status where
  busy : Bool
  done : Bool
  err : Bool
  endOfStream : Bool
  rej : Bool
  busyViol : Bool
deriving DecidableEq, Repr

/-- One entry of table FREQ (R46), as the four bytes of `be32` that the window shows (R85), most significant first. A byte may
be UNSPECIFIED, and the host may write one byte of an entry alone (R91). -/
structure FreqEntry where
  b0 : Held Byte
  b1 : Held Byte
  b2 : Held Byte
  b3 : Held Byte
deriving DecidableEq, Repr

/-- For each buffer, how many of its first bytes are UNSPECIFIED where memory lists no value for them (R184); an unlisted byte
from there on has NO VALUE (R59). -/
structure Undetermined where
  a : Nat
  c : Nat
  r : Nat
  t : Nat
  p : Nat
  f : Nat
deriving DecidableEq, Repr

/-- The bytes of the six buffers that hold a value, by window offset (R82): a list with strictly rising offsets. What an
unlisted byte reads as is `State.cell` (Machine/Ops.lean). -/
abbrev Memory := List Host.Cell

/-- What one host read returned (R90). -/
structure HostReading where
  offset : Nat
  width : Width
  value : Word
deriving DecidableEq, Repr

/-- The whole state (R30). The last three fields are the model's own: the number of steps taken (it numbers the free draws of
R23), what the host and the platform will do next, and what the host's reads returned, newest first. -/
structure State where
  /-- ID and VERSION are constants (R31); BLOCK_MAX and the capacities that follow from it are fixed here (R32). -/
  cfg : Config
  /-- CTRL (R33). -/
  ctrl : Ctrl
  /-- CMD (R34). -/
  cmd : Word
  /-- STATUS (R35). -/
  status : Status
  /-- ERR_CODE (R38, R340); `none` is code 0, NONE. -/
  errCode : Option ErrorKind
  /-- ERR_OFFSET (R39). -/
  errOffset : Word
  /-- BLK_LEN (R40). -/
  blkLen : Held Word
  /-- ROT_IDX (R41). -/
  rotIdx : Held Word
  /-- TOK_LEN (R42). -/
  tokLen : Held Word
  /-- PAY_LEN (R43). -/
  payLen : Held Word
  /-- PAD_CNT, bits 7:0; bits 31:8 read 0 (R44). -/
  padCnt : Held Byte
  /-- FREQ_COUNT (R51). -/
  freqCount : Held Word
  /-- FRAME_LEN (R52). -/
  frameLen : Held Word
  /-- IN_LEN (R53). -/
  inLen : Word
  /-- STREAM_OFFSET (R54). -/
  streamOffset : Word
  /-- RLIST, 256 bytes (R45). -/
  rlist : Held (List Byte)
  /-- FREQ, 256 entries (R46). -/
  freq : List FreqEntry
  /-- CODELEN, 256 bytes (R47). -/
  codeLen : Held (List Byte)
  /-- CODE, 256 entries of 256 bits (R48). -/
  code : Held (List CodeWord)
  /-- TREE (R49); `none` is the empty tree. -/
  tree : Held (Option CodeTree)
  /-- The buffer bytes that hold a value (R50). -/
  mem : Memory
  /-- Which unlisted buffer bytes are UNSPECIFIED rather than without a value (R184, R59). -/
  undet : Undetermined
  /-- The model's own: how many steps were taken. -/
  epoch : Nat
  /-- The model's own: what the host and the platform do next, in order (R100). -/
  hostQueue : List HostAction
  /-- The model's own: what the host's reads returned, newest first (R90). -/
  hostReads : List HostReading
deriving DecidableEq, Repr

/-- Why the machine stops with a fault. -/
inductive Fault where
  /-- Raised by a command that reads a byte of buffer `b` with NO VALUE: R106 says a model must make this a fault. Safe: the
  machine stops where the hardware reads whatever its storage holds. -/
  | noValueRead (b : Buf)
deriving DecidableEq, Repr

/-- Why the machine refuses an instruction. -/
inductive Refusal where
  /-- Raised by `exec` for an instruction that has no meaning yet. Safe: the machine stops. -/
  | notModelled (mnemonic : String)
deriving DecidableEq, Repr

/-- The recency list `[0, 1, …, 255]` (R45, R220). -/
def identityList : List Byte := (List.range 256).map (BitVec.ofNat 8)

/-- A FREQ entry that holds 0. -/
def FreqEntry.zero : FreqEntry := ⟨.val 0, .val 0, .val 0, .val 0⟩

/-- The state of an instance right after a reset (R58, R59, R382), with nothing for the host to do. -/
def State.resetOf (cfg : Config) : State where
  cfg := cfg
  ctrl := ⟨false, false⟩
  cmd := 0
  status := ⟨false, false, false, false, false, false⟩
  errCode := none
  errOffset := 0
  blkLen := .val 0
  rotIdx := .val 0
  tokLen := .val 0
  payLen := .val 0
  padCnt := .val 0
  freqCount := .val 0
  frameLen := .val 0
  inLen := 0
  streamOffset := 0
  rlist := .val identityList
  freq := List.replicate 256 FreqEntry.zero
  codeLen := .val (List.replicate 256 0)
  code := .val (List.replicate 256 0)
  tree := .val none
  mem := []
  undet := ⟨0, 0, 0, 0, 0, 0⟩
  epoch := 0
  hostQueue := []
  hostReads := []

/-- The machine right after reset, with BLOCK_MAX at its default (R11, R58). -/
def State.reset : State := State.resetOf Config.default

end Sys2Proof.Machine
end

