-- ==== Sys2Proof/Machine/Bytes.lean ====
section
/-! DEFINITION. Sys2Proof/Machine/Bytes.lean: big-endian integers (R18), payload bits (R145), the bits of a CODE entry (R147), and the reading of a value that may be UNSPECIFIED (R23). -/

namespace Sys2Proof.Machine

/-- The value held, or the free draw where the place is UNSPECIFIED (R23). -/
def heldValue {α : Type} (draw : α) : Held α → α
  | .val v => v
  | .unspecified => draw

/-- All the values of a list, or none where one is missing. -/
def allSome {α : Type} : List (Option α) → Option (List α)
  | [] => some []
  | none :: _ => none
  | some x :: xs =>
    match allSome xs with
    | some ys => some (x :: ys)
    | none => none

/-- `be16 v` (R18). -/
def be16 (v : Nat) : List Byte := [BitVec.ofNat 8 (v / 256), BitVec.ofNat 8 v]

/-- `be32 v` (R18). -/
def be32 (v : Nat) : List Byte :=
  [BitVec.ofNat 8 (v / 16777216), BitVec.ofNat 8 (v / 65536), BitVec.ofNat 8 (v / 256), BitVec.ofNat 8 v]

/-- The value of a byte string read most significant byte first (R18). -/
def unbe (bytes : List Byte) : Nat := bytes.foldl (fun acc b => 256 * acc + b.toNat) 0

/-- The value of a bit string, first bit most significant. -/
def bitsToNat (bits : List Bool) : Nat := bits.foldl (fun acc b => 2 * acc + b.toNat) 0

/-- The 8 bits of a byte, most significant first: stream bit `8q + t` is bit `7 - t` of payload byte `q` (R145). -/
def byteBits (b : Byte) : List Bool := (List.range 8).map b.getMsbD

/-- The bits of a payload in stream order (R145). -/
def payloadBits (payload : List Byte) : List Bool := payload.flatMap byteBits

/-- `ceil(d / 8)`: the bytes that `d` bits take (R145). -/
def bytesForBits (d : Nat) : Nat := (d + 7) / 8

/-- The bytes of a bit string whose length is a multiple of 8: bit `7 - t` of byte `q` is bit `8q + t` (R145, R268). -/
def packBytes (bits : List Bool) : List Byte :=
  (List.range (bits.length / 8)).map fun q => BitVec.ofNat 8 (bitsToNat ((bits.drop (8 * q)).take 8))

/-- The CODE entry of a code: code bit `i` is the `i`-th bit from the most significant end, the rest are 0 (R147). -/
def packCode (bits : List Bool) : CodeWord := BitVec.ofNat 256 (bitsToNat bits * 2 ^ (256 - bits.length))

/-- The first `len` bits of a CODE entry, in root-to-leaf order (R147). -/
def codeBits (code : CodeWord) (len : Nat) : List Bool := (List.range len).map code.getMsbD

/-- Byte `j` of the 32 bytes of a CODE entry holds code bits `8j` to `8j + 7` (R85, R147). -/
def codeByte (code : CodeWord) (j : Nat) : Byte := BitVec.ofNat 8 (bitsToNat ((codeBits code (8 * j + 8)).drop (8 * j)))

/-- The entry that holds a 32-bit count, byte 0 its bits 31:24 (R85). -/
def freqEntryOf (v : Nat) : FreqEntry :=
  ⟨.val (BitVec.ofNat 8 (v / 16777216)), .val (BitVec.ofNat 8 (v / 65536)), .val (BitVec.ofNat 8 (v / 256)),
    .val (BitVec.ofNat 8 v)⟩

/-- An entry whose four bytes are UNSPECIFIED (R184). -/
def freqEntryUnspecified : FreqEntry := ⟨.unspecified, .unspecified, .unspecified, .unspecified⟩

/-- Byte `j` of an entry (R85). -/
def freqEntryByte (e : FreqEntry) (j : Nat) : Held Byte :=
  match j with
  | 0 => e.b0
  | 1 => e.b1
  | 2 => e.b2
  | _ => e.b3

/-- The entry with byte `j` replaced (R91). -/
def freqEntrySetByte (e : FreqEntry) (j : Nat) (b : Byte) : FreqEntry :=
  match j with
  | 0 => { e with b0 := .val b }
  | 1 => { e with b1 := .val b }
  | 2 => { e with b2 := .val b }
  | _ => { e with b3 := .val b }

/-- The number of bytes of an access (R86). -/
def widthBytes : Width → Nat
  | .w1 => 1
  | .w2 => 2
  | .w4 => 4

/-- Byte `j` of the value an access of `n` bytes carries, the first being the most significant (R89, R91). -/
def valueByte (v : Word) (n j : Nat) : Byte := v.extractLsb' (8 * (n - 1 - j)) 8

end Sys2Proof.Machine
end

