-- ==== Sys2Proof/Machine/Flags.lean ====
section
/-! DEFINITION. Sys2Proof/Machine/Flags.lean: the STATUS bits and the interrupt output: how each is set, cleared and read (R33, R35, R56, R57, R171, R174, R352, R360). -/

namespace Sys2Proof.Machine

/-- The interrupt output (R56, R360): a level, recomputed after every step, so it is a function of the state. -/
def State.irq (s : State) : Bool := (s.status.done && s.ctrl.doneIe) || (s.status.err && s.ctrl.errIe)

/-- The platform line the interrupt output drives, and its level (R360). -/
def State.irqOutput (s : State) : Nat × Bool := (s.cfg.irqLine, s.irq)

/-- The word a read of STATUS returns (R35). -/
def State.statusWord (s : State) : Word :=
  BitVec.ofNat 32 (s.status.busy.toNat + 2 * s.status.done.toNat + 4 * s.status.err.toNat + 8 * s.status.endOfStream.toNat
    + 16 * s.status.rej.toNat + 32 * s.status.busyViol.toNat + 64 * s.irq.toNat)

/-- The word a read of CTRL returns (R33): SRST and bits 31:3 read 0. -/
def State.ctrlWord (s : State) : Word := BitVec.ofNat 32 (2 * s.ctrl.doneIe.toNat + 4 * s.ctrl.errIe.toNat)

/-- The fields of CTRL that a written word stores (R33). -/
def ctrlOfWord (v : Word) : Ctrl := ⟨v.getLsbD 1, v.getLsbD 2⟩

/-- STATUS after a host write: writing 1 clears DONE, REJ and BUSY_VIOL; nothing else changes (R35). -/
def statusCleared (st : Status) (v : Word) : Status :=
  { st with
    done := st.done && !v.getLsbD 1
    rej := st.rej && !v.getLsbD 4
    busyViol := st.busyViol && !v.getLsbD 5 }

/-- STATUS after a dropped write during BUSY (R93). -/
def State.violated (s : State) : State := { s with status := { s.status with busyViol := true } }

/-- Acceptance of a command (R171). -/
def State.accepted (s : State) : State :=
  { s with status := { s.status with busy := true, done := false, endOfStream := false } }

/-- Rejection of a command (R171). -/
def State.rejected (s : State) : State := { s with status := { s.status with rej := true } }

/-- Completion on `finish` (R174). -/
def State.finished (s : State) : State := { s with status := { s.status with busy := false, done := true } }

/-- Completion on `raise Error(e)`, with the error latched and the recorded offset (R174, R352). -/
def State.latched (s : State) (e : ErrorKind) (offset : Word) : State :=
  { s with
    status := { s.status with busy := false, done := true, err := true }
    errCode := some e
    errOffset := offset }

/-- The code of an error kind (R340). -/
def errorNumber : ErrorKind → Nat
  | .truncatedFrame => 1
  | .inconsistentFreqTable => 2
  | .invalidRotationIndex => 3
  | .paddingOutOfRange => 4
  | .malformedRunToken => 5
  | .lengthOutOfRange => 6
  | .outputOverflow => 7
  | .frameTooLarge => 8
  | .symbolNotInCode => 9
  | .invalidColumn => 10
  | .illegalCommand => 11

/-- The word a read of ERR_CODE returns: 0 (NONE) when no error is latched (R38, R340). -/
def State.errCodeWord (s : State) : Word :=
  match s.errCode with
  | none => 0
  | some e => BitVec.ofNat 32 (errorNumber e)

end Sys2Proof.Machine
end

