-- ==== Sys2Proof/Machine/Memory.lean ====
section
/-! DEFINITION. Sys2Proof/Machine/Memory.lean: the capacities (R12, R50), the buffers' places in the window (R82), and the byte storage of the buffers as one list in canonical form. -/

namespace Sys2Proof.Machine

/-- TOKEN_MAX (R12). -/
def tokenMax (c : Config) : Nat := 2 * c.blockMax

/-- PAYLOAD_MAX (R12). -/
def payloadMax (c : Config) : Nat := 2 * c.blockMax

/-- FRAME_MAX (R12). -/
def frameMax (c : Config) : Nat := 1291 + 2 * c.blockMax

/-- The capacity of a buffer (R50). -/
def bufCapacity (c : Config) : Buf → Nat
  | .a | .c | .r => c.blockMax
  | .t => tokenMax c
  | .p => payloadMax c
  | .f => frameMax c

/-- The window offset of a buffer's byte 0 (R82). -/
def bufBase : Buf → Nat
  | .a => 0x20000
  | .c => 0x40000
  | .r => 0x60000
  | .t => 0x80000
  | .p => 0xA0000
  | .f => 0xC0000

/-- The value listed for an offset, if there is one. -/
def memGet (m : Memory) (a : Nat) : Option Byte :=
  match m with
  | [] => none
  | (k, b) :: rest => if k = a then some b else memGet rest a

/-- The memory with one byte written; the offsets stay strictly rising. -/
def memSet (m : Memory) (a : Nat) (b : Byte) : Memory :=
  match m with
  | [] => [(a, b)]
  | (k, c) :: rest =>
    if a < k then (a, b) :: (k, c) :: rest
    else if a = k then (a, b) :: rest
    else (k, c) :: memSet rest a b

/-- The memory with consecutive bytes written from offset `a` on. -/
def memWriteBytes (m : Memory) (a : Nat) : List Byte → Memory
  | [] => m
  | b :: bs => memWriteBytes (memSet m a b) (a + 1) bs

/-- `BUF_X[0..|bytes|) <- bytes` on the storage (R20). -/
def memWriteBuf (m : Memory) (b : Buf) (bytes : List Byte) : Memory := memWriteBytes m (bufBase b) bytes

/-- The memory without the bytes at offsets `lo` to `hi - 1`. -/
def memErase (m : Memory) (lo hi : Nat) : Memory := m.filter fun cell => cell.1 < lo || hi ≤ cell.1

/-- An offset of a buffer byte: inside some buffer's capacity (R84). -/
def inSomeBuffer (c : Config) (a : Nat) : Bool :=
  [Buf.a, .c, .r, .t, .p, .f].any fun b => bufBase b ≤ a && a < bufBase b + bufCapacity c b

/-- The offsets of a memory are strictly rising. -/
def strictlyRising : Memory → Bool
  | [] => true
  | [_] => true
  | (k, _) :: (k', b) :: rest => k < k' && strictlyRising ((k', b) :: rest)

/-- The canonical form: offsets strictly rising, each that of a buffer byte. An unlisted byte reads as no value, so no entry
can equal what an unlisted offset reads as. -/
def Memory.wf (c : Config) (m : Memory) : Bool := strictlyRising m && m.all fun cell => inSomeBuffer c cell.1

end Sys2Proof.Machine
end

