-- ==== Sys2Proof/Machine/Operands.lean ====
section
/-! DEFINITION. Sys2Proof/Machine/Operands.lean: the operand binding of R124, which takes the place of operand fields: the registers, tables and buffer ranges a command reads. -/

namespace Sys2Proof.Machine

/-- The offsets of the operand and result registers that may be UNSPECIFIED (R40 to R44, R51, R52): they name the free draw. -/
def blkLenOffset : Nat := 0x02C
def rotIdxOffset : Nat := 0x030
def tokLenOffset : Nat := 0x034
def payLenOffset : Nat := 0x038
def padCntOffset : Nat := 0x03C
def freqCountOffset : Nat := 0x040
def frameLenOffset : Nat := 0x044

/-- BLK_LEN as read in this step (R40). -/
def State.blkLenValue (s : State) : Word := heldValue (Config.freeWord s.epoch blkLenOffset) s.blkLen

/-- ROT_IDX as read in this step (R41). -/
def State.rotIdxValue (s : State) : Word := heldValue (Config.freeWord s.epoch rotIdxOffset) s.rotIdx

/-- TOK_LEN as read in this step (R42). -/
def State.tokLenValue (s : State) : Word := heldValue (Config.freeWord s.epoch tokLenOffset) s.tokLen

/-- PAY_LEN as read in this step (R43). -/
def State.payLenValue (s : State) : Word := heldValue (Config.freeWord s.epoch payLenOffset) s.payLen

/-- PAD_CNT bits 7:0 as read in this step (R44, R125). -/
def State.padCntValue (s : State) : Byte := heldValue (Config.freeByte s.epoch padCntOffset) s.padCnt

/-- FREQ_COUNT as read in this step (R51). -/
def State.freqCountValue (s : State) : Word := heldValue (Config.freeWord s.epoch freqCountOffset) s.freqCount

/-- FRAME_LEN as read in this step (R52). -/
def State.frameLenValue (s : State) : Word := heldValue (Config.freeWord s.epoch frameLenOffset) s.frameLen

/-- The window offset of RLIST[i] (R82). -/
def rlistOffset (i : Nat) : Nat := 0x01000 + i

/-- The window offset of byte `j` of FREQ[s] (R82). -/
def freqOffset (sym j : Nat) : Nat := 0x02000 + 4 * sym + j

/-- The window offset of CODELEN[s] (R82). -/
def codeLenOffset (sym : Nat) : Nat := 0x03000 + sym

/-- The value at an index of a table that may be UNSPECIFIED, and the free draw there. -/
def tableAt {α : Type} (default : α) (draw : Nat → α) (table : Held (List α)) (i : Nat) : α :=
  match table with
  | .val xs => xs.getD i default
  | .unspecified => draw i

/-- RLIST[i] as read in this step (R45). -/
def State.rlistAt (s : State) (i : Nat) : Byte :=
  tableAt 0 (fun i => Config.freeByte s.epoch (rlistOffset i)) s.rlist i

/-- CODELEN[s] as read in this step (R47). -/
def State.codeLenAt (s : State) (sym : Nat) : Byte :=
  tableAt 0 (fun i => Config.freeByte s.epoch (codeLenOffset i)) s.codeLen sym

/-- CODE[s] as read in this step (R48). -/
def State.codeAt (s : State) (sym : Nat) : CodeWord := tableAt 0 (Config.freeCode s.epoch) s.code sym

/-- TREE as read in this step (R49). -/
def State.treeValue (s : State) : Option CodeTree := heldValue (Config.freeTree s.epoch) s.tree

/-- Byte `j` of FREQ[sym] as read in this step (R85). -/
def State.freqByteAt (s : State) (sym j : Nat) : Byte :=
  heldValue (Config.freeByte s.epoch (freqOffset sym j)) (freqEntryByte (s.freq.getD sym FreqEntry.zero) j)

/-- FREQ[sym] as read in this step (R46, R85). -/
def State.freqAt (s : State) (sym : Nat) : Nat :=
  unbe [s.freqByteAt sym 0, s.freqByteAt sym 1, s.freqByteAt sym 2, s.freqByteAt sym 3]

/-- The 256 counts of FREQ as read in this step (R46). -/
def State.freqTable (s : State) : List Nat := (List.range 256).map s.freqAt

/-- How many of a buffer's first bytes are UNSPECIFIED where unlisted. -/
def undetOf (u : Undetermined) : Buf → Nat
  | .a => u.a
  | .c => u.c
  | .r => u.r
  | .t => u.t
  | .p => u.p
  | .f => u.f

/-- What one buffer byte holds (R23, R59): a value, UNSPECIFIED, or NO VALUE (`none`). The one definition of what a byte
that memory does not list reads as. -/
def State.cell (s : State) (b : Buf) (i : Nat) : Option (Held Byte) :=
  match memGet s.mem (bufBase b + i) with
  | some v => some (.val v)
  | none => if i < undetOf s.undet b then some .unspecified else none

/-- Buffer byte `i` as a command reads it in this step: none where it has NO VALUE (R106). -/
def State.bufByte (s : State) (b : Buf) (i : Nat) : Option Byte :=
  (s.cell b i).map (heldValue (Config.freeByte s.epoch (bufBase b + i)))

/-- The bytes 0 to n - 1 of a buffer as a command reads them one by one (R96). -/
def State.bufWindow (s : State) (b : Buf) (n : Nat) : List (Option Byte) := (List.range n).map (s.bufByte b)

/-- The bytes 0 to n - 1 of a buffer read as a command's input (R20): none where one of them has NO VALUE (R106). -/
def State.readBuf (s : State) (b : Buf) (n : Nat) : Option (List Byte) := allSome (s.bufWindow b n)

end Sys2Proof.Machine
end

