-- ==== Sys2Proof/Machine/Ops.lean ====
section
/-! DEFINITION. Sys2Proof/Machine/Ops.lean: the shared operations of the commands: writing outputs (R105), the output sets (R124), raising an error (R174, R184, R352, R353) and the way back from one (R180, R354). -/

namespace Sys2Proof.Machine

/-- The outcome of a step. -/
abbrev Result := Host.Outcome State Fault Refusal

/-- `BUF_X[0..|bytes|) <- bytes` (R20, R105). -/
def State.writeBuf (s : State) (b : Buf) (bytes : List Byte) : State :=
  { s with mem := memWriteBuf s.mem b bytes }

/-- All 256 entries of FREQ written (R261, R312). -/
def State.writeFreq (s : State) (counts : List Nat) : State := { s with freq := counts.map freqEntryOf }

/-- A piece of a command's output set (R124); for a buffer, its first `n` bytes. -/
inductive Output where
  | rotIdx
  | blkLen
  | tokLen
  | payLen
  | padCnt
  | freqCount
  | frameLen
  | rlist
  | freq
  | codeLen
  | code
  | tree
  | buf (b : Buf) (n : Nat)
deriving DecidableEq, Repr

/-- The mark for a buffer's first `n` bytes. -/
def undetExtend (u : Undetermined) (b : Buf) (n : Nat) : Undetermined :=
  match b with
  | .a => { u with a := max u.a n }
  | .c => { u with c := max u.c n }
  | .r => { u with r := max u.r n }
  | .t => { u with t := max u.t n }
  | .p => { u with p := max u.p n }
  | .f => { u with f := max u.f n }

/-- One piece of an output set made UNSPECIFIED (R184). -/
def State.spoil (s : State) : Output → State
  | .rotIdx => { s with rotIdx := .unspecified }
  | .blkLen => { s with blkLen := .unspecified }
  | .tokLen => { s with tokLen := .unspecified }
  | .payLen => { s with payLen := .unspecified }
  | .padCnt => { s with padCnt := .unspecified }
  | .freqCount => { s with freqCount := .unspecified }
  | .frameLen => { s with frameLen := .unspecified }
  | .rlist => { s with rlist := .unspecified }
  | .freq => { s with freq := List.replicate 256 freqEntryUnspecified }
  | .codeLen => { s with codeLen := .unspecified }
  | .code => { s with code := .unspecified }
  | .tree => { s with tree := .unspecified }
  | .buf b n =>
    { s with mem := memErase s.mem (bufBase b) (bufBase b + n), undet := undetExtend s.undet b n }

/-- A whole output set made UNSPECIFIED (R184). -/
def State.spoilAll (s : State) (outs : List Output) : State := outs.foldl State.spoil s

/-- The first bytes of a buffer that an operand length names, at most its capacity. -/
def prefixOf (s : State) (b : Buf) (n : Word) : Output := .buf b (min n.toNat (bufCapacity s.cfg b))

/-- A whole buffer. -/
def wholeOf (s : State) (b : Buf) : Output := .buf b (bufCapacity s.cfg b)

/-- The lengths that bound the buffer ranges of R124 and R322 and that a failing command had computed when it raised: |payload| once
FrameDes has returned, |T| once ECunpack has, |S| once RLCdec has. None where the stage that computes the length did not succeed. -/
structure Computed where
  payload : Option Nat
  tokens : Option Nat
  block : Option Nat
deriving DecidableEq, Repr

/-- No length was computed. -/
def Computed.nothing : Computed := ⟨none, none, none⟩

/-- The range of a buffer that a computed length bounds; the whole buffer where the length was not computed (log entry 5). -/
def rangeOf (s : State) (b : Buf) : Option Nat → Output
  | some n => .buf b (min n (bufCapacity s.cfg b))
  | none => wholeOf s b

/-- The output set of a command that fails in state `s` (R124), less STREAM_OFFSET and STATUS.END, which keep their values
(R184). The ranges of DECOMPRESS_FRAME are those of its stages (R322): a range is bounded by its length where `known` has it. Where
R124 gives a range by a length that was never computed, the whole buffer (log entry 5). -/
def outputSet (s : State) (known : Computed) : Instr → List Output
  | .nop => []
  | .rtFwd => [prefixOf s .c s.blkLenValue, .rotIdx]
  | .rtInv => [prefixOf s .a s.blkLenValue]
  | .rrtEnc => [prefixOf s .r s.blkLenValue, .rlist]
  | .rrtDec => [prefixOf s .c s.blkLenValue, .rlist]
  | .rlcEnc => [wholeOf s .t, .tokLen]
  | .rlcDec => [wholeOf s .r, .blkLen]
  | .ecCount => [.freq, .freqCount]
  | .ecBuild => [.tree, .codeLen, .code, .freqCount]
  | .ecPack => [wholeOf s .p, .payLen, .padCnt]
  | .ecUnpack => [wholeOf s .t, .tokLen]
  | .frameSer => [wholeOf s .f, .frameLen]
  | .frameDes => [.rotIdx, .padCnt, .freq, .freqCount, .payLen, wholeOf s .p, .frameLen]
  | .compressBlock =>
    [prefixOf s .c s.blkLenValue, .rotIdx, prefixOf s .r s.blkLenValue, .rlist, wholeOf s .t, .tokLen, .freq, .freqCount,
      .tree, .codeLen, .code, wholeOf s .p, .payLen, .padCnt, wholeOf s .f, .frameLen]
  | .decompressFrame =>
    [.rotIdx, .padCnt, .freq, .freqCount, .payLen, rangeOf s .p known.payload, .frameLen, .tree, .codeLen, .code,
      rangeOf s .t known.tokens, .tokLen, rangeOf s .r known.block, .blkLen, .rlist, rangeOf s .c known.block,
      rangeOf s .a known.block]
  | .streamReset => []
  | .clearError => []

/-- The offset recorded with an error (R353): STREAM_OFFSET for the two commands that read frames, else 0. -/
def errorOffset (s : State) : Instr → Word
  | .frameDes | .decompressFrame => s.streamOffset
  | .nop | .rtFwd | .rtInv | .rrtEnc | .rrtDec | .rlcEnc | .rlcDec | .ecCount | .ecBuild | .ecPack | .ecUnpack | .frameSer
  | .compressBlock | .streamReset | .clearError => 0

/-- Raising an error, the block's only exception (R350): the output set becomes UNSPECIFIED (R184), the error is latched with
its offset (R352, R353), and the command completes (R174). -/
def raiseError (outs : List Output) (offset : Word) (e : ErrorKind) (s : State) : Result :=
  .next ((s.spoilAll outs).latched e offset)

/-- `raise Error(e)` in command `i` (R22) after the lengths `known` were computed. -/
def raiseKnowing (known : Computed) (i : Instr) (e : ErrorKind) (s : State) : Result :=
  raiseError (outputSet s known i) (errorOffset s i) e s

/-- `raise Error(e)` in command `i` (R22) before any length of its output ranges was computed. -/
def raiseIn (i : Instr) (e : ErrorKind) (s : State) : Result := raiseKnowing .nothing i e s

/-- The way back from an error (R180, R354): ERR, REJ, ERR_CODE and ERR_OFFSET are cleared, nothing else is restored. -/
def State.errorCleared (s : State) : State :=
  { s with status := { s.status with err := false, rej := false }, errCode := none, errOffset := 0 }

end Sys2Proof.Machine
end

