-- ==== Sys2Proof/Machine/Control.lean ====
section
/-! DEFINITION. Sys2Proof/Machine/Control.lean: the control commands NOP, STREAM_RESET and CLEAR_ERROR (R178 to R180) and the illegal command word (R181). -/

namespace Sys2Proof.Machine

/-- NOP (R178). -/
def execNop (s : State) : Result := .next s.finished

/-- STREAM_RESET (R179). -/
def execStreamReset (s : State) : Result := .next (State.finished { s with streamOffset := 0 })

/-- CLEAR_ERROR (R180). -/
def execClearError (s : State) : Result := .next s.errorCleared.finished

/-- An illegal command word (R181): ILLEGAL_COMMAND with offset 0 and an empty output set. -/
def execIllegal (s : State) : Result := raiseError [] 0 .illegalCommand s

end Sys2Proof.Machine
end

