-- ==== Sys2Proof/Machine/Ec.lean ====
section
/-! DEFINITION. Sys2Proof/Machine/Ec.lean: the Entropy Coder (R260 to R272) and its commands EC_COUNT, EC_BUILD, EC_PACK and EC_UNPACK. -/

namespace Sys2Proof.Machine

/-- `hist(T)`: how often each byte value occurs (R260). -/
def hist (T : List Byte) : List Nat := (List.range 256).map fun sym => T.count (BitVec.ofNat 8 sym)

/-- `card(F)`: how many counts are not 0 (R260). -/
def card (F : List Nat) : Nat := F.countP (· ≠ 0)

/-- The freq of a node (R49, R263). -/
def treeFreq : CodeTree → Nat
  | .leaf _ freq _ => freq
  | .node _ _ freq _ => freq

/-- The creation number of a node (R263). -/
def treeSeq : CodeTree → Nat
  | .leaf _ _ seq => seq
  | .node _ _ _ seq => seq

/-- Keys (freq, seq) compare first by freq, then by seq (R264). -/
def keyLt (t u : CodeTree) : Bool := treeFreq t < treeFreq u || (treeFreq t == treeFreq u && treeSeq t < treeSeq u)

/-- The leaves of the counts of symbols `sym`, `sym + 1`, …, numbered from `seq` on (R263). -/
def leavesFrom (sym seq : Nat) : List Nat → List CodeTree
  | [] => []
  | f :: fs =>
    if f = 0 then leavesFrom (sym + 1) seq fs
    else .leaf (BitVec.ofNat 8 sym) f seq :: leavesFrom (sym + 1) (seq + 1) fs

/-- A root put into `Q`, which is kept in key order. -/
def enqueue (t : CodeTree) : List CodeTree → List CodeTree
  | [] => [t]
  | u :: us => if keyLt t u then t :: u :: us else u :: enqueue t us

/-- The merging of roots (R264): the two with the least keys become the left and the right child of a new node numbered
`next`, until one root is left. `fuel` bounds the merges: one fewer than the roots are needed. -/
def mergeRoots : Nat → Nat → List CodeTree → Option CodeTree
  | _, _, [] => none
  | _, _, [t] => some t
  | 0, _, t :: _ :: _ => some t
  | fuel + 1, next, t :: u :: rest =>
    mergeRoots fuel (next + 1) (enqueue (.node t u (treeFreq t + treeFreq u) next) rest)

/-- The tree of a table of counts (R263, R264, R266); `none` is the empty tree. -/
def buildTree (F : List Nat) : Option CodeTree :=
  let leaves := leavesFrom 0 0 F
  mergeRoots leaves.length leaves.length (leaves.foldr enqueue [])

/-- The leaf symbols of a tree with the branch bits of their paths from its root: 0 to the left, 1 to the right (R265). -/
def treePaths : CodeTree → List (Byte × List Bool)
  | .leaf sym _ _ => [(sym, [])]
  | .node l r _ _ =>
    (treePaths l).map (fun p => (p.1, false :: p.2)) ++ (treePaths r).map (fun p => (p.1, true :: p.2))

/-- The codes of a tree (R265, R266): a single leaf has the 1-bit code `0`. -/
def treeCodes : Option CodeTree → List (Byte × List Bool)
  | none => []
  | some (.leaf sym _ _) => [(sym, [false])]
  | some (.node l r freq seq) => treePaths (.node l r freq seq)

/-- The code of a symbol in a list of codes; a symbol with no leaf has none (R265, R266). -/
def codeIn (codes : List (Byte × List Bool)) (sym : Nat) : List Bool := (codes.lookup (BitVec.ofNat 8 sym)).getD []

/-- CODELEN of a tree (R267). A symbol has a leaf exactly when its count is not 0 (R263). -/
def codeLengths (tree : Option CodeTree) : List Byte :=
  let codes := treeCodes tree
  (List.range 256).map fun sym => BitVec.ofNat 8 (codeIn codes sym).length

/-- CODE of a tree (R267, R147). -/
def codeWords (tree : Option CodeTree) : List CodeWord :=
  let codes := treeCodes tree
  (List.range 256).map fun sym => packCode (codeIn codes sym)

/-- TREE, CODELEN, CODE and FREQ_COUNT written from a table of counts (R267). -/
def State.buildCodes (s : State) (F : List Nat) : State :=
  { s with
    tree := .val (buildTree F)
    codeLen := .val (codeLengths (buildTree F))
    code := .val (codeWords (buildTree F))
    freqCount := .val (BitVec.ofNat 32 (card F)) }

/-- The data bits of a token stream, with the bits so far; the first token that fails decides the error (R268). `code` gives a
byte's code bits, empty where its CODELEN is 0. -/
def packBits (code : Byte → List Bool) (maxBytes : Nat) (bits : List Bool) : List Byte → Except ErrorKind (List Bool)
  | [] => .ok bits
  | b :: bs =>
    if (code b).length = 0 then .error .symbolNotInCode
    else if maxBytes < bytesForBits (bits.length + (code b).length) then .error .outputOverflow
    else packBits code maxBytes (bits ++ code b) bs

/-- The payload of data bits and its pad count, the pad bits 0 (R146, R268). -/
def padBits (bits : List Bool) : List Byte × Nat :=
  let pad := 8 * bytesForBits bits.length - bits.length
  (packBytes (bits ++ List.replicate pad false), pad)

/-- `ECpack(T)` (R268): the payload and the pad count. -/
def ecPack (code : Byte → List Bool) (maxBytes : Nat) (T : List Byte) : Except ErrorKind (List Byte × Nat) :=
  match packBits code maxBytes [] T with
  | .error e => .error e
  | .ok bits => .ok (padBits bits)

/-- The outputs of the packer written (R269). -/
def State.writePayload (s : State) (payload : List Byte) (pad : Nat) : State :=
  { s with
    mem := memWriteBuf s.mem .p payload
    payLen := .val (BitVec.ofNat 32 payload.length)
    padCnt := .val (BitVec.ofNat 8 pad) }

/-- The code bits that CODELEN and CODE give a byte, as they stand (R268, R393). -/
def State.codeOf (s : State) (b : Byte) : List Bool := codeBits (s.codeAt b.toNat) (s.codeLenAt b.toNat).toNat

/-- The decoding of data bits under a single leaf: each bit must be 0 (R270). -/
def unpackLeaf (sym : Byte) (lim : Nat) (out : List Byte) : List Bool → Except ErrorKind (List Byte)
  | [] => .ok out
  | bit :: bits =>
    if bit then .error .inconsistentFreqTable
    else if lim < out.length + 1 then .error .outputOverflow
    else unpackLeaf sym lim (out ++ [sym]) bits

/-- The walk of a tree bit by bit from node `here`, back to the root on each emitted symbol (R270). -/
def unpackTree (root : CodeTree) (lim : Nat) (here : CodeTree) (out : List Byte) :
    List Bool → Except ErrorKind (List Byte)
  | [] => if here = root then .ok out else .error .inconsistentFreqTable
  | bit :: bits =>
    match here with
    | .leaf _ _ _ => .error .inconsistentFreqTable
    | .node l r _ _ =>
      match (if bit then r else l) with
      | .leaf sym _ _ =>
        if lim < out.length + 1 then .error .outputOverflow else unpackTree root lim root (out ++ [sym]) bits
      | .node l' r' freq seq => unpackTree root lim (.node l' r' freq seq) out bits

/-- The symbols that data bits decode to under a tree (R270). -/
def unpackBits (tree : Option CodeTree) (lim : Nat) (bits : List Bool) : Except ErrorKind (List Byte) :=
  match tree with
  | none => if bits.length = 0 then .ok [] else .error .inconsistentFreqTable
  | some (.leaf sym _ _) => unpackLeaf sym lim [] bits
  | some (.node l r freq seq) => unpackTree (.node l r freq seq) lim (.node l r freq seq) [] bits

/-- `ECunpack(payload, pad)` (R270), with TREE, the counts of FREQ and TOKEN_MAX. -/
def ecUnpack (tree : Option CodeTree) (F : List Nat) (lim : Nat) (payload : List Byte) (pad : Nat) :
    Except ErrorKind (List Byte) :=
  if 8 ≤ pad ∨ (payload.length = 0 ∧ pad ≠ 0) then .error .paddingOutOfRange
  else
    match unpackBits tree lim ((payloadBits payload).take (8 * payload.length - pad)) with
    | .error e => .error e
    | .ok out => if hist out = F then .ok out else .error .inconsistentFreqTable

/-- EC_COUNT (R261). -/
def execEcCount (s : State) : Result :=
  let m := s.tokLenValue.toNat
  if tokenMax s.cfg < m then raiseIn .ecCount .lengthOutOfRange s
  else
    match s.readBuf .t m with
    | none => .fault (.noValueRead .t)
    | some T =>
      .next (State.finished { s.writeFreq (hist T) with freqCount := .val (BitVec.ofNat 32 (card (hist T))) })

/-- EC_BUILD (R267). -/
def execEcBuild (s : State) : Result := .next (s.buildCodes s.freqTable).finished

/-- EC_PACK (R269). -/
def execEcPack (s : State) : Result :=
  let m := s.tokLenValue.toNat
  if tokenMax s.cfg < m then raiseIn .ecPack .lengthOutOfRange s
  else
    match s.readBuf .t m with
    | none => .fault (.noValueRead .t)
    | some T =>
      match ecPack s.codeOf (payloadMax s.cfg) T with
      | .error e => raiseIn .ecPack e s
      | .ok (payload, pad) =>
        .next (s.writePayload payload pad).finished

/-- EC_UNPACK (R271). -/
def execEcUnpack (s : State) : Result :=
  let P := s.payLenValue.toNat
  if payloadMax s.cfg < P then raiseIn .ecUnpack .lengthOutOfRange s
  else
    match s.readBuf .p P with
    | none => .fault (.noValueRead .p)
    | some payload =>
      match ecUnpack s.treeValue s.freqTable (tokenMax s.cfg) payload s.padCntValue.toNat with
      | .error e => raiseIn .ecUnpack e s
      | .ok T => .next (State.finished { s.writeBuf .t T with tokLen := .val (BitVec.ofNat 32 T.length) })

end Sys2Proof.Machine
end

