-- ==== Sys2Proof/Machine/Rlc.lean ====
section
/-! DEFINITION. Sys2Proof/Machine/Rlc.lean: the Run-Length Codec (R140 to R143, R240 to R246) and its commands RLC_ENC and RLC_DEC. -/

namespace Sys2Proof.Machine

/-- The bytes of a token (R140). -/
def tokenBytes : Token → List Byte
  | .literal b => [0x00, b]
  | .run b c => [0x01, b, c]

/-- The token of a chunk of `count` equal bytes, 1 ≤ count ≤ 255 (R240). -/
def chunkToken (b : Byte) (count : Nat) : Token := if count = 1 then .literal b else .run b (BitVec.ofNat 8 count)

/-- The tokens of a chunk of `count` bytes `b` read so far and the bytes after it: a chunk grows while the byte repeats, up to
255 (R241). -/
def tokensFrom (b : Byte) (count : Nat) : List Byte → List Token
  | [] => [chunkToken b count]
  | x :: xs =>
    if x = b ∧ count < 255 then tokensFrom b (count + 1) xs
    else chunkToken b count :: tokensFrom x 1 xs

/-- The tokens of a byte sequence (R240, R241). -/
def tokensOf : List Byte → List Token
  | [] => []
  | x :: xs => tokensFrom x 1 xs

/-- `RLCenc(S)` (R241). -/
def rlcEnc (S : List Byte) : List Byte := (tokensOf S).flatMap tokenBytes

/-- The decoder with the output so far: each token is checked in full before its bytes are counted against the limit (R243). -/
def rlcDecFrom (lim : Nat) (out : List Byte) : List Byte → Except ErrorKind (List Byte)
  | [] => .ok out
  | [_] => .error .malformedRunToken
  | t :: b :: rest =>
    if t = 0x00 then
      if lim < out.length + 1 then .error .outputOverflow else rlcDecFrom lim (out ++ [b]) rest
    else if t = 0x01 then
      match rest with
      | [] => .error .malformedRunToken
      | c :: rest' =>
        if c.toNat < 2 then .error .malformedRunToken
        else if lim < out.length + c.toNat then .error .outputOverflow
        else rlcDecFrom lim (out ++ List.replicate c.toNat b) rest'
    else .error .malformedRunToken

/-- `RLCdec(T, lim)` (R243). -/
def rlcDec (T : List Byte) (lim : Nat) : Except ErrorKind (List Byte) := rlcDecFrom lim [] T

/-- RLC_ENC (R242). -/
def execRlcEnc (s : State) : Result :=
  let n := s.blkLenValue.toNat
  if s.cfg.blockMax < n then raiseIn .rlcEnc .lengthOutOfRange s
  else
    match s.readBuf .r n with
    | none => .fault (.noValueRead .r)
    | some S =>
      .next (State.finished { s.writeBuf .t (rlcEnc S) with tokLen := .val (BitVec.ofNat 32 (rlcEnc S).length) })

/-- RLC_DEC (R244). -/
def execRlcDec (s : State) : Result :=
  let m := s.tokLenValue.toNat
  if tokenMax s.cfg < m then raiseIn .rlcDec .lengthOutOfRange s
  else
    match s.readBuf .t m with
    | none => .fault (.noValueRead .t)
    | some T =>
      match rlcDec T s.cfg.blockMax with
      | .error e => raiseIn .rlcDec e s
      | .ok S => .next (State.finished { s.writeBuf .r S with blkLen := .val (BitVec.ofNat 32 S.length) })

end Sys2Proof.Machine
end

