-- ==== Sys2Proof/Machine/Rrt.lean ====
section
/-! DEFINITION. Sys2Proof/Machine/Rrt.lean: the Recency-Rank Transform (R220 to R227) and its commands RRT_ENC and RRT_DEC. -/

namespace Sys2Proof.Machine

/-- `mtf_move(r)` (R221): entry `r` comes to the front, the entries before it shift back by one. -/
def mtfMove (list : List Byte) (r : Nat) : List Byte := list.getD r 0 :: list.eraseIdx r

/-- The ranks of a byte sequence from a given recency list, and the list's final order (R222). -/
def mtfEncFrom (list : List Byte) : List Byte → List Byte × List Byte
  | [] => ([], list)
  | x :: xs =>
    let r := list.idxOf x
    let (ranks, final) := mtfEncFrom (mtfMove list r) xs
    (BitVec.ofNat 8 r :: ranks, final)

/-- `MTFenc(S)` (R222), from the identity (R220): the ranks, and RLIST's final order. -/
def mtfEnc (S : List Byte) : List Byte × List Byte := mtfEncFrom identityList S

/-- The bytes of a rank sequence from a given recency list, and the list's final order (R224). -/
def mtfDecFrom (list : List Byte) : List Byte → List Byte × List Byte
  | [] => ([], list)
  | r :: rs =>
    let (bytes, final) := mtfDecFrom (mtfMove list r.toNat) rs
    (list.getD r.toNat 0 :: bytes, final)

/-- `MTFdec(R)` (R224), from the identity (R220): the bytes, and RLIST's final order. -/
def mtfDec (R : List Byte) : List Byte × List Byte := mtfDecFrom identityList R

/-- RRT_ENC (R223). -/
def execRrtEnc (s : State) : Result :=
  let n := s.blkLenValue.toNat
  if s.cfg.blockMax < n then raiseIn .rrtEnc .lengthOutOfRange s
  else
    match s.readBuf .c n with
    | none => .fault (.noValueRead .c)
    | some S => .next (State.finished { s.writeBuf .r (mtfEnc S).1 with rlist := .val (mtfEnc S).2 })

/-- RRT_DEC (R225). -/
def execRrtDec (s : State) : Result :=
  let n := s.blkLenValue.toNat
  if s.cfg.blockMax < n then raiseIn .rrtDec .lengthOutOfRange s
  else
    match s.readBuf .r n with
    | none => .fault (.noValueRead .r)
    | some R => .next (State.finished { s.writeBuf .c (mtfDec R).1 with rlist := .val (mtfDec R).2 })

end Sys2Proof.Machine
end

