-- ==== Sys2Proof/Machine/Rt.lean ====
section
/-! DEFINITION. Sys2Proof/Machine/Rt.lean: the Reordering Transform (R200 to R209) and its commands RT_FWD and RT_INV. -/

namespace Sys2Proof.Machine

/-- The extended symbol type of RT: the virtual sentinel or a byte (R19). -/
inductive Sym where
  | sentinel
  | byte (b : Byte)
deriving DecidableEq, Repr

/-- The place of a symbol in the order `$ < 0 < 1 < … < 255` (R19, R200). -/
def Sym.rank : Sym → Nat
  | .sentinel => 0
  | .byte b => b.toNat + 1

/-- The byte of a symbol that is not the sentinel. -/
def Sym.toByte? : Sym → Option Byte
  | .sentinel => none
  | .byte b => some b

/-- Lexicographic order on symbol sequences (R19). -/
def lexLt : List Sym → List Sym → Bool
  | [], [] => false
  | [], _ :: _ => true
  | _ :: _, [] => false
  | x :: xs, y :: ys => if x = y then lexLt xs ys else x.rank < y.rank

/-- Insertion into a sorted list, after everything strictly below. -/
def insertSorted {α : Type} (lt : α → α → Bool) (x : α) : List α → List α
  | [] => [x]
  | y :: ys => if lt y x then y :: insertSorted lt x ys else x :: y :: ys

/-- A list sorted by a strict order. -/
def sortList {α : Type} (lt : α → α → Bool) (xs : List α) : List α := xs.foldr (insertSorted lt) []

/-- `rot(i) = X[i..n+1) ++ X[0..i)` (R201). -/
def rotation (X : List Sym) (i : Nat) : List Sym := X.drop i ++ X.take i

/-- The block with the sentinel appended, `X = B ++ [$]` (R201). -/
def withSentinel (B : List Byte) : List Sym := B.map Sym.byte ++ [Sym.sentinel]

/-- `SA`: the positions in the order of their rotations (R201). All rotations differ, so the order in which they are inserted
does not matter. -/
def sortedRotations (X : List Sym) : List Nat :=
  (sortList (fun p q => lexLt p.2 q.2) ((List.range X.length).reverse.map fun i => (i, rotation X i))).map Prod.fst

/-- The last symbol of each sorted rotation, `L` (R201). -/
def lastColumn (X : List Sym) (SA : List Nat) : List Sym :=
  SA.map fun r => X.getD ((r + (X.length - 1)) % X.length) .sentinel

/-- The forward function `RT(B) = (C, I)` (R201): the last column without its sentinel entry, and the rank of `B ++ [$]`. -/
def rt (B : List Byte) : List Byte × Nat :=
  let X := withSentinel B
  let SA := sortedRotations X
  let I := SA.idxOf 0
  (((lastColumn X SA).eraseIdx I).filterMap Sym.toByte?, I)

/-- `L` of the inverse: the column with the sentinel put back at `I` (R205). -/
def columnWithSentinel (C : List Byte) (I : Nat) : List Sym :=
  (C.take I).map Sym.byte ++ [Sym.sentinel] ++ (C.drop I).map Sym.byte

/-- `T`: the positions sorted by (symbol, position), the successor mapping (R205). -/
def successors (L : List Sym) : List Nat :=
  (sortList (fun p q => p.1.rank < q.1.rank || (p.1.rank == q.1.rank && p.2 < q.2)) L.zipIdx).map Prod.snd

/-- The walk along the successor mapping (R205): one byte of the first column a step; row 0 reached too early is
INVALID_COLUMN. `F[p]` is a byte whenever `p` is not 0. -/
def walkRows (L : List Sym) (T : List Nat) : Nat → Nat → Except ErrorKind (List Byte)
  | 0, _ => .ok []
  | k + 1, p =>
    if p = 0 then .error .invalidColumn
    else
      match L.getD (T.getD p 0) .sentinel with
      | .sentinel => .error .invalidColumn
      | .byte b =>
        match walkRows L T k (T.getD p 0) with
        | .ok bs => .ok (b :: bs)
        | .error e => .error e

/-- The inverse function `RTinv(C, I)` (R205). -/
def rtInv (C : List Byte) (I : Nat) : Except ErrorKind (List Byte) :=
  if C.length < I then .error .invalidRotationIndex
  else
    let L := columnWithSentinel C I
    walkRows L (successors L) C.length I

/-- RT_FWD (R204). -/
def execRtFwd (s : State) : Result :=
  let n := s.blkLenValue.toNat
  if s.cfg.blockMax < n then raiseIn .rtFwd .lengthOutOfRange s
  else
    match s.readBuf .a n with
    | none => .fault (.noValueRead .a)
    | some B => .next (State.finished { s.writeBuf .c (rt B).1 with rotIdx := .val (BitVec.ofNat 32 (rt B).2) })

/-- RT_INV (R206). -/
def execRtInv (s : State) : Result :=
  let n := s.blkLenValue.toNat
  if s.cfg.blockMax < n then raiseIn .rtInv .lengthOutOfRange s
  else
    match s.readBuf .c n with
    | none => .fault (.noValueRead .c)
    | some C =>
      match rtInv C s.rotIdxValue.toNat with
      | .error e => raiseIn .rtInv e s
      | .ok B => .next (s.writeBuf .a B).finished

end Sys2Proof.Machine
end

