-- ==== Sys2Proof/Machine/Frame.lean ====
section
/-! DEFINITION. Sys2Proof/Machine/Frame.lean: the frame codec (R130 to R134, R300 to R316), its commands FRAME_SER and FRAME_DES, and the composite commands COMPRESS_BLOCK and DECOMPRESS_FRAME (R320 to R323). -/

namespace Sys2Proof.Machine

/-- The (symbol, count) entries of the counts of symbols `sym`, `sym + 1`, …: ascending symbols, counts not 0 (R300). -/
def entriesFrom (sym : Nat) : List Nat → List (Byte × Nat)
  | [] => []
  | f :: fs => if f = 0 then entriesFrom (sym + 1) fs else (BitVec.ofNat 8 sym, f) :: entriesFrom (sym + 1) fs

/-- The bytes of one table entry (R130). -/
def entryBytes (e : Byte × Nat) : List Byte := e.1 :: be32 e.2

/-- `FrameSer(rot, pad, F, payload)` (R300), with PAYLOAD_MAX. -/
def serializeFrame (maxBytes : Nat) (rot : Word) (pad : Byte) (F : List Nat) (payload : List Byte) :
    Except ErrorKind (List Byte) :=
  if maxBytes < payload.length then .error .lengthOutOfRange
  else if 8 ≤ pad.toNat ∨ (payload.length = 0 ∧ pad ≠ 0) then .error .paddingOutOfRange
  else if (entriesFrom 0 F).length = 0 ∧ payload.length ≠ 0 then .error .inconsistentFreqTable
  else
    .ok (be32 rot.toNat ++ [pad] ++ be16 (entriesFrom 0 F).length ++ (entriesFrom 0 F).flatMap entryBytes
      ++ be32 payload.length ++ payload)

/-- Why reading a frame stops: an error of the command, or a byte with NO VALUE (R106). -/
inductive FrameStop where
  | error (e : ErrorKind)
  | noValue
deriving DecidableEq, Repr

/-- `need(x)` (R310): the next `x` bytes of the window and the rest of it. Only these bytes are read, so a NO VALUE byte further
on does not matter (R312). -/
def need (x : Nat) (window : List (Option Byte)) : Except FrameStop (List Byte × List (Option Byte)) :=
  if window.length < x then .error (.error .truncatedFrame)
  else
    match allSome (window.take x) with
    | none => .error .noValue
    | some bytes => .ok (bytes, window.drop x)

/-- The table entries of a frame (R310): `count` entries of 5 bytes, checked one by one; `above` is the least symbol the next
entry may have (`prev + 1`). -/
def readEntries : Nat → Nat → List Nat → List (Option Byte) → Except FrameStop (List Nat × List (Option Byte))
  | 0, _, F, window => .ok (F, window)
  | count + 1, above, F, window =>
    match need 5 window with
    | .error stop => .error stop
    | .ok (e, rest) =>
      let sym := (e.getD 0 0).toNat
      let f := unbe (e.drop 1)
      if f = 0 then .error (.error .inconsistentFreqTable)
      else if sym < above then .error (.error .inconsistentFreqTable)
      else readEntries count (sym + 1) (F.set sym f) rest

/-- What FrameDes returns of a frame (R310). -/
structure Frame where
  rot : Nat
  pad : Nat
  freq : List Nat
  count : Nat
  payload : List Byte
  length : Nat
deriving DecidableEq, Repr

/-- The part of FrameDes from the table on (R310, R311). -/
def readFrameBody (maxBytes rot pad count : Nat) (window : List (Option Byte)) : Except FrameStop Frame :=
  match readEntries count 0 (List.replicate 256 0) window with
  | .error stop => .error stop
  | .ok (F, rest) =>
    match need 4 rest with
    | .error stop => .error stop
    | .ok (lengthBytes, rest') =>
      let P := unbe lengthBytes
      if maxBytes < P then .error (.error .frameTooLarge)
      else if count = 0 ∧ P ≠ 0 then .error (.error .inconsistentFreqTable)
      else if P = 0 ∧ pad ≠ 0 then .error (.error .paddingOutOfRange)
      else
        match need P rest' with
        | .error stop => .error stop
        | .ok (payload, _) =>
          .ok { rot := rot, pad := pad, freq := F, count := count, payload := payload, length := 11 + 5 * count + P }

/-- FrameDes on a nonempty window (R310): the header fields, then the rest, each check made as soon as its bytes are read. -/
def readFrame (maxBytes : Nat) (window : List (Option Byte)) : Except FrameStop Frame :=
  match need 4 window with
  | .error stop => .error stop
  | .ok (rotBytes, w1) =>
    match need 1 w1 with
    | .error stop => .error stop
    | .ok (padBytes, w2) =>
      if 8 ≤ unbe padBytes then .error (.error .paddingOutOfRange)
      else
        match need 2 w2 with
        | .error stop => .error stop
        | .ok (countBytes, w3) =>
          if 256 < unbe countBytes then .error (.error .inconsistentFreqTable)
          else readFrameBody maxBytes (unbe rotBytes) (unbe padBytes) (unbe countBytes) w3

/-- `FrameDes(W)` (R310): none is END, for an empty window (R313). -/
def deserializeFrame (maxBytes : Nat) (window : List (Option Byte)) : Except FrameStop (Option Frame) :=
  if window.length = 0 then .ok none
  else
    match readFrame maxBytes window with
    | .error stop => .error stop
    | .ok frame => .ok (some frame)

/-- The outputs of FrameDes written (R312). -/
def State.writeFrame (s : State) (fr : Frame) : State :=
  { s with
    mem := memWriteBuf s.mem .p fr.payload
    freq := fr.freq.map freqEntryOf
    rotIdx := .val (BitVec.ofNat 32 fr.rot)
    padCnt := .val (BitVec.ofNat 8 fr.pad)
    freqCount := .val (BitVec.ofNat 32 fr.count)
    payLen := .val (BitVec.ofNat 32 fr.payload.length)
    frameLen := .val (BitVec.ofNat 32 fr.length) }

/-- END: FRAME_LEN ← 0 and STATUS.END ← 1 (R313). -/
def State.endFound (s : State) : State :=
  { s with frameLen := .val 0, status := { s.status with endOfStream := true } }

/-- The stream offset advanced by a frame's length, modulo 2^32 (R320). -/
def State.advance (s : State) (frameLength : Nat) : State :=
  { s with streamOffset := s.streamOffset + BitVec.ofNat 32 frameLength }

/-- FRAME_SER (R301). -/
def execFrameSer (s : State) : Result :=
  let P := s.payLenValue.toNat
  if payloadMax s.cfg < P then raiseIn .frameSer .lengthOutOfRange s
  else
    match s.readBuf .p P with
    | none => .fault (.noValueRead .p)
    | some payload =>
      match serializeFrame (payloadMax s.cfg) s.rotIdxValue s.padCntValue s.freqTable payload with
      | .error e => raiseIn .frameSer e s
      | .ok frame =>
        .next (State.finished { s.writeBuf .f frame with frameLen := .val (BitVec.ofNat 32 frame.length) })

/-- FRAME_DES (R312). -/
def execFrameDes (s : State) : Result :=
  let N := s.inLen.toNat
  if frameMax s.cfg < N then raiseIn .frameDes .lengthOutOfRange s
  else
    match deserializeFrame (payloadMax s.cfg) (s.bufWindow .f N) with
    | .error .noValue => .fault (.noValueRead .f)
    | .error (.error e) => raiseIn .frameDes e s
    | .ok none => .next s.endFound.finished
    | .ok (some frame) => .next (s.writeFrame frame).finished

/-- The token stream of a block: RT, then RRT, then RLC (R321). -/
def blockTokens (B : List Byte) : List Byte := rlcEnc (mtfEnc (rt B).1).1

/-- The outputs of the stages RT to RLC of COMPRESS_BLOCK for a block `B` written (R321). -/
def State.compressToTokens (s : State) (B : List Byte) : State :=
  { s with
    mem := memWriteBuf (memWriteBuf (memWriteBuf s.mem .c (rt B).1) .r (mtfEnc (rt B).1).1) .t (blockTokens B)
    rotIdx := .val (BitVec.ofNat 32 (rt B).2)
    rlist := .val (mtfEnc (rt B).1).2
    tokLen := .val (BitVec.ofNat 32 (blockTokens B).length) }

/-- The end of COMPRESS_BLOCK: the frame, or none for the empty block (R323), and the stream offset advance (R320). -/
def State.emitFrame (s : State) (frame : List Byte) : State :=
  { s with
    mem := memWriteBuf s.mem .f frame
    frameLen := .val (BitVec.ofNat 32 frame.length)
    streamOffset := s.streamOffset + BitVec.ofNat 32 frame.length }

/-- COMPRESS_BLOCK (R321). -/
def execCompressBlock (s : State) : Result :=
  let n := s.blkLenValue.toNat
  if s.cfg.blockMax < n then raiseIn .compressBlock .lengthOutOfRange s
  else
    match s.readBuf .a n with
    | none => .fault (.noValueRead .a)
    | some B =>
      let T := blockTokens B
      let s' := ((s.compressToTokens B).writeFreq (hist T)).buildCodes (hist T)
      match ecPack s'.codeOf (payloadMax s.cfg) T with
      | .error e => raiseIn .compressBlock e s
      | .ok (payload, pad) =>
        let s'' := s'.writePayload payload pad
        if n = 0 then .next (s''.emitFrame []).finished
        else
          match serializeFrame (payloadMax s.cfg) (BitVec.ofNat 32 (rt B).2) (BitVec.ofNat 8 pad) (hist T) payload with
          | .error e => raiseIn .compressBlock e s
          | .ok frame => .next (s''.emitFrame frame).finished

/-- The stages after FrameDes in DECOMPRESS_FRAME (R322), as pure functions of the frame: the token stream, the rank string and
the block, or the error of the first stage that fails. -/
def decodeFrame (cfg : Config) (fr : Frame) : Except ErrorKind (List Byte × List Byte × List Byte) :=
  match ecUnpack (buildTree fr.freq) fr.freq (tokenMax cfg) fr.payload fr.pad with
  | .error e => .error e
  | .ok T =>
    match rlcDec T cfg.blockMax with
    | .error e => .error e
    | .ok R =>
      match rtInv (mtfDec R).1 fr.rot with
      | .error e => .error e
      | .ok B => .ok (T, R, B)

/-- The length of a string a stage returns; none where the stage raises an error. -/
def lengthOf (r : Except ErrorKind (List Byte)) : Option Nat :=
  match r with
  | .ok bytes => some bytes.length
  | .error _ => none

/-- The lengths that DECOMPRESS_FRAME has computed for a frame when one of its stages fails (R322): |payload|, then |T| if ECunpack
succeeds, then |S| if RLCdec does too. -/
def decodedLengths (cfg : Config) (fr : Frame) : Computed :=
  let T := ecUnpack (buildTree fr.freq) fr.freq (tokenMax cfg) fr.payload fr.pad
  ⟨some fr.payload.length, lengthOf T, lengthOf (T.bind fun T => rlcDec T cfg.blockMax)⟩

/-- The outputs of the stages after FrameDes written (R322). -/
def State.writeDecoded (s : State) (T R B : List Byte) : State :=
  { s with
    mem := memWriteBuf (memWriteBuf (memWriteBuf (memWriteBuf s.mem .t T) .r R) .c (mtfDec R).1) .a B
    tokLen := .val (BitVec.ofNat 32 T.length)
    blkLen := .val (BitVec.ofNat 32 R.length)
    rlist := .val (mtfDec R).2 }

/-- DECOMPRESS_FRAME (R322). A stage that fails after FrameDes leaves UNSPECIFIED only the ranges the stages before it bound (R184). -/
def execDecompressFrame (s : State) : Result :=
  let N := s.inLen.toNat
  if frameMax s.cfg < N then raiseIn .decompressFrame .lengthOutOfRange s
  else
    match deserializeFrame (payloadMax s.cfg) (s.bufWindow .f N) with
    | .error .noValue => .fault (.noValueRead .f)
    | .error (.error e) => raiseIn .decompressFrame e s
    | .ok none => .next s.endFound.finished
    | .ok (some fr) =>
      match decodeFrame s.cfg fr with
      | .error e => raiseKnowing (decodedLengths s.cfg fr) .decompressFrame e s
      | .ok (T, R, B) =>
        .next ((((s.writeFrame fr).buildCodes fr.freq).writeDecoded T R B).advance fr.length).finished

end Sys2Proof.Machine
end

