-- ==== Sys2Proof/Machine/Dispatch.lean ====
section
/-! DEFINITION. Sys2Proof/Machine/Dispatch.lean: the engine step of each command (R172), one arm per constructor of Instr. -/

namespace Sys2Proof.Machine

def exec (i : Instr) (s : State) : Host.Outcome State Fault Refusal :=
  match i with
  | .nop => Sys2Proof.Machine.execNop s
  | .rtFwd => Sys2Proof.Machine.execRtFwd s
  | .rtInv => Sys2Proof.Machine.execRtInv s
  | .rrtEnc => Sys2Proof.Machine.execRrtEnc s
  | .rrtDec => Sys2Proof.Machine.execRrtDec s
  | .rlcEnc => Sys2Proof.Machine.execRlcEnc s
  | .rlcDec => Sys2Proof.Machine.execRlcDec s
  | .ecCount => Sys2Proof.Machine.execEcCount s
  | .ecBuild => Sys2Proof.Machine.execEcBuild s
  | .ecPack => Sys2Proof.Machine.execEcPack s
  | .ecUnpack => Sys2Proof.Machine.execEcUnpack s
  | .frameSer => Sys2Proof.Machine.execFrameSer s
  | .frameDes => Sys2Proof.Machine.execFrameDes s
  | .compressBlock => Sys2Proof.Machine.execCompressBlock s
  | .decompressFrame => Sys2Proof.Machine.execDecompressFrame s
  | .streamReset => Sys2Proof.Machine.execStreamReset s
  | .clearError => Sys2Proof.Machine.execClearError s

end Sys2Proof.Machine
end

