-- ==== Sys2Proof/Machine/Window.lean ====
section
/-! DEFINITION. Sys2Proof/Machine/Window.lean: the device window (R80 to R95): the address map, host reads and writes, issue of a command (R170, R171) and the resets (R380, R381). -/

namespace Sys2Proof.Machine

/-- The named registers (R31 to R54). -/
inductive RegName where
  | id
  | version
  | blockMax
  | tokenMax
  | payloadMax
  | frameMax
  | ctrl
  | cmd
  | status
  | errCode
  | errOffset
  | blkLen
  | rotIdx
  | tokLen
  | payLen
  | padCnt
  | freqCount
  | frameLen
  | inLen
  | streamOffset
deriving DecidableEq, Repr

/-- The offset of a register (R31 to R54, R83). -/
def regOffset : RegName → Nat
  | .id => 0x000
  | .version => 0x004
  | .blockMax => 0x008
  | .tokenMax => 0x00C
  | .payloadMax => 0x010
  | .frameMax => 0x014
  | .ctrl => 0x018
  | .cmd => 0x01C
  | .status => 0x020
  | .errCode => 0x024
  | .errOffset => 0x028
  | .blkLen => 0x02C
  | .rotIdx => 0x030
  | .tokLen => 0x034
  | .payLen => 0x038
  | .padCnt => 0x03C
  | .freqCount => 0x040
  | .frameLen => 0x044
  | .inLen => 0x048
  | .streamOffset => 0x04C

/-- The window offset of register CMD (R34). -/
def cmdOffset : Nat := regOffset .cmd

/-- The window offset of register STATUS (R35). -/
def statusOffset : Nat := regOffset .status

/-- The register at an offset of REGS; the other offsets are reserved (R55, R83). -/
def regAt (a : Nat) : Option RegName :=
  match a with
  | 0x000 => some .id
  | 0x004 => some .version
  | 0x008 => some .blockMax
  | 0x00C => some .tokenMax
  | 0x010 => some .payloadMax
  | 0x014 => some .frameMax
  | 0x018 => some .ctrl
  | 0x01C => some .cmd
  | 0x020 => some .status
  | 0x024 => some .errCode
  | 0x028 => some .errOffset
  | 0x02C => some .blkLen
  | 0x030 => some .rotIdx
  | 0x034 => some .tokLen
  | 0x038 => some .payLen
  | 0x03C => some .padCnt
  | 0x040 => some .freqCount
  | 0x044 => some .frameLen
  | 0x048 => some .inLen
  | 0x04C => some .streamOffset
  | _ => none

/-- The access classes of the registers (R60). -/
inductive RegClass where
  | constant
  | control
  | command
  | result
  | operand
deriving DecidableEq, Repr

/-- The class of a register (R60). -/
def regClass : RegName → RegClass
  | .id | .version | .blockMax | .tokenMax | .payloadMax | .frameMax => .constant
  | .ctrl | .status => .control
  | .cmd => .command
  | .errCode | .errOffset | .freqCount | .frameLen => .result
  | .blkLen | .rotIdx | .tokLen | .payLen | .padCnt | .inLen | .streamOffset => .operand

/-- Registers that read exactly while BUSY = 1 (R93). -/
def exactWhileBusy (r : RegName) : Bool :=
  match regClass r with
  | .constant | .control | .command => true
  | .result | .operand => false

/-- The value of a register (R31 to R54). -/
def State.regValue (s : State) : RegName → Word
  | .id => 0x42575453
  | .version => 0x00000001
  | .blockMax => BitVec.ofNat 32 s.cfg.blockMax
  | .tokenMax => BitVec.ofNat 32 (Machine.tokenMax s.cfg)
  | .payloadMax => BitVec.ofNat 32 (Machine.payloadMax s.cfg)
  | .frameMax => BitVec.ofNat 32 (Machine.frameMax s.cfg)
  | .ctrl => s.ctrlWord
  | .cmd => s.cmd
  | .status => s.statusWord
  | .errCode => s.errCodeWord
  | .errOffset => s.errOffset
  | .blkLen => s.blkLenValue
  | .rotIdx => s.rotIdxValue
  | .tokLen => s.tokLenValue
  | .payLen => s.payLenValue
  | .padCnt => s.padCntValue.setWidth 32
  | .freqCount => s.freqCountValue
  | .frameLen => s.frameLenValue
  | .inLen => s.inLen
  | .streamOffset => s.streamOffset

/-- What a byte offset outside REGS addresses (R82, R84, R85). -/
inductive Place where
  | reserved
  | rlist (i : Nat)
  | freq (sym j : Nat)
  | codeLen (sym : Nat)
  | code (sym j : Nat)
  | buf (b : Buf) (i : Nat)
deriving DecidableEq, Repr

/-- A byte of a buffer region: the buffer's byte below its capacity, reserved from there on (R84). -/
def bufPlace (c : Config) (b : Buf) (a : Nat) : Place :=
  if a - bufBase b < bufCapacity c b then .buf b (a - bufBase b) else .reserved

/-- The address map outside REGS (R82). -/
def place (c : Config) (a : Nat) : Place :=
  if a < 0x01000 then .reserved
  else if a < 0x01100 then .rlist (a - 0x01000)
  else if a < 0x02000 then .reserved
  else if a < 0x02400 then .freq ((a - 0x02000) / 4) ((a - 0x02000) % 4)
  else if a < 0x03000 then .reserved
  else if a < 0x03100 then .codeLen (a - 0x03000)
  else if a < 0x04000 then .reserved
  else if a < 0x06000 then .code ((a - 0x04000) / 32) ((a - 0x04000) % 32)
  else if a < 0x20000 then .reserved
  else if a < 0x40000 then bufPlace c .a a
  else if a < 0x60000 then bufPlace c .c a
  else if a < 0x80000 then bufPlace c .r a
  else if a < 0xA0000 then bufPlace c .t a
  else if a < 0xC0000 then bufPlace c .p a
  else if a < 0x100000 then bufPlace c .f a
  else .reserved

/-- The byte a host read finds at a place (R85, R90): 0 where reserved, a free byte where a buffer byte has NO VALUE or any place
is UNSPECIFIED (R59, R184). -/
def State.placeByte (s : State) (a : Nat) : Place → Byte
  | .reserved => 0
  | .rlist i => s.rlistAt i
  | .freq sym j => s.freqByteAt sym j
  | .codeLen sym => s.codeLenAt sym
  | .code sym j => codeByte (s.codeAt sym) j
  | .buf b i => (s.bufByte b i).getD (Config.freeByte s.epoch a)

/-- `byteAt(a)` read (R90). -/
def State.byteAt (s : State) (a : Nat) : Byte := s.placeByte a (place s.cfg a)

/-- An aligned access of `n` bytes inside the window (R81, R87). -/
def aligned (a n : Nat) : Bool := a % n == 0 && a + n - 1 ≤ 0xFFFFF

/-- The big-endian value of `n` bytes of the window (R89). -/
def State.bytesValue (s : State) (a n : Nat) : Word :=
  BitVec.ofNat 32 (unbe ((List.range n).map fun j => s.byteAt (a + j)))

/-- Whether an access touches a place that holds state, so that it reads UNSPECIFIED while BUSY = 1 (R93). -/
def touchesState (c : Config) (a n : Nat) : Bool := (List.range n).any fun j => place c (a + j) != .reserved

/-- A free value of `n` bytes (R23). -/
def freeValue (epoch a n : Nat) : Word := BitVec.ofNat 32 ((Config.freeWord epoch a).toNat % 256 ^ n)

/-- `MemRead(a, n)` (R90), with the BUSY rule of R93. -/
def State.memRead (s : State) (a : Nat) (w : Width) : Word :=
  let n := widthBytes w
  if !aligned a n then 0
  else if a < 0x01000 then
    if n ≠ 4 then 0
    else
      match regAt a with
      | none => 0
      | some r => if s.status.busy && !exactWhileBusy r then Config.freeWord s.epoch a else s.regValue r
  else if s.status.busy && touchesState s.cfg a n then freeValue s.epoch a n
  else s.bytesValue a n

/-- The effect of a reset on the block (R381): every register, table and buffer byte takes its reset value, and a pending command
is abandoned. The parameters, and the model's own fields, stay. -/
def State.blockReset (s : State) : State :=
  { State.resetOf s.cfg with epoch := s.epoch, hostQueue := s.hostQueue, hostReads := s.hostReads }

/-- Issue of a word and its acceptance or rejection (R170, R171). -/
def State.issue (s : State) (w : Word) : State :=
  let s' : State := { s with cmd := w }
  if s.status.err && w != 0x00000000 && w != 0x00000010 then s'.rejected else s'.accepted

/-- A stored write of an operand register (R40 to R44, R53, R54); PAD_CNT stores bits 7:0 (R44). -/
def State.storeOperand (s : State) (r : RegName) (v : Word) : State :=
  match r with
  | .blkLen => { s with blkLen := .val v }
  | .rotIdx => { s with rotIdx := .val v }
  | .tokLen => { s with tokLen := .val v }
  | .payLen => { s with payLen := .val v }
  | .padCnt => { s with padCnt := .val (v.setWidth 8) }
  | .inLen => { s with inLen := v }
  | .streamOffset => { s with streamOffset := v }
  | .id | .version | .blockMax | .tokenMax | .payloadMax | .frameMax | .ctrl | .cmd | .status | .errCode | .errOffset
  | .freqCount | .frameLen => s

/-- A write of CTRL (R33): with SRST = 1 a soft reset, whose other bits are not stored (R381); else the enables are stored. -/
def State.writeCtrl (s : State) (v : Word) : State :=
  if v.getLsbD 0 then s.blockReset else { s with ctrl := ctrlOfWord v }

/-- A register write (R60, R91, R93). -/
def State.writeReg (s : State) (r : RegName) (v : Word) : State :=
  match regClass r with
  | .constant => s
  | .control => if r = .ctrl then s.writeCtrl v else { s with status := statusCleared s.status v }
  | .command => if s.status.busy then s.violated else s.issue v
  | .result => if s.status.busy then s.violated else s
  | .operand => if s.status.busy then s.violated else s.storeOperand r v

/-- `byteAt(a) <- b` for a writable place; a byte beyond a buffer's capacity is dropped (R84, R91). -/
def State.pokeByte (s : State) (a : Nat) (b : Byte) : State :=
  match place s.cfg a with
  | .freq sym j =>
    { s with freq := s.freq.set sym (freqEntrySetByte (s.freq.getD sym FreqEntry.zero) j b) }
  | .buf _ _ => { s with mem := memSet s.mem a b }
  | .reserved | .rlist _ | .codeLen _ | .code _ _ => s

/-- Consecutive bytes written from offset `a` on. -/
def State.pokeBytes (s : State) (a : Nat) : List Byte → State
  | [] => s
  | b :: bs => (s.pokeByte a b).pokeBytes (a + 1) bs

/-- `MemWrite(a, n, v)` (R91). -/
def State.memWrite (s : State) (a : Nat) (w : Width) (v : Word) : State :=
  let n := widthBytes w
  if !aligned a n then s
  else if a < 0x01000 then
    if n ≠ 4 then s
    else
      match regAt a with
      | none => s
      | some r => s.writeReg r v
  else
    match place s.cfg a with
    | .reserved => s
    | .rlist _ | .codeLen _ | .code _ _ => if s.status.busy then s.violated else s
    | .freq _ _ | .buf _ _ =>
      if s.status.busy then s.violated else s.pokeBytes a ((List.range n).map (valueByte v n))

/-- The window offset that a host address names, if it lies in the window (R80). -/
def windowOffset (c : Config) (address : Nat) : Option Nat :=
  if c.windowBase ≤ address ∧ address < c.windowBase + 0x100000 then some (address - c.windowBase) else none

end Sys2Proof.Machine
end

