-- ==== Sys2Proof/Machine/Turn.lean ====
section
/-! DEFINITION. Sys2Proof/Machine/Turn.lean: the two agents' turns (R100, R172): a host action, and the engine's performance of the pending command. -/

namespace Sys2Proof.Machine

/-- The pending command word (R36, R172). -/
def State.fetch (s : State) : Word := s.cmd

/-- The end of a step: the count of steps, which numbers the free draws, goes up by one. -/
def State.ticked (s : State) : State := { s with epoch := s.epoch + 1 }

/-- A result with its next state ticked. -/
def tickedResult : Result → Result
  | .next s => .next s.ticked
  | .fault r => .fault r
  | .refused r => .refused r

/-- The engine performs the command whose word is in CMD (R172); an illegal word raises ILLEGAL_COMMAND (R181). -/
def performPending (s : State) : Result :=
  match decode s.fetch with
  | .ok i => exec i s
  | .error _ => execIllegal s

/-- A turn in which the host is silent: the engine step while BUSY = 1 (R172), and nothing while idle (R369). -/
def engineTurn (s : State) : Result := tickedResult (if s.status.busy then performPending s else .next s)

/-- A host read (R90): nothing of the block changes, and what the host got is recorded. -/
def State.hostRead (s : State) (a : Nat) (w : Width) : State := { s with hostReads := ⟨a, w, s.memRead a w⟩ :: s.hostReads }

/-- One turn of WAIT, `repeat R32 STATUS until bit 0 is 0` (R150, R152); the loop stands first in the host's queue until a poll
reads BUSY = 0, and with BUSY = 0 that is the first poll. While BUSY = 1 a turn is one more poll, or, once `polls` have been made,
the engine step that weak fairness promises (R172, R176). -/
def waitTurn (polls : Nat) (s : State) : Result :=
  if s.status.busy then
    match polls with
    | 0 => engineTurn { s with hostQueue := .wait 0 :: s.hostQueue }
    | more + 1 => .next (State.ticked { s.hostRead statusOffset .w4 with hostQueue := .wait more :: s.hostQueue })
  else .next (s.hostRead statusOffset .w4).ticked

/-- One host action (R90, R91, R380), one turn of a polling loop (R150), or a silent turn; `s` has the action taken from its queue. -/
def hostTurn (action : HostAction) (s : State) : Result :=
  match action with
  | .read a w => .next (s.hostRead a w).ticked
  | .write a w v => .next (s.memWrite a w v).ticked
  | .hardReset => .next s.blockReset.ticked
  | .pause => engineTurn s
  | .wait polls => waitTurn polls s

/-- One step (R100): the host's next action; with none left the host stays silent, so a pending command is performed (the weak
fairness of R176). -/
def takeTurn (s : State) : Result :=
  match s.hostQueue with
  | [] => engineTurn s
  | action :: rest => hostTurn action { s with hostQueue := rest }

/-- The state in which a word stands in CMD, accepted (R170, R171), and the host is silent, so the next step performs it. -/
def State.withPending (s : State) (w : Word) : State := State.accepted { s with cmd := w, hostQueue := [] }

end Sys2Proof.Machine
end

