-- ==== Sys2Proof/Machine/Step.lean ====
section
/-! DEFINITION. Sys2Proof/Machine/Step.lean: one step of the machine, and a state whose next step performs a given command word. -/

namespace Sys2Proof.Machine

/-- One step: a host action or the engine's performance of a command (R100, R172). -/
def step (s : State) : Host.Outcome State Fault Refusal := takeTurn s

/-- `s` with the command word `w` (its bits from `nbits` up 0) accepted and pending, and the host silent: the next step performs
exactly that command (R172). It stands for the host's write of CMD, since the engine runs no stored program (R36). -/
def State.withFetchWord (s : State) (nbits w : Nat) : State := s.withPending (BitVec.ofNat 32 (w % 2 ^ nbits))

end Sys2Proof.Machine
end

