-- ==== Sys2Proof/Machine/Script.lean ====
section
/-! DEFINITION. Sys2Proof/Machine/Script.lean: the host-script notation of R150 to R152, expanded to host actions. -/

namespace Sys2Proof.Machine

/-- Byte writes of consecutive bytes: `WBYTES` (R150, R152). -/
def writeBytesActions (a : Nat) : List Byte → List HostAction
  | [] => []
  | b :: bs => .write a .w1 (b.setWidth 32) :: writeBytesActions (a + 1) bs

/-- The host actions of a statement (R150, R151, R152). WAIT is one action, the polling loop (`waitTurn` in Machine/Turn.lean).
EXPECT reads with the width the statement carries, since R150 names none (DESIGN CHOICE, log entry 15). -/
def expandStmt : HostStmt → List HostAction
  | .w32 a v => [.write a .w4 v]
  | .w8 a v => [.write a .w1 (v.setWidth 32)]
  | .r32 a => [.read a .w4]
  | .r8 a => [.read a .w1]
  | .wbytes a bytes => writeBytesActions a bytes
  | .rbytes a count => (List.range count).map fun j => .read (a + j) .w1
  | .cmd i => [.write cmdOffset .w4 (encode i)]
  | .wait polls => [.wait polls]
  | .expect a w _ => [.read a w]

/-- The host actions of a program (R151). -/
def expandProgram (program : List HostStmt) : List HostAction := program.flatMap expandStmt

/-- Whether a reading meets an EXPECT statement (R150); every other statement expects nothing. -/
def meetsExpectation (stmt : HostStmt) (reading : HostReading) : Bool :=
  match stmt with
  | .expect a w v => reading.offset == a && reading.width == w && reading.value == v
  | .w32 _ _ | .w8 _ _ | .r32 _ | .r8 _ | .wbytes _ _ | .rbytes _ _ | .cmd _ | .wait _ => true

end Sys2Proof.Machine
end

