-- ==== Sys2Proof/Safety.lean ====
section
/-! DEFINITION. Sys2Proof/Safety.lean: the terms claims use: which inputs a command needs (R183, R391), what a command may change (R105, R124, R184), the invariant of the machine, and relational readings of the transforms' rules. -/

namespace Sys2Proof.Machine

/-- The buffer range a command reads as its input (R124, R391). -/
def inputRange (s : State) : Instr → Option (Buf × Nat)
  | .rtFwd | .compressBlock => some (.a, s.blkLenValue.toNat)
  | .rtInv | .rrtEnc => some (.c, s.blkLenValue.toNat)
  | .rrtDec | .rlcEnc => some (.r, s.blkLenValue.toNat)
  | .rlcDec | .ecCount | .ecPack => some (.t, s.tokLenValue.toNat)
  | .ecUnpack | .frameSer => some (.p, s.payLenValue.toNat)
  | .frameDes | .decompressFrame => some (.f, s.inLen.toNat)
  | .nop | .ecBuild | .streamReset | .clearError => none

/-- The length check of a command passes: the length it reads is at most the capacity of the buffer it indexes (R183). -/
def lengthOk (s : State) (i : Instr) : Bool :=
  match inputRange s i with
  | none => true
  | some (b, n) => n ≤ bufCapacity s.cfg b

/-- Every byte of the input range has a value (R391); a command whose length check fails reads no byte (R183). -/
def inputsReady (s : State) (i : Instr) : Bool :=
  match inputRange s i with
  | none => true
  | some (b, n) => !lengthOk s i || (List.range n).all fun j => (s.cell b j).isSome

/-- A safe step is one that does not stop: it answers a next state. -/
def Safe (s : State) : Prop := ∃ t, step s = .next t

/-- The bytes of a command's input range (R124); empty where it reads none. -/
def inputBytes (s : State) (i : Instr) : List Byte :=
  match inputRange s i with
  | none => []
  | some (b, n) => (s.readBuf b n).getD []

/-- The bytes a result holds; none where it is an error. -/
def bytesOf (r : Except ErrorKind (List Byte)) : List Byte :=
  match r with
  | .ok bytes => bytes
  | .error _ => []

/-- The payload a packing returns; none where it is an error. -/
def payloadOf (r : Except ErrorKind (List Byte × Nat)) : List Byte :=
  match r with
  | .ok (payload, _) => payload
  | .error _ => []

/-- The frame that stands at the start of the stream window, if FrameDes accepts one (R310). -/
def windowFrame (s : State) : Option Frame :=
  match deserializeFrame (payloadMax s.cfg) (s.bufWindow .f s.inLen.toNat) with
  | .ok fr => fr
  | .error _ => none

/-- The lengths of its output ranges that a command has computed when it raises an error (R124, R322): those of the frame in the stream
window for DECOMPRESS_FRAME, none for every other command. -/
def knownLengths (s : State) (i : Instr) : Computed :=
  if i = .decompressFrame ∧ s.inLen.toNat ≤ frameMax s.cfg then
    match windowFrame s with
    | some fr => decodedLengths s.cfg fr
    | none => .nothing
  else .nothing

/-- The output set of a command that raises an error in a state (R124, R184). -/
def failedOutputs (s : State) (i : Instr) : List Output := outputSet s (knownLengths s i) i

/-- The token stream, rank string and block of the frame in the stream window; empty where a stage fails (R322). -/
def windowDecoded (s : State) : List Byte × List Byte × List Byte :=
  match windowFrame s with
  | none => ([], [], [])
  | some fr =>
    match decodeFrame s.cfg fr with
    | .ok out => out
    | .error _ => ([], [], [])

/-- The payload COMPRESS_BLOCK packs for a block (R321). -/
def blockPayload (s : State) (B : List Byte) : List Byte :=
  payloadOf (ecPack (s.buildCodes (hist (blockTokens B))).codeOf (payloadMax s.cfg) (blockTokens B))

/-- `n` bytes of buffer `b` and none of any other. -/
def onlyIn (b : Buf) (n : Nat) : Buf → Nat := fun b' => if b' = b then n else 0

/-- How many bytes of each buffer COMPRESS_BLOCK stores for a block (R321, R323). -/
def compressStores (s : State) (B : List Byte) : Buf → Nat
  | .a => 0
  | .c | .r => B.length
  | .t => (blockTokens B).length
  | .p => (blockPayload s B).length
  | .f => if B.length = 0 then 0 else 11 + 5 * card (hist (blockTokens B)) + (blockPayload s B).length

/-- How many bytes of each buffer DECOMPRESS_FRAME stores (R322). -/
def decompressStores (s : State) : Buf → Nat
  | .a | .c | .r => (windowDecoded s).2.1.length
  | .t => (windowDecoded s).1.length
  | .p => ((windowFrame s).map fun fr => fr.payload.length).getD 0
  | .f => 0

/-- How many bytes of a buffer a command stores from byte 0 on when it succeeds (R124), by the functions its meaning uses. -/
def storedLength (s : State) (i : Instr) : Buf → Nat :=
  match i with
  | .rtFwd => onlyIn .c (rt (inputBytes s .rtFwd)).1.length
  | .rtInv => onlyIn .a (bytesOf (rtInv (inputBytes s .rtInv) s.rotIdxValue.toNat)).length
  | .rrtEnc => onlyIn .r (mtfEnc (inputBytes s .rrtEnc)).1.length
  | .rrtDec => onlyIn .c (mtfDec (inputBytes s .rrtDec)).1.length
  | .rlcEnc => onlyIn .t (rlcEnc (inputBytes s .rlcEnc)).length
  | .rlcDec => onlyIn .r (bytesOf (rlcDec (inputBytes s .rlcDec) s.cfg.blockMax)).length
  | .ecPack => onlyIn .p (payloadOf (ecPack s.codeOf (payloadMax s.cfg) (inputBytes s .ecPack))).length
  | .ecUnpack =>
    onlyIn .t
      (bytesOf
        (ecUnpack s.treeValue s.freqTable (tokenMax s.cfg) (inputBytes s .ecUnpack) s.padCntValue.toNat)).length
  | .frameSer =>
    onlyIn .f
      (bytesOf
        (serializeFrame (payloadMax s.cfg) s.rotIdxValue s.padCntValue s.freqTable (inputBytes s .frameSer))).length
  | .frameDes => onlyIn .p (((windowFrame s).map fun fr => fr.payload.length).getD 0)
  | .compressBlock => compressStores s (inputBytes s .compressBlock)
  | .decompressFrame => decompressStores s
  | .nop | .ecCount | .ecBuild | .streamReset | .clearError => fun _ => 0

/-- `t` differs from `s` only in the registers and tables that `named` admits, in buffer bytes with index below `stored b`, in STATUS,
ERR_CODE and ERR_OFFSET, and in STREAM_OFFSET. -/
structure ChangesOnly (named : Output → Bool) (stored : Buf → Nat) (s t : State) : Prop where
  cfg : t.cfg = s.cfg
  ctrl : t.ctrl = s.ctrl
  cmd : t.cmd = s.cmd
  inLen : t.inLen = s.inLen
  rotIdx : named .rotIdx = true ∨ t.rotIdx = s.rotIdx
  blkLen : named .blkLen = true ∨ t.blkLen = s.blkLen
  tokLen : named .tokLen = true ∨ t.tokLen = s.tokLen
  payLen : named .payLen = true ∨ t.payLen = s.payLen
  padCnt : named .padCnt = true ∨ t.padCnt = s.padCnt
  freqCount : named .freqCount = true ∨ t.freqCount = s.freqCount
  frameLen : named .frameLen = true ∨ t.frameLen = s.frameLen
  rlist : named .rlist = true ∨ t.rlist = s.rlist
  freq : named .freq = true ∨ t.freq = s.freq
  codeLen : named .codeLen = true ∨ t.codeLen = s.codeLen
  code : named .code = true ∨ t.code = s.code
  tree : named .tree = true ∨ t.tree = s.tree
  cells : ∀ b i, stored b ≤ i → i < bufCapacity s.cfg b → t.cell b i = s.cell b i
  epoch : t.epoch = s.epoch
  hostQueue : t.hostQueue = s.hostQueue
  hostReads : t.hostReads = s.hostReads

/-- `t` has the STREAM_OFFSET, ERR_CODE and ERR_OFFSET of `s`: what `ChangesOnly` leaves open. -/
structure KeepsOffsetAndError (s t : State) : Prop where
  streamOffset : t.streamOffset = s.streamOffset
  errCode : t.errCode = s.errCode
  errOffset : t.errOffset = s.errOffset

/-- The commands that can raise an error: column "raised by" of the table of error codes (R340). An illegal command word is no
command. -/
def raisedBy : ErrorKind → List Instr
  | .truncatedFrame => [.frameDes, .decompressFrame]
  | .inconsistentFreqTable => [.frameDes, .decompressFrame, .ecUnpack, .frameSer]
  | .invalidRotationIndex => [.rtInv, .decompressFrame]
  | .paddingOutOfRange => [.frameDes, .decompressFrame, .ecUnpack, .frameSer]
  | .malformedRunToken => [.rlcDec, .decompressFrame]
  | .lengthOutOfRange =>
    [.rtFwd, .rtInv, .rrtEnc, .rrtDec, .rlcEnc, .rlcDec, .ecCount, .ecPack, .ecUnpack, .frameSer, .frameDes, .compressBlock,
      .decompressFrame]
  | .outputOverflow => [.rlcDec, .ecPack, .ecUnpack, .decompressFrame]
  | .frameTooLarge => [.frameDes, .decompressFrame]
  | .symbolNotInCode => [.ecPack]
  | .invalidColumn => [.rtInv, .decompressFrame]
  | .illegalCommand => []

/-- How many bytes of a buffer an output set covers. -/
def coveredBytes (outs : List Output) (b : Buf) : Nat :=
  outs.foldl (fun acc o => match o with
    | .buf b' n => if b' = b then max acc n else acc
    | _ => acc) 0

/-- The state holds UNSPECIFIED at a piece of an output set (R184). -/
def HoldsUnspecified (t : State) : Output → Prop
  | .rotIdx => t.rotIdx = .unspecified
  | .blkLen => t.blkLen = .unspecified
  | .tokLen => t.tokLen = .unspecified
  | .payLen => t.payLen = .unspecified
  | .padCnt => t.padCnt = .unspecified
  | .freqCount => t.freqCount = .unspecified
  | .frameLen => t.frameLen = .unspecified
  | .rlist => t.rlist = .unspecified
  | .freq => ∀ e ∈ t.freq, e = freqEntryUnspecified
  | .codeLen => t.codeLen = .unspecified
  | .code => t.code = .unspecified
  | .tree => t.tree = .unspecified
  | .buf b n => ∀ i < n, t.cell b i = some .unspecified

/-- TREE, CODELEN and CODE come from one table of counts, or all three are UNSPECIFIED (R47 to R49, R184). -/
def CodesCoherent (s : State) : Prop :=
  (∃ F : List Nat, F.length = 256 ∧ s.tree = .val (buildTree F) ∧ s.codeLen = .val (codeLengths (buildTree F))
      ∧ s.code = .val (codeWords (buildTree F)))
    ∨ (s.tree = .unspecified ∧ s.codeLen = .unspecified ∧ s.code = .unspecified)

/-- The invariant of the machine: what every step keeps. -/
structure Inv (s : State) : Prop where
  /-- BLOCK_MAX is legal (R11). -/
  cfg : s.cfg.Legal
  /-- The buffers' storage is in canonical form, and no byte lies at or above a capacity (R84, R96). -/
  mem : Memory.wf s.cfg s.mem = true
  /-- No mark reaches beyond a capacity. -/
  undet : ∀ b, undetOf s.undet b ≤ bufCapacity s.cfg b
  /-- RLIST is a permutation of 0 to 255 (R45). -/
  rlist : ∀ l, s.rlist = .val l → l.Perm identityList
  /-- FREQ has 256 entries (R46). -/
  freq : s.freq.length = 256
  /-- The code tables fit the tree (R47 to R49). -/
  codes : CodesCoherent s
  /-- FREQ_COUNT is at most 256 (R51). -/
  freqCount : ∀ v, s.freqCount = .val v → v.toNat ≤ 256
  /-- FRAME_LEN is at most FRAME_MAX (R52, R12). -/
  frameLen : ∀ v, s.frameLen = .val v → v.toNat ≤ frameMax s.cfg
  /-- ERR_CODE and ERR_OFFSET are 0 when no error is latched, and ERR_CODE is not 0 when one is (R38, R352). -/
  noError : s.status.err = false → s.errCode = none ∧ s.errOffset = 0
  error : s.status.err = true → s.errCode ≠ none
  /-- DONE and END are 0 while a command is pending (R171). -/
  quiet : s.status.busy = true → s.status.done = false ∧ s.status.endOfStream = false
  /-- While an error is latched, only NOP and CLEAR_ERROR can be pending (R171, R352). -/
  sticky : s.status.busy = true → s.status.err = true → s.cmd = 0x00000000 ∨ s.cmd = 0x00000010

/-- Rule R201 read as a relation: `SA` lists the rotations of `B ++ [$]` in strictly rising order, `I` is the rank of rotation 0,
and `C` is the column of last symbols without its sentinel. -/
def IsReordering (B C : List Byte) (I : Nat) : Prop :=
  ∃ SA : List Nat,
    SA.Perm (List.range (B.length + 1))
      ∧ SA.Pairwise (fun i j => lexLt (rotation (withSentinel B) i) (rotation (withSentinel B) j) = true)
      ∧ SA[I]? = some 0
      ∧ columnWithSentinel C I = SA.map fun r => (withSentinel B).getD ((r + B.length) % (B.length + 1)) .sentinel

/-- The orbit of row 0 under a successor mapping passes through every row: the mapping is one cycle (R207). -/
def OneCycle (T : List Nat) : Prop :=
  ∀ p < T.length, ∃ k, (fun q => T.getD q 0)^[k] 0 = p

/-- The leaves of a table of counts (R263): one for each symbol whose count is not 0, in rising symbol order, numbered from 0. -/
def leavesOf (F : List Nat) : List CodeTree :=
  ((List.range 256).filter fun sym => F.getD sym 0 ≠ 0).zipIdx.map fun p => .leaf (BitVec.ofNat 8 p.1) (F.getD p.1 0) p.2

/-- The key (freq, seq) of `a` is below that of `b` (R264). -/
def KeyBelow (a b : CodeTree) : Prop := treeFreq a < treeFreq b ∨ (treeFreq a = treeFreq b ∧ treeSeq a < treeSeq b)

/-- One round of R264 on a set of roots: `a` has the least key, `b` the least of the others, and the two become the left and the
right child of a new root numbered `next` whose freq is the sum of theirs. -/
def MergeRound (next : Nat) (Q Q' : List CodeTree) : Prop :=
  ∃ a b rest,
    Q.Perm (a :: b :: rest) ∧ (∀ x ∈ b :: rest, KeyBelow a x) ∧ (∀ x ∈ rest, KeyBelow b x)
      ∧ Q'.Perm (.node a b (treeFreq a + treeFreq b) next :: rest)

/-- `tree` is the one root left when the rounds of R264 are repeated from the set of roots `Q`, new nodes numbered from `next`. -/
inductive MergesTo : Nat → List CodeTree → CodeTree → Prop where
  | one (next : Nat) (tree : CodeTree) : MergesTo next [tree] tree
  | round (next : Nat) (Q Q' : List CodeTree) (tree : CodeTree) (first : MergeRound next Q Q')
      (others : MergesTo (next + 1) Q' tree) : MergesTo next Q tree

/-- The node a string of branch bits leads to: bit 0 to the left child, bit 1 to the right (R265). -/
def descend : CodeTree → List Bool → Option CodeTree
  | t, [] => some t
  | .leaf _ _ _, _ :: _ => none
  | .node l r _ _, bit :: bits => descend (if bit then r else l) bits

/-- The data bits of a payload (R270): all but the last `pad`. -/
def dataBits (payload : List Byte) (pad : Nat) : List Bool := (payloadBits payload).take (8 * payload.length - pad)

/-- The bits begin with the codes of `leaves`, leaves of the tree, one after another, and `rest` is what follows them. -/
def CodesThen (tree : Option CodeTree) (bits : List Bool) (leaves : List (Byte × List Bool)) (rest : List Bool) : Prop :=
  (∀ p ∈ leaves, p ∈ treeCodes tree) ∧ bits = leaves.flatMap Prod.snd ++ rest

/-- The bytes a token stands for (R140). -/
def tokenSymbols : Token → List Byte
  | .literal b => [b]
  | .run b c => List.replicate c.toNat b

/-- The byte a token is about. -/
def tokenSymbol : Token → Byte
  | .literal b => b
  | .run b _ => b

/-- A token stream is canonical (R241): whenever two adjacent tokens have the same byte, the first is a run of 255. -/
def CanonicalTokens (toks : List Token) : Prop :=
  toks.IsChain fun x y => tokenSymbol x = tokenSymbol y → x = .run (tokenSymbol x) 255

/-- The bytes are not empty and begin no valid token (R141, R243): a literal or a run is cut off, a count is 0 or 1, or the tag is 2
or more. -/
def badTokenStart : List Byte → Bool
  | [] => false
  | tag :: rest =>
    if tag = 0 then rest.isEmpty
    else if tag = 1 then
      match rest with
      | [] | [_] => true
      | _ :: count :: _ => count.toNat < 2
    else true

/-- Entry `j` of the frequency table of a frame fails (R310): it is cut off, its count is 0, or its symbol is not above the one of
the entry before it. -/
def badEntry (W : List Byte) (j : Nat) : Bool :=
  W.length < 12 + 5 * j || unbe ((W.drop (8 + 5 * j)).take 4) == 0
    || (0 < j && (W.getD (7 + 5 * j) 0).toNat ≤ (W.getD (2 + 5 * j) 0).toNat)

/-- Which error FrameDes reports for the bytes of a nonempty window, if any (R310): the fields at their offsets (R130), in wire
order. -/
def frameFailure (maxBytes : Nat) (W : List Byte) : Option ErrorKind :=
  let pad := (W.getD 4 0).toNat
  let k := unbe ((W.drop 5).take 2)
  let P := unbe ((W.drop (7 + 5 * k)).take 4)
  if W.length < 5 then some .truncatedFrame
  else if 8 ≤ pad then some .paddingOutOfRange
  else if W.length < 7 then some .truncatedFrame
  else if 256 < k then some .inconsistentFreqTable
  else
    match (List.range k).find? (badEntry W) with
    | some j => if W.length < 12 + 5 * j then some .truncatedFrame else some .inconsistentFreqTable
    | none =>
      if W.length < 11 + 5 * k then some .truncatedFrame
      else if maxBytes < P then some .frameTooLarge
      else if k = 0 ∧ P ≠ 0 then some .inconsistentFreqTable
      else if P = 0 ∧ pad ≠ 0 then some .paddingOutOfRange
      else if W.length < 11 + 5 * k + P then some .truncatedFrame
      else none

/-- The frame COMPRESS_BLOCK makes of a block (R321), as a function of BLOCK_MAX and the block; none where a stage would fail. -/
def blockFrame (cfg : Config) (B : List Byte) : Option (List Byte) :=
  let T := blockTokens B
  let F := hist T
  let code (b : Byte) : List Bool := codeIn (treeCodes (buildTree F)) b.toNat
  match ecPack code (payloadMax cfg) T with
  | .error _ => none
  | .ok (payload, pad) =>
    match serializeFrame (payloadMax cfg) (BitVec.ofNat 32 (rt B).2) (BitVec.ofNat 8 pad) F payload with
    | .error _ => none
    | .ok frame => some frame

/-- Commands run one after another, stopping at the first that does not answer a next state. -/
def execAll (s : State) : List Instr → Result
  | [] => .next s
  | i :: is =>
    match exec i s with
    | .next t => execAll t is
    | .fault r => .fault r
    | .refused r => .refused r

end Sys2Proof.Machine
end

