-- ==== Sys2Proof/Certificates/Slice0/Obligations.lean ====
section
/-! DEFINITION. Sys2Proof/Certificates/Slice0/Obligations.lean: the statements for the provers. -/

section Statements

open Sys2Proof Sys2Proof.Machine

/-! ## Encoding, the window and the protocol -/

/-- R122, R123: words written out from the opcode map decode to their commands, and words outside it are refused by name. -/
def Obligations.WrittenCommandWordsDecode : Prop :=
  decode 0x00000000#32 = .ok .nop ∧ decode 0x00000001#32 = .ok .rtFwd ∧ decode 0x00000002#32 = .ok .rtInv
    ∧ decode 0x00000003#32 = .ok .rrtEnc ∧ decode 0x00000004#32 = .ok .rrtDec ∧ decode 0x00000005#32 = .ok .rlcEnc
    ∧ decode 0x00000006#32 = .ok .rlcDec ∧ decode 0x00000007#32 = .ok .ecCount ∧ decode 0x00000008#32 = .ok .ecBuild
    ∧ decode 0x00000009#32 = .ok .ecPack ∧ decode 0x0000000A#32 = .ok .ecUnpack ∧ decode 0x0000000B#32 = .ok .frameSer
    ∧ decode 0x0000000C#32 = .ok .frameDes ∧ decode 0x0000000D#32 = .ok .compressBlock
    ∧ decode 0x0000000E#32 = .ok .decompressFrame ∧ decode 0x0000000F#32 = .ok .streamReset
    ∧ decode 0x00000010#32 = .ok .clearError ∧ decode 0x00000011#32 = .error .unknownOpcode
    ∧ decode 0x000000FF#32 = .error .unknownOpcode ∧ decode 0x00000101#32 = .error .reservedBitsSet
    ∧ decode 0x80000000#32 = .error .reservedBitsSet

/-- R121, R122, R123: a word decodes to a command exactly when it is that command's word, and a word is legal exactly when its
bits 31:8 are 0 and its bits 7:0 are at most 0x10. -/
def Obligations.CommandWordsAreExactlyTheOpcodeMap : Prop :=
  (∀ (w : Word) (i : Instr), decode w = .ok i ↔ w = encode i)
    ∧ ∀ w : Word, (∃ i, decode w = .ok i) ↔ w.toNat / 256 = 0 ∧ w.toNat % 256 ≤ 0x10

/-- R172, R176, R181: while BUSY = 1 and the host is silent, or waits in a polling loop that leaves the engine its turn, a step performs
the command whose word is in CMD, and counts the step; the loop still stands first in the queue. -/
def Obligations.StepPerformsThePendingCommand : Prop :=
  ∀ (s : State) (i : Instr), s.status.busy = true → decode s.cmd = .ok i →
    (s.hostQueue = [] → step s = tickedResult (exec i s))
      ∧ (∀ rest, s.hostQueue = .pause :: rest → step s = tickedResult (exec i { s with hostQueue := rest }))
      ∧ ∀ rest, s.hostQueue = .wait 0 :: rest → step s = tickedResult (exec i s)

/-- R181: a pending word that names no command completes at once with ILLEGAL_COMMAND and offset 0; nothing else changes. -/
def Obligations.IllegalWordRaisesIllegalCommand : Prop :=
  ∀ (s : State) (r : DecodeReject), s.status.busy = true → s.hostQueue = [] → decode s.cmd = .error r →
    step s = .next
      { s with
        status := { s.status with busy := false, done := true, err := true }
        errCode := some .illegalCommand
        errOffset := 0
        epoch := s.epoch + 1 }

/-- R369: an idle block holds all its state; only the model's own step count and host queue (log entries 1 and 3) move on. -/
def Obligations.IdleStepHoldsAllState : Prop :=
  ∀ s : State, s.status.busy = false →
    (s.hostQueue = [] → step s = .next { s with epoch := s.epoch + 1 })
      ∧ ∀ rest, s.hostQueue = .pause :: rest → step s = .next { s with epoch := s.epoch + 1, hostQueue := rest }

/-- R90, R91, R95, R100, R380: one step takes one host action. A read changes nothing of the block and gives the host the value of
MemRead; a write does what MemWrite does; a hardware reset leaves the reset state. R150, R152: WAIT polls STATUS with 32-bit reads until
BUSY reads 0. With BUSY = 0 the one poll ends it, whatever the number of polls it carries; while BUSY = 1 it makes that many polls and
stays first in the queue. The step count, the queue, the record of what was read and the number of polls that come before the engine
step are the model's own (log entries 1, 3 and 11). -/
def Obligations.HostActionsReadWriteAndReset : Prop :=
  ∀ (s : State) (rest : List HostAction),
    (∀ a w, s.hostQueue = .read a w :: rest →
        step s =
          .next { s with hostQueue := rest, epoch := s.epoch + 1, hostReads := ⟨a, w, s.memRead a w⟩ :: s.hostReads })
      ∧ (∀ a w v, s.hostQueue = .write a w v :: rest →
        step s = .next { State.memWrite { s with hostQueue := rest } a w v with epoch := s.epoch + 1 })
      ∧ (s.hostQueue = .hardReset :: rest →
        step s =
          .next { State.resetOf s.cfg with epoch := s.epoch + 1, hostQueue := rest, hostReads := s.hostReads })
      ∧ ∀ polls, s.hostQueue = .wait polls :: rest →
        let poll : HostReading := ⟨0x20, .w4, s.memRead 0x20 .w4⟩
        (s.status.busy = false →
            poll.value.getLsbD 0 = false
              ∧ step s = .next { s with hostQueue := rest, epoch := s.epoch + 1, hostReads := poll :: s.hostReads })
          ∧ ∀ more, polls = more + 1 → s.status.busy = true →
            poll.value.getLsbD 0 = true
              ∧ step s =
                .next { s with hostQueue := .wait more :: rest, epoch := s.epoch + 1, hostReads := poll :: s.hostReads }

/-- R170, R171: a 32-bit write to CMD while BUSY = 0 stores the word; with ERR = 1 every word but NOP's and CLEAR_ERROR's is
rejected and sets only REJ, and otherwise the command is accepted: BUSY is set, DONE and END are cleared. -/
def Obligations.CommandWriteAcceptsOrRejects : Prop :=
  ∀ (s : State) (w : Word), s.status.busy = false →
    s.memWrite 0x1C .w4 w =
      if s.status.err = true ∧ w ≠ 0x00000000#32 ∧ w ≠ 0x00000010#32 then
        { s with cmd := w, status := { s.status with rej := true } }
      else { s with cmd := w, status := { s.status with busy := true, done := false, endOfStream := false } }

/-- R93: while BUSY = 1 a write of CTRL or STATUS has its usual effect, and every other write is dropped; it sets BUSY_VIOL exactly
when it is an aligned 32-bit access to another named register that is not constant, or an aligned access to a table or buffer
byte. -/
def Obligations.BusyWritesAreDropped : Prop :=
  ∀ (s : State) (a : Nat) (w : Width) (v : Word), s.status.busy = true → ¬((a = 0x18 ∨ a = 0x20) ∧ w = .w4) →
    s.memWrite a w v =
      if (0x1C ≤ a ∧ a ≤ 0x4C ∧ a % 4 = 0 ∧ w = .w4)
          ∨ (aligned a (widthBytes w) = true ∧ 0x1000 ≤ a ∧ place s.cfg a ≠ .reserved) then
        { s with status := { s.status with busyViol := true } }
      else s

/-- R33, R177, R381: a 32-bit write to CTRL with bit 0 set, in any state, leaves every register, table and buffer byte at its reset
value; with bit 0 clear it stores the two enables and changes nothing else. -/
def Obligations.CtrlWriteResetsOrStores : Prop :=
  ∀ (s : State) (v : Word),
    (v.getLsbD 0 = true →
        s.memWrite 0x18 .w4 v =
          { State.resetOf s.cfg with epoch := s.epoch, hostQueue := s.hostQueue, hostReads := s.hostReads })
      ∧ (v.getLsbD 0 = false → s.memWrite 0x18 .w4 v = { s with ctrl := ⟨v.getLsbD 1, v.getLsbD 2⟩ })

/-- R35: a 32-bit write to STATUS clears DONE, REJ and BUSY_VIOL where the written bit is 1, and changes nothing else, whether or
not the block is busy. -/
def Obligations.StatusWriteOneToClear : Prop :=
  ∀ (s : State) (v : Word),
    s.memWrite 0x20 .w4 v =
      { s with
        status :=
          { s.status with
            done := if v.getLsbD 1 then false else s.status.done
            rej := if v.getLsbD 4 then false else s.status.rej
            busyViol := if v.getLsbD 5 then false else s.status.busyViol } }

/-- R87, R88: a misaligned access (one past the window's end included) and a 1-byte or 2-byte access to REGS are dropped if writes
and read 0 if reads. That they read 0 while BUSY = 1 too is log entry 8 (DEDUCED, against R93's "every other read"). -/
def Obligations.MisalignedAndNarrowAccessesHaveNoEffect : Prop :=
  ∀ (s : State) (a : Nat) (w : Width) (v : Word),
    (a % widthBytes w ≠ 0 ∨ 0xFFFFF < a + widthBytes w - 1) ∨ (a < 0x1000 ∧ w ≠ .w4) →
      s.memWrite a w v = s ∧ s.memRead a w = 0#32

/-- R31, R32, R40 to R44, R51 to R54, R60: the identity and parameter registers read their constants in every state, busy or not,
and drop writes. While BUSY = 0 every operand and result register reads what it holds, a write to an operand register is stored and
read back (PAD_CNT keeps bits 7:0, and its bits 31:8 read 0) and changes nothing else, and a write to a result register is dropped. -/
def Obligations.RegistersReadAndTakeWritesByTheirClass : Prop :=
  ∀ (s : State) (v : Word),
    (s.memRead 0x000 .w4 = 0x42575453#32 ∧ s.memRead 0x004 .w4 = 0x00000001#32
        ∧ s.memRead 0x008 .w4 = BitVec.ofNat 32 s.cfg.blockMax ∧ s.memRead 0x00C .w4 = BitVec.ofNat 32 (2 * s.cfg.blockMax)
        ∧ s.memRead 0x010 .w4 = BitVec.ofNat 32 (2 * s.cfg.blockMax)
        ∧ s.memRead 0x014 .w4 = BitVec.ofNat 32 (1291 + 2 * s.cfg.blockMax)
        ∧ ∀ a ∈ [0x000, 0x004, 0x008, 0x00C, 0x010, 0x014], s.memWrite a .w4 v = s)
      ∧ (s.status.busy = false →
        (s.memRead 0x02C .w4 = s.blkLenValue ∧ s.memRead 0x030 .w4 = s.rotIdxValue ∧ s.memRead 0x034 .w4 = s.tokLenValue
            ∧ s.memRead 0x038 .w4 = s.payLenValue ∧ s.memRead 0x03C .w4 = BitVec.ofNat 32 s.padCntValue.toNat
            ∧ s.memRead 0x040 .w4 = s.freqCountValue ∧ s.memRead 0x044 .w4 = s.frameLenValue
            ∧ s.memRead 0x048 .w4 = s.inLen ∧ s.memRead 0x04C .w4 = s.streamOffset)
          ∧ (s.memWrite 0x02C .w4 v = { s with blkLen := .val v } ∧ s.memWrite 0x030 .w4 v = { s with rotIdx := .val v }
            ∧ s.memWrite 0x034 .w4 v = { s with tokLen := .val v } ∧ s.memWrite 0x038 .w4 v = { s with payLen := .val v }
            ∧ s.memWrite 0x03C .w4 v = { s with padCnt := .val (BitVec.ofNat 8 v.toNat) }
            ∧ s.memWrite 0x048 .w4 v = { s with inLen := v } ∧ s.memWrite 0x04C .w4 v = { s with streamOffset := v })
          ∧ (∀ a ∈ [0x02C, 0x030, 0x034, 0x038, 0x048, 0x04C], (s.memWrite a .w4 v).memRead a .w4 = v)
          ∧ (s.memWrite 0x03C .w4 v).memRead 0x03C .w4 = BitVec.ofNat 32 (v.toNat % 256)
          ∧ ∀ a ∈ [0x024, 0x028, 0x040, 0x044], s.memWrite a .w4 v = s)

/-- R33, R34, R35, R38, R39, R56, R340: what the host reads of the status, control and error registers. Bit 6 of STATUS is the
interrupt output, DONE and DONE_IE or ERR and ERR_IE, and the other bits are the flags; CTRL shows the two enables, and SRST and the
reserved bits read 0; CMD reads the stored word. These hold busy or not; while BUSY = 0, ERR_CODE reads the number of the latched
error, 0 for none, and ERR_OFFSET its offset. -/
def Obligations.StatusControlAndErrorRegistersRead : Prop :=
  ∀ s : State,
    let w := s.memRead 0x20 .w4
    let c := s.memRead 0x18 .w4
    (w.getLsbD 0 = s.status.busy ∧ w.getLsbD 1 = s.status.done ∧ w.getLsbD 2 = s.status.err
        ∧ w.getLsbD 3 = s.status.endOfStream ∧ w.getLsbD 4 = s.status.rej ∧ w.getLsbD 5 = s.status.busyViol
        ∧ w.getLsbD 6 = ((s.status.done && s.ctrl.doneIe) || (s.status.err && s.ctrl.errIe))
        ∧ ∀ k, 7 ≤ k → w.getLsbD k = false)
      ∧ (c.getLsbD 1 = s.ctrl.doneIe ∧ c.getLsbD 2 = s.ctrl.errIe ∧ ∀ k, k ≠ 1 → k ≠ 2 → c.getLsbD k = false)
      ∧ s.memRead 0x1C .w4 = s.cmd
      ∧ (s.status.busy = false →
        s.memRead 0x28 .w4 = s.errOffset
          ∧ s.memRead 0x24 .w4 =
            match s.errCode with
            | none => 0#32
            | some .truncatedFrame => 1#32
            | some .inconsistentFreqTable => 2#32
            | some .invalidRotationIndex => 3#32
            | some .paddingOutOfRange => 4#32
            | some .malformedRunToken => 5#32
            | some .lengthOutOfRange => 6#32
            | some .outputOverflow => 7#32
            | some .frameTooLarge => 8#32
            | some .symbolNotInCode => 9#32
            | some .invalidColumn => 10#32
            | some .illegalCommand => 11#32)

/-- R89, R91: while BUSY = 0, an aligned write into a buffer below its capacity is read back by an access of the same width, most
significant byte first; each byte lands where it belongs, every other byte of every buffer reads as before, and nothing but the
storage changes. -/
def Obligations.BufferWriteReadsBack : Prop :=
  ∀ (s : State) (b : Buf) (i : Nat) (w : Width) (v : Word), s.cfg.Legal → s.status.busy = false →
    i % widthBytes w = 0 → i + widthBytes w ≤ bufCapacity s.cfg b →
    let t := s.memWrite (bufBase b + i) w v
    t.memRead (bufBase b + i) w = BitVec.ofNat 32 (v.toNat % 256 ^ widthBytes w)
      ∧ (∀ j < widthBytes w, t.cell b (i + j) = some (.val (v.extractLsb' (8 * (widthBytes w - 1 - j)) 8)))
      ∧ (∀ b' i', ¬(b' = b ∧ i ≤ i' ∧ i' < i + widthBytes w) → i' < bufCapacity s.cfg b' → t.cell b' i' = s.cell b' i')
      ∧ t = { s with mem := t.mem }

/-- R55, R82, R83, R84: an access of any width at a reserved offset reads 0 and drops the write: REGS above STREAM_OFFSET, the gaps
between the tables, and a buffer region from the buffer's capacity on. That it reads 0 while BUSY = 1 too is log entry 8 (DEDUCED,
against R93's "every other read"). -/
def Obligations.ReservedOffsetsReadZeroAndDropWrites : Prop :=
  ∀ (s : State) (a : Nat) (w : Width) (v : Word),
    (0x50 ≤ a ∧ a < 0x1000) ∨ (0x1100 ≤ a ∧ a < 0x2000) ∨ (0x2400 ≤ a ∧ a < 0x3000) ∨ (0x3100 ≤ a ∧ a < 0x4000)
        ∨ (0x6000 ≤ a ∧ a < 0x20000)
        ∨ (∃ b i, a = bufBase b + i ∧ bufCapacity s.cfg b ≤ i ∧ i < (match b with | .f => 0x40000 | _ => 0x20000)) →
      s.memRead a w = 0#32 ∧ s.memWrite a w v = s

/-- R82, R85, R89, R90, R92, R147: while BUSY = 0 the window shows RLIST, CODELEN and FREQ byte by byte and CODE bit by bit, a wider
access is the big-endian value of its bytes, writes to RLIST, CODELEN and CODE are dropped, and a write to FREQ of any width sets
exactly its bytes of that count: every other count and every other piece of state is unchanged, FREQ_COUNT, TREE, CODELEN and CODE
among them. -/
def Obligations.TablesReadByteByByteAndOnlyFreqTakesWrites : Prop :=
  ∀ s : State, s.status.busy = false → s.freq.length = 256 →
    (∀ i < 256, s.memRead (0x1000 + i) .w1 = (s.rlistAt i).setWidth 32)
      ∧ (∀ sym < 256, s.memRead (0x3000 + sym) .w1 = (s.codeLenAt sym).setWidth 32)
      ∧ (∀ sym < 256, s.memRead (0x2000 + 4 * sym) .w4 = BitVec.ofNat 32 (s.freqAt sym))
      ∧ (∀ sym < 256, ∀ j < 32,
        (s.memRead (0x4000 + 32 * sym + j) .w1).toNat < 256
          ∧ ∀ k < 8, (s.memRead (0x4000 + 32 * sym + j) .w1).getLsbD (7 - k) = (s.codeAt sym).getMsbD (8 * j + k))
      ∧ (∀ a, 0x1000 ≤ a → a < 0x100000 →
        (a % 2 = 0 → (s.memRead a .w2).toNat = 256 * (s.memRead a .w1).toNat + (s.memRead (a + 1) .w1).toNat)
          ∧ (a % 4 = 0 →
            (s.memRead a .w4).toNat = 65536 * (s.memRead a .w2).toNat + (s.memRead (a + 2) .w2).toNat))
      ∧ (∀ a w v, (0x1000 ≤ a ∧ a < 0x1100) ∨ (0x3000 ≤ a ∧ a < 0x3100) ∨ (0x4000 ≤ a ∧ a < 0x6000) → s.memWrite a w v = s)
      ∧ ∀ (sym j : Nat) (w : Width) (v : Word), sym < 256 → j % widthBytes w = 0 → j + widthBytes w ≤ 4 →
        let t := s.memWrite (0x2000 + 4 * sym + j) w v
        (∀ k < widthBytes w, t.freqByteAt sym (j + k) = v.extractLsb' (8 * (widthBytes w - 1 - k)) 8)
          ∧ (w = .w4 → t.freqAt sym = v.toNat)
          ∧ (∀ other k, k < 4 → ¬(other = sym ∧ j ≤ k ∧ k < j + widthBytes w) → t.freqByteAt other k = s.freqByteAt other k)
          ∧ t = { s with freq := t.freq }

/-- R58, R59: the state after reset. -/
def Obligations.ResetStateHasTheResetValues : Prop :=
  ∀ cfg : Config,
    let s := State.resetOf cfg
    s.cfg = cfg ∧ s.ctrlWord = 0#32 ∧ s.cmd = 0#32 ∧ s.statusWord = 0#32 ∧ s.errCodeWord = 0#32 ∧ s.errOffset = 0#32
      ∧ s.blkLenValue = 0#32 ∧ s.rotIdxValue = 0#32 ∧ s.tokLenValue = 0#32 ∧ s.payLenValue = 0#32 ∧ s.padCntValue = 0#8
      ∧ s.freqCountValue = 0#32 ∧ s.frameLenValue = 0#32 ∧ s.inLen = 0#32 ∧ s.streamOffset = 0#32
      ∧ (∀ i < 256, s.rlistAt i = BitVec.ofNat 8 i) ∧ (∀ sym < 256, s.freqAt sym = 0 ∧ s.codeLenAt sym = 0#8 ∧ s.codeAt sym = 0#256)
      ∧ s.treeValue = none ∧ s.irq = false ∧ ∀ b i, s.cell b i = none

/-! ## The control commands -/

/-- R178, R179, R180: NOP, STREAM_RESET and CLEAR_ERROR complete from every state, with exactly their effect. -/
def Obligations.ControlCommandsComplete : Prop :=
  ∀ s : State,
    exec .nop s = .next { s with status := { s.status with busy := false, done := true } }
      ∧ exec .streamReset s = .next { s with streamOffset := 0, status := { s.status with busy := false, done := true } }
      ∧ exec .clearError s =
        .next
          { s with
            status := { s.status with busy := false, done := true, err := false, rej := false }
            errCode := none
            errOffset := 0 }

/-! ## The Reordering Transform -/

/-- R201, R204: RT_FWD completes for every block that has its bytes; BUF_C and ROT_IDX get a column and an index that stand in the
relation of R201 to the block, STATUS is that of completion, and nothing else changes. -/
def Obligations.RtFwdSortsTheRotations : Prop :=
  ∀ (s : State) (B : List Byte), s.blkLenValue.toNat ≤ s.cfg.blockMax → s.cfg.Legal →
    s.readBuf .a s.blkLenValue.toNat = some B →
    ∃ (t : State) (C : List Byte) (I : Nat),
      exec .rtFwd s = .next t ∧ IsReordering B C I ∧ I ≤ B.length ∧ t.readBuf .c B.length = some C
        ∧ t.rotIdx = .val (BitVec.ofNat 32 I) ∧ t.status = { s.status with busy := false, done := true }
        ∧ KeepsOffsetAndError s t
        ∧ ChangesOnly (· == .rotIdx) (fun b => if b = .c then B.length else 0) s t

/-- R202: the properties of RT. -/
def Obligations.ReorderingProperties : Prop :=
  ∀ B : List Byte,
    (rt B).1.length = B.length ∧ (rt B).1.Perm B ∧ (rt B).2 ≤ B.length ∧ ((rt B).2 = 0 ↔ B.length = 0)
      ∧ rt [] = ([], 0) ∧ ∀ h : B ≠ [], (rt B).1.head? = some (B.getLast h)

/-- R207: for an index in range, RTinv succeeds exactly when its successor mapping is one cycle, and exactly when the pair is the
output of RT for some block; that block is then the result, and the only one. -/
def Obligations.InverseReorderingSucceedsExactlyOnOutputs : Prop :=
  ∀ (C : List Byte) (I : Nat), I ≤ C.length →
    ((∃ B, rtInv C I = .ok B) ↔ OneCycle (successors (columnWithSentinel C I)))
      ∧ ∀ B, rtInv C I = .ok B ↔ rt B = (C, I)

/-- R206, R207: RT_INV completes for every column and index that RT makes of some block, and recovers that block in BUF_A;
nothing else changes. -/
def Obligations.RtInvRecoversTheBlock : Prop :=
  ∀ (s : State) (B C : List Byte) (I : Nat), s.blkLenValue.toNat ≤ s.cfg.blockMax → s.cfg.Legal →
    s.readBuf .c s.blkLenValue.toNat = some C → s.rotIdxValue = BitVec.ofNat 32 I → IsReordering B C I →
    ∃ t,
      exec .rtInv s = .next t ∧ t.readBuf .a s.blkLenValue.toNat = some B
        ∧ t.status = { s.status with busy := false, done := true }
        ∧ KeepsOffsetAndError s t
        ∧ ChangesOnly (fun _ => false) (fun b => if b = .a then B.length else 0) s t

/-- R206, R207, R208: what RT_INV rejects. An index above the block length, compared with all 32 bits, is INVALID_ROTATION_INDEX; an index
in range that makes no pair of R201 with the column is INVALID_COLUMN, so index 0 with a nonempty block always is. -/
def Obligations.RtInvRejectsBadIndexesAndColumns : Prop :=
  ∀ (s : State) (C : List Byte), s.blkLenValue.toNat ≤ s.cfg.blockMax →
    s.readBuf .c s.blkLenValue.toNat = some C →
    (s.blkLenValue.toNat < s.rotIdxValue.toNat → ∃ t, exec .rtInv s = .next t ∧ t.errCode = some .invalidRotationIndex)
      ∧ (s.rotIdxValue.toNat ≤ s.blkLenValue.toNat → (¬∃ B, IsReordering B C s.rotIdxValue.toNat) →
        ∃ t, exec .rtInv s = .next t ∧ t.errCode = some .invalidColumn)
      ∧ (s.rotIdxValue = 0#32 → s.blkLenValue ≠ 0#32 → ∃ t, exec .rtInv s = .next t ∧ t.errCode = some .invalidColumn)

/-! ## The Recency-Rank Transform -/

/-- R221: the move-to-front step brings entry r to the front, shifts the entries before it back by one, leaves those above r in
place, changes nothing for r = 0, and keeps a permutation of 0 to 255. -/
def Obligations.MoveToFrontShiftsEntries : Prop :=
  ∀ (l : List Byte) (r : Nat), l.Perm identityList → r < 256 →
    (mtfMove l r)[0]? = l[r]? ∧ (∀ i, 1 ≤ i → i ≤ r → (mtfMove l r)[i]? = l[i - 1]?)
      ∧ (∀ i, r < i → (mtfMove l r)[i]? = l[i]?) ∧ mtfMove l 0 = l ∧ (mtfMove l r).Perm identityList

/-- R226: MTFdec and MTFenc are inverse to each other, with the same RLIST after each step and at the end. -/
def Obligations.MoveToFrontRoundTrip : Prop :=
  ∀ S : List Byte,
    mtfDec (mtfEnc S).1 = (S, (mtfEnc S).2) ∧ mtfEnc (mtfDec S).1 = (S, (mtfDec S).2)
      ∧ (∀ k, mtfDec ((mtfEnc S).1.take k) = (S.take k, (mtfEnc (S.take k)).2))
      ∧ ∀ k, mtfEnc ((mtfDec S).1.take k) = (S.take k, (mtfDec (S.take k)).2)

/-- R222, R223, R225: RRT_ENC and RRT_DEC complete for every input that has its bytes; the one's output decodes under R224's rule to
its input and the other's encodes under R222's, RLIST gets the final order, and nothing else changes. -/
def Obligations.RrtCommandsComplete : Prop :=
  ∀ (s : State) (S : List Byte), s.blkLenValue.toNat ≤ s.cfg.blockMax → s.cfg.Legal →
    (s.readBuf .c s.blkLenValue.toNat = some S →
        ∃ (t : State) (R l : List Byte),
          exec .rrtEnc s = .next t ∧ t.readBuf .r S.length = some R ∧ t.rlist = .val l ∧ mtfDec R = (S, l)
            ∧ R = (mtfEnc S).1 ∧ t.status = { s.status with busy := false, done := true }
            ∧ KeepsOffsetAndError s t
            ∧ ChangesOnly (· == .rlist) (fun b => if b = .r then S.length else 0) s t)
      ∧ (s.readBuf .r s.blkLenValue.toNat = some S →
        ∃ (t : State) (C l : List Byte),
          exec .rrtDec s = .next t ∧ t.readBuf .c S.length = some C ∧ t.rlist = .val l ∧ mtfEnc C = (S, l)
            ∧ C = (mtfDec S).1 ∧ t.status = { s.status with busy := false, done := true }
            ∧ KeepsOffsetAndError s t
            ∧ ChangesOnly (· == .rlist) (fun b => if b = .c then S.length else 0) s t)

/-- R223: the first byte of a block encodes as itself, a byte equal to the one before it encodes as 0, and conversely. -/
def Obligations.FirstByteIsItsOwnRankAndRepeatsAreZero : Prop :=
  ∀ (S : List Byte),
    (mtfEnc S).1.length = S.length ∧ (mtfEnc S).1[0]? = S[0]?
      ∧ ∀ i, i + 1 < S.length → ((mtfEnc S).1[i + 1]? = some 0#8 ↔ S[i + 1]? = S[i]?)

/-! ## The Run-Length Codec -/

/-- R243, R244, R343: RLCdec returns S exactly on the concatenations of valid tokens that stand for S and fit in the limit; it reports
MALFORMED_RUN_TOKEN exactly when valid tokens that fit are followed by bytes that begin no valid token, and OUTPUT_OVERFLOW exactly
when they are followed by a valid token that does not fit, whatever comes after. RLC_DEC reports the error RLCdec does. -/
def Obligations.RunLengthDecoderAcceptsExactlyTokenStreams : Prop :=
  (∀ (T S : List Byte) (lim : Nat),
      rlcDec T lim = .ok S ↔
        ∃ toks : List Token, (∀ t ∈ toks, t.wellFormed = true) ∧ T = toks.flatMap tokenBytes
          ∧ S = toks.flatMap tokenSymbols ∧ S.length ≤ lim)
    ∧ (∀ (T : List Byte) (lim : Nat),
      rlcDec T lim = .error .malformedRunToken ↔
        ∃ (toks : List Token) (rest : List Byte), (∀ t ∈ toks, t.wellFormed = true) ∧ T = toks.flatMap tokenBytes ++ rest
          ∧ (toks.flatMap tokenSymbols).length ≤ lim ∧ badTokenStart rest = true)
    ∧ (∀ (T : List Byte) (lim : Nat),
      rlcDec T lim = .error .outputOverflow ↔
        ∃ (toks : List Token) (k : Token) (rest : List Byte), (∀ t ∈ k :: toks, t.wellFormed = true)
          ∧ T = toks.flatMap tokenBytes ++ tokenBytes k ++ rest ∧ (toks.flatMap tokenSymbols).length ≤ lim
          ∧ lim < (toks.flatMap tokenSymbols).length + (tokenSymbols k).length)
    ∧ ∀ (s : State) (T : List Byte) (e : ErrorKind), s.tokLenValue.toNat ≤ tokenMax s.cfg →
      s.readBuf .t s.tokLenValue.toNat = some T → rlcDec T s.cfg.blockMax = .error e →
      ∃ t, exec .rlcDec s = .next t ∧ t.status.err = true ∧ t.errCode = some e

/-- R241: every output of RLCenc is made of valid tokens in canonical form, is at most 2n bytes long, and exactly 2n bytes long when
and only when no two adjacent bytes are equal. -/
def Obligations.RunLengthEncoderOutput : Prop :=
  ∀ S : List Byte,
    (∃ toks : List Token, (∀ t ∈ toks, t.wellFormed = true) ∧ CanonicalTokens toks ∧ rlcEnc S = toks.flatMap tokenBytes)
      ∧ (rlcEnc S).length ≤ 2 * S.length
      ∧ ((rlcEnc S).length = 2 * S.length ↔ S.IsChain (· ≠ ·)) ∧ rlcEnc [] = []

/-- R245: decoding an encoded sequence gives it back, encoding what a stream of valid tokens decodes to gives the stream back exactly
when it is canonical, and otherwise gives the canonical stream of the same bytes. -/
def Obligations.RunLengthRoundTrip : Prop :=
  (∀ (S : List Byte) (lim : Nat), S.length ≤ lim → rlcDec (rlcEnc S) lim = .ok S)
    ∧ ∀ (toks : List Token) (S : List Byte) (lim : Nat), (∀ t ∈ toks, t.wellFormed = true) →
      rlcDec (toks.flatMap tokenBytes) lim = .ok S →
      (rlcEnc S = toks.flatMap tokenBytes ↔ CanonicalTokens toks)
        ∧ ∃ toks' : List Token, CanonicalTokens toks' ∧ (∀ t ∈ toks', t.wellFormed = true)
          ∧ rlcEnc S = toks'.flatMap tokenBytes ∧ toks'.flatMap tokenSymbols = S

/-- R242, R244: RLC_ENC completes for every rank string that has its bytes, RLC_DEC for every stream of valid tokens whose bytes
fit in BLOCK_MAX; each writes its output and its length, and nothing else changes. -/
def Obligations.RlcCommandsComplete : Prop :=
  ∀ (s : State), s.cfg.Legal →
    (∀ S, s.blkLenValue.toNat ≤ s.cfg.blockMax → s.readBuf .r s.blkLenValue.toNat = some S →
        ∃ t toks,
          exec .rlcEnc s = .next t ∧ CanonicalTokens toks ∧ (∀ k ∈ toks, k.wellFormed = true)
            ∧ toks.flatMap tokenSymbols = S ∧ t.readBuf .t (toks.flatMap tokenBytes).length = some (toks.flatMap tokenBytes)
            ∧ t.tokLen = .val (BitVec.ofNat 32 (toks.flatMap tokenBytes).length)
            ∧ t.status = { s.status with busy := false, done := true }
            ∧ KeepsOffsetAndError s t
            ∧ ChangesOnly (· == .tokLen) (fun b => if b = .t then (rlcEnc S).length else 0) s t)
      ∧ ∀ toks : List Token, s.tokLenValue.toNat ≤ tokenMax s.cfg → (∀ k ∈ toks, k.wellFormed = true) →
        s.readBuf .t s.tokLenValue.toNat = some (toks.flatMap tokenBytes) →
        (toks.flatMap tokenSymbols).length ≤ s.cfg.blockMax →
        ∃ t,
          exec .rlcDec s = .next t
            ∧ t.readBuf .r (toks.flatMap tokenSymbols).length = some (toks.flatMap tokenSymbols)
            ∧ t.blkLen = .val (BitVec.ofNat 32 (toks.flatMap tokenSymbols).length)
            ∧ t.status = { s.status with busy := false, done := true }
            ∧ KeepsOffsetAndError s t
            ∧ ChangesOnly (· == .blkLen) (fun b => if b = .r then (toks.flatMap tokenSymbols).length else 0) s t

/-! ## The Entropy Coder -/

/-- R260, R261: EC_COUNT completes for every token stream that has its bytes; every FREQ entry becomes the count of its byte, the
counts add up to the length, FREQ_COUNT is how many are not 0, and nothing else changes. -/
def Obligations.EcCountCounts : Prop :=
  ∀ (s : State) (T : List Byte), s.cfg.Legal → s.tokLenValue.toNat ≤ tokenMax s.cfg →
    s.readBuf .t s.tokLenValue.toNat = some T →
    ∃ t,
      exec .ecCount s = .next t ∧ (∀ sym < 256, t.freqAt sym = T.count (BitVec.ofNat 8 sym))
        ∧ (t.freqTable.sum = T.length) ∧ t.freqCount = .val (BitVec.ofNat 32 (t.freqTable.countP (· ≠ 0)))
        ∧ t.status = { s.status with busy := false, done := true }
        ∧ KeepsOffsetAndError s t
        ∧ ChangesOnly (fun o => o == .freq || o == .freqCount) (fun _ => 0) s t

/-- R263 to R267, R147: the tree of a table of counts is the one the rounds of R264 make of its leaves, empty when there are none; a
symbol's code leads from its root to the symbol's leaf, and is the one bit 0 where there is one leaf. EC_BUILD completes from every
state: a symbol has a code exactly when its count is not 0, CODELEN and CODE hold the codes of TREE, CODE is 0 beyond the code,
FREQ_COUNT is how many counts are not 0, and nothing but TREE, CODELEN, CODE and FREQ_COUNT changes. -/
def Obligations.EcBuildMakesTheTreeOfTheMerges : Prop :=
  (∀ F : List Nat, F.length = 256 →
      (buildTree F = none ↔ card F = 0)
        ∧ (∀ tree, buildTree F = some tree ↔ MergesTo (card F) (leavesOf F) tree)
        ∧ ∀ tree, buildTree F = some tree → ∀ sym < 256, F.getD sym 0 ≠ 0 →
          let code := codeIn (treeCodes (some tree)) sym
          if card F = 1 then code = [false]
          else ∃ seq, descend tree code = some (.leaf (BitVec.ofNat 8 sym) (F.getD sym 0) seq))
    ∧ ∀ s : State,
      ∃ t,
        exec .ecBuild s = .next t ∧ (∀ sym < 256, t.codeLenAt sym = 0#8 ↔ s.freqAt sym = 0)
          ∧ (∀ sym < 256,
            let code := codeIn (treeCodes (buildTree s.freqTable)) sym
            (t.codeLenAt sym).toNat = code.length ∧ ∀ i (h : i < code.length), (t.codeAt sym).getMsbD i = code[i])
          ∧ (∀ b : Byte, t.codeOf b = codeIn (treeCodes (buildTree s.freqTable)) b.toNat)
          ∧ (∀ sym < 256, ∀ i, (t.codeLenAt sym).toNat ≤ i → (t.codeAt sym).getMsbD i = false)
          ∧ t.tree = .val (buildTree s.freqTable)
          ∧ t.freqCount = .val (BitVec.ofNat 32 (s.freqTable.countP (· ≠ 0)))
          ∧ t.status = { s.status with busy := false, done := true }
          ∧ KeepsOffsetAndError s t
          ∧ ChangesOnly (fun o => o == .tree || o == .codeLen || o == .code || o == .freqCount) (fun _ => 0) s t

/-- R265, R272: the codes built from any 256 counts are prefix-free and meet Kraft's inequality: the sum of 2 to the minus length
over the symbols with a code is 1 for two or more of them and 1/2 for one (written with 2 to the 255 minus length). -/
def Obligations.CodesArePrefixFreeAndMeetKraft : Prop :=
  ∀ F : List Nat, F.length = 256 →
    let code (sym : Nat) : List Bool := codeIn (treeCodes (buildTree F)) sym
    (∀ sym < 256, (code sym).length ≤ 255 ∧ (code sym = [] ↔ F.getD sym 0 = 0))
      ∧ (∀ x < 256, ∀ y < 256, x ≠ y → code x ≠ [] → code y ≠ [] → ¬(code x <+: code y))
      ∧ (2 ≤ card F →
        (((List.range 256).filter fun sym => code sym ≠ []).map fun sym => 2 ^ (255 - (code sym).length)).sum = 2 ^ 255)
      ∧ (card F = 1 →
        (((List.range 256).filter fun sym => code sym ≠ []).map fun sym => 2 ^ (255 - (code sym).length)).sum = 2 ^ 254)

/-- R262: coding a stream with the codes built from its own histogram takes at most 8 bits a token, so packing it never fails when
the payload buffer holds as many bytes as the stream has. R262 marks its ground, the optimality of the code, as general knowledge
and not the source's; this statement does not take it as given. -/
def Obligations.OwnCodesTakeAtMostEightBitsAToken : Prop :=
  ∀ (T : List Byte) (maxBytes : Nat), T.length ≤ maxBytes →
    let code (b : Byte) : List Bool := codeIn (treeCodes (buildTree (hist T))) b.toNat
    (T.flatMap code).length ≤ 8 * T.length
      ∧ ∃ payload pad, ecPack code maxBytes T = .ok (payload, pad) ∧ payload.length ≤ T.length

/-- R272: unpacking what was packed with the codes of the stream's own histogram gives the stream back. -/
def Obligations.EntropyCoderRoundTrip : Prop :=
  ∀ (T : List Byte) (maxBytes lim : Nat) (payload : List Byte) (pad : Nat), T.length ≤ lim →
    ecPack (fun b => codeIn (treeCodes (buildTree (hist T))) b.toNat) maxBytes T = .ok (payload, pad) →
    ecUnpack (buildTree (hist T)) (hist T) lim payload pad = .ok T

/-- R145, R146, R268, R269: EC_PACK completes for every stream whose bytes all have a code and whose bits fit: the payload's bits are
the codes of the tokens in order and then 0 to 7 zero bits, PAY_LEN and PAD_CNT say so, and nothing else changes. -/
def Obligations.EcPackCompletes : Prop :=
  ∀ (s : State) (T : List Byte), s.cfg.Legal → s.tokLenValue.toNat ≤ tokenMax s.cfg →
    s.readBuf .t s.tokLenValue.toNat = some T → (∀ b ∈ T, s.codeLenAt b.toNat ≠ 0#8) →
    ((T.map fun b => (s.codeLenAt b.toNat).toNat).sum + 7) / 8 ≤ payloadMax s.cfg →
    ∃ t payload pad,
      exec .ecPack s = .next t ∧ t.readBuf .p payload.length = some payload
        ∧ payloadBits payload = T.flatMap s.codeOf ++ List.replicate pad false ∧ pad ≤ 7
        ∧ t.payLen = .val (BitVec.ofNat 32 payload.length) ∧ t.padCnt = .val (BitVec.ofNat 8 pad)
        ∧ t.status = { s.status with busy := false, done := true }
        ∧ KeepsOffsetAndError s t
        ∧ ChangesOnly (fun o => o == .payLen || o == .padCnt) (fun b => if b = .p then payload.length else 0) s t

/-- R270, R271: EC_UNPACK completes on the payload of a stream, under the TREE built from the stream's counts and a FREQ that holds
them, whatever the pad bits are; it writes the stream and its length, and nothing else changes. -/
def Obligations.EcUnpackCompletes : Prop :=
  ∀ (s : State) (T payload : List Byte) (bits padding : List Bool), s.cfg.Legal → s.payLenValue.toNat ≤ payloadMax s.cfg →
    s.readBuf .p s.payLenValue.toNat = some payload → T.length ≤ tokenMax s.cfg → s.freqTable = hist T →
    s.treeValue = buildTree (hist T) →
    bits = T.flatMap (fun b => codeIn (treeCodes (buildTree (hist T))) b.toNat) →
    payloadBits payload = bits ++ padding → padding.length ≤ 7 → s.padCntValue.toNat = padding.length →
    ∃ t,
      exec .ecUnpack s = .next t ∧ t.readBuf .t T.length = some T ∧ t.tokLen = .val (BitVec.ofNat 32 T.length)
        ∧ t.status = { s.status with busy := false, done := true }
        ∧ KeepsOffsetAndError s t
        ∧ ChangesOnly (· == .tokLen) (fun b => if b = .t then T.length else 0) s t

/-- R268, R269, R270, R271, R343: what EC_PACK and EC_UNPACK reject, and what ECunpack accepts. EC_PACK: the first token without a code
ends in SYMBOL_NOT_IN_CODE, and the first whose code no longer fits in the payload buffer in OUTPUT_OVERFLOW, whatever comes after.
ECunpack, for every tree: a pad count of 8 or more, or one other than 0 with an empty payload, is PADDING_OUT_OF_RANGE; otherwise the
data bits are read as codes of leaves. It returns their symbols when the codes make up all the bits, are at most TOKEN_MAX and have
the counts of FREQ; it is OUTPUT_OVERFLOW when one code more than TOKEN_MAX is there, whatever comes after; and it is
INCONSISTENT_FREQ_TABLE when at most TOKEN_MAX codes are followed by bits that begin with no code (the bits end inside a code, a bit
has no branch, the tree is empty) or make up all the bits but have other counts. EC_UNPACK reports what ECunpack does. -/
def Obligations.EcPackAndEcUnpackRejectBadInputs : Prop :=
  (∀ (s : State) (T pre post : List Byte) (b : Byte), s.tokLenValue.toNat ≤ tokenMax s.cfg →
      s.readBuf .t s.tokLenValue.toNat = some T → T = pre ++ b :: post → (∀ x ∈ pre, s.codeLenAt x.toNat ≠ 0#8) →
      ((pre.map fun x => (s.codeLenAt x.toNat).toNat).sum + 7) / 8 ≤ payloadMax s.cfg →
      (s.codeLenAt b.toNat = 0#8 → ∃ t, exec .ecPack s = .next t ∧ t.errCode = some .symbolNotInCode)
        ∧ (s.codeLenAt b.toNat ≠ 0#8 →
          payloadMax s.cfg
              < ((pre.map fun x => (s.codeLenAt x.toNat).toNat).sum + (s.codeLenAt b.toNat).toNat + 7) / 8 →
          ∃ t, exec .ecPack s = .next t ∧ t.errCode = some .outputOverflow))
    ∧ (∀ (tree : Option CodeTree) (F : List Nat) (lim : Nat) (payload : List Byte) (pad : Nat),
      if 8 ≤ pad ∨ (payload = [] ∧ pad ≠ 0) then ecUnpack tree F lim payload pad = .error .paddingOutOfRange
      else
        (∀ T, ecUnpack tree F lim payload pad = .ok T ↔
            ∃ leaves, CodesThen tree (dataBits payload pad) leaves [] ∧ T = leaves.map Prod.fst ∧ T.length ≤ lim ∧ hist T = F)
          ∧ (ecUnpack tree F lim payload pad = .error .outputOverflow ↔
            ∃ leaves rest, CodesThen tree (dataBits payload pad) leaves rest ∧ leaves.length = lim + 1)
          ∧ (ecUnpack tree F lim payload pad = .error .inconsistentFreqTable ↔
            ∃ leaves rest, CodesThen tree (dataBits payload pad) leaves rest ∧ leaves.length ≤ lim
              ∧ ((rest ≠ [] ∧ ∀ p ∈ treeCodes tree, ¬(p.2 <+: rest)) ∨ (rest = [] ∧ hist (leaves.map Prod.fst) ≠ F))))
    ∧ ∀ (s : State) (payload : List Byte), s.payLenValue.toNat ≤ payloadMax s.cfg →
      s.readBuf .p s.payLenValue.toNat = some payload →
      (∀ e, ecUnpack s.treeValue s.freqTable (tokenMax s.cfg) payload s.padCntValue.toNat = .error e →
          ∃ t, exec .ecUnpack s = .next t ∧ t.status.err = true ∧ t.errCode = some e)
        ∧ (8 ≤ s.padCntValue.toNat ∨ (s.payLenValue = 0#32 ∧ s.padCntValue ≠ 0#8) →
          ∃ t, exec .ecUnpack s = .next t ∧ t.errCode = some .paddingOutOfRange)
        ∧ (s.padCntValue.toNat < 8 → s.payLenValue ≠ 0#32 → s.treeValue = none →
          ∃ t, exec .ecUnpack s = .next t ∧ t.errCode = some .inconsistentFreqTable)

/-! ## Frames and the composite commands -/

/-- R315: FrameDes of a window that starts with a frame of FrameSer returns what the frame was made from and its length, and every
frame FrameDes accepts is FrameSer of what it returns. Counts are 32-bit values. -/
def Obligations.FrameCodecRoundTrip : Prop :=
  (∀ (maxBytes : Nat) (rot : Word) (pad : Byte) (F : List Nat) (payload f : List Byte) (rest : List (Option Byte)),
      maxBytes < 2 ^ 32 → F.length = 256 → (∀ c ∈ F, c < 2 ^ 32) → serializeFrame maxBytes rot pad F payload = .ok f →
      deserializeFrame maxBytes (f.map some ++ rest)
        = .ok (some ⟨rot.toNat, pad.toNat, F, card F, payload, f.length⟩))
    ∧ ∀ (maxBytes : Nat) (window : List (Option Byte)) (fr : Frame),
      deserializeFrame maxBytes window = .ok (some fr) →
      ∃ f, serializeFrame maxBytes (BitVec.ofNat 32 fr.rot) (BitVec.ofNat 8 fr.pad) fr.freq fr.payload = .ok f
        ∧ window.take fr.length = f.map some ∧ f.length = fr.length ∧ fr.count = card fr.freq ∧ fr.freq.length = 256

/-- R130, R131, R300, R301: FRAME_SER completes for every payload that has its bytes and passes the three checks: the frame stands in
BUF_F with every field at its offset, FRAME_LEN is its length 11 + 5k + P, and nothing else changes. Of the checks, the length's is
that of R183; a pad count of 8 or more, or one other than 0 with an empty payload, ends in PADDING_OUT_OF_RANGE; otherwise a payload
with an empty table ends in INCONSISTENT_FREQ_TABLE. -/
def Obligations.FrameSerLaysOutTheFrameOrRejects : Prop :=
  ∀ (s : State) (payload : List Byte), s.cfg.Legal → s.payLenValue.toNat ≤ payloadMax s.cfg →
    s.readBuf .p s.payLenValue.toNat = some payload →
    let k := card s.freqTable
    let entries := ((List.range 256).filter fun sym => s.freqAt sym ≠ 0)
    if 8 ≤ s.padCntValue.toNat ∨ (payload = [] ∧ s.padCntValue ≠ 0#8) then
      ∃ t, exec .frameSer s = .next t ∧ t.errCode = some .paddingOutOfRange
    else if k = 0 ∧ payload ≠ [] then ∃ t, exec .frameSer s = .next t ∧ t.errCode = some .inconsistentFreqTable
    else
      ∃ t frame,
        exec .frameSer s = .next t ∧ t.readBuf .f (11 + 5 * k + payload.length) = some frame
          ∧ frame.take 4 = be32 s.rotIdxValue.toNat ∧ (frame.drop 4).take 1 = [s.padCntValue]
          ∧ (frame.drop 5).take 2 = be16 k
          ∧ (∀ i < k, (frame.drop (7 + 5 * i)).take 5
              = BitVec.ofNat 8 (entries.getD i 0) :: be32 (s.freqAt (entries.getD i 0)))
          ∧ (frame.drop (7 + 5 * k)).take 4 = be32 payload.length ∧ frame.drop (11 + 5 * k) = payload
          ∧ t.frameLen = .val (BitVec.ofNat 32 (11 + 5 * k + payload.length))
          ∧ t.status = { s.status with busy := false, done := true }
          ∧ KeepsOffsetAndError s t
          ∧ ChangesOnly (· == .frameLen) (fun b => if b = .f then 11 + 5 * k + payload.length else 0) s t

/-- R310, R311, R312, R343: FRAME_DES completes on every window that starts with a frame of FrameSer, whatever bytes follow it, even bytes
with no value (log entry 4); it writes the frame's fields, and nothing else changes. On a nonempty window whose bytes all have a
value, FRAME_DES and DECOMPRESS_FRAME report the error of the first field in wire order that fails, and FRAME_DES reports none where
no field fails. -/
def Obligations.FrameDesReadsTheFrameOrReportsTheFirstBadField : Prop :=
  (∀ (s : State) (rot : Word) (pad : Byte) (F : List Nat) (payload f : List Byte) (rest : List (Option Byte)), s.cfg.Legal →
      s.inLen.toNat ≤ frameMax s.cfg → F.length = 256 → (∀ c ∈ F, c < 2 ^ 32) →
      serializeFrame (payloadMax s.cfg) rot pad F payload = .ok f → s.bufWindow .f s.inLen.toNat = f.map some ++ rest →
      ∃ t,
        exec .frameDes s = .next t ∧ t.rotIdx = .val rot ∧ t.padCnt = .val pad ∧ t.freqTable = F
          ∧ t.freqCount = .val (BitVec.ofNat 32 (card F)) ∧ t.payLen = .val (BitVec.ofNat 32 payload.length)
          ∧ t.readBuf .p payload.length = some payload ∧ t.frameLen = .val (BitVec.ofNat 32 f.length)
          ∧ t.status = { s.status with busy := false, done := true }
          ∧ KeepsOffsetAndError s t
          ∧ ChangesOnly
            (fun o => o == .rotIdx || o == .padCnt || o == .freq || o == .freqCount || o == .payLen || o == .frameLen)
            (fun b => if b = .p then payload.length else 0) s t)
    ∧ ∀ (s : State) (W : List Byte), s.inLen.toNat ≤ frameMax s.cfg → s.readBuf .f s.inLen.toNat = some W → W ≠ [] →
      s.status.err = false →
      match frameFailure (payloadMax s.cfg) W with
      | some e =>
        (∃ t, exec .frameDes s = .next t ∧ t.status.err = true ∧ t.errCode = some e)
          ∧ ∃ t, exec .decompressFrame s = .next t ∧ t.status.err = true ∧ t.errCode = some e
      | none => ∃ t, exec .frameDes s = .next t ∧ t.status.err = false

/-- R313: with IN_LEN = 0, FRAME_DES and DECOMPRESS_FRAME complete with END set and FRAME_LEN = 0, and change nothing else. -/
def Obligations.EmptyWindowIsTheEndOfTheStream : Prop :=
  ∀ s : State, s.inLen = 0#32 →
    exec .frameDes s =
        .next { s with frameLen := .val 0, status := { s.status with endOfStream := true, busy := false, done := true } }
      ∧ exec .decompressFrame s = exec .frameDes s

/-- R321, R323, R341: COMPRESS_BLOCK completes for every block that has its bytes, without error: an empty block makes no frame, any
other makes the block's frame in BUF_F; FRAME_LEN is its length and STREAM_OFFSET advances by it. BUF_A and IN_LEN stay. For the
empty block ROT_IDX, TOK_LEN, PAY_LEN, PAD_CNT, FREQ_COUNT and all of FREQ and CODELEN are 0, RLIST is the identity, TREE is empty, and
no buffer byte changes. -/
def Obligations.CompressBlockNeverFails : Prop :=
  ∀ (s : State) (B : List Byte), s.cfg.Legal → s.blkLenValue.toNat ≤ s.cfg.blockMax →
    s.readBuf .a s.blkLenValue.toNat = some B →
    ∃ t frame,
      exec .compressBlock s = .next t ∧ (B = [] → frame = []) ∧ (B ≠ [] → blockFrame s.cfg B = some frame)
        ∧ t.readBuf .f frame.length = some frame ∧ t.frameLen = .val (BitVec.ofNat 32 frame.length)
        ∧ t.streamOffset = s.streamOffset + BitVec.ofNat 32 frame.length
        ∧ t.status = { s.status with busy := false, done := true }
        ∧ t.errCode = s.errCode ∧ t.errOffset = s.errOffset ∧ t.inLen = s.inLen ∧ t.blkLen = s.blkLen
        ∧ (∀ i < s.cfg.blockMax, t.cell .a i = s.cell .a i)
        ∧ (B = [] →
          t.rotIdx = .val 0 ∧ t.tokLen = .val 0 ∧ t.payLen = .val 0 ∧ t.padCnt = .val 0 ∧ t.freqCount = .val 0
            ∧ (∀ sym < 256, t.freqAt sym = 0 ∧ t.codeLenAt sym = 0#8 ∧ t.codeAt sym = 0#256) ∧ t.rlist = .val identityList
            ∧ t.tree = .val none ∧ ∀ b i, t.cell b i = s.cell b i)

/-- R321: the outputs of COMPRESS_BLOCK equal those of RT_FWD, RRT_ENC, RLC_ENC, EC_COUNT, EC_BUILD, EC_PACK and FRAME_SER in
sequence, the last one only for a nonempty block; STREAM_OFFSET then advances by FRAME_LEN. The stages run here without a step between
them, so where BLK_LEN is UNSPECIFIED the three that read it share the one draw COMPRESS_BLOCK makes (log entry 1); commands
issued one by one would each draw anew (R23). -/
def Obligations.CompressBlockEqualsItsStages : Prop :=
  ∀ (s t : State), s.cfg.Legal → s.status.err = false → exec .compressBlock s = .next t → t.status.err = false →
    (s.blkLenValue ≠ 0#32 →
        ∃ u,
          execAll s [.rtFwd, .rrtEnc, .rlcEnc, .ecCount, .ecBuild, .ecPack, .frameSer] = .next u
            ∧ t = { u with streamOffset := s.streamOffset + u.frameLenValue })
      ∧ (s.blkLenValue = 0#32 →
        ∃ u,
          execAll s [.rtFwd, .rrtEnc, .rlcEnc, .ecCount, .ecBuild, .ecPack] = .next u ∧ t = { u with frameLen := .val 0 })

/-- R322: the outputs of a DECOMPRESS_FRAME that succeeds on a frame equal those of FRAME_DES, EC_BUILD, EC_UNPACK, RLC_DEC, RRT_DEC
and RT_INV in sequence; STREAM_OFFSET then advances by FRAME_LEN. -/
def Obligations.DecompressFrameEqualsItsStages : Prop :=
  ∀ (s t : State), s.cfg.Legal → s.inLen ≠ 0#32 → s.status.err = false →
    exec .decompressFrame s = .next t → t.status.err = false →
    ∃ u,
      execAll s [.frameDes, .ecBuild, .ecUnpack, .rlcDec, .rrtDec, .rtInv] = .next u
        ∧ t = { u with streamOffset := s.streamOffset + u.frameLenValue }

/-- R314, R322, R343: DECOMPRESS_FRAME completes on every window that starts with the frame of a block: it recovers the block in BUF_A and
its length in BLK_LEN, and STREAM_OFFSET advances by the frame's length. BUF_F and IN_LEN stay. On a window that starts with any frame
of FrameSer, it reports the error of the first of ECunpack, RLCdec and RTinv that fails, and where none fails it completes with their
results. R184, R124: after such an error BUF_P is UNSPECIFIED below |payload|, BUF_T below |T| once ECunpack has succeeded, BUF_R, BUF_C
and BUF_A below |S| once RLCdec has, and every byte from there on stays, as BUF_F does; where the length was never computed, the whole
buffer is UNSPECIFIED (log entry 5). The empty block's frame is 11 bytes of 0, which COMPRESS_BLOCK never makes; the same frame with
another rotation index ends in INVALID_ROTATION_INDEX. -/
def Obligations.DecompressFrameRecoversTheBlockOrReportsTheFirstStage : Prop :=
  (∀ (s : State) (B frame : List Byte) (rest : List (Option Byte)), s.cfg.Legal → s.inLen.toNat ≤ frameMax s.cfg →
      B.length ≤ s.cfg.blockMax → blockFrame s.cfg B = some frame →
      s.bufWindow .f s.inLen.toNat = frame.map some ++ rest →
      ∃ t,
        exec .decompressFrame s = .next t ∧ t.readBuf .a B.length = some B ∧ t.blkLen = .val (BitVec.ofNat 32 B.length)
          ∧ t.frameLen = .val (BitVec.ofNat 32 frame.length)
          ∧ t.streamOffset = s.streamOffset + BitVec.ofNat 32 frame.length
          ∧ t.status = { s.status with busy := false, done := true }
          ∧ t.errCode = s.errCode ∧ t.errOffset = s.errOffset ∧ t.inLen = s.inLen ∧ ∀ i < frameMax s.cfg, t.cell .f i = s.cell .f i)
    ∧ (∀ (s : State) (rot : Word) (pad : Byte) (F : List Nat) (payload f : List Byte) (rest : List (Option Byte)), s.cfg.Legal →
      s.inLen.toNat ≤ frameMax s.cfg → F.length = 256 → (∀ c ∈ F, c < 2 ^ 32) →
      serializeFrame (payloadMax s.cfg) rot pad F payload = .ok f → s.bufWindow .f s.inLen.toNat = f.map some ++ rest →
      let fails (e : ErrorKind) (tokens block : Nat) : Prop :=
        ∃ t,
          exec .decompressFrame s = .next t ∧ t.status.err = true ∧ t.errCode = some e
            ∧ ∀ b i, i < bufCapacity s.cfg b →
              t.cell b i =
                if i < (match b with | .p => payload.length | .t => tokens | .r | .c | .a => block | .f => 0) then
                  some .unspecified
                else s.cell b i
      (∀ e, ecUnpack (buildTree F) F (tokenMax s.cfg) payload pad.toNat = .error e → fails e (tokenMax s.cfg) s.cfg.blockMax)
        ∧ ∀ T, ecUnpack (buildTree F) F (tokenMax s.cfg) payload pad.toNat = .ok T →
          (∀ e, rlcDec T s.cfg.blockMax = .error e → fails e T.length s.cfg.blockMax)
            ∧ ∀ R, rlcDec T s.cfg.blockMax = .ok R →
              (∀ e, rtInv (mtfDec R).1 rot.toNat = .error e → fails e T.length R.length)
                ∧ ∀ B, rtInv (mtfDec R).1 rot.toNat = .ok B →
                  ∃ t,
                    exec .decompressFrame s = .next t ∧ t.readBuf .a B.length = some B ∧ t.readBuf .t T.length = some T
                      ∧ t.readBuf .r R.length = some R ∧ t.readBuf .c R.length = some (mtfDec R).1
                      ∧ t.rlist = .val (mtfDec R).2 ∧ t.tokLen = .val (BitVec.ofNat 32 T.length)
                      ∧ t.blkLen = .val (BitVec.ofNat 32 B.length) ∧ t.status = { s.status with busy := false, done := true })
    ∧ (∀ cfg : Config, blockFrame cfg [] = some (List.replicate 11 0#8))
    ∧ ∀ (s : State) (rot : Word) (rest : List (Option Byte)), s.inLen.toNat ≤ frameMax s.cfg → rot ≠ 0#32 →
      s.bufWindow .f s.inLen.toNat = (be32 rot.toNat ++ List.replicate 7 0#8).map some ++ rest →
      ∃ t, exec .decompressFrame s = .next t ∧ t.status.err = true ∧ t.errCode = some .invalidRotationIndex

/-- R323, R325: compressing a block and decompressing, with IN_LEN set to FRAME_LEN, gives the block back, without error. The empty block
makes no frame, so IN_LEN is then 0 and DECOMPRESS_FRAME finds the end of the stream. Neither command then writes BLK_LEN, and no step
is counted between them here, so where BLK_LEN is UNSPECIFIED both, and the last read of BLK_LEN, share one draw (log entry 1); by
steps each would draw anew (R23). -/
def Obligations.CompressThenDecompressGivesTheBlockBack : Prop :=
  ∀ (s : State) (B : List Byte), s.cfg.Legal → s.blkLenValue.toNat ≤ s.cfg.blockMax →
    s.readBuf .a s.blkLenValue.toNat = some B →
    ∃ t u,
      exec .compressBlock s = .next t ∧ exec .decompressFrame { t with inLen := t.frameLenValue } = .next u
        ∧ u.readBuf .a B.length = some B ∧ u.blkLenValue = BitVec.ofNat 32 B.length
        ∧ u.status =
          { s.status with
            busy := false
            done := true
            endOfStream := if B = [] then true else s.status.endOfStream }

/-! ## Errors, frames of change and whole-machine rules -/

/-- R174: after a command that answers a next state, with an error or without, BUSY is 0 and DONE is 1. -/
def Obligations.PerformedCommandsClearBusyAndSetDone : Prop :=
  ∀ (i : Instr) (s t : State), exec i s = .next t → t.status.busy = false ∧ t.status.done = true

/-- R183: a command whose length register is above the capacity of the buffer it indexes raises LENGTH_OUT_OF_RANGE, whatever the
buffer holds. -/
def Obligations.LengthIsCheckedBeforeAnyByteIsRead : Prop :=
  ∀ (i : Instr) (s : State) (b : Buf) (n : Nat), inputRange s i = some (b, n) → bufCapacity s.cfg b < n →
    ∃ t, exec i s = .next t ∧ t.status.err = true ∧ t.errCode = some .lengthOutOfRange

/-- R106, R391: a command whose input bytes all have a value answers a next state; one of the commands that read their whole input
range stops with the fault of R106 when its length check passes and a byte of the range has no value. That such a command reads the
whole range is log entry 4's reading of R20. -/
def Obligations.CommandsStopOnlyOnBytesWithoutValue : Prop :=
  ∀ (i : Instr) (s : State),
    (inputsReady s i = true → ∃ t, exec i s = .next t)
      ∧ ∀ b n, inputRange s i = some (b, n) → n ≤ bufCapacity s.cfg b → b ≠ .f → (∃ j < n, s.cell b j = none) →
        exec i s = .fault (.noValueRead b)

/-- R105: a command that succeeds changes only the registers and tables R124 names as its outputs and the buffer bytes it stores,
besides STATUS, and STREAM_OFFSET for COMPRESS_BLOCK, DECOMPRESS_FRAME and STREAM_RESET alone. -/
def Obligations.SuccessChangesOnlyTheOutputs : Prop :=
  ∀ (i : Instr) (s t : State), s.cfg.Legal → s.status.err = false → exec i s = .next t → t.status.err = false →
    ChangesOnly (fun o => (outputSet s .nothing i).contains o) (storedLength s i) s t
      ∧ t.status.rej = (if i = .clearError then false else s.status.rej) ∧ t.status.busyViol = s.status.busyViol
      ∧ (i ≠ .frameDes → i ≠ .decompressFrame → t.status.endOfStream = s.status.endOfStream)
      ∧ (i ≠ .compressBlock → i ≠ .decompressFrame → i ≠ .streamReset → t.streamOffset = s.streamOffset)
      ∧ (i ≠ .clearError → t.errCode = s.errCode ∧ t.errOffset = s.errOffset)

/-- R184, R351, R352, R353: a command that raises an error latches it with its offset, makes every piece of its output set
UNSPECIFIED, keeps STREAM_OFFSET and END, and changes nothing else. A buffer range of DECOMPRESS_FRAME is bounded by its length where a
stage that succeeded computed it (R322), so the bytes beyond stay; that a range whose length was never computed is the whole buffer is
log entry 5's reading of R184. -/
def Obligations.ErrorsAreLatchedAndPrecise : Prop :=
  ∀ (i : Instr) (s t : State), s.cfg.Legal → s.status.err = false → exec i s = .next t → t.status.err = true →
    (∃ e, t.errCode = some e)
      ∧ t.errOffset = (if i = .frameDes ∨ i = .decompressFrame then s.streamOffset else 0#32)
      ∧ t.status = { s.status with busy := false, done := true, err := true } ∧ t.streamOffset = s.streamOffset
      ∧ (∀ o ∈ failedOutputs s i, HoldsUnspecified t o)
      ∧ ChangesOnly (fun o => (failedOutputs s i).contains o) (coveredBytes (failedOutputs s i)) s t

/-- R340, R341: every error a command raises is in the table's row for that error: the command is named there as one that raises
it. So NOP, EC_BUILD, STREAM_RESET and CLEAR_ERROR raise none, and COMPRESS_BLOCK, RT_FWD, RRT_ENC, RRT_DEC, RLC_ENC and EC_COUNT
raise only LENGTH_OUT_OF_RANGE. -/
def Obligations.RaisedErrorsAreThoseOfTheTable : Prop :=
  ∀ (i : Instr) (s t : State), s.status.err = false → exec i s = .next t → t.status.err = true →
    ∃ e, t.errCode = some e ∧ i ∈ raisedBy e

/-- R320: STREAM_OFFSET advances by the FRAME_LEN just written, modulo 2 to the 32, exactly on a COMPRESS_BLOCK or a
DECOMPRESS_FRAME that ends without error and without END; STREAM_RESET sets it to 0, and no other command changes it. A pending
command has END = 0, and with ERR = 1 it is NOP or CLEAR_ERROR (R171). -/
def Obligations.StreamOffsetAdvancesByTheFrameLength : Prop :=
  ∀ (i : Instr) (s t : State), (s.status.err = true → i = .nop ∨ i = .clearError) → s.status.endOfStream = false →
    exec i s = .next t →
    t.streamOffset =
      if i = .streamReset then 0#32
      else if (i = .compressBlock ∨ i = .decompressFrame) ∧ t.status.err = false ∧ t.status.endOfStream = false then
        s.streamOffset + t.frameLenValue
      else s.streamOffset

/-- R385: the result of COMPRESS_BLOCK depends only on its inputs: from two states that agree on BLOCK_MAX, BLK_LEN, the block and
STREAM_OFFSET it gives the same outputs. -/
def Obligations.CompressBlockDependsOnlyOnItsInputs : Prop :=
  ∀ (s s' t : State) (B : List Byte), s.cfg.Legal → s.cfg = s'.cfg → s.blkLenValue = s'.blkLenValue →
    s.streamOffset = s'.streamOffset → s.readBuf .a s.blkLenValue.toNat = some B →
    s'.readBuf .a s.blkLenValue.toNat = some B → s.blkLenValue.toNat ≤ s.cfg.blockMax → exec .compressBlock s = .next t →
    ∃ t',
      exec .compressBlock s' = .next t' ∧ t'.rotIdx = t.rotIdx ∧ t'.rlist = t.rlist ∧ t'.tokLen = t.tokLen
        ∧ t'.freq = t.freq ∧ t'.freqCount = t.freqCount ∧ t'.tree = t.tree ∧ t'.codeLen = t.codeLen ∧ t'.code = t.code
        ∧ t'.payLen = t.payLen ∧ t'.padCnt = t.padCnt ∧ t'.frameLen = t.frameLen ∧ t'.streamOffset = t.streamOffset
        ∧ ∀ b i, i < storedLength s .compressBlock b → t'.cell b i = t.cell b i

/-- R352, R354, R355: from every state that meets the invariant with an error latched, a step keeps the error latched and its code
and offset, unless it performs CLEAR_ERROR or resets the block. -/
def Obligations.TheFirstErrorStaysLatched : Prop :=
  ∀ (s t : State), Inv s → s.status.err = true → step s = .next t →
    (t.status.err = true ∧ t.errCode = s.errCode ∧ t.errOffset = s.errOffset)
      ∨ (s.status.busy = true ∧ s.cmd = 0x00000010#32 ∧ t.status.err = false ∧ t.errCode = none ∧ t.errOffset = 0#32)
      ∨ (∃ q, t = { State.resetOf s.cfg with epoch := s.epoch + 1, hostQueue := q, hostReads := s.hostReads })

/-- R361: the interrupt output rises only when a command completes or the host writes CTRL, and falls only when the host writes CTRL
or STATUS, a command is accepted, CLEAR_ERROR completes, or the block is reset. -/
def Obligations.InterruptRisesAndFallsOnlyOnTheseEvents : Prop :=
  ∀ (s t : State), step s = .next t →
    (s.irq = false → t.irq = true →
        (s.status.busy = true ∧ t.status.busy = false) ∨ ∃ v q, s.hostQueue = .write 0x18 .w4 v :: q)
      ∧ (s.irq = true → t.irq = false →
        (∃ v q, s.hostQueue = .write 0x18 .w4 v :: q ∨ s.hostQueue = .write 0x20 .w4 v :: q)
          ∨ (s.status.busy = false ∧ t.status.busy = true)
          ∨ (s.status.busy = true ∧ t.status.busy = false ∧ s.cmd = 0x00000010#32)
          ∨ ∃ q, s.hostQueue = .hardReset :: q)

/-- The invariant of the machine is kept by every step: canonical memory inside the capacities (R84, R96), RLIST a permutation
(R45), code tables that fit the tree (R47 to R49), the ranges of FREQ_COUNT and FRAME_LEN (R51, R52), ERR_CODE 0 exactly when no
error is latched (R38), DONE and END 0 while a command is pending, and only NOP or CLEAR_ERROR pending under an error (R171). -/
def Obligations.EveryStepKeepsTheInvariant : Prop := ∀ s t : State, Inv s → step s = .next t → Inv t

/-- The state after reset meets the invariant, for every legal BLOCK_MAX. -/
def Obligations.ResetMeetsTheInvariant : Prop := ∀ cfg : Config, cfg.Legal → Inv (State.resetOf cfg)

end Statements
end

