-- ==== Sys2Proof/Laws/Memory.lean ====
section
/-! SUPPORT. Sys2Proof/Laws/Memory.lean: reading after writing and erasing, and the canonical form that every memory operation keeps. -/

namespace Sys2Proof.Machine

@[simp] theorem memGet_nil (a : Nat) : memGet [] a = none := rfl

theorem memGet_cons (k : Nat) (b : Byte) (m : Memory) (a : Nat) :
    memGet ((k, b) :: m) a = if k = a then some b else memGet m a := rfl

/-- A byte written reads back, and every other byte reads as before. -/
theorem memGet_memSet (m : Memory) (a : Nat) (b : Byte) (a' : Nat) :
    memGet (memSet m a b) a' = if a' = a then some b else memGet m a' := by
  induction m with
  | nil => simp [memSet, memGet_cons, eq_comm]
  | cons cell rest ih =>
    obtain ⟨k, c⟩ := cell
    unfold memSet
    split
    · simp only [memGet_cons]; split <;> simp_all [eq_comm]
    · split
      · subst_vars; simp only [memGet_cons]; split <;> simp_all [eq_comm]
      · simp only [memGet_cons, ih]; split <;> split <;> simp_all

/-- Consecutive bytes written read back, and every other byte reads as before. -/
theorem memGet_memWriteBytes (m : Memory) (a : Nat) (bytes : List Byte) (a' : Nat) :
    memGet (memWriteBytes m a bytes) a'
      = if a ≤ a' ∧ a' < a + bytes.length then bytes[a' - a]? else memGet m a' := by
  induction bytes generalizing m a with
  | nil =>
    rw [memWriteBytes, if_neg (by simp only [List.length_nil]; omega)]
  | cons b bs ih =>
    rw [memWriteBytes, ih, memGet_memSet]
    by_cases h : a' = a
    · subst h
      rw [if_neg (by omega), if_pos rfl, if_pos (by simp)]
      simp
    · by_cases h1 : a + 1 ≤ a' ∧ a' < a + 1 + bs.length
      · have : a ≤ a' ∧ a' < a + (b :: bs).length := by simp; omega
        rw [if_pos h1, if_pos this]
        obtain ⟨d, rfl⟩ : ∃ d, a' = a + 1 + d := ⟨a' - (a + 1), by omega⟩
        rw [show a + 1 + d - (a + 1) = d by omega, show a + 1 + d - a = d + 1 by omega]
        simp
      · have : ¬(a ≤ a' ∧ a' < a + (b :: bs).length) := by simp; omega
        rw [if_neg h1, if_neg h, if_neg this]

theorem memGet_memErase (m : Memory) (lo hi a : Nat) :
    memGet (memErase m lo hi) a = if lo ≤ a ∧ a < hi then none else memGet m a := by
  induction m with
  | nil => simp [memErase]
  | cons cell rest ih =>
    obtain ⟨k, c⟩ := cell
    unfold memErase at ih ⊢
    rw [List.filter_cons]
    split
    · rename_i h
      simp only [memGet_cons, ih]
      simp only [Bool.or_eq_true, decide_eq_true_eq] at h
      by_cases hk : k = a
      · subst hk; rw [if_pos rfl, if_pos rfl, if_neg (by omega)]
      · simp [hk]
    · rename_i h
      simp only [Bool.or_eq_true, decide_eq_true_eq, not_or, not_lt, not_le] at h
      rw [ih, memGet_cons]
      by_cases hk : k = a
      · subst hk; rw [if_pos (by omega), if_pos (by omega)]
      · simp [hk]

/-- The least offset of a memory is above `a`. -/
def allAbove (a : Nat) (m : Memory) : Prop := ∀ cell ∈ m, a < cell.1

theorem strictlyRising_iff (m : Memory) : strictlyRising m = true ↔ m.Pairwise (fun x y => x.1 < y.1) := by
  induction m with
  | nil => simp [strictlyRising]
  | cons x xs ih =>
    cases xs with
    | nil => simp [strictlyRising]
    | cons y ys =>
      obtain ⟨k, b⟩ := x
      obtain ⟨k', b'⟩ := y
      rw [strictlyRising, Bool.and_eq_true, decide_eq_true_eq, ih, List.pairwise_cons (l := (k', b') :: ys)]
      constructor
      · rintro ⟨h, h'⟩
        refine ⟨fun z hz => ?_, h'⟩
        rcases List.mem_cons.1 hz with rfl | hz
        · exact h
        · exact Nat.lt_trans h ((List.pairwise_cons.1 h').1 z hz)
      · rintro ⟨h, h'⟩
        exact ⟨h _ (List.mem_cons_self ..), h'⟩

theorem mem_memSet {m : Memory} {a : Nat} {b : Byte} {cell : Host.Cell} (h : cell ∈ memSet m a b) :
    cell = (a, b) ∨ cell ∈ m := by
  induction m with
  | nil => simpa [memSet] using h
  | cons x xs ih =>
    obtain ⟨k, c⟩ := x
    unfold memSet at h
    split at h
    · simpa using h
    · split at h
      · rcases List.mem_cons.1 h with h | h
        · exact .inl h
        · exact .inr (List.mem_cons_of_mem _ h)
      · rcases List.mem_cons.1 h with h | h
        · exact .inr (by simp [h])
        · rcases ih h with h | h
          · exact .inl h
          · exact .inr (List.mem_cons_of_mem _ h)

theorem pairwise_memSet {m : Memory} (a : Nat) (b : Byte) (h : m.Pairwise fun x y => x.1 < y.1) :
    (memSet m a b).Pairwise fun x y => x.1 < y.1 := by
  induction m with
  | nil => simp [memSet]
  | cons x xs ih =>
    obtain ⟨k, c⟩ := x
    obtain ⟨h1, h2⟩ := List.pairwise_cons.1 h
    unfold memSet
    split
    · rename_i hak
      refine List.pairwise_cons.2 ⟨fun y hy => ?_, h⟩
      rcases List.mem_cons.1 hy with rfl | hy
      · exact hak
      · exact Nat.lt_trans hak (h1 y hy)
    · split
      · rename_i _ hak
        subst hak
        exact List.pairwise_cons.2 ⟨h1, h2⟩
      · rename_i h3 h4
        refine List.pairwise_cons.2 ⟨fun y hy => ?_, ih h2⟩
        rcases mem_memSet hy with rfl | hy
        · show k < a; omega
        · exact h1 y hy

/-- A write to a buffer byte keeps the canonical form. -/
theorem wf_memSet {c : Config} {m : Memory} {a : Nat} (b : Byte) (h : Memory.wf c m = true)
    (ha : inSomeBuffer c a = true) : Memory.wf c (memSet m a b) = true := by
  unfold Memory.wf at h ⊢
  rw [Bool.and_eq_true, strictlyRising_iff, List.all_eq_true] at h ⊢
  refine ⟨pairwise_memSet a b h.1, fun cell hc => ?_⟩
  rcases mem_memSet hc with rfl | hc
  · exact ha
  · exact h.2 cell hc

theorem inSomeBuffer_of_lt {c : Config} {b : Buf} {i : Nat} (h : i < bufCapacity c b) :
    inSomeBuffer c (bufBase b + i) = true := by
  unfold inSomeBuffer
  rw [List.any_eq_true]
  exact ⟨b, by cases b <;> simp, by simp [h]⟩

theorem wf_memWriteBytes {c : Config} {b : Buf} (bytes : List Byte) :
    ∀ {m : Memory} {i : Nat}, Memory.wf c m = true → i + bytes.length ≤ bufCapacity c b →
      Memory.wf c (memWriteBytes m (bufBase b + i) bytes) = true := by
  induction bytes with
  | nil => intro m i h _; exact h
  | cons x xs ih =>
    intro m i h hi
    simp only [List.length_cons] at hi
    exact ih (i := i + 1) (wf_memSet x h (inSomeBuffer_of_lt (by omega))) (by omega)

/-- A command's output that fits its buffer keeps the canonical form. -/
theorem wf_memWriteBuf {c : Config} {m : Memory} {b : Buf} {bytes : List Byte} (h : Memory.wf c m = true)
    (hb : bytes.length ≤ bufCapacity c b) : Memory.wf c (memWriteBuf m b bytes) = true :=
  wf_memWriteBytes (i := 0) bytes h (by omega)

/-- Erasing a range keeps the canonical form. -/
theorem wf_memErase {c : Config} {m : Memory} (lo hi : Nat) (h : Memory.wf c m = true) :
    Memory.wf c (memErase m lo hi) = true := by
  unfold Memory.wf at h ⊢
  rw [Bool.and_eq_true, strictlyRising_iff, List.all_eq_true] at h ⊢
  exact ⟨h.1.filter _, fun cell hc => h.2 cell (List.mem_filter.1 hc).1⟩

/-- The empty memory has the canonical form. -/
theorem wf_nil (c : Config) : Memory.wf c [] = true := rfl

/-- Two memories in canonical form that read alike are the same data. -/
theorem memory_ext {m m' : Memory} (h : strictlyRising m = true) (h' : strictlyRising m' = true)
    (hg : ∀ a, memGet m a = memGet m' a) : m = m' := by
  rw [strictlyRising_iff] at h h'
  have below : ∀ (k a : Nat) (b : Byte) (xs : Memory), (∀ y ∈ xs, k < y.1) → memGet xs a = some b → k < a := by
    intro k a b xs hx hm
    induction xs with
    | nil => simp at hm
    | cons y ys ih =>
      obtain ⟨q, c⟩ := y
      rw [memGet_cons] at hm
      split at hm
      · rename_i hq; subst hq; exact hx _ (List.mem_cons_self ..)
      · exact ih (fun z hz => hx z (List.mem_cons_of_mem _ hz)) hm
  induction m generalizing m' with
  | nil =>
    cases m' with
    | nil => rfl
    | cons y ys => obtain ⟨q, c⟩ := y; have := hg q; simp [memGet_cons] at this
  | cons x xs ih =>
    obtain ⟨k, b⟩ := x
    cases m' with
    | nil => have := hg k; simp [memGet_cons] at this
    | cons y ys =>
      obtain ⟨q, c⟩ := y
      obtain ⟨h1, h2⟩ := List.pairwise_cons.1 h
      obtain ⟨h1', h2'⟩ := List.pairwise_cons.1 h'
      have hkq : k = q := by
        have e1 := hg k
        have e2 := hg q
        rw [memGet_cons, memGet_cons, if_pos rfl] at e1
        rw [memGet_cons, memGet_cons, if_pos rfl] at e2
        by_contra hne
        rw [if_neg (Ne.symm hne)] at e1
        rw [if_neg hne] at e2
        have := below q k b ys h1' e1.symm
        have := below k q c xs h1 e2
        omega
      subst hkq
      have hbc : b = c := by
        have e1 := hg k
        simpa [memGet_cons] using e1
      subst hbc
      congr 1
      refine ih h2 h2' fun a => ?_
      have e := hg a
      rw [memGet_cons, memGet_cons] at e
      by_cases hka : k = a
      · have n1 : memGet xs a = none := by
          cases hx : memGet xs a with
          | none => rfl
          | some v => exact absurd (below k a v xs h1 hx) (by omega)
        have n2 : memGet ys a = none := by
          cases hx : memGet ys a with
          | none => rfl
          | some v => exact absurd (below k a v ys h1' hx) (by omega)
        rw [n1, n2]
      · rwa [if_neg hka, if_neg hka] at e

end Sys2Proof.Machine
end

