-- ==== Sys2Proof/Laws/State.lean ====
section
/-! SUPPORT. Sys2Proof/Laws/State.lean: for each named update of the state, what each field reads as after it. -/

namespace Sys2Proof.Machine

@[simp] theorem violated_cfg (s : State) : (s.violated).cfg = s.cfg := rfl
@[simp] theorem violated_ctrl (s : State) : (s.violated).ctrl = s.ctrl := rfl
@[simp] theorem violated_cmd (s : State) : (s.violated).cmd = s.cmd := rfl
@[simp] theorem violated_status (s : State) : (s.violated).status = { s.status with busyViol := true } := rfl
@[simp] theorem violated_errCode (s : State) : (s.violated).errCode = s.errCode := rfl
@[simp] theorem violated_errOffset (s : State) : (s.violated).errOffset = s.errOffset := rfl
@[simp] theorem violated_blkLen (s : State) : (s.violated).blkLen = s.blkLen := rfl
@[simp] theorem violated_rotIdx (s : State) : (s.violated).rotIdx = s.rotIdx := rfl
@[simp] theorem violated_tokLen (s : State) : (s.violated).tokLen = s.tokLen := rfl
@[simp] theorem violated_payLen (s : State) : (s.violated).payLen = s.payLen := rfl
@[simp] theorem violated_padCnt (s : State) : (s.violated).padCnt = s.padCnt := rfl
@[simp] theorem violated_freqCount (s : State) : (s.violated).freqCount = s.freqCount := rfl
@[simp] theorem violated_frameLen (s : State) : (s.violated).frameLen = s.frameLen := rfl
@[simp] theorem violated_inLen (s : State) : (s.violated).inLen = s.inLen := rfl
@[simp] theorem violated_streamOffset (s : State) : (s.violated).streamOffset = s.streamOffset := rfl
@[simp] theorem violated_rlist (s : State) : (s.violated).rlist = s.rlist := rfl
@[simp] theorem violated_freq (s : State) : (s.violated).freq = s.freq := rfl
@[simp] theorem violated_codeLen (s : State) : (s.violated).codeLen = s.codeLen := rfl
@[simp] theorem violated_code (s : State) : (s.violated).code = s.code := rfl
@[simp] theorem violated_tree (s : State) : (s.violated).tree = s.tree := rfl
@[simp] theorem violated_mem (s : State) : (s.violated).mem = s.mem := rfl
@[simp] theorem violated_undet (s : State) : (s.violated).undet = s.undet := rfl
@[simp] theorem violated_epoch (s : State) : (s.violated).epoch = s.epoch := rfl
@[simp] theorem violated_hostQueue (s : State) : (s.violated).hostQueue = s.hostQueue := rfl
@[simp] theorem violated_hostReads (s : State) : (s.violated).hostReads = s.hostReads := rfl

@[simp] theorem accepted_cfg (s : State) : (s.accepted).cfg = s.cfg := rfl
@[simp] theorem accepted_ctrl (s : State) : (s.accepted).ctrl = s.ctrl := rfl
@[simp] theorem accepted_cmd (s : State) : (s.accepted).cmd = s.cmd := rfl
@[simp] theorem accepted_status (s : State) : (s.accepted).status = { s.status with busy := true, done := false, endOfStream := false } := rfl
@[simp] theorem accepted_errCode (s : State) : (s.accepted).errCode = s.errCode := rfl
@[simp] theorem accepted_errOffset (s : State) : (s.accepted).errOffset = s.errOffset := rfl
@[simp] theorem accepted_blkLen (s : State) : (s.accepted).blkLen = s.blkLen := rfl
@[simp] theorem accepted_rotIdx (s : State) : (s.accepted).rotIdx = s.rotIdx := rfl
@[simp] theorem accepted_tokLen (s : State) : (s.accepted).tokLen = s.tokLen := rfl
@[simp] theorem accepted_payLen (s : State) : (s.accepted).payLen = s.payLen := rfl
@[simp] theorem accepted_padCnt (s : State) : (s.accepted).padCnt = s.padCnt := rfl
@[simp] theorem accepted_freqCount (s : State) : (s.accepted).freqCount = s.freqCount := rfl
@[simp] theorem accepted_frameLen (s : State) : (s.accepted).frameLen = s.frameLen := rfl
@[simp] theorem accepted_inLen (s : State) : (s.accepted).inLen = s.inLen := rfl
@[simp] theorem accepted_streamOffset (s : State) : (s.accepted).streamOffset = s.streamOffset := rfl
@[simp] theorem accepted_rlist (s : State) : (s.accepted).rlist = s.rlist := rfl
@[simp] theorem accepted_freq (s : State) : (s.accepted).freq = s.freq := rfl
@[simp] theorem accepted_codeLen (s : State) : (s.accepted).codeLen = s.codeLen := rfl
@[simp] theorem accepted_code (s : State) : (s.accepted).code = s.code := rfl
@[simp] theorem accepted_tree (s : State) : (s.accepted).tree = s.tree := rfl
@[simp] theorem accepted_mem (s : State) : (s.accepted).mem = s.mem := rfl
@[simp] theorem accepted_undet (s : State) : (s.accepted).undet = s.undet := rfl
@[simp] theorem accepted_epoch (s : State) : (s.accepted).epoch = s.epoch := rfl
@[simp] theorem accepted_hostQueue (s : State) : (s.accepted).hostQueue = s.hostQueue := rfl
@[simp] theorem accepted_hostReads (s : State) : (s.accepted).hostReads = s.hostReads := rfl

@[simp] theorem rejected_cfg (s : State) : (s.rejected).cfg = s.cfg := rfl
@[simp] theorem rejected_ctrl (s : State) : (s.rejected).ctrl = s.ctrl := rfl
@[simp] theorem rejected_cmd (s : State) : (s.rejected).cmd = s.cmd := rfl
@[simp] theorem rejected_status (s : State) : (s.rejected).status = { s.status with rej := true } := rfl
@[simp] theorem rejected_errCode (s : State) : (s.rejected).errCode = s.errCode := rfl
@[simp] theorem rejected_errOffset (s : State) : (s.rejected).errOffset = s.errOffset := rfl
@[simp] theorem rejected_blkLen (s : State) : (s.rejected).blkLen = s.blkLen := rfl
@[simp] theorem rejected_rotIdx (s : State) : (s.rejected).rotIdx = s.rotIdx := rfl
@[simp] theorem rejected_tokLen (s : State) : (s.rejected).tokLen = s.tokLen := rfl
@[simp] theorem rejected_payLen (s : State) : (s.rejected).payLen = s.payLen := rfl
@[simp] theorem rejected_padCnt (s : State) : (s.rejected).padCnt = s.padCnt := rfl
@[simp] theorem rejected_freqCount (s : State) : (s.rejected).freqCount = s.freqCount := rfl
@[simp] theorem rejected_frameLen (s : State) : (s.rejected).frameLen = s.frameLen := rfl
@[simp] theorem rejected_inLen (s : State) : (s.rejected).inLen = s.inLen := rfl
@[simp] theorem rejected_streamOffset (s : State) : (s.rejected).streamOffset = s.streamOffset := rfl
@[simp] theorem rejected_rlist (s : State) : (s.rejected).rlist = s.rlist := rfl
@[simp] theorem rejected_freq (s : State) : (s.rejected).freq = s.freq := rfl
@[simp] theorem rejected_codeLen (s : State) : (s.rejected).codeLen = s.codeLen := rfl
@[simp] theorem rejected_code (s : State) : (s.rejected).code = s.code := rfl
@[simp] theorem rejected_tree (s : State) : (s.rejected).tree = s.tree := rfl
@[simp] theorem rejected_mem (s : State) : (s.rejected).mem = s.mem := rfl
@[simp] theorem rejected_undet (s : State) : (s.rejected).undet = s.undet := rfl
@[simp] theorem rejected_epoch (s : State) : (s.rejected).epoch = s.epoch := rfl
@[simp] theorem rejected_hostQueue (s : State) : (s.rejected).hostQueue = s.hostQueue := rfl
@[simp] theorem rejected_hostReads (s : State) : (s.rejected).hostReads = s.hostReads := rfl

@[simp] theorem finished_cfg (s : State) : (s.finished).cfg = s.cfg := rfl
@[simp] theorem finished_ctrl (s : State) : (s.finished).ctrl = s.ctrl := rfl
@[simp] theorem finished_cmd (s : State) : (s.finished).cmd = s.cmd := rfl
@[simp] theorem finished_status (s : State) : (s.finished).status = { s.status with busy := false, done := true } := rfl
@[simp] theorem finished_errCode (s : State) : (s.finished).errCode = s.errCode := rfl
@[simp] theorem finished_errOffset (s : State) : (s.finished).errOffset = s.errOffset := rfl
@[simp] theorem finished_blkLen (s : State) : (s.finished).blkLen = s.blkLen := rfl
@[simp] theorem finished_rotIdx (s : State) : (s.finished).rotIdx = s.rotIdx := rfl
@[simp] theorem finished_tokLen (s : State) : (s.finished).tokLen = s.tokLen := rfl
@[simp] theorem finished_payLen (s : State) : (s.finished).payLen = s.payLen := rfl
@[simp] theorem finished_padCnt (s : State) : (s.finished).padCnt = s.padCnt := rfl
@[simp] theorem finished_freqCount (s : State) : (s.finished).freqCount = s.freqCount := rfl
@[simp] theorem finished_frameLen (s : State) : (s.finished).frameLen = s.frameLen := rfl
@[simp] theorem finished_inLen (s : State) : (s.finished).inLen = s.inLen := rfl
@[simp] theorem finished_streamOffset (s : State) : (s.finished).streamOffset = s.streamOffset := rfl
@[simp] theorem finished_rlist (s : State) : (s.finished).rlist = s.rlist := rfl
@[simp] theorem finished_freq (s : State) : (s.finished).freq = s.freq := rfl
@[simp] theorem finished_codeLen (s : State) : (s.finished).codeLen = s.codeLen := rfl
@[simp] theorem finished_code (s : State) : (s.finished).code = s.code := rfl
@[simp] theorem finished_tree (s : State) : (s.finished).tree = s.tree := rfl
@[simp] theorem finished_mem (s : State) : (s.finished).mem = s.mem := rfl
@[simp] theorem finished_undet (s : State) : (s.finished).undet = s.undet := rfl
@[simp] theorem finished_epoch (s : State) : (s.finished).epoch = s.epoch := rfl
@[simp] theorem finished_hostQueue (s : State) : (s.finished).hostQueue = s.hostQueue := rfl
@[simp] theorem finished_hostReads (s : State) : (s.finished).hostReads = s.hostReads := rfl

@[simp] theorem latched_cfg (s : State) (e : ErrorKind) (offset : Word) : (s.latched e offset).cfg = s.cfg := rfl
@[simp] theorem latched_ctrl (s : State) (e : ErrorKind) (offset : Word) : (s.latched e offset).ctrl = s.ctrl := rfl
@[simp] theorem latched_cmd (s : State) (e : ErrorKind) (offset : Word) : (s.latched e offset).cmd = s.cmd := rfl
@[simp] theorem latched_status (s : State) (e : ErrorKind) (offset : Word) : (s.latched e offset).status = { s.status with busy := false, done := true, err := true } := rfl
@[simp] theorem latched_errCode (s : State) (e : ErrorKind) (offset : Word) : (s.latched e offset).errCode = some e := rfl
@[simp] theorem latched_errOffset (s : State) (e : ErrorKind) (offset : Word) : (s.latched e offset).errOffset = offset := rfl
@[simp] theorem latched_blkLen (s : State) (e : ErrorKind) (offset : Word) : (s.latched e offset).blkLen = s.blkLen := rfl
@[simp] theorem latched_rotIdx (s : State) (e : ErrorKind) (offset : Word) : (s.latched e offset).rotIdx = s.rotIdx := rfl
@[simp] theorem latched_tokLen (s : State) (e : ErrorKind) (offset : Word) : (s.latched e offset).tokLen = s.tokLen := rfl
@[simp] theorem latched_payLen (s : State) (e : ErrorKind) (offset : Word) : (s.latched e offset).payLen = s.payLen := rfl
@[simp] theorem latched_padCnt (s : State) (e : ErrorKind) (offset : Word) : (s.latched e offset).padCnt = s.padCnt := rfl
@[simp] theorem latched_freqCount (s : State) (e : ErrorKind) (offset : Word) : (s.latched e offset).freqCount = s.freqCount := rfl
@[simp] theorem latched_frameLen (s : State) (e : ErrorKind) (offset : Word) : (s.latched e offset).frameLen = s.frameLen := rfl
@[simp] theorem latched_inLen (s : State) (e : ErrorKind) (offset : Word) : (s.latched e offset).inLen = s.inLen := rfl
@[simp] theorem latched_streamOffset (s : State) (e : ErrorKind) (offset : Word) : (s.latched e offset).streamOffset = s.streamOffset := rfl
@[simp] theorem latched_rlist (s : State) (e : ErrorKind) (offset : Word) : (s.latched e offset).rlist = s.rlist := rfl
@[simp] theorem latched_freq (s : State) (e : ErrorKind) (offset : Word) : (s.latched e offset).freq = s.freq := rfl
@[simp] theorem latched_codeLen (s : State) (e : ErrorKind) (offset : Word) : (s.latched e offset).codeLen = s.codeLen := rfl
@[simp] theorem latched_code (s : State) (e : ErrorKind) (offset : Word) : (s.latched e offset).code = s.code := rfl
@[simp] theorem latched_tree (s : State) (e : ErrorKind) (offset : Word) : (s.latched e offset).tree = s.tree := rfl
@[simp] theorem latched_mem (s : State) (e : ErrorKind) (offset : Word) : (s.latched e offset).mem = s.mem := rfl
@[simp] theorem latched_undet (s : State) (e : ErrorKind) (offset : Word) : (s.latched e offset).undet = s.undet := rfl
@[simp] theorem latched_epoch (s : State) (e : ErrorKind) (offset : Word) : (s.latched e offset).epoch = s.epoch := rfl
@[simp] theorem latched_hostQueue (s : State) (e : ErrorKind) (offset : Word) : (s.latched e offset).hostQueue = s.hostQueue := rfl
@[simp] theorem latched_hostReads (s : State) (e : ErrorKind) (offset : Word) : (s.latched e offset).hostReads = s.hostReads := rfl

@[simp] theorem errorCleared_cfg (s : State) : (s.errorCleared).cfg = s.cfg := rfl
@[simp] theorem errorCleared_ctrl (s : State) : (s.errorCleared).ctrl = s.ctrl := rfl
@[simp] theorem errorCleared_cmd (s : State) : (s.errorCleared).cmd = s.cmd := rfl
@[simp] theorem errorCleared_status (s : State) : (s.errorCleared).status = { s.status with err := false, rej := false } := rfl
@[simp] theorem errorCleared_errCode (s : State) : (s.errorCleared).errCode = none := rfl
@[simp] theorem errorCleared_errOffset (s : State) : (s.errorCleared).errOffset = 0 := rfl
@[simp] theorem errorCleared_blkLen (s : State) : (s.errorCleared).blkLen = s.blkLen := rfl
@[simp] theorem errorCleared_rotIdx (s : State) : (s.errorCleared).rotIdx = s.rotIdx := rfl
@[simp] theorem errorCleared_tokLen (s : State) : (s.errorCleared).tokLen = s.tokLen := rfl
@[simp] theorem errorCleared_payLen (s : State) : (s.errorCleared).payLen = s.payLen := rfl
@[simp] theorem errorCleared_padCnt (s : State) : (s.errorCleared).padCnt = s.padCnt := rfl
@[simp] theorem errorCleared_freqCount (s : State) : (s.errorCleared).freqCount = s.freqCount := rfl
@[simp] theorem errorCleared_frameLen (s : State) : (s.errorCleared).frameLen = s.frameLen := rfl
@[simp] theorem errorCleared_inLen (s : State) : (s.errorCleared).inLen = s.inLen := rfl
@[simp] theorem errorCleared_streamOffset (s : State) : (s.errorCleared).streamOffset = s.streamOffset := rfl
@[simp] theorem errorCleared_rlist (s : State) : (s.errorCleared).rlist = s.rlist := rfl
@[simp] theorem errorCleared_freq (s : State) : (s.errorCleared).freq = s.freq := rfl
@[simp] theorem errorCleared_codeLen (s : State) : (s.errorCleared).codeLen = s.codeLen := rfl
@[simp] theorem errorCleared_code (s : State) : (s.errorCleared).code = s.code := rfl
@[simp] theorem errorCleared_tree (s : State) : (s.errorCleared).tree = s.tree := rfl
@[simp] theorem errorCleared_mem (s : State) : (s.errorCleared).mem = s.mem := rfl
@[simp] theorem errorCleared_undet (s : State) : (s.errorCleared).undet = s.undet := rfl
@[simp] theorem errorCleared_epoch (s : State) : (s.errorCleared).epoch = s.epoch := rfl
@[simp] theorem errorCleared_hostQueue (s : State) : (s.errorCleared).hostQueue = s.hostQueue := rfl
@[simp] theorem errorCleared_hostReads (s : State) : (s.errorCleared).hostReads = s.hostReads := rfl

@[simp] theorem writeBuf_cfg (s : State) (b : Buf) (bytes : List Byte) : (s.writeBuf b bytes).cfg = s.cfg := rfl
@[simp] theorem writeBuf_ctrl (s : State) (b : Buf) (bytes : List Byte) : (s.writeBuf b bytes).ctrl = s.ctrl := rfl
@[simp] theorem writeBuf_cmd (s : State) (b : Buf) (bytes : List Byte) : (s.writeBuf b bytes).cmd = s.cmd := rfl
@[simp] theorem writeBuf_status (s : State) (b : Buf) (bytes : List Byte) : (s.writeBuf b bytes).status = s.status := rfl
@[simp] theorem writeBuf_errCode (s : State) (b : Buf) (bytes : List Byte) : (s.writeBuf b bytes).errCode = s.errCode := rfl
@[simp] theorem writeBuf_errOffset (s : State) (b : Buf) (bytes : List Byte) : (s.writeBuf b bytes).errOffset = s.errOffset := rfl
@[simp] theorem writeBuf_blkLen (s : State) (b : Buf) (bytes : List Byte) : (s.writeBuf b bytes).blkLen = s.blkLen := rfl
@[simp] theorem writeBuf_rotIdx (s : State) (b : Buf) (bytes : List Byte) : (s.writeBuf b bytes).rotIdx = s.rotIdx := rfl
@[simp] theorem writeBuf_tokLen (s : State) (b : Buf) (bytes : List Byte) : (s.writeBuf b bytes).tokLen = s.tokLen := rfl
@[simp] theorem writeBuf_payLen (s : State) (b : Buf) (bytes : List Byte) : (s.writeBuf b bytes).payLen = s.payLen := rfl
@[simp] theorem writeBuf_padCnt (s : State) (b : Buf) (bytes : List Byte) : (s.writeBuf b bytes).padCnt = s.padCnt := rfl
@[simp] theorem writeBuf_freqCount (s : State) (b : Buf) (bytes : List Byte) : (s.writeBuf b bytes).freqCount = s.freqCount := rfl
@[simp] theorem writeBuf_frameLen (s : State) (b : Buf) (bytes : List Byte) : (s.writeBuf b bytes).frameLen = s.frameLen := rfl
@[simp] theorem writeBuf_inLen (s : State) (b : Buf) (bytes : List Byte) : (s.writeBuf b bytes).inLen = s.inLen := rfl
@[simp] theorem writeBuf_streamOffset (s : State) (b : Buf) (bytes : List Byte) : (s.writeBuf b bytes).streamOffset = s.streamOffset := rfl
@[simp] theorem writeBuf_rlist (s : State) (b : Buf) (bytes : List Byte) : (s.writeBuf b bytes).rlist = s.rlist := rfl
@[simp] theorem writeBuf_freq (s : State) (b : Buf) (bytes : List Byte) : (s.writeBuf b bytes).freq = s.freq := rfl
@[simp] theorem writeBuf_codeLen (s : State) (b : Buf) (bytes : List Byte) : (s.writeBuf b bytes).codeLen = s.codeLen := rfl
@[simp] theorem writeBuf_code (s : State) (b : Buf) (bytes : List Byte) : (s.writeBuf b bytes).code = s.code := rfl
@[simp] theorem writeBuf_tree (s : State) (b : Buf) (bytes : List Byte) : (s.writeBuf b bytes).tree = s.tree := rfl
@[simp] theorem writeBuf_mem (s : State) (b : Buf) (bytes : List Byte) : (s.writeBuf b bytes).mem = memWriteBuf s.mem b bytes := rfl
@[simp] theorem writeBuf_undet (s : State) (b : Buf) (bytes : List Byte) : (s.writeBuf b bytes).undet = s.undet := rfl
@[simp] theorem writeBuf_epoch (s : State) (b : Buf) (bytes : List Byte) : (s.writeBuf b bytes).epoch = s.epoch := rfl
@[simp] theorem writeBuf_hostQueue (s : State) (b : Buf) (bytes : List Byte) : (s.writeBuf b bytes).hostQueue = s.hostQueue := rfl
@[simp] theorem writeBuf_hostReads (s : State) (b : Buf) (bytes : List Byte) : (s.writeBuf b bytes).hostReads = s.hostReads := rfl

@[simp] theorem writeFreq_cfg (s : State) (F : List Nat) : (s.writeFreq F).cfg = s.cfg := rfl
@[simp] theorem writeFreq_ctrl (s : State) (F : List Nat) : (s.writeFreq F).ctrl = s.ctrl := rfl
@[simp] theorem writeFreq_cmd (s : State) (F : List Nat) : (s.writeFreq F).cmd = s.cmd := rfl
@[simp] theorem writeFreq_status (s : State) (F : List Nat) : (s.writeFreq F).status = s.status := rfl
@[simp] theorem writeFreq_errCode (s : State) (F : List Nat) : (s.writeFreq F).errCode = s.errCode := rfl
@[simp] theorem writeFreq_errOffset (s : State) (F : List Nat) : (s.writeFreq F).errOffset = s.errOffset := rfl
@[simp] theorem writeFreq_blkLen (s : State) (F : List Nat) : (s.writeFreq F).blkLen = s.blkLen := rfl
@[simp] theorem writeFreq_rotIdx (s : State) (F : List Nat) : (s.writeFreq F).rotIdx = s.rotIdx := rfl
@[simp] theorem writeFreq_tokLen (s : State) (F : List Nat) : (s.writeFreq F).tokLen = s.tokLen := rfl
@[simp] theorem writeFreq_payLen (s : State) (F : List Nat) : (s.writeFreq F).payLen = s.payLen := rfl
@[simp] theorem writeFreq_padCnt (s : State) (F : List Nat) : (s.writeFreq F).padCnt = s.padCnt := rfl
@[simp] theorem writeFreq_freqCount (s : State) (F : List Nat) : (s.writeFreq F).freqCount = s.freqCount := rfl
@[simp] theorem writeFreq_frameLen (s : State) (F : List Nat) : (s.writeFreq F).frameLen = s.frameLen := rfl
@[simp] theorem writeFreq_inLen (s : State) (F : List Nat) : (s.writeFreq F).inLen = s.inLen := rfl
@[simp] theorem writeFreq_streamOffset (s : State) (F : List Nat) : (s.writeFreq F).streamOffset = s.streamOffset := rfl
@[simp] theorem writeFreq_rlist (s : State) (F : List Nat) : (s.writeFreq F).rlist = s.rlist := rfl
@[simp] theorem writeFreq_freq (s : State) (F : List Nat) : (s.writeFreq F).freq = F.map freqEntryOf := rfl
@[simp] theorem writeFreq_codeLen (s : State) (F : List Nat) : (s.writeFreq F).codeLen = s.codeLen := rfl
@[simp] theorem writeFreq_code (s : State) (F : List Nat) : (s.writeFreq F).code = s.code := rfl
@[simp] theorem writeFreq_tree (s : State) (F : List Nat) : (s.writeFreq F).tree = s.tree := rfl
@[simp] theorem writeFreq_mem (s : State) (F : List Nat) : (s.writeFreq F).mem = s.mem := rfl
@[simp] theorem writeFreq_undet (s : State) (F : List Nat) : (s.writeFreq F).undet = s.undet := rfl
@[simp] theorem writeFreq_epoch (s : State) (F : List Nat) : (s.writeFreq F).epoch = s.epoch := rfl
@[simp] theorem writeFreq_hostQueue (s : State) (F : List Nat) : (s.writeFreq F).hostQueue = s.hostQueue := rfl
@[simp] theorem writeFreq_hostReads (s : State) (F : List Nat) : (s.writeFreq F).hostReads = s.hostReads := rfl

@[simp] theorem buildCodes_cfg (s : State) (F : List Nat) : (s.buildCodes F).cfg = s.cfg := rfl
@[simp] theorem buildCodes_ctrl (s : State) (F : List Nat) : (s.buildCodes F).ctrl = s.ctrl := rfl
@[simp] theorem buildCodes_cmd (s : State) (F : List Nat) : (s.buildCodes F).cmd = s.cmd := rfl
@[simp] theorem buildCodes_status (s : State) (F : List Nat) : (s.buildCodes F).status = s.status := rfl
@[simp] theorem buildCodes_errCode (s : State) (F : List Nat) : (s.buildCodes F).errCode = s.errCode := rfl
@[simp] theorem buildCodes_errOffset (s : State) (F : List Nat) : (s.buildCodes F).errOffset = s.errOffset := rfl
@[simp] theorem buildCodes_blkLen (s : State) (F : List Nat) : (s.buildCodes F).blkLen = s.blkLen := rfl
@[simp] theorem buildCodes_rotIdx (s : State) (F : List Nat) : (s.buildCodes F).rotIdx = s.rotIdx := rfl
@[simp] theorem buildCodes_tokLen (s : State) (F : List Nat) : (s.buildCodes F).tokLen = s.tokLen := rfl
@[simp] theorem buildCodes_payLen (s : State) (F : List Nat) : (s.buildCodes F).payLen = s.payLen := rfl
@[simp] theorem buildCodes_padCnt (s : State) (F : List Nat) : (s.buildCodes F).padCnt = s.padCnt := rfl
@[simp] theorem buildCodes_freqCount (s : State) (F : List Nat) : (s.buildCodes F).freqCount = .val (BitVec.ofNat 32 (card F)) := rfl
@[simp] theorem buildCodes_frameLen (s : State) (F : List Nat) : (s.buildCodes F).frameLen = s.frameLen := rfl
@[simp] theorem buildCodes_inLen (s : State) (F : List Nat) : (s.buildCodes F).inLen = s.inLen := rfl
@[simp] theorem buildCodes_streamOffset (s : State) (F : List Nat) : (s.buildCodes F).streamOffset = s.streamOffset := rfl
@[simp] theorem buildCodes_rlist (s : State) (F : List Nat) : (s.buildCodes F).rlist = s.rlist := rfl
@[simp] theorem buildCodes_freq (s : State) (F : List Nat) : (s.buildCodes F).freq = s.freq := rfl
@[simp] theorem buildCodes_codeLen (s : State) (F : List Nat) : (s.buildCodes F).codeLen = .val (codeLengths (buildTree F)) := rfl
@[simp] theorem buildCodes_code (s : State) (F : List Nat) : (s.buildCodes F).code = .val (codeWords (buildTree F)) := rfl
@[simp] theorem buildCodes_tree (s : State) (F : List Nat) : (s.buildCodes F).tree = .val (buildTree F) := rfl
@[simp] theorem buildCodes_mem (s : State) (F : List Nat) : (s.buildCodes F).mem = s.mem := rfl
@[simp] theorem buildCodes_undet (s : State) (F : List Nat) : (s.buildCodes F).undet = s.undet := rfl
@[simp] theorem buildCodes_epoch (s : State) (F : List Nat) : (s.buildCodes F).epoch = s.epoch := rfl
@[simp] theorem buildCodes_hostQueue (s : State) (F : List Nat) : (s.buildCodes F).hostQueue = s.hostQueue := rfl
@[simp] theorem buildCodes_hostReads (s : State) (F : List Nat) : (s.buildCodes F).hostReads = s.hostReads := rfl

@[simp] theorem advance_cfg (s : State) (n : Nat) : (s.advance n).cfg = s.cfg := rfl
@[simp] theorem advance_ctrl (s : State) (n : Nat) : (s.advance n).ctrl = s.ctrl := rfl
@[simp] theorem advance_cmd (s : State) (n : Nat) : (s.advance n).cmd = s.cmd := rfl
@[simp] theorem advance_status (s : State) (n : Nat) : (s.advance n).status = s.status := rfl
@[simp] theorem advance_errCode (s : State) (n : Nat) : (s.advance n).errCode = s.errCode := rfl
@[simp] theorem advance_errOffset (s : State) (n : Nat) : (s.advance n).errOffset = s.errOffset := rfl
@[simp] theorem advance_blkLen (s : State) (n : Nat) : (s.advance n).blkLen = s.blkLen := rfl
@[simp] theorem advance_rotIdx (s : State) (n : Nat) : (s.advance n).rotIdx = s.rotIdx := rfl
@[simp] theorem advance_tokLen (s : State) (n : Nat) : (s.advance n).tokLen = s.tokLen := rfl
@[simp] theorem advance_payLen (s : State) (n : Nat) : (s.advance n).payLen = s.payLen := rfl
@[simp] theorem advance_padCnt (s : State) (n : Nat) : (s.advance n).padCnt = s.padCnt := rfl
@[simp] theorem advance_freqCount (s : State) (n : Nat) : (s.advance n).freqCount = s.freqCount := rfl
@[simp] theorem advance_frameLen (s : State) (n : Nat) : (s.advance n).frameLen = s.frameLen := rfl
@[simp] theorem advance_inLen (s : State) (n : Nat) : (s.advance n).inLen = s.inLen := rfl
@[simp] theorem advance_streamOffset (s : State) (n : Nat) : (s.advance n).streamOffset = s.streamOffset + BitVec.ofNat 32 n := rfl
@[simp] theorem advance_rlist (s : State) (n : Nat) : (s.advance n).rlist = s.rlist := rfl
@[simp] theorem advance_freq (s : State) (n : Nat) : (s.advance n).freq = s.freq := rfl
@[simp] theorem advance_codeLen (s : State) (n : Nat) : (s.advance n).codeLen = s.codeLen := rfl
@[simp] theorem advance_code (s : State) (n : Nat) : (s.advance n).code = s.code := rfl
@[simp] theorem advance_tree (s : State) (n : Nat) : (s.advance n).tree = s.tree := rfl
@[simp] theorem advance_mem (s : State) (n : Nat) : (s.advance n).mem = s.mem := rfl
@[simp] theorem advance_undet (s : State) (n : Nat) : (s.advance n).undet = s.undet := rfl
@[simp] theorem advance_epoch (s : State) (n : Nat) : (s.advance n).epoch = s.epoch := rfl
@[simp] theorem advance_hostQueue (s : State) (n : Nat) : (s.advance n).hostQueue = s.hostQueue := rfl
@[simp] theorem advance_hostReads (s : State) (n : Nat) : (s.advance n).hostReads = s.hostReads := rfl

@[simp] theorem endFound_cfg (s : State) : (s.endFound).cfg = s.cfg := rfl
@[simp] theorem endFound_ctrl (s : State) : (s.endFound).ctrl = s.ctrl := rfl
@[simp] theorem endFound_cmd (s : State) : (s.endFound).cmd = s.cmd := rfl
@[simp] theorem endFound_status (s : State) : (s.endFound).status = { s.status with endOfStream := true } := rfl
@[simp] theorem endFound_errCode (s : State) : (s.endFound).errCode = s.errCode := rfl
@[simp] theorem endFound_errOffset (s : State) : (s.endFound).errOffset = s.errOffset := rfl
@[simp] theorem endFound_blkLen (s : State) : (s.endFound).blkLen = s.blkLen := rfl
@[simp] theorem endFound_rotIdx (s : State) : (s.endFound).rotIdx = s.rotIdx := rfl
@[simp] theorem endFound_tokLen (s : State) : (s.endFound).tokLen = s.tokLen := rfl
@[simp] theorem endFound_payLen (s : State) : (s.endFound).payLen = s.payLen := rfl
@[simp] theorem endFound_padCnt (s : State) : (s.endFound).padCnt = s.padCnt := rfl
@[simp] theorem endFound_freqCount (s : State) : (s.endFound).freqCount = s.freqCount := rfl
@[simp] theorem endFound_frameLen (s : State) : (s.endFound).frameLen = .val 0 := rfl
@[simp] theorem endFound_inLen (s : State) : (s.endFound).inLen = s.inLen := rfl
@[simp] theorem endFound_streamOffset (s : State) : (s.endFound).streamOffset = s.streamOffset := rfl
@[simp] theorem endFound_rlist (s : State) : (s.endFound).rlist = s.rlist := rfl
@[simp] theorem endFound_freq (s : State) : (s.endFound).freq = s.freq := rfl
@[simp] theorem endFound_codeLen (s : State) : (s.endFound).codeLen = s.codeLen := rfl
@[simp] theorem endFound_code (s : State) : (s.endFound).code = s.code := rfl
@[simp] theorem endFound_tree (s : State) : (s.endFound).tree = s.tree := rfl
@[simp] theorem endFound_mem (s : State) : (s.endFound).mem = s.mem := rfl
@[simp] theorem endFound_undet (s : State) : (s.endFound).undet = s.undet := rfl
@[simp] theorem endFound_epoch (s : State) : (s.endFound).epoch = s.epoch := rfl
@[simp] theorem endFound_hostQueue (s : State) : (s.endFound).hostQueue = s.hostQueue := rfl
@[simp] theorem endFound_hostReads (s : State) : (s.endFound).hostReads = s.hostReads := rfl

@[simp] theorem writeFrame_cfg (s : State) (fr : Frame) : (s.writeFrame fr).cfg = s.cfg := rfl
@[simp] theorem writeFrame_ctrl (s : State) (fr : Frame) : (s.writeFrame fr).ctrl = s.ctrl := rfl
@[simp] theorem writeFrame_cmd (s : State) (fr : Frame) : (s.writeFrame fr).cmd = s.cmd := rfl
@[simp] theorem writeFrame_status (s : State) (fr : Frame) : (s.writeFrame fr).status = s.status := rfl
@[simp] theorem writeFrame_errCode (s : State) (fr : Frame) : (s.writeFrame fr).errCode = s.errCode := rfl
@[simp] theorem writeFrame_errOffset (s : State) (fr : Frame) : (s.writeFrame fr).errOffset = s.errOffset := rfl
@[simp] theorem writeFrame_blkLen (s : State) (fr : Frame) : (s.writeFrame fr).blkLen = s.blkLen := rfl
@[simp] theorem writeFrame_rotIdx (s : State) (fr : Frame) : (s.writeFrame fr).rotIdx = .val (BitVec.ofNat 32 fr.rot) := rfl
@[simp] theorem writeFrame_tokLen (s : State) (fr : Frame) : (s.writeFrame fr).tokLen = s.tokLen := rfl
@[simp] theorem writeFrame_payLen (s : State) (fr : Frame) : (s.writeFrame fr).payLen = .val (BitVec.ofNat 32 fr.payload.length) := rfl
@[simp] theorem writeFrame_padCnt (s : State) (fr : Frame) : (s.writeFrame fr).padCnt = .val (BitVec.ofNat 8 fr.pad) := rfl
@[simp] theorem writeFrame_freqCount (s : State) (fr : Frame) : (s.writeFrame fr).freqCount = .val (BitVec.ofNat 32 fr.count) := rfl
@[simp] theorem writeFrame_frameLen (s : State) (fr : Frame) : (s.writeFrame fr).frameLen = .val (BitVec.ofNat 32 fr.length) := rfl
@[simp] theorem writeFrame_inLen (s : State) (fr : Frame) : (s.writeFrame fr).inLen = s.inLen := rfl
@[simp] theorem writeFrame_streamOffset (s : State) (fr : Frame) : (s.writeFrame fr).streamOffset = s.streamOffset := rfl
@[simp] theorem writeFrame_rlist (s : State) (fr : Frame) : (s.writeFrame fr).rlist = s.rlist := rfl
@[simp] theorem writeFrame_freq (s : State) (fr : Frame) : (s.writeFrame fr).freq = fr.freq.map freqEntryOf := rfl
@[simp] theorem writeFrame_codeLen (s : State) (fr : Frame) : (s.writeFrame fr).codeLen = s.codeLen := rfl
@[simp] theorem writeFrame_code (s : State) (fr : Frame) : (s.writeFrame fr).code = s.code := rfl
@[simp] theorem writeFrame_tree (s : State) (fr : Frame) : (s.writeFrame fr).tree = s.tree := rfl
@[simp] theorem writeFrame_mem (s : State) (fr : Frame) : (s.writeFrame fr).mem = memWriteBuf s.mem .p fr.payload := rfl
@[simp] theorem writeFrame_undet (s : State) (fr : Frame) : (s.writeFrame fr).undet = s.undet := rfl
@[simp] theorem writeFrame_epoch (s : State) (fr : Frame) : (s.writeFrame fr).epoch = s.epoch := rfl
@[simp] theorem writeFrame_hostQueue (s : State) (fr : Frame) : (s.writeFrame fr).hostQueue = s.hostQueue := rfl
@[simp] theorem writeFrame_hostReads (s : State) (fr : Frame) : (s.writeFrame fr).hostReads = s.hostReads := rfl

@[simp] theorem emitFrame_cfg (s : State) (frame : List Byte) : (s.emitFrame frame).cfg = s.cfg := rfl
@[simp] theorem emitFrame_ctrl (s : State) (frame : List Byte) : (s.emitFrame frame).ctrl = s.ctrl := rfl
@[simp] theorem emitFrame_cmd (s : State) (frame : List Byte) : (s.emitFrame frame).cmd = s.cmd := rfl
@[simp] theorem emitFrame_status (s : State) (frame : List Byte) : (s.emitFrame frame).status = s.status := rfl
@[simp] theorem emitFrame_errCode (s : State) (frame : List Byte) : (s.emitFrame frame).errCode = s.errCode := rfl
@[simp] theorem emitFrame_errOffset (s : State) (frame : List Byte) : (s.emitFrame frame).errOffset = s.errOffset := rfl
@[simp] theorem emitFrame_blkLen (s : State) (frame : List Byte) : (s.emitFrame frame).blkLen = s.blkLen := rfl
@[simp] theorem emitFrame_rotIdx (s : State) (frame : List Byte) : (s.emitFrame frame).rotIdx = s.rotIdx := rfl
@[simp] theorem emitFrame_tokLen (s : State) (frame : List Byte) : (s.emitFrame frame).tokLen = s.tokLen := rfl
@[simp] theorem emitFrame_payLen (s : State) (frame : List Byte) : (s.emitFrame frame).payLen = s.payLen := rfl
@[simp] theorem emitFrame_padCnt (s : State) (frame : List Byte) : (s.emitFrame frame).padCnt = s.padCnt := rfl
@[simp] theorem emitFrame_freqCount (s : State) (frame : List Byte) : (s.emitFrame frame).freqCount = s.freqCount := rfl
@[simp] theorem emitFrame_frameLen (s : State) (frame : List Byte) : (s.emitFrame frame).frameLen = .val (BitVec.ofNat 32 frame.length) := rfl
@[simp] theorem emitFrame_inLen (s : State) (frame : List Byte) : (s.emitFrame frame).inLen = s.inLen := rfl
@[simp] theorem emitFrame_streamOffset (s : State) (frame : List Byte) : (s.emitFrame frame).streamOffset = s.streamOffset + BitVec.ofNat 32 frame.length := rfl
@[simp] theorem emitFrame_rlist (s : State) (frame : List Byte) : (s.emitFrame frame).rlist = s.rlist := rfl
@[simp] theorem emitFrame_freq (s : State) (frame : List Byte) : (s.emitFrame frame).freq = s.freq := rfl
@[simp] theorem emitFrame_codeLen (s : State) (frame : List Byte) : (s.emitFrame frame).codeLen = s.codeLen := rfl
@[simp] theorem emitFrame_code (s : State) (frame : List Byte) : (s.emitFrame frame).code = s.code := rfl
@[simp] theorem emitFrame_tree (s : State) (frame : List Byte) : (s.emitFrame frame).tree = s.tree := rfl
@[simp] theorem emitFrame_mem (s : State) (frame : List Byte) : (s.emitFrame frame).mem = memWriteBuf s.mem .f frame := rfl
@[simp] theorem emitFrame_undet (s : State) (frame : List Byte) : (s.emitFrame frame).undet = s.undet := rfl
@[simp] theorem emitFrame_epoch (s : State) (frame : List Byte) : (s.emitFrame frame).epoch = s.epoch := rfl
@[simp] theorem emitFrame_hostQueue (s : State) (frame : List Byte) : (s.emitFrame frame).hostQueue = s.hostQueue := rfl
@[simp] theorem emitFrame_hostReads (s : State) (frame : List Byte) : (s.emitFrame frame).hostReads = s.hostReads := rfl

@[simp] theorem compressToTokens_cfg (s : State) (B : List Byte) : (s.compressToTokens B).cfg = s.cfg := rfl
@[simp] theorem compressToTokens_ctrl (s : State) (B : List Byte) : (s.compressToTokens B).ctrl = s.ctrl := rfl
@[simp] theorem compressToTokens_cmd (s : State) (B : List Byte) : (s.compressToTokens B).cmd = s.cmd := rfl
@[simp] theorem compressToTokens_status (s : State) (B : List Byte) : (s.compressToTokens B).status = s.status := rfl
@[simp] theorem compressToTokens_errCode (s : State) (B : List Byte) : (s.compressToTokens B).errCode = s.errCode := rfl
@[simp] theorem compressToTokens_errOffset (s : State) (B : List Byte) : (s.compressToTokens B).errOffset = s.errOffset := rfl
@[simp] theorem compressToTokens_blkLen (s : State) (B : List Byte) : (s.compressToTokens B).blkLen = s.blkLen := rfl
@[simp] theorem compressToTokens_rotIdx (s : State) (B : List Byte) : (s.compressToTokens B).rotIdx = .val (BitVec.ofNat 32 (rt B).2) := rfl
@[simp] theorem compressToTokens_tokLen (s : State) (B : List Byte) : (s.compressToTokens B).tokLen = .val (BitVec.ofNat 32 (blockTokens B).length) := rfl
@[simp] theorem compressToTokens_payLen (s : State) (B : List Byte) : (s.compressToTokens B).payLen = s.payLen := rfl
@[simp] theorem compressToTokens_padCnt (s : State) (B : List Byte) : (s.compressToTokens B).padCnt = s.padCnt := rfl
@[simp] theorem compressToTokens_freqCount (s : State) (B : List Byte) : (s.compressToTokens B).freqCount = s.freqCount := rfl
@[simp] theorem compressToTokens_frameLen (s : State) (B : List Byte) : (s.compressToTokens B).frameLen = s.frameLen := rfl
@[simp] theorem compressToTokens_inLen (s : State) (B : List Byte) : (s.compressToTokens B).inLen = s.inLen := rfl
@[simp] theorem compressToTokens_streamOffset (s : State) (B : List Byte) : (s.compressToTokens B).streamOffset = s.streamOffset := rfl
@[simp] theorem compressToTokens_rlist (s : State) (B : List Byte) : (s.compressToTokens B).rlist = .val (mtfEnc (rt B).1).2 := rfl
@[simp] theorem compressToTokens_freq (s : State) (B : List Byte) : (s.compressToTokens B).freq = s.freq := rfl
@[simp] theorem compressToTokens_codeLen (s : State) (B : List Byte) : (s.compressToTokens B).codeLen = s.codeLen := rfl
@[simp] theorem compressToTokens_code (s : State) (B : List Byte) : (s.compressToTokens B).code = s.code := rfl
@[simp] theorem compressToTokens_tree (s : State) (B : List Byte) : (s.compressToTokens B).tree = s.tree := rfl
@[simp] theorem compressToTokens_mem (s : State) (B : List Byte) : (s.compressToTokens B).mem = memWriteBuf (memWriteBuf (memWriteBuf s.mem .c (rt B).1) .r (mtfEnc (rt B).1).1) .t (blockTokens B) := rfl
@[simp] theorem compressToTokens_undet (s : State) (B : List Byte) : (s.compressToTokens B).undet = s.undet := rfl
@[simp] theorem compressToTokens_epoch (s : State) (B : List Byte) : (s.compressToTokens B).epoch = s.epoch := rfl
@[simp] theorem compressToTokens_hostQueue (s : State) (B : List Byte) : (s.compressToTokens B).hostQueue = s.hostQueue := rfl
@[simp] theorem compressToTokens_hostReads (s : State) (B : List Byte) : (s.compressToTokens B).hostReads = s.hostReads := rfl

@[simp] theorem writeDecoded_cfg (s : State) (T R B : List Byte) : (s.writeDecoded T R B).cfg = s.cfg := rfl
@[simp] theorem writeDecoded_ctrl (s : State) (T R B : List Byte) : (s.writeDecoded T R B).ctrl = s.ctrl := rfl
@[simp] theorem writeDecoded_cmd (s : State) (T R B : List Byte) : (s.writeDecoded T R B).cmd = s.cmd := rfl
@[simp] theorem writeDecoded_status (s : State) (T R B : List Byte) : (s.writeDecoded T R B).status = s.status := rfl
@[simp] theorem writeDecoded_errCode (s : State) (T R B : List Byte) : (s.writeDecoded T R B).errCode = s.errCode := rfl
@[simp] theorem writeDecoded_errOffset (s : State) (T R B : List Byte) : (s.writeDecoded T R B).errOffset = s.errOffset := rfl
@[simp] theorem writeDecoded_blkLen (s : State) (T R B : List Byte) : (s.writeDecoded T R B).blkLen = .val (BitVec.ofNat 32 R.length) := rfl
@[simp] theorem writeDecoded_rotIdx (s : State) (T R B : List Byte) : (s.writeDecoded T R B).rotIdx = s.rotIdx := rfl
@[simp] theorem writeDecoded_tokLen (s : State) (T R B : List Byte) : (s.writeDecoded T R B).tokLen = .val (BitVec.ofNat 32 T.length) := rfl
@[simp] theorem writeDecoded_payLen (s : State) (T R B : List Byte) : (s.writeDecoded T R B).payLen = s.payLen := rfl
@[simp] theorem writeDecoded_padCnt (s : State) (T R B : List Byte) : (s.writeDecoded T R B).padCnt = s.padCnt := rfl
@[simp] theorem writeDecoded_freqCount (s : State) (T R B : List Byte) : (s.writeDecoded T R B).freqCount = s.freqCount := rfl
@[simp] theorem writeDecoded_frameLen (s : State) (T R B : List Byte) : (s.writeDecoded T R B).frameLen = s.frameLen := rfl
@[simp] theorem writeDecoded_inLen (s : State) (T R B : List Byte) : (s.writeDecoded T R B).inLen = s.inLen := rfl
@[simp] theorem writeDecoded_streamOffset (s : State) (T R B : List Byte) : (s.writeDecoded T R B).streamOffset = s.streamOffset := rfl
@[simp] theorem writeDecoded_rlist (s : State) (T R B : List Byte) : (s.writeDecoded T R B).rlist = .val (mtfDec R).2 := rfl
@[simp] theorem writeDecoded_freq (s : State) (T R B : List Byte) : (s.writeDecoded T R B).freq = s.freq := rfl
@[simp] theorem writeDecoded_codeLen (s : State) (T R B : List Byte) : (s.writeDecoded T R B).codeLen = s.codeLen := rfl
@[simp] theorem writeDecoded_code (s : State) (T R B : List Byte) : (s.writeDecoded T R B).code = s.code := rfl
@[simp] theorem writeDecoded_tree (s : State) (T R B : List Byte) : (s.writeDecoded T R B).tree = s.tree := rfl
@[simp] theorem writeDecoded_mem (s : State) (T R B : List Byte) : (s.writeDecoded T R B).mem = memWriteBuf (memWriteBuf (memWriteBuf (memWriteBuf s.mem .t T) .r R) .c (mtfDec R).1) .a B := rfl
@[simp] theorem writeDecoded_undet (s : State) (T R B : List Byte) : (s.writeDecoded T R B).undet = s.undet := rfl
@[simp] theorem writeDecoded_epoch (s : State) (T R B : List Byte) : (s.writeDecoded T R B).epoch = s.epoch := rfl
@[simp] theorem writeDecoded_hostQueue (s : State) (T R B : List Byte) : (s.writeDecoded T R B).hostQueue = s.hostQueue := rfl
@[simp] theorem writeDecoded_hostReads (s : State) (T R B : List Byte) : (s.writeDecoded T R B).hostReads = s.hostReads := rfl

@[simp] theorem writePayload_cfg (s : State) (payload : List Byte) (pad : Nat) : (s.writePayload payload pad).cfg = s.cfg := rfl
@[simp] theorem writePayload_ctrl (s : State) (payload : List Byte) (pad : Nat) : (s.writePayload payload pad).ctrl = s.ctrl := rfl
@[simp] theorem writePayload_cmd (s : State) (payload : List Byte) (pad : Nat) : (s.writePayload payload pad).cmd = s.cmd := rfl
@[simp] theorem writePayload_status (s : State) (payload : List Byte) (pad : Nat) : (s.writePayload payload pad).status = s.status := rfl
@[simp] theorem writePayload_errCode (s : State) (payload : List Byte) (pad : Nat) : (s.writePayload payload pad).errCode = s.errCode := rfl
@[simp] theorem writePayload_errOffset (s : State) (payload : List Byte) (pad : Nat) : (s.writePayload payload pad).errOffset = s.errOffset := rfl
@[simp] theorem writePayload_blkLen (s : State) (payload : List Byte) (pad : Nat) : (s.writePayload payload pad).blkLen = s.blkLen := rfl
@[simp] theorem writePayload_rotIdx (s : State) (payload : List Byte) (pad : Nat) : (s.writePayload payload pad).rotIdx = s.rotIdx := rfl
@[simp] theorem writePayload_tokLen (s : State) (payload : List Byte) (pad : Nat) : (s.writePayload payload pad).tokLen = s.tokLen := rfl
@[simp] theorem writePayload_payLen (s : State) (payload : List Byte) (pad : Nat) : (s.writePayload payload pad).payLen = .val (BitVec.ofNat 32 payload.length) := rfl
@[simp] theorem writePayload_padCnt (s : State) (payload : List Byte) (pad : Nat) : (s.writePayload payload pad).padCnt = .val (BitVec.ofNat 8 pad) := rfl
@[simp] theorem writePayload_freqCount (s : State) (payload : List Byte) (pad : Nat) : (s.writePayload payload pad).freqCount = s.freqCount := rfl
@[simp] theorem writePayload_frameLen (s : State) (payload : List Byte) (pad : Nat) : (s.writePayload payload pad).frameLen = s.frameLen := rfl
@[simp] theorem writePayload_inLen (s : State) (payload : List Byte) (pad : Nat) : (s.writePayload payload pad).inLen = s.inLen := rfl
@[simp] theorem writePayload_streamOffset (s : State) (payload : List Byte) (pad : Nat) : (s.writePayload payload pad).streamOffset = s.streamOffset := rfl
@[simp] theorem writePayload_rlist (s : State) (payload : List Byte) (pad : Nat) : (s.writePayload payload pad).rlist = s.rlist := rfl
@[simp] theorem writePayload_freq (s : State) (payload : List Byte) (pad : Nat) : (s.writePayload payload pad).freq = s.freq := rfl
@[simp] theorem writePayload_codeLen (s : State) (payload : List Byte) (pad : Nat) : (s.writePayload payload pad).codeLen = s.codeLen := rfl
@[simp] theorem writePayload_code (s : State) (payload : List Byte) (pad : Nat) : (s.writePayload payload pad).code = s.code := rfl
@[simp] theorem writePayload_tree (s : State) (payload : List Byte) (pad : Nat) : (s.writePayload payload pad).tree = s.tree := rfl
@[simp] theorem writePayload_mem (s : State) (payload : List Byte) (pad : Nat) : (s.writePayload payload pad).mem = memWriteBuf s.mem .p payload := rfl
@[simp] theorem writePayload_undet (s : State) (payload : List Byte) (pad : Nat) : (s.writePayload payload pad).undet = s.undet := rfl
@[simp] theorem writePayload_epoch (s : State) (payload : List Byte) (pad : Nat) : (s.writePayload payload pad).epoch = s.epoch := rfl
@[simp] theorem writePayload_hostQueue (s : State) (payload : List Byte) (pad : Nat) : (s.writePayload payload pad).hostQueue = s.hostQueue := rfl
@[simp] theorem writePayload_hostReads (s : State) (payload : List Byte) (pad : Nat) : (s.writePayload payload pad).hostReads = s.hostReads := rfl

@[simp] theorem ticked_cfg (s : State) : (s.ticked).cfg = s.cfg := rfl
@[simp] theorem ticked_ctrl (s : State) : (s.ticked).ctrl = s.ctrl := rfl
@[simp] theorem ticked_cmd (s : State) : (s.ticked).cmd = s.cmd := rfl
@[simp] theorem ticked_status (s : State) : (s.ticked).status = s.status := rfl
@[simp] theorem ticked_errCode (s : State) : (s.ticked).errCode = s.errCode := rfl
@[simp] theorem ticked_errOffset (s : State) : (s.ticked).errOffset = s.errOffset := rfl
@[simp] theorem ticked_blkLen (s : State) : (s.ticked).blkLen = s.blkLen := rfl
@[simp] theorem ticked_rotIdx (s : State) : (s.ticked).rotIdx = s.rotIdx := rfl
@[simp] theorem ticked_tokLen (s : State) : (s.ticked).tokLen = s.tokLen := rfl
@[simp] theorem ticked_payLen (s : State) : (s.ticked).payLen = s.payLen := rfl
@[simp] theorem ticked_padCnt (s : State) : (s.ticked).padCnt = s.padCnt := rfl
@[simp] theorem ticked_freqCount (s : State) : (s.ticked).freqCount = s.freqCount := rfl
@[simp] theorem ticked_frameLen (s : State) : (s.ticked).frameLen = s.frameLen := rfl
@[simp] theorem ticked_inLen (s : State) : (s.ticked).inLen = s.inLen := rfl
@[simp] theorem ticked_streamOffset (s : State) : (s.ticked).streamOffset = s.streamOffset := rfl
@[simp] theorem ticked_rlist (s : State) : (s.ticked).rlist = s.rlist := rfl
@[simp] theorem ticked_freq (s : State) : (s.ticked).freq = s.freq := rfl
@[simp] theorem ticked_codeLen (s : State) : (s.ticked).codeLen = s.codeLen := rfl
@[simp] theorem ticked_code (s : State) : (s.ticked).code = s.code := rfl
@[simp] theorem ticked_tree (s : State) : (s.ticked).tree = s.tree := rfl
@[simp] theorem ticked_mem (s : State) : (s.ticked).mem = s.mem := rfl
@[simp] theorem ticked_undet (s : State) : (s.ticked).undet = s.undet := rfl
@[simp] theorem ticked_epoch (s : State) : (s.ticked).epoch = s.epoch + 1 := rfl
@[simp] theorem ticked_hostQueue (s : State) : (s.ticked).hostQueue = s.hostQueue := rfl
@[simp] theorem ticked_hostReads (s : State) : (s.ticked).hostReads = s.hostReads := rfl

@[simp] theorem blockReset_cfg (s : State) : (s.blockReset).cfg = s.cfg := rfl
@[simp] theorem blockReset_ctrl (s : State) : (s.blockReset).ctrl = (State.resetOf s.cfg).ctrl := rfl
@[simp] theorem blockReset_cmd (s : State) : (s.blockReset).cmd = (State.resetOf s.cfg).cmd := rfl
@[simp] theorem blockReset_status (s : State) : (s.blockReset).status = (State.resetOf s.cfg).status := rfl
@[simp] theorem blockReset_errCode (s : State) : (s.blockReset).errCode = (State.resetOf s.cfg).errCode := rfl
@[simp] theorem blockReset_errOffset (s : State) : (s.blockReset).errOffset = (State.resetOf s.cfg).errOffset := rfl
@[simp] theorem blockReset_blkLen (s : State) : (s.blockReset).blkLen = (State.resetOf s.cfg).blkLen := rfl
@[simp] theorem blockReset_rotIdx (s : State) : (s.blockReset).rotIdx = (State.resetOf s.cfg).rotIdx := rfl
@[simp] theorem blockReset_tokLen (s : State) : (s.blockReset).tokLen = (State.resetOf s.cfg).tokLen := rfl
@[simp] theorem blockReset_payLen (s : State) : (s.blockReset).payLen = (State.resetOf s.cfg).payLen := rfl
@[simp] theorem blockReset_padCnt (s : State) : (s.blockReset).padCnt = (State.resetOf s.cfg).padCnt := rfl
@[simp] theorem blockReset_freqCount (s : State) : (s.blockReset).freqCount = (State.resetOf s.cfg).freqCount := rfl
@[simp] theorem blockReset_frameLen (s : State) : (s.blockReset).frameLen = (State.resetOf s.cfg).frameLen := rfl
@[simp] theorem blockReset_inLen (s : State) : (s.blockReset).inLen = (State.resetOf s.cfg).inLen := rfl
@[simp] theorem blockReset_streamOffset (s : State) : (s.blockReset).streamOffset = (State.resetOf s.cfg).streamOffset := rfl
@[simp] theorem blockReset_rlist (s : State) : (s.blockReset).rlist = (State.resetOf s.cfg).rlist := rfl
@[simp] theorem blockReset_freq (s : State) : (s.blockReset).freq = (State.resetOf s.cfg).freq := rfl
@[simp] theorem blockReset_codeLen (s : State) : (s.blockReset).codeLen = (State.resetOf s.cfg).codeLen := rfl
@[simp] theorem blockReset_code (s : State) : (s.blockReset).code = (State.resetOf s.cfg).code := rfl
@[simp] theorem blockReset_tree (s : State) : (s.blockReset).tree = (State.resetOf s.cfg).tree := rfl
@[simp] theorem blockReset_mem (s : State) : (s.blockReset).mem = (State.resetOf s.cfg).mem := rfl
@[simp] theorem blockReset_undet (s : State) : (s.blockReset).undet = (State.resetOf s.cfg).undet := rfl
@[simp] theorem blockReset_epoch (s : State) : (s.blockReset).epoch = s.epoch := rfl
@[simp] theorem blockReset_hostQueue (s : State) : (s.blockReset).hostQueue = s.hostQueue := rfl
@[simp] theorem blockReset_hostReads (s : State) : (s.blockReset).hostReads = s.hostReads := rfl

@[simp] theorem withPending_cfg (s : State) (w : Word) : (s.withPending w).cfg = s.cfg := rfl
@[simp] theorem withPending_ctrl (s : State) (w : Word) : (s.withPending w).ctrl = s.ctrl := rfl
@[simp] theorem withPending_cmd (s : State) (w : Word) : (s.withPending w).cmd = w := rfl
@[simp] theorem withPending_status (s : State) (w : Word) : (s.withPending w).status = { s.status with busy := true, done := false, endOfStream := false } := rfl
@[simp] theorem withPending_errCode (s : State) (w : Word) : (s.withPending w).errCode = s.errCode := rfl
@[simp] theorem withPending_errOffset (s : State) (w : Word) : (s.withPending w).errOffset = s.errOffset := rfl
@[simp] theorem withPending_blkLen (s : State) (w : Word) : (s.withPending w).blkLen = s.blkLen := rfl
@[simp] theorem withPending_rotIdx (s : State) (w : Word) : (s.withPending w).rotIdx = s.rotIdx := rfl
@[simp] theorem withPending_tokLen (s : State) (w : Word) : (s.withPending w).tokLen = s.tokLen := rfl
@[simp] theorem withPending_payLen (s : State) (w : Word) : (s.withPending w).payLen = s.payLen := rfl
@[simp] theorem withPending_padCnt (s : State) (w : Word) : (s.withPending w).padCnt = s.padCnt := rfl
@[simp] theorem withPending_freqCount (s : State) (w : Word) : (s.withPending w).freqCount = s.freqCount := rfl
@[simp] theorem withPending_frameLen (s : State) (w : Word) : (s.withPending w).frameLen = s.frameLen := rfl
@[simp] theorem withPending_inLen (s : State) (w : Word) : (s.withPending w).inLen = s.inLen := rfl
@[simp] theorem withPending_streamOffset (s : State) (w : Word) : (s.withPending w).streamOffset = s.streamOffset := rfl
@[simp] theorem withPending_rlist (s : State) (w : Word) : (s.withPending w).rlist = s.rlist := rfl
@[simp] theorem withPending_freq (s : State) (w : Word) : (s.withPending w).freq = s.freq := rfl
@[simp] theorem withPending_codeLen (s : State) (w : Word) : (s.withPending w).codeLen = s.codeLen := rfl
@[simp] theorem withPending_code (s : State) (w : Word) : (s.withPending w).code = s.code := rfl
@[simp] theorem withPending_tree (s : State) (w : Word) : (s.withPending w).tree = s.tree := rfl
@[simp] theorem withPending_mem (s : State) (w : Word) : (s.withPending w).mem = s.mem := rfl
@[simp] theorem withPending_undet (s : State) (w : Word) : (s.withPending w).undet = s.undet := rfl
@[simp] theorem withPending_epoch (s : State) (w : Word) : (s.withPending w).epoch = s.epoch := rfl
@[simp] theorem withPending_hostQueue (s : State) (w : Word) : (s.withPending w).hostQueue = [] := rfl
@[simp] theorem withPending_hostReads (s : State) (w : Word) : (s.withPending w).hostReads = s.hostReads := rfl

end Sys2Proof.Machine
end

