-- ==== Sys2Proof/Laws/Operands.lean ====
section
/-! SUPPORT. Sys2Proof/Laws/Operands.lean: what reading a buffer gives, where the buffers lie, and what a store to one buffer does to a read of any. -/

namespace Sys2Proof.Machine

/-! ## Lists of values that may be missing -/

theorem allSome_eq_some {α : Type} {xs : List (Option α)} {ys : List α} :
    allSome xs = some ys ↔ xs = ys.map some := by
  induction xs generalizing ys with
  | nil => cases ys <;> simp [allSome]
  | cons x xs ih =>
    cases x with
    | none => cases ys <;> simp [allSome]
    | some v =>
      rw [allSome]
      cases h : allSome xs with
      | none =>
        cases ys with
        | nil => simp
        | cons y ys =>
          simp only [List.map_cons, List.cons.injEq, Option.some.injEq, reduceCtorEq, false_iff, not_and]
          rintro rfl hxs
          rw [ih.2 hxs] at h
          cases h
      | some zs =>
        have := ih.1 h
        subst this
        cases ys with
        | nil => simp
        | cons y ys =>
          have hzs : zs = ys ↔ zs.map some = ys.map some := by simpa [h] using ih (ys := ys)
          simp only [List.map_cons, List.cons.injEq, Option.some.injEq, hzs]

@[simp] theorem allSome_map_some {α : Type} (ys : List α) : allSome (ys.map some) = some ys := allSome_eq_some.2 rfl

theorem allSome_eq_none {α : Type} {xs : List (Option α)} : allSome xs = none ↔ none ∈ xs := by
  induction xs with
  | nil => simp [allSome]
  | cons x xs ih =>
    cases x with
    | none => simp [allSome]
    | some v => cases h : allSome xs <;> simp [allSome, h, ← ih]

/-! ## Reading a buffer -/

@[simp] theorem length_bufWindow (s : State) (b : Buf) (n : Nat) : (s.bufWindow b n).length = n := by simp [State.bufWindow]

theorem readBuf_eq_some {s : State} {b : Buf} {n : Nat} {bytes : List Byte} :
    s.readBuf b n = some bytes ↔ s.bufWindow b n = bytes.map some := allSome_eq_some

/-- A buffer range that reads has its length. -/
theorem length_of_readBuf {s : State} {b : Buf} {n : Nat} {bytes : List Byte} (h : s.readBuf b n = some bytes) :
    bytes.length = n := by
  have := congrArg List.length (readBuf_eq_some.1 h)
  simpa using this.symm

/-- A buffer range reads as some bytes exactly when each of its bytes reads as the byte at its place. -/
theorem readBuf_iff {s : State} {b : Buf} {n : Nat} {bytes : List Byte} :
    s.readBuf b n = some bytes ↔ bytes.length = n ∧ ∀ i < n, s.bufByte b i = bytes[i]? := by
  rw [readBuf_eq_some]
  constructor
  · intro h
    have hl : bytes.length = n := by simpa using (congrArg List.length h).symm
    refine ⟨hl, fun i hi => ?_⟩
    have := congrArg (fun l => l[i]?) h
    simp only [State.bufWindow, List.getElem?_map, List.getElem?_range hi, Option.map_some] at this
    rw [List.getElem?_eq_getElem (by omega)] at this ⊢
    simpa using this
  · rintro ⟨hl, h⟩
    apply List.ext_getElem (by simp [hl])
    intro i h1 h2
    have hi : i < n := by simpa using h1
    simp only [State.bufWindow, List.getElem_map, List.getElem_range]
    rw [h i hi, List.getElem?_eq_getElem]

/-- A buffer range fails to read exactly when one of its bytes has NO VALUE. -/
theorem readBuf_eq_none {s : State} {b : Buf} {n : Nat} : s.readBuf b n = none ↔ ∃ i < n, s.cell b i = none := by
  rw [State.readBuf, allSome_eq_none, State.bufWindow, List.mem_map]
  constructor
  · rintro ⟨i, hi, h⟩
    exact ⟨i, List.mem_range.1 hi, by simpa [State.bufByte] using h⟩
  · rintro ⟨i, hi, h⟩
    exact ⟨i, List.mem_range.2 hi, by simp [State.bufByte, h]⟩

/-- Two states that agree on the cells of a range and on the step number read it alike. -/
theorem readBuf_congr {s t : State} {b : Buf} {n : Nat} (he : t.epoch = s.epoch)
    (h : ∀ i < n, t.cell b i = s.cell b i) : t.readBuf b n = s.readBuf b n := by
  unfold State.readBuf State.bufWindow
  congr 1
  apply List.map_congr_left
  intro i hi
  unfold State.bufByte
  rw [h i (List.mem_range.1 hi), he]

/-! ## Where the buffers lie -/

/-- Two buffer bytes below their capacities have the same offset only if they are the same byte (R82, R84). -/
theorem bufBase_inj {c : Config} (hc : c.Legal) {b b' : Buf} {i i' : Nat} (hi : i < bufCapacity c b)
    (hi' : i' < bufCapacity c b') (h : bufBase b + i = bufBase b' + i') : b = b' ∧ i = i' := by
  have := hc.2
  cases b <;> cases b' <;> simp only [bufCapacity, tokenMax, payloadMax, frameMax] at hi hi' <;>
    simp only [bufBase] at h <;> first | exact ⟨rfl, by omega⟩ | (exfalso; omega)

/-- A store of bytes that fit their buffer changes exactly those bytes. -/
theorem memGet_memWriteBuf {c : Config} (hc : c.Legal) {m : Memory} {b b' : Buf} {bytes : List Byte} {i : Nat}
    (hb : bytes.length ≤ bufCapacity c b) (hi : i < bufCapacity c b') :
    memGet (memWriteBuf m b bytes) (bufBase b' + i)
      = if b' = b ∧ i < bytes.length then bytes[i]? else memGet m (bufBase b' + i) := by
  rw [memWriteBuf, memGet_memWriteBytes]
  by_cases h : b' = b ∧ i < bytes.length
  · obtain ⟨rfl, h⟩ := h
    rw [if_pos ⟨by omega, by omega⟩, if_pos ⟨rfl, h⟩]
    congr 1
    omega
  · rw [if_neg h, if_neg]
    rintro ⟨h1, h2⟩
    obtain ⟨h3, h4⟩ := bufBase_inj hc (b := b') (b' := b) (i' := bufBase b' + i - bufBase b) hi (by omega) (by omega)
    exact h ⟨h3, by subst h3; omega⟩

/-- Erasing the first bytes of a buffer erases exactly those. -/
theorem memGet_memErase_buf {c : Config} (hc : c.Legal) {m : Memory} {b b' : Buf} {n i : Nat}
    (hb : n ≤ bufCapacity c b) (hi : i < bufCapacity c b') :
    memGet (memErase m (bufBase b) (bufBase b + n)) (bufBase b' + i)
      = if b' = b ∧ i < n then none else memGet m (bufBase b' + i) := by
  rw [memGet_memErase]
  by_cases h : b' = b ∧ i < n
  · obtain ⟨rfl, h⟩ := h
    rw [if_pos ⟨by omega, by omega⟩, if_pos ⟨rfl, h⟩]
  · rw [if_neg h, if_neg]
    rintro ⟨h1, h2⟩
    obtain ⟨h3, h4⟩ := bufBase_inj hc (b := b') (b' := b) (i' := bufBase b' + i - bufBase b) hi (by omega) (by omega)
    exact h ⟨h3, by subst h3; omega⟩

/-- What a store to a buffer does to the cells of all buffers. -/
theorem cell_of_memWriteBuf {s t : State} (hc : s.cfg.Legal) {b : Buf} {bytes : List Byte}
    (hb : bytes.length ≤ bufCapacity s.cfg b) (hm : t.mem = memWriteBuf s.mem b bytes) (hu : t.undet = s.undet)
    {b' : Buf} {i : Nat} (hi : i < bufCapacity s.cfg b') :
    t.cell b' i = if b' = b ∧ i < bytes.length then bytes[i]?.map Held.val else s.cell b' i := by
  unfold State.cell
  rw [hm, hu, memGet_memWriteBuf hc hb hi]
  by_cases h : b' = b ∧ i < bytes.length
  · rw [if_pos h, if_pos h, List.getElem?_eq_getElem h.2]
    rfl
  · rw [if_neg h, if_neg h]

/-- Bytes stored to a buffer read back. -/
theorem readBuf_of_memWriteBuf {t : State} {m : Memory} {b : Buf} {bytes : List Byte}
    (hm : t.mem = memWriteBuf m b bytes) : t.readBuf b bytes.length = some bytes := by
  rw [readBuf_iff]
  refine ⟨rfl, fun i hi => ?_⟩
  unfold State.bufByte State.cell
  rw [hm, memWriteBuf, memGet_memWriteBytes, if_pos ⟨by omega, by omega⟩, show bufBase b + i - bufBase b = i by omega,
    List.getElem?_eq_getElem hi]
  rfl

end Sys2Proof.Machine
end

