-- ==== Sys2Proof/Laws/Transforms.lean ====
section
/-! SUPPORT. Sys2Proof/Laws/Transforms.lean: lengths and shapes of what the pure transforms return: enough to know that every output fits its buffer. -/

namespace Sys2Proof.Machine

/-! ## Sorting and RT -/

theorem perm_insertSorted {α : Type} (lt : α → α → Bool) (x : α) (ys : List α) : (insertSorted lt x ys).Perm (x :: ys) := by
  induction ys with
  | nil => exact List.Perm.refl _
  | cons y ys ih =>
    unfold insertSorted
    split
    · exact (ih.cons y).trans (List.Perm.swap x y ys)
    · exact List.Perm.refl _

theorem perm_sortList {α : Type} (lt : α → α → Bool) (xs : List α) : (sortList lt xs).Perm xs := by
  induction xs with
  | nil => exact List.Perm.refl _
  | cons x xs ih => exact (perm_insertSorted lt x _).trans (ih.cons x)

/-- `SA` lists every position once (R201). -/
theorem perm_sortedRotations (X : List Sym) : (sortedRotations X).Perm (List.range X.length) := by
  unfold sortedRotations
  refine ((perm_sortList _ _).map Prod.fst).trans ?_
  rw [List.map_map]
  exact (List.map_id _).symm ▸ List.reverse_perm _

@[simp] theorem length_withSentinel (B : List Byte) : (withSentinel B).length = B.length + 1 := by simp [withSentinel]

theorem withSentinel_getD_lt {B : List Byte} {i : Nat} (h : i < B.length) :
    (withSentinel B).getD i .sentinel = .byte B[i] := by
  simp [withSentinel, List.getD_eq_getElem?_getD, List.getElem?_append, h]

@[simp] theorem withSentinel_getD_length (B : List Byte) : (withSentinel B).getD B.length .sentinel = .sentinel := by
  simp [withSentinel, List.getD_eq_getElem?_getD]

/-- Dropping the one sentinel entry of the last column leaves as many bytes as the block has, and the rank is at most its length
(R202). -/
theorem rt_lengths (B : List Byte) : (rt B).1.length = B.length ∧ (rt B).2 ≤ B.length := by
  have hp := perm_sortedRotations (withSentinel B)
  rw [length_withSentinel] at hp
  have hlen : (sortedRotations (withSentinel B)).length = B.length + 1 := by simpa using hp.length_eq
  have h0 : 0 ∈ sortedRotations (withSentinel B) := hp.mem_iff.2 (by simp)
  have hI : (sortedRotations (withSentinel B)).idxOf 0 < B.length + 1 := hlen ▸ List.idxOf_lt_length_iff.2 h0
  have hnd : (sortedRotations (withSentinel B)).Nodup := hp.nodup_iff.2 List.nodup_range
  refine ⟨?_, Nat.lt_succ_iff.1 hI⟩
  show (((lastColumn (withSentinel B) (sortedRotations (withSentinel B))).eraseIdx
    ((sortedRotations (withSentinel B)).idxOf 0)).filterMap Sym.toByte?).length = B.length
  rw [lastColumn, List.eraseIdx_map, ← List.erase_eq_eraseIdx_of_idxOf rfl, List.filterMap_map]
  have key : ∀ r ∈ (sortedRotations (withSentinel B)).erase 0,
      ((Sym.toByte? ∘ fun r => (withSentinel B).getD ((r + ((withSentinel B).length - 1)) % (withSentinel B).length)
        .sentinel) r).isSome = true := by
    intro r hr
    have hr0 : r ≠ 0 := fun e => (hnd.not_mem_erase) (e ▸ hr)
    have hrn : r < B.length + 1 := List.mem_range.1 (hp.mem_iff.1 (List.mem_of_mem_erase hr))
    have : (r + B.length) % (B.length + 1) = r - 1 := by
      rw [show r + B.length = (r - 1) + (B.length + 1) by omega, Nat.add_mod_right, Nat.mod_eq_of_lt (by omega)]
    simp only [Function.comp, length_withSentinel, Nat.add_sub_cancel, this]
    rw [withSentinel_getD_lt (show r - 1 < B.length by omega)]
    rfl
  have := List.length_erase_of_mem h0
  have e : ∀ {α β : Type} (f : α → Option β) (l : List α), (∀ x ∈ l, (f x).isSome = true) →
      (l.filterMap f).length = l.length := by
    intro α β f l h
    induction l with
    | nil => rfl
    | cons x xs ih =>
      obtain ⟨y, hy⟩ := Option.isSome_iff_exists.1 (h x (by simp))
      rw [List.filterMap_cons_some hy, List.length_cons, List.length_cons, ih fun z hz => h z (by simp [hz])]
  rw [e _ _ key, this, hlen]
  rfl

theorem walkRows_length {L : List Sym} {T : List Nat} :
    ∀ {k p : Nat} {B : List Byte}, walkRows L T k p = .ok B → B.length = k := by
  intro k
  induction k with
  | zero => intro p B h; cases h; rfl
  | succ k ih =>
    intro p B h
    unfold walkRows at h
    split at h
    · cases h
    · split at h
      · cases h
      · split at h
        · rename_i hk
          cases h
          simp [ih hk]
        · cases h

/-- The inverse returns a block as long as the column (R205). -/
theorem rtInv_length {C : List Byte} {I : Nat} {B : List Byte} (h : rtInv C I = .ok B) : B.length = C.length := by
  unfold rtInv at h
  split at h
  · cases h
  · exact walkRows_length h

/-- The inverse raises only these two errors (R205). -/
theorem walkRows_error {L : List Sym} {T : List Nat} :
    ∀ {k p : Nat} {e : ErrorKind}, walkRows L T k p = .error e → e = .invalidColumn := by
  intro k
  induction k with
  | zero => intro p e h; cases h
  | succ k ih =>
    intro p e h
    unfold walkRows at h
    split at h
    · cases h; rfl
    · split at h
      · cases h; rfl
      · split at h
        · cases h
        · rename_i hk
          cases h
          exact ih hk

theorem rtInv_error {C : List Byte} {I : Nat} {e : ErrorKind} (h : rtInv C I = .error e) :
    (C.length < I ∧ e = .invalidRotationIndex) ∨ (I ≤ C.length ∧ e = .invalidColumn) := by
  unfold rtInv at h
  split at h
  · cases h; exact .inl ⟨‹_›, rfl⟩
  · exact .inr ⟨by omega, walkRows_error h⟩

/-! ## RRT -/

theorem length_mtfEncFrom (l S : List Byte) : (mtfEncFrom l S).1.length = S.length := by
  induction S generalizing l with
  | nil => rfl
  | cons x xs ih => simp [mtfEncFrom, ih]

theorem length_mtfDecFrom (l R : List Byte) : (mtfDecFrom l R).1.length = R.length := by
  induction R generalizing l with
  | nil => rfl
  | cons x xs ih => simp [mtfDecFrom, ih]

@[simp] theorem length_mtfEnc (S : List Byte) : (mtfEnc S).1.length = S.length := length_mtfEncFrom _ _

@[simp] theorem length_mtfDec (R : List Byte) : (mtfDec R).1.length = R.length := length_mtfDecFrom _ _

/-- Moving an entry to the front permutes the list (R221). -/
theorem perm_mtfMove {l : List Byte} {r : Nat} (h : r < l.length) : (mtfMove l r).Perm l := by
  unfold mtfMove
  rw [List.getD_eq_getElem?_getD, List.getElem?_eq_getElem h, Option.getD_some]
  exact List.getElem_cons_eraseIdx_perm h

theorem mem_identityList (b : Byte) : b ∈ identityList := by
  unfold identityList
  exact List.mem_map.2 ⟨b.toNat, List.mem_range.2 b.isLt, by simp⟩

theorem nodup_identityList : identityList.Nodup := by
  unfold identityList
  refine (List.nodup_map_iff_inj_on List.nodup_range).2 ?_
  intro x hx y hy h
  have := congrArg BitVec.toNat h
  simp only [BitVec.toNat_ofNat] at this
  rw [List.mem_range] at hx hy
  omega

@[simp] theorem length_identityList : identityList.length = 256 := by simp [identityList]

theorem perm_mtfEncFrom {l : List Byte} (S : List Byte) (h : l.Perm identityList) :
    (mtfEncFrom l S).2.Perm identityList := by
  induction S generalizing l with
  | nil => exact h
  | cons x xs ih =>
    have hx : l.idxOf x < l.length := List.idxOf_lt_length_iff.2 (h.mem_iff.2 (mem_identityList x))
    exact ih ((perm_mtfMove hx).trans h)

theorem perm_mtfDecFrom {l : List Byte} (R : List Byte) (h : l.Perm identityList) :
    (mtfDecFrom l R).2.Perm identityList := by
  induction R generalizing l with
  | nil => exact h
  | cons x xs ih =>
    have hx : x.toNat < l.length := by rw [h.length_eq, length_identityList]; exact x.isLt
    exact ih ((perm_mtfMove hx).trans h)

/-- RLIST's final order is a permutation of 0 to 255 (R45). -/
theorem perm_mtfEnc (S : List Byte) : (mtfEnc S).2.Perm identityList := perm_mtfEncFrom S (List.Perm.refl _)

theorem perm_mtfDec (R : List Byte) : (mtfDec R).2.Perm identityList := perm_mtfDecFrom R (List.Perm.refl _)

/-! ## RLC -/

theorem length_tokenBytes_chunk (b : Byte) (n : Nat) (h : 1 ≤ n) : (tokenBytes (chunkToken b n)).length ≤ 2 * n := by
  unfold chunkToken
  split
  · subst_vars; simp [tokenBytes]
  · simp [tokenBytes]; omega

theorem length_tokensFrom (b : Byte) (S : List Byte) : ∀ n, 1 ≤ n →
    ((tokensFrom b n S).flatMap tokenBytes).length ≤ 2 * (n + S.length) := by
  induction S generalizing b with
  | nil => intro n h; simpa [tokensFrom] using length_tokenBytes_chunk b n h
  | cons x xs ih =>
    intro n h
    unfold tokensFrom
    split
    · have := ih b (n + 1) (by omega)
      simp only [List.length_cons]; omega
    · have := ih x 1 (by omega)
      have := length_tokenBytes_chunk b n h
      simp only [List.flatMap_cons, List.length_append, List.length_cons]; omega

/-- The token stream of n bytes takes at most 2n bytes (R241). -/
theorem length_rlcEnc_le (S : List Byte) : (rlcEnc S).length ≤ 2 * S.length := by
  cases S with
  | nil => simp [rlcEnc, tokensOf]
  | cons x xs =>
    have := length_tokensFrom x xs 1 (by omega)
    simp only [rlcEnc, tokensOf, List.length_cons]; omega

/-- The decoder's errors and its limit (R243). -/
theorem rlcDecFrom_cases (lim : Nat) (T : List Byte) : ∀ out : List Byte, out.length ≤ lim →
    (∃ S, rlcDecFrom lim out T = .ok S ∧ S.length ≤ lim) ∨ rlcDecFrom lim out T = .error .malformedRunToken
      ∨ rlcDecFrom lim out T = .error .outputOverflow := by
  intro out hout
  fun_induction rlcDecFrom lim out T <;> simp_all

theorem rlcDec_cases (T : List Byte) (lim : Nat) :
    (∃ S, rlcDec T lim = .ok S ∧ S.length ≤ lim) ∨ rlcDec T lim = .error .malformedRunToken
      ∨ rlcDec T lim = .error .outputOverflow := rlcDecFrom_cases lim T [] (Nat.zero_le _)

/-! ## EC -/

@[simp] theorem length_hist (T : List Byte) : (hist T).length = 256 := by simp [hist]

theorem card_le (F : List Nat) : card F ≤ F.length := List.countP_le_length

theorem packBits_cases (code : Byte → List Bool) (lim : Nat) (T : List Byte) : ∀ bits, bytesForBits bits.length ≤ lim →
    (∃ out, packBits code lim bits T = .ok out ∧ bytesForBits out.length ≤ lim)
      ∨ packBits code lim bits T = .error .symbolNotInCode ∨ packBits code lim bits T = .error .outputOverflow := by
  induction T with
  | nil => intro bits h; exact .inl ⟨bits, rfl, h⟩
  | cons b bs ih =>
    intro bits h
    unfold packBits
    split
    · exact .inr (.inl rfl)
    · split
      · exact .inr (.inr rfl)
      · exact ih _ (by rw [List.length_append]; omega)

@[simp] theorem length_packBytes (bits : List Bool) : (packBytes bits).length = bits.length / 8 := by simp [packBytes]

theorem padBits_spec (bits : List Bool) :
    (padBits bits).1.length = bytesForBits bits.length ∧ (padBits bits).2 < 8
      ∧ bits.length + (padBits bits).2 = 8 * bytesForBits bits.length := by
  simp only [padBits, length_packBytes, List.length_append, List.length_replicate, bytesForBits]
  omega

/-- The packer's errors, and the size of what it returns (R268). -/
theorem ecPack_cases (code : Byte → List Bool) (lim : Nat) (T : List Byte) :
    (∃ payload pad, ecPack code lim T = .ok (payload, pad) ∧ payload.length ≤ lim ∧ pad < 8
        ∧ (payload.length = 0 → pad = 0))
      ∨ ecPack code lim T = .error .symbolNotInCode ∨ ecPack code lim T = .error .outputOverflow := by
  unfold ecPack
  rcases packBits_cases code lim T [] (by simp [bytesForBits]) with ⟨out, h, hl⟩ | h | h <;> rw [h]
  · obtain ⟨h1, h2, h3⟩ := padBits_spec out
    exact .inl ⟨_, _, rfl, by show (padBits out).1.length ≤ lim; omega, h2, fun h0 => by
      have h0 : (padBits out).1.length = 0 := h0
      show (padBits out).2 = 0
      omega⟩
  · exact .inr (.inl rfl)
  · exact .inr (.inr rfl)

theorem unpackLeaf_cases (sym : Byte) (lim : Nat) (bits : List Bool) : ∀ out : List Byte, out.length ≤ lim →
    (∃ T, unpackLeaf sym lim out bits = .ok T ∧ T.length ≤ lim)
      ∨ unpackLeaf sym lim out bits = .error .inconsistentFreqTable
      ∨ unpackLeaf sym lim out bits = .error .outputOverflow := by
  induction bits with
  | nil => intro out h; exact .inl ⟨out, rfl, h⟩
  | cons bit bits ih =>
    intro out h
    unfold unpackLeaf
    split
    · exact .inr (.inl rfl)
    · split
      · exact .inr (.inr rfl)
      · exact ih _ (by simp; omega)

theorem unpackTree_cases (root : CodeTree) (lim : Nat) (bits : List Bool) : ∀ (here : CodeTree) (out : List Byte),
    out.length ≤ lim →
    (∃ T, unpackTree root lim here out bits = .ok T ∧ T.length ≤ lim)
      ∨ unpackTree root lim here out bits = .error .inconsistentFreqTable
      ∨ unpackTree root lim here out bits = .error .outputOverflow := by
  induction bits with
  | nil =>
    intro here out h
    unfold unpackTree
    split
    · exact .inl ⟨out, rfl, h⟩
    · exact .inr (.inl rfl)
  | cons bit bits ih =>
    intro here out h
    cases here with
    | leaf sym freq seq => exact .inr (.inl rfl)
    | node l r freq seq =>
      unfold unpackTree
      simp only
      split
      · split
        · exact .inr (.inr rfl)
        · exact ih _ _ (by simp; omega)
      · exact ih _ _ h

theorem unpackBits_cases (tree : Option CodeTree) (lim : Nat) (bits : List Bool) :
    (∃ T, unpackBits tree lim bits = .ok T ∧ T.length ≤ lim)
      ∨ unpackBits tree lim bits = .error .inconsistentFreqTable ∨ unpackBits tree lim bits = .error .outputOverflow := by
  unfold unpackBits
  split
  · split
    · exact .inl ⟨[], rfl, Nat.zero_le _⟩
    · exact .inr (.inl rfl)
  · exact unpackLeaf_cases _ _ _ _ (Nat.zero_le _)
  · exact unpackTree_cases _ _ _ _ _ (Nat.zero_le _)

/-- The unpacker's errors, and what it returns: at most `lim` bytes, with the counts of the table (R270). -/
theorem ecUnpack_cases (tree : Option CodeTree) (F : List Nat) (lim : Nat) (payload : List Byte) (pad : Nat) :
    (∃ T, ecUnpack tree F lim payload pad = .ok T ∧ T.length ≤ lim ∧ hist T = F)
      ∨ ((8 ≤ pad ∨ (payload.length = 0 ∧ pad ≠ 0)) ∧ ecUnpack tree F lim payload pad = .error .paddingOutOfRange)
      ∨ ecUnpack tree F lim payload pad = .error .inconsistentFreqTable
      ∨ ecUnpack tree F lim payload pad = .error .outputOverflow := by
  unfold ecUnpack
  split
  · exact .inr (.inl ⟨‹_›, rfl⟩)
  · rcases unpackBits_cases tree lim ((payloadBits payload).take (8 * payload.length - pad)) with ⟨T, h, hl⟩ | h | h <;>
      rw [h]
    · simp only
      split
      · exact .inl ⟨T, rfl, hl, ‹_›⟩
      · exact .inr (.inr (.inl rfl))
    · exact .inr (.inr (.inl rfl))
    · exact .inr (.inr (.inr rfl))

/-! ## Frames -/

/-- The table has one entry for each count that is not 0 (R260, R300). -/
theorem length_entriesFrom (sym : Nat) (F : List Nat) : (entriesFrom sym F).length = card F := by
  unfold card
  induction F generalizing sym with
  | nil => rfl
  | cons f fs ih =>
    unfold entriesFrom
    by_cases h : f = 0
    · simp [h, ih]
    · simp [h, ih]

theorem length_flatMap_entryBytes (E : List (Byte × Nat)) : (E.flatMap entryBytes).length = 5 * E.length := by
  induction E with
  | nil => rfl
  | cons e E ih => simp only [List.flatMap_cons, List.length_append, List.length_cons, ih]; simp [entryBytes, be32]; omega

/-- The serializer's errors, and the length of a frame (R300). -/
theorem serializeFrame_cases (lim : Nat) (rot : Word) (pad : Byte) (F : List Nat) (payload : List Byte) :
    (lim < payload.length ∧ serializeFrame lim rot pad F payload = .error .lengthOutOfRange)
      ∨ serializeFrame lim rot pad F payload = .error .paddingOutOfRange
      ∨ serializeFrame lim rot pad F payload = .error .inconsistentFreqTable
      ∨ ∃ f, serializeFrame lim rot pad F payload = .ok f ∧ f.length = 11 + 5 * card F + payload.length := by
  unfold serializeFrame
  split
  · exact .inl ⟨‹_›, rfl⟩
  · split
    · exact .inr (.inl rfl)
    · split
      · exact .inr (.inr (.inl rfl))
      · refine .inr (.inr (.inr ⟨_, rfl, ?_⟩))
        simp only [List.length_append, length_flatMap_entryBytes, length_entriesFrom]
        simp [be32, be16]
        omega

/-- The serializer makes a frame of every input its three checks pass (R300). -/
theorem serializeFrame_ok {lim : Nat} {rot : Word} {pad : Byte} {F : List Nat} {payload : List Byte}
    (hl : payload.length ≤ lim) (hp : pad.toNat < 8) (h0 : payload.length = 0 → pad = 0)
    (hk : card F = 0 → payload.length = 0) :
    serializeFrame lim rot pad F payload
      = .ok (be32 rot.toNat ++ [pad] ++ be16 (card F) ++ (entriesFrom 0 F).flatMap entryBytes
        ++ be32 payload.length ++ payload) := by
  unfold serializeFrame
  rw [if_neg (by omega), if_neg, if_neg]
  · rw [length_entriesFrom]
  · rw [length_entriesFrom]; exact fun h => h.2 (hk h.1)
  · rintro (h | h)
    · omega
    · exact h.2 (h0 h.1)

/-- Reading bytes of a window gives that many, its first ones (R310). -/
theorem need_ok {x : Nat} {w rest : List (Option Byte)} {bytes : List Byte} (h : need x w = .ok (bytes, rest)) :
    w = bytes.map some ++ rest ∧ bytes.length = x := by
  unfold need at h
  split at h
  · cases h
  · rename_i hx
    split at h
    · cases h
    · rename_i bs hb
      cases h
      have := allSome_eq_some.1 hb
      refine ⟨by rw [← this, List.take_append_drop], ?_⟩
      have := congrArg List.length this
      simp at this
      omega

theorem need_append {x : Nat} {bytes : List Byte} {rest : List (Option Byte)} (h : bytes.length = x) :
    need x (bytes.map some ++ rest) = .ok (bytes, rest) := by
  subst h
  unfold need
  rw [if_neg (by simp)]
  have h1 : (bytes.map some ++ rest).take bytes.length = bytes.map some := by
    rw [List.take_append_of_le_length (by simp)]
    simp
  have h2 : (bytes.map some ++ rest).drop bytes.length = rest := by simp
  rw [h1, h2, allSome_map_some]

theorem need_stop {x : Nat} {w : List (Option Byte)} {stop : FrameStop} (h : need x w = .error stop) :
    (w.length < x ∧ stop = .error .truncatedFrame) ∨ (none ∈ w ∧ stop = .noValue) := by
  unfold need at h
  split at h
  · cases h; exact .inl ⟨‹_›, rfl⟩
  · split at h
    · rename_i hb
      cases h
      exact .inr ⟨List.mem_of_mem_take (allSome_eq_none.1 hb), rfl⟩
    · cases h

theorem unbe_append (xs ys : List Byte) : unbe (xs ++ ys) = unbe xs * 256 ^ ys.length + unbe ys := by
  induction ys using List.reverseRecOn with
  | nil => simp [unbe]
  | append_singleton ys y ih =>
    have h1 : unbe (xs ++ (ys ++ [y])) = 256 * unbe (xs ++ ys) + y.toNat := by
      rw [← List.append_assoc]; simp [unbe, List.foldl_append]
    have h2 : unbe (ys ++ [y]) = 256 * unbe ys + y.toNat := by simp [unbe, List.foldl_append]
    rw [h1, h2, ih, List.length_append, List.length_singleton, pow_succ]
    ring

theorem unbe_lt (xs : List Byte) : unbe xs < 256 ^ xs.length := by
  induction xs using List.reverseRecOn with
  | nil => simp [unbe]
  | append_singleton ys y ih =>
    rw [unbe_append, List.length_append, List.length_singleton, pow_succ]
    have : unbe [y] = y.toNat := by simp [unbe]
    have := y.isLt
    simp
    omega

/-- What the entry reader answers: 256 counts, each a 32-bit value, or one of these stops (R310). -/
theorem readEntries_cases (count : Nat) : ∀ (above : Nat) (F : List Nat) (w : List (Option Byte)),
    (∀ c ∈ F, c < 2 ^ 32) →
    (∃ F' rest, readEntries count above F w = .ok (F', rest) ∧ F'.length = F.length ∧ (∀ c ∈ F', c < 2 ^ 32)
        ∧ w.length = 5 * count + rest.length ∧ ∀ x ∈ rest, x ∈ w)
      ∨ readEntries count above F w = .error (.error .truncatedFrame)
      ∨ readEntries count above F w = .error (.error .inconsistentFreqTable)
      ∨ (none ∈ w ∧ readEntries count above F w = .error .noValue) := by
  induction count with
  | zero => intro above F w hF; exact .inl ⟨F, w, rfl, rfl, hF, by simp, fun x hx => hx⟩
  | succ count ih =>
    intro above F w hF
    unfold readEntries
    split
    · rename_i stop h
      rcases need_stop h with ⟨_, rfl⟩ | ⟨hn, rfl⟩
      · exact .inr (.inl rfl)
      · exact .inr (.inr (.inr ⟨hn, rfl⟩))
    · rename_i e rest h
      obtain ⟨hw, he⟩ := need_ok h
      dsimp only
      split
      · exact .inr (.inr (.inl rfl))
      · split
        · exact .inr (.inr (.inl rfl))
        · have hf : unbe (e.drop 1) < 2 ^ 32 := by
            have := unbe_lt (e.drop 1)
            rw [List.length_drop, he] at this
            omega
          have hF' : ∀ c ∈ F.set (e.getD 0 0).toNat (unbe (e.drop 1)), c < 2 ^ 32 := by
            intro c hc
            rcases List.mem_or_eq_of_mem_set hc with hc | rfl
            · exact hF c hc
            · exact hf
          rcases ih ((e.getD 0 0).toNat + 1) (F.set (e.getD 0 0).toNat (unbe (e.drop 1))) rest hF' with
            ⟨F', rest', h1, h2, h3, h4, h5⟩ | h1 | h1 | ⟨hn, h1⟩ <;> rw [h1]
          · refine .inl ⟨F', rest', rfl, by simpa using h2, h3, ?_, fun x hx => ?_⟩
            · rw [hw, List.length_append, List.length_map, he, h4]; omega
            · rw [hw]; exact List.mem_append_right _ (h5 x hx)
          · exact .inr (.inl rfl)
          · exact .inr (.inr (.inl rfl))
          · exact .inr (.inr (.inr ⟨by rw [hw]; exact List.mem_append_right _ hn, rfl⟩))

/-- What a frame that FrameDes accepts looks like. -/
structure FrameBounds (lim : Nat) (fr : Frame) : Prop where
  freq : fr.freq.length = 256
  counts : ∀ c ∈ fr.freq, c < 2 ^ 32
  count : fr.count ≤ 256
  payload : fr.payload.length ≤ lim
  pad : fr.pad < 8
  rot : fr.rot < 2 ^ 32
  padEmpty : fr.payload.length = 0 → fr.pad = 0
  length : fr.length = 11 + 5 * fr.count + fr.payload.length

/-- The errors FrameDes raises (R310). -/
def frameErrors : List ErrorKind := [.truncatedFrame, .inconsistentFreqTable, .paddingOutOfRange, .frameTooLarge]

theorem readFrameBody_cases {lim rot pad count : Nat} {w : List (Option Byte)} (hr : rot < 2 ^ 32) (hp : pad < 8)
    (hc : count ≤ 256) :
    (∃ fr, readFrameBody lim rot pad count w = .ok fr ∧ FrameBounds lim fr)
      ∨ (∃ e ∈ frameErrors, readFrameBody lim rot pad count w = .error (.error e))
      ∨ (none ∈ w ∧ readFrameBody lim rot pad count w = .error .noValue) := by
  unfold readFrameBody
  rcases readEntries_cases count 0 (List.replicate 256 0) w
    (fun c hc => by rw [(List.mem_replicate.1 hc).2]; omega) with ⟨F, rest, h, hF, hF', hw, hm⟩ | h | h | ⟨hn, h⟩ <;> rw [h]
  · dsimp only
    split
    · rename_i stop hs
      rcases need_stop hs with ⟨_, rfl⟩ | ⟨hn, rfl⟩
      · exact .inr (.inl ⟨_, by simp [frameErrors], rfl⟩)
      · exact .inr (.inr ⟨hm _ hn, rfl⟩)
    · rename_i lb rest' hs
      split
      · exact .inr (.inl ⟨_, by simp [frameErrors], rfl⟩)
      · split
        · exact .inr (.inl ⟨_, by simp [frameErrors], rfl⟩)
        · split
          · exact .inr (.inl ⟨_, by simp [frameErrors], rfl⟩)
          · rename_i h1 h2 h3
            split
            · rename_i stop hs'
              rcases need_stop hs' with ⟨_, rfl⟩ | ⟨hn, rfl⟩
              · exact .inr (.inl ⟨_, by simp [frameErrors], rfl⟩)
              · refine .inr (.inr ⟨hm _ ?_, rfl⟩)
                rw [(need_ok hs).1]
                exact List.mem_append_right _ hn
            · rename_i payload _ hs'
              have hlen := (need_ok hs').2
              refine .inl ⟨_, rfl, ⟨hF.trans List.length_replicate, hF', hc, by dsimp only; omega, hp, hr, ?_, by dsimp only; omega⟩⟩
              dsimp only
              intro h0
              by_contra hne
              exact h3 ⟨by omega, hne⟩
  · exact .inr (.inl ⟨_, by simp [frameErrors], rfl⟩)
  · exact .inr (.inl ⟨_, by simp [frameErrors], rfl⟩)
  · exact .inr (.inr ⟨hn, rfl⟩)

/-- What FrameDes answers on a window that is not empty: a frame within its bounds, one of the four errors, or a stop on a byte with
NO VALUE, which can only be one of the window's (R310, R311). -/
theorem readFrame_cases (lim : Nat) (w : List (Option Byte)) :
    (∃ fr, readFrame lim w = .ok fr ∧ FrameBounds lim fr)
      ∨ (∃ e ∈ frameErrors, readFrame lim w = .error (.error e))
      ∨ (none ∈ w ∧ readFrame lim w = .error .noValue) := by
  unfold readFrame
  split
  · rename_i stop hs
    rcases need_stop hs with ⟨_, rfl⟩ | ⟨hn, rfl⟩
    · exact .inr (.inl ⟨_, by simp [frameErrors], rfl⟩)
    · exact .inr (.inr ⟨hn, rfl⟩)
  · rename_i rb w1 hs1
    obtain ⟨e1, l1⟩ := need_ok hs1
    have m1 : ∀ x ∈ w1, x ∈ w := fun x hx => by rw [e1]; exact List.mem_append_right _ hx
    split
    · rename_i stop hs
      rcases need_stop hs with ⟨_, rfl⟩ | ⟨hn, rfl⟩
      · exact .inr (.inl ⟨_, by simp [frameErrors], rfl⟩)
      · exact .inr (.inr ⟨m1 _ hn, rfl⟩)
    · rename_i pb w2 hs2
      obtain ⟨e2, l2⟩ := need_ok hs2
      have m2 : ∀ x ∈ w2, x ∈ w := fun x hx => m1 x (by rw [e2]; exact List.mem_append_right _ hx)
      split
      · exact .inr (.inl ⟨_, by simp [frameErrors], rfl⟩)
      · rename_i hpad
        split
        · rename_i stop hs
          rcases need_stop hs with ⟨_, rfl⟩ | ⟨hn, rfl⟩
          · exact .inr (.inl ⟨_, by simp [frameErrors], rfl⟩)
          · exact .inr (.inr ⟨m2 _ hn, rfl⟩)
        · rename_i cb w3 hs3
          obtain ⟨e3, l3⟩ := need_ok hs3
          have m3 : ∀ x ∈ w3, x ∈ w := fun x hx => m2 x (by rw [e3]; exact List.mem_append_right _ hx)
          split
          · exact .inr (.inl ⟨_, by simp [frameErrors], rfl⟩)
          · rename_i hcount
            have hr : unbe rb < 2 ^ 32 := by have := unbe_lt rb; rw [l1] at this; omega
            rcases readFrameBody_cases (lim := lim) (w := w3) hr (by omega : unbe pb < 8)
              (by omega : unbe cb ≤ 256) with h | h | ⟨hn, h⟩
            · exact .inl h
            · exact .inr (.inl h)
            · exact .inr (.inr ⟨m3 _ hn, h⟩)

/-- What FrameDes answers (R310, R313). -/
theorem deserializeFrame_cases (lim : Nat) (w : List (Option Byte)) :
    (w.length = 0 ∧ deserializeFrame lim w = .ok none)
      ∨ (∃ fr, deserializeFrame lim w = .ok (some fr) ∧ FrameBounds lim fr)
      ∨ (∃ e ∈ frameErrors, deserializeFrame lim w = .error (.error e))
      ∨ (none ∈ w ∧ deserializeFrame lim w = .error .noValue) := by
  unfold deserializeFrame
  split
  · exact .inl ⟨‹_›, rfl⟩
  · rcases readFrame_cases lim w with ⟨fr, h, hb⟩ | ⟨e, he, h⟩ | ⟨hn, h⟩ <;> rw [h]
    · exact .inr (.inl ⟨fr, rfl, hb⟩)
    · exact .inr (.inr (.inl ⟨e, he, rfl⟩))
    · exact .inr (.inr (.inr ⟨hn, rfl⟩))

/-- The token stream of a block takes at most twice its length (R13). -/
theorem length_blockTokens_le (B : List Byte) : (blockTokens B).length ≤ 2 * B.length := by
  have h := length_rlcEnc_le (mtfEnc (rt B).1).1
  rw [length_mtfEnc, (rt_lengths B).1] at h
  exact h

/-- What the decoding stages of DECOMPRESS_FRAME return, and the errors they raise (R322). -/
theorem decodeFrame_cases (cfg : Config) (fr : Frame) (hb : FrameBounds (payloadMax cfg) fr) :
    (∃ T R B, decodeFrame cfg fr = .ok (T, R, B) ∧ T.length ≤ tokenMax cfg ∧ R.length ≤ cfg.blockMax
        ∧ B.length = R.length)
      ∨ ∃ e ∈ [ErrorKind.inconsistentFreqTable, .outputOverflow, .malformedRunToken, .invalidRotationIndex,
        .invalidColumn], decodeFrame cfg fr = .error e := by
  unfold decodeFrame
  rcases ecUnpack_cases (buildTree fr.freq) fr.freq (tokenMax cfg) fr.payload fr.pad with
    ⟨T, h, hT, _⟩ | ⟨h', h⟩ | h | h <;> rw [h]
  · dsimp only
    rcases rlcDec_cases T cfg.blockMax with ⟨R, h, hR⟩ | h | h <;> rw [h]
    · dsimp only
      cases hB : rtInv (mtfDec R).1 fr.rot with
      | error e => rcases rtInv_error hB with ⟨_, rfl⟩ | ⟨_, rfl⟩ <;> exact .inr ⟨_, by simp, rfl⟩
      | ok B => exact .inl ⟨T, R, B, rfl, hT, hR, by rw [rtInv_length hB, length_mtfDec]⟩
    · exact .inr ⟨_, by simp, rfl⟩
    · exact .inr ⟨_, by simp, rfl⟩
  · have := hb.pad
    rcases h' with h' | ⟨h1, h2⟩
    · omega
    · exact absurd (hb.padEmpty h1) h2
  · exact .inr ⟨_, by simp, rfl⟩
  · exact .inr ⟨_, by simp, rfl⟩

@[simp] theorem lengthOf_ok (bytes : List Byte) : lengthOf (.ok bytes) = some bytes.length := rfl

@[simp] theorem lengthOf_error (e : ErrorKind) : lengthOf (.error e) = none := rfl

/-- Where ECunpack fails, only |payload| was computed (R322). -/
theorem decodedLengths_unpackError {cfg : Config} {fr : Frame} {e : ErrorKind}
    (h : ecUnpack (buildTree fr.freq) fr.freq (tokenMax cfg) fr.payload fr.pad = .error e) :
    decodedLengths cfg fr = ⟨some fr.payload.length, none, none⟩ := by
  simp [decodedLengths, h, Except.bind]

/-- Where RLCdec fails, |payload| and |T| were computed (R322). -/
theorem decodedLengths_expandError {cfg : Config} {fr : Frame} {T : List Byte} {e : ErrorKind}
    (h : ecUnpack (buildTree fr.freq) fr.freq (tokenMax cfg) fr.payload fr.pad = .ok T)
    (h' : rlcDec T cfg.blockMax = .error e) :
    decodedLengths cfg fr = ⟨some fr.payload.length, some T.length, none⟩ := by
  simp [decodedLengths, h, h', Except.bind]

/-- Where RTinv fails, the three lengths were computed (R322). -/
theorem decodedLengths_expanded {cfg : Config} {fr : Frame} {T R : List Byte}
    (h : ecUnpack (buildTree fr.freq) fr.freq (tokenMax cfg) fr.payload fr.pad = .ok T)
    (h' : rlcDec T cfg.blockMax = .ok R) :
    decodedLengths cfg fr = ⟨some fr.payload.length, some T.length, some R.length⟩ := by
  simp [decodedLengths, h, h', Except.bind]

end Sys2Proof.Machine
end

