-- ==== Sys2Proof/Laws/Exec.lean ====
section
/-! SUPPORT. Sys2Proof/Laws/Exec.lean: everything the engine step of a command can do, said once: it raises an error of its row of the table, stops on an input byte with NO VALUE, or completes in the state `Completes` describes. -/

namespace Sys2Proof.Machine

/-! ## The small lemmas of the terms of Safety.lean -/

theorem keepsOffsetAndError_refl (s : State) : KeepsOffsetAndError s s := ⟨rfl, rfl, rfl⟩

theorem keepsOffsetAndError_trans {s t u : State} (h : KeepsOffsetAndError s t) (h' : KeepsOffsetAndError t u) :
    KeepsOffsetAndError s u :=
  ⟨h'.streamOffset.trans h.streamOffset, h'.errCode.trans h.errCode, h'.errOffset.trans h.errOffset⟩

theorem keepsOffsetAndError_finished (s : State) : KeepsOffsetAndError s s.finished := ⟨rfl, rfl, rfl⟩

theorem keepsOffsetAndError_writeBuf (s : State) (b : Buf) (bytes : List Byte) :
    KeepsOffsetAndError s (s.writeBuf b bytes) := ⟨rfl, rfl, rfl⟩

theorem keyBelow_iff (a b : CodeTree) : KeyBelow a b ↔ keyLt a b = true := by simp [KeyBelow, keyLt]

@[simp] theorem descend_nil (t : CodeTree) : descend t [] = some t := by cases t <;> rfl

@[simp] theorem descend_node (l r : CodeTree) (freq seq : Nat) (bit : Bool) (bits : List Bool) :
    descend (.node l r freq seq) (bit :: bits) = descend (if bit then r else l) bits := rfl

theorem codesThen_nil (tree : Option CodeTree) (bits : List Bool) : CodesThen tree bits [] bits := ⟨by simp, rfl⟩

theorem codesThen_cons {tree : Option CodeTree} {bits rest : List Bool} {leaves : List (Byte × List Bool)}
    {p : Byte × List Bool} (hp : p ∈ treeCodes tree) (h : CodesThen tree bits leaves rest) :
    CodesThen tree (p.2 ++ bits) (p :: leaves) rest :=
  ⟨List.forall_mem_cons.2 ⟨hp, h.1⟩, by rw [h.2, List.flatMap_cons, List.append_assoc]⟩

/-- Bytes that begin with a valid token are no bad start. -/
theorem badTokenStart_tokenBytes {k : Token} (h : k.wellFormed = true) (rest : List Byte) :
    badTokenStart (tokenBytes k ++ rest) = false := by
  cases k with
  | literal b => simp [tokenBytes, badTokenStart]
  | run b c =>
    have h : 2 ≤ c.toNat := by simpa [Token.wellFormed] using h
    simp [tokenBytes, badTokenStart, Nat.not_lt.2 h]

/-- Bytes that begin no valid token are MALFORMED_RUN_TOKEN wherever the decoder meets them (R243). -/
theorem rlcDecFrom_badTokenStart (lim : Nat) (out : List Byte) {rest : List Byte} (h : badTokenStart rest = true) :
    rlcDecFrom lim out rest = .error .malformedRunToken := by
  match rest, h with
  | [_], _ => rfl
  | t :: b :: rest, h =>
    by_cases h0 : t = 0
    · simp [badTokenStart, h0] at h
    · by_cases h1 : t = 1
      · cases rest with
        | nil => simp [rlcDecFrom, h1]
        | cons c rest =>
          have hc : c.toNat < 2 := by simpa [badTokenStart, h1] using h
          simp [rlcDecFrom, h1, hc]
      · unfold rlcDecFrom; rw [if_neg h0, if_neg h1]

/-! ## What a command can do -/

/-- The state a command completes in when it raises no error (R178 to R322). -/
def Completes (s t : State) : Instr → Prop
  | .nop => t = s.finished
  | .rtFwd =>
    s.blkLenValue.toNat ≤ s.cfg.blockMax ∧ ∃ B, s.readBuf .a s.blkLenValue.toNat = some B
      ∧ t = State.finished { s.writeBuf .c (rt B).1 with rotIdx := .val (BitVec.ofNat 32 (rt B).2) }
  | .rtInv =>
    s.blkLenValue.toNat ≤ s.cfg.blockMax ∧ ∃ C B, s.readBuf .c s.blkLenValue.toNat = some C
      ∧ rtInv C s.rotIdxValue.toNat = .ok B ∧ t = (s.writeBuf .a B).finished
  | .rrtEnc =>
    s.blkLenValue.toNat ≤ s.cfg.blockMax ∧ ∃ S, s.readBuf .c s.blkLenValue.toNat = some S
      ∧ t = State.finished { s.writeBuf .r (mtfEnc S).1 with rlist := .val (mtfEnc S).2 }
  | .rrtDec =>
    s.blkLenValue.toNat ≤ s.cfg.blockMax ∧ ∃ R, s.readBuf .r s.blkLenValue.toNat = some R
      ∧ t = State.finished { s.writeBuf .c (mtfDec R).1 with rlist := .val (mtfDec R).2 }
  | .rlcEnc =>
    s.blkLenValue.toNat ≤ s.cfg.blockMax ∧ ∃ S, s.readBuf .r s.blkLenValue.toNat = some S
      ∧ t = State.finished { s.writeBuf .t (rlcEnc S) with tokLen := .val (BitVec.ofNat 32 (rlcEnc S).length) }
  | .rlcDec =>
    s.tokLenValue.toNat ≤ tokenMax s.cfg ∧ ∃ T S, s.readBuf .t s.tokLenValue.toNat = some T
      ∧ rlcDec T s.cfg.blockMax = .ok S
      ∧ t = State.finished { s.writeBuf .r S with blkLen := .val (BitVec.ofNat 32 S.length) }
  | .ecCount =>
    s.tokLenValue.toNat ≤ tokenMax s.cfg ∧ ∃ T, s.readBuf .t s.tokLenValue.toNat = some T
      ∧ t = State.finished { s.writeFreq (hist T) with freqCount := .val (BitVec.ofNat 32 (card (hist T))) }
  | .ecBuild => t = (s.buildCodes s.freqTable).finished
  | .ecPack =>
    s.tokLenValue.toNat ≤ tokenMax s.cfg ∧ ∃ T payload pad, s.readBuf .t s.tokLenValue.toNat = some T
      ∧ ecPack s.codeOf (payloadMax s.cfg) T = .ok (payload, pad) ∧ t = (s.writePayload payload pad).finished
  | .ecUnpack =>
    s.payLenValue.toNat ≤ payloadMax s.cfg ∧ ∃ payload T, s.readBuf .p s.payLenValue.toNat = some payload
      ∧ ecUnpack s.treeValue s.freqTable (tokenMax s.cfg) payload s.padCntValue.toNat = .ok T
      ∧ t = State.finished { s.writeBuf .t T with tokLen := .val (BitVec.ofNat 32 T.length) }
  | .frameSer =>
    s.payLenValue.toNat ≤ payloadMax s.cfg ∧ ∃ payload frame, s.readBuf .p s.payLenValue.toNat = some payload
      ∧ serializeFrame (payloadMax s.cfg) s.rotIdxValue s.padCntValue s.freqTable payload = .ok frame
      ∧ t = State.finished { s.writeBuf .f frame with frameLen := .val (BitVec.ofNat 32 frame.length) }
  | .frameDes =>
    s.inLen.toNat ≤ frameMax s.cfg ∧ ∃ r, deserializeFrame (payloadMax s.cfg) (s.bufWindow .f s.inLen.toNat) = .ok r
      ∧ t = match r with
        | none => s.endFound.finished
        | some frame => (s.writeFrame frame).finished
  | .compressBlock =>
    s.blkLenValue.toNat ≤ s.cfg.blockMax ∧ ∃ B payload pad frame, s.readBuf .a s.blkLenValue.toNat = some B
      ∧ ecPack (((s.compressToTokens B).writeFreq (hist (blockTokens B))).buildCodes (hist (blockTokens B))).codeOf
        (payloadMax s.cfg) (blockTokens B) = .ok (payload, pad)
      ∧ (if s.blkLenValue.toNat = 0 then frame = []
        else
          serializeFrame (payloadMax s.cfg) (BitVec.ofNat 32 (rt B).2) (BitVec.ofNat 8 pad) (hist (blockTokens B)) payload
            = .ok frame)
      ∧ t = (((((s.compressToTokens B).writeFreq (hist (blockTokens B))).buildCodes (hist (blockTokens B))).writePayload
        payload pad).emitFrame frame).finished
  | .decompressFrame =>
    s.inLen.toNat ≤ frameMax s.cfg ∧ ∃ r, deserializeFrame (payloadMax s.cfg) (s.bufWindow .f s.inLen.toNat) = .ok r
      ∧ match r with
        | none => t = s.endFound.finished
        | some fr =>
          ∃ T R B, decodeFrame s.cfg fr = .ok (T, R, B)
            ∧ t = ((((s.writeFrame fr).buildCodes fr.freq).writeDecoded T R B).advance fr.length).finished
  | .streamReset => t = State.finished { s with streamOffset := 0 }
  | .clearError => t = s.errorCleared.finished

/-- What a command's engine step answers: an error from its row of the table (R340; COMPRESS_BLOCK's bound on its errors is a
claim of its own, R341), a fault on a byte of its input range that has NO VALUE (R106), or a completed command. -/
theorem exec_cases (i : Instr) (s : State) :
    (∃ e, exec i s = raiseKnowing (knownLengths s i) i e s ∧ (i ∈ raisedBy e ∨ i = .compressBlock))
      ∨ (∃ b n, inputRange s i = some (b, n) ∧ n ≤ bufCapacity s.cfg b ∧ (∃ j < n, s.cell b j = none)
        ∧ exec i s = .fault (.noValueRead b))
      ∨ ∃ t, exec i s = .next t ∧ Completes s t i := by
  cases i with
  | nop => exact .inr (.inr ⟨_, rfl, rfl⟩)
  | ecBuild => exact .inr (.inr ⟨_, rfl, rfl⟩)
  | streamReset => exact .inr (.inr ⟨_, rfl, rfl⟩)
  | clearError => exact .inr (.inr ⟨_, rfl, rfl⟩)
  | rtFwd =>
    simp only [exec, execRtFwd]
    split
    · exact .inl ⟨_, rfl, .inl (by decide)⟩
    · split
      · exact .inr (.inl ⟨_, _, rfl, by simp only [bufCapacity]; omega, readBuf_eq_none.1 ‹_›, rfl⟩)
      · exact .inr (.inr ⟨_, rfl, by omega, _, ‹_›, rfl⟩)
  | rtInv =>
    simp only [exec, execRtInv]
    split
    · exact .inl ⟨_, rfl, .inl (by decide)⟩
    · split
      · exact .inr (.inl ⟨_, _, rfl, by simp only [bufCapacity]; omega, readBuf_eq_none.1 ‹_›, rfl⟩)
      · split
        · rename_i h
          rcases rtInv_error h with ⟨_, rfl⟩ | ⟨_, rfl⟩ <;> exact .inl ⟨_, rfl, .inl (by decide)⟩
        · exact .inr (.inr ⟨_, rfl, by omega, _, _, ‹_›, ‹_›, rfl⟩)
  | rrtEnc =>
    simp only [exec, execRrtEnc]
    split
    · exact .inl ⟨_, rfl, .inl (by decide)⟩
    · split
      · exact .inr (.inl ⟨_, _, rfl, by simp only [bufCapacity]; omega, readBuf_eq_none.1 ‹_›, rfl⟩)
      · exact .inr (.inr ⟨_, rfl, by omega, _, ‹_›, rfl⟩)
  | rrtDec =>
    simp only [exec, execRrtDec]
    split
    · exact .inl ⟨_, rfl, .inl (by decide)⟩
    · split
      · exact .inr (.inl ⟨_, _, rfl, by simp only [bufCapacity]; omega, readBuf_eq_none.1 ‹_›, rfl⟩)
      · exact .inr (.inr ⟨_, rfl, by omega, _, ‹_›, rfl⟩)
  | rlcEnc =>
    simp only [exec, execRlcEnc]
    split
    · exact .inl ⟨_, rfl, .inl (by decide)⟩
    · split
      · exact .inr (.inl ⟨_, _, rfl, by simp only [bufCapacity]; omega, readBuf_eq_none.1 ‹_›, rfl⟩)
      · exact .inr (.inr ⟨_, rfl, by omega, _, ‹_›, rfl⟩)
  | rlcDec =>
    simp only [exec, execRlcDec]
    split
    · exact .inl ⟨_, rfl, .inl (by decide)⟩
    · split
      · exact .inr (.inl ⟨_, _, rfl, by simp only [bufCapacity]; omega, readBuf_eq_none.1 ‹_›, rfl⟩)
      · rename_i T hT
        rcases rlcDec_cases T s.cfg.blockMax with ⟨S, h, _⟩ | h | h <;> rw [h]
        · exact .inr (.inr ⟨_, rfl, by omega, _, _, hT, h, rfl⟩)
        · exact .inl ⟨_, rfl, .inl (by decide)⟩
        · exact .inl ⟨_, rfl, .inl (by decide)⟩
  | ecCount =>
    simp only [exec, execEcCount]
    split
    · exact .inl ⟨_, rfl, .inl (by decide)⟩
    · split
      · exact .inr (.inl ⟨_, _, rfl, by simp only [bufCapacity]; omega, readBuf_eq_none.1 ‹_›, rfl⟩)
      · exact .inr (.inr ⟨_, rfl, by omega, _, ‹_›, rfl⟩)
  | ecPack =>
    simp only [exec, execEcPack]
    split
    · exact .inl ⟨_, rfl, .inl (by decide)⟩
    · split
      · exact .inr (.inl ⟨_, _, rfl, by simp only [bufCapacity]; omega, readBuf_eq_none.1 ‹_›, rfl⟩)
      · rename_i T hT
        rcases ecPack_cases s.codeOf (payloadMax s.cfg) T with ⟨payload, pad, h, _⟩ | h | h <;> rw [h]
        · exact .inr (.inr ⟨_, rfl, by omega, _, _, _, hT, h, rfl⟩)
        · exact .inl ⟨_, rfl, .inl (by decide)⟩
        · exact .inl ⟨_, rfl, .inl (by decide)⟩
  | ecUnpack =>
    simp only [exec, execEcUnpack]
    split
    · exact .inl ⟨_, rfl, .inl (by decide)⟩
    · split
      · exact .inr (.inl ⟨_, _, rfl, by simp only [bufCapacity]; omega, readBuf_eq_none.1 ‹_›, rfl⟩)
      · rename_i payload hp
        rcases ecUnpack_cases s.treeValue s.freqTable (tokenMax s.cfg) payload s.padCntValue.toNat with
          ⟨T, h, _⟩ | ⟨_, h⟩ | h | h <;> rw [h]
        · exact .inr (.inr ⟨_, rfl, by omega, _, _, hp, h, rfl⟩)
        · exact .inl ⟨_, rfl, .inl (by decide)⟩
        · exact .inl ⟨_, rfl, .inl (by decide)⟩
        · exact .inl ⟨_, rfl, .inl (by decide)⟩
  | frameSer =>
    simp only [exec, execFrameSer]
    split
    · exact .inl ⟨_, rfl, .inl (by decide)⟩
    · split
      · exact .inr (.inl ⟨_, _, rfl, by simp only [bufCapacity]; omega, readBuf_eq_none.1 ‹_›, rfl⟩)
      · rename_i payload hp
        rcases serializeFrame_cases (payloadMax s.cfg) s.rotIdxValue s.padCntValue s.freqTable payload with
          ⟨_, h⟩ | h | h | ⟨f, h, _⟩ <;> rw [h]
        · exact .inl ⟨_, rfl, .inl (by decide)⟩
        · exact .inl ⟨_, rfl, .inl (by decide)⟩
        · exact .inl ⟨_, rfl, .inl (by decide)⟩
        · exact .inr (.inr ⟨_, rfl, by omega, _, _, hp, h, rfl⟩)
  | frameDes =>
    simp only [exec, execFrameDes]
    split
    · exact .inl ⟨_, rfl, .inl (by decide)⟩
    · rename_i hN
      rcases deserializeFrame_cases (payloadMax s.cfg) (s.bufWindow .f s.inLen.toNat) with
        ⟨_, h⟩ | ⟨fr, h, _⟩ | ⟨e, he, h⟩ | ⟨hn, h⟩ <;> rw [h]
      · exact .inr (.inr ⟨_, rfl, by omega, _, h, rfl⟩)
      · exact .inr (.inr ⟨_, rfl, by omega, _, h, rfl⟩)
      · refine .inl ⟨e, rfl, .inl ?_⟩
        simp only [frameErrors, List.mem_cons, List.not_mem_nil, or_false] at he
        rcases he with rfl | rfl | rfl | rfl <;> decide
      · exact .inr (.inl ⟨_, _, rfl, by simp only [bufCapacity]; omega,
          readBuf_eq_none.1 (allSome_eq_none.2 hn), rfl⟩)
  | compressBlock =>
    simp only [exec, execCompressBlock]
    split
    · exact .inl ⟨_, rfl, .inr trivial⟩
    · split
      · exact .inr (.inl ⟨_, _, rfl, by simp only [bufCapacity]; omega, readBuf_eq_none.1 ‹_›, rfl⟩)
      · split
        · exact .inl ⟨_, rfl, .inr trivial⟩
        · rename_i payload pad hpk
          split
          · exact .inr (.inr ⟨_, rfl, by omega, _, payload, pad, [], ‹_›, hpk, by rw [if_pos ‹_›], rfl⟩)
          · split
            · exact .inl ⟨_, rfl, .inr trivial⟩
            · exact .inr (.inr ⟨_, rfl, by omega, _, payload, pad, _, ‹_›, hpk, by rw [if_neg ‹_›]; assumption, rfl⟩)
  | decompressFrame =>
    simp only [exec, execDecompressFrame]
    split
    · rename_i hN
      exact .inl ⟨_, congrArg (raiseKnowing · _ _ _) (if_neg fun h => Nat.not_le.2 hN h.2).symm, .inl (by decide)⟩
    · rename_i hN
      have hN : s.inLen.toNat ≤ frameMax s.cfg := Nat.not_lt.1 hN
      rcases deserializeFrame_cases (payloadMax s.cfg) (s.bufWindow .f s.inLen.toNat) with
        ⟨_, h⟩ | ⟨fr, h, hb⟩ | ⟨e, he, h⟩ | ⟨hn, h⟩ <;> rw [h]
      · exact .inr (.inr ⟨_, rfl, hN, _, h, rfl⟩)
      · dsimp only
        rcases decodeFrame_cases s.cfg fr hb with ⟨T, R, B, h', _⟩ | ⟨e, he, h'⟩ <;> rw [h']
        · exact .inr (.inr ⟨_, rfl, hN, _, h, _, _, _, h', rfl⟩)
        · refine .inl ⟨e, congrArg (raiseKnowing · _ _ _) ?_, .inl ?_⟩
          · simp [knownLengths, windowFrame, hN, h]
          · simp only [List.mem_cons, List.not_mem_nil, or_false] at he
            rcases he with rfl | rfl | rfl | rfl | rfl <;> decide
      · refine .inl ⟨e, congrArg (raiseKnowing · _ _ _) ?_, .inl ?_⟩
        · simp [knownLengths, windowFrame, h]
        · simp only [frameErrors, List.mem_cons, List.not_mem_nil, or_false] at he
          rcases he with rfl | rfl | rfl | rfl <;> decide
      · exact .inr (.inl ⟨_, _, rfl, by simp only [bufCapacity]; omega,
          readBuf_eq_none.1 (allSome_eq_none.2 hn), rfl⟩)

end Sys2Proof.Machine
end

