-- ==== Sys2Proof/Laws/PerInstr.lean ====
section
/-! SUPPORT. Sys2Proof/Laws/PerInstr.lean: per command: its word decodes to it, and it is well formed (R121, R122, R125). -/

namespace Sys2Proof.Laws.RoundTrip

/-- The command's word decodes to the command, its bits 31:8 are 0 (R121), and the command is well formed. -/
def Statement (i : Instr) : Prop := decode (encode i) = .ok i ∧ rsvField (encode i) = 0 ∧ i.wellFormed = true

theorem nop : Statement .nop := ⟨rfl, rfl, rfl⟩

theorem rtFwd : Statement .rtFwd := ⟨rfl, rfl, rfl⟩

theorem rtInv : Statement .rtInv := ⟨rfl, rfl, rfl⟩

theorem rrtEnc : Statement .rrtEnc := ⟨rfl, rfl, rfl⟩

theorem rrtDec : Statement .rrtDec := ⟨rfl, rfl, rfl⟩

theorem rlcEnc : Statement .rlcEnc := ⟨rfl, rfl, rfl⟩

theorem rlcDec : Statement .rlcDec := ⟨rfl, rfl, rfl⟩

theorem ecCount : Statement .ecCount := ⟨rfl, rfl, rfl⟩

theorem ecBuild : Statement .ecBuild := ⟨rfl, rfl, rfl⟩

theorem ecPack : Statement .ecPack := ⟨rfl, rfl, rfl⟩

theorem ecUnpack : Statement .ecUnpack := ⟨rfl, rfl, rfl⟩

theorem frameSer : Statement .frameSer := ⟨rfl, rfl, rfl⟩

theorem frameDes : Statement .frameDes := ⟨rfl, rfl, rfl⟩

theorem compressBlock : Statement .compressBlock := ⟨rfl, rfl, rfl⟩

theorem decompressFrame : Statement .decompressFrame := ⟨rfl, rfl, rfl⟩

theorem streamReset : Statement .streamReset := ⟨rfl, rfl, rfl⟩

theorem clearError : Statement .clearError := ⟨rfl, rfl, rfl⟩

end Sys2Proof.Laws.RoundTrip
end

