-- ==== Sys2Proof/Laws/Raise.lean ====
section
/-! SUPPORT. Sys2Proof/Laws/Raise.lean: what making an output set UNSPECIFIED does to each field and to each buffer byte (R184), and what raising an error leaves (R174, R352). -/

namespace Sys2Proof.Machine

@[simp] theorem spoilAll_nil (s : State) : s.spoilAll [] = s := rfl

theorem spoilAll_cons (s : State) (o : Output) (outs : List Output) :
    s.spoilAll (o :: outs) = (s.spoil o).spoilAll outs := rfl

@[simp] theorem spoilAll_cfg (s : State) (outs : List Output) : (s.spoilAll outs).cfg = s.cfg := by
  induction outs generalizing s with
  | nil => rfl
  | cons o outs ih => rw [spoilAll_cons, ih]; cases o <;> rfl

@[simp] theorem spoilAll_ctrl (s : State) (outs : List Output) : (s.spoilAll outs).ctrl = s.ctrl := by
  induction outs generalizing s with
  | nil => rfl
  | cons o outs ih => rw [spoilAll_cons, ih]; cases o <;> rfl

@[simp] theorem spoilAll_cmd (s : State) (outs : List Output) : (s.spoilAll outs).cmd = s.cmd := by
  induction outs generalizing s with
  | nil => rfl
  | cons o outs ih => rw [spoilAll_cons, ih]; cases o <;> rfl

@[simp] theorem spoilAll_status (s : State) (outs : List Output) : (s.spoilAll outs).status = s.status := by
  induction outs generalizing s with
  | nil => rfl
  | cons o outs ih => rw [spoilAll_cons, ih]; cases o <;> rfl

@[simp] theorem spoilAll_errCode (s : State) (outs : List Output) : (s.spoilAll outs).errCode = s.errCode := by
  induction outs generalizing s with
  | nil => rfl
  | cons o outs ih => rw [spoilAll_cons, ih]; cases o <;> rfl

@[simp] theorem spoilAll_errOffset (s : State) (outs : List Output) : (s.spoilAll outs).errOffset = s.errOffset := by
  induction outs generalizing s with
  | nil => rfl
  | cons o outs ih => rw [spoilAll_cons, ih]; cases o <;> rfl

@[simp] theorem spoilAll_inLen (s : State) (outs : List Output) : (s.spoilAll outs).inLen = s.inLen := by
  induction outs generalizing s with
  | nil => rfl
  | cons o outs ih => rw [spoilAll_cons, ih]; cases o <;> rfl

@[simp] theorem spoilAll_streamOffset (s : State) (outs : List Output) : (s.spoilAll outs).streamOffset = s.streamOffset := by
  induction outs generalizing s with
  | nil => rfl
  | cons o outs ih => rw [spoilAll_cons, ih]; cases o <;> rfl

@[simp] theorem spoilAll_epoch (s : State) (outs : List Output) : (s.spoilAll outs).epoch = s.epoch := by
  induction outs generalizing s with
  | nil => rfl
  | cons o outs ih => rw [spoilAll_cons, ih]; cases o <;> rfl

@[simp] theorem spoilAll_hostQueue (s : State) (outs : List Output) : (s.spoilAll outs).hostQueue = s.hostQueue := by
  induction outs generalizing s with
  | nil => rfl
  | cons o outs ih => rw [spoilAll_cons, ih]; cases o <;> rfl

@[simp] theorem spoilAll_hostReads (s : State) (outs : List Output) : (s.spoilAll outs).hostReads = s.hostReads := by
  induction outs generalizing s with
  | nil => rfl
  | cons o outs ih => rw [spoilAll_cons, ih]; cases o <;> rfl

theorem spoilAll_rotIdx (s : State) (outs : List Output) :
    (s.spoilAll outs).rotIdx = if Output.rotIdx ∈ outs then .unspecified else s.rotIdx := by
  induction outs generalizing s with
  | nil => rfl
  | cons o outs ih =>
    rw [spoilAll_cons, ih]
    by_cases h : Output.rotIdx ∈ outs
    · rw [if_pos h, if_pos (List.mem_cons_of_mem _ h)]
    · rw [if_neg h]
      cases o <;>
        first
        | (rw [if_pos (List.mem_cons_self ..)]; rfl)
        | (rw [if_neg (by simp only [List.mem_cons, reduceCtorEq, false_or]; exact h)]; rfl)

theorem spoilAll_blkLen (s : State) (outs : List Output) :
    (s.spoilAll outs).blkLen = if Output.blkLen ∈ outs then .unspecified else s.blkLen := by
  induction outs generalizing s with
  | nil => rfl
  | cons o outs ih =>
    rw [spoilAll_cons, ih]
    by_cases h : Output.blkLen ∈ outs
    · rw [if_pos h, if_pos (List.mem_cons_of_mem _ h)]
    · rw [if_neg h]
      cases o <;>
        first
        | (rw [if_pos (List.mem_cons_self ..)]; rfl)
        | (rw [if_neg (by simp only [List.mem_cons, reduceCtorEq, false_or]; exact h)]; rfl)

theorem spoilAll_tokLen (s : State) (outs : List Output) :
    (s.spoilAll outs).tokLen = if Output.tokLen ∈ outs then .unspecified else s.tokLen := by
  induction outs generalizing s with
  | nil => rfl
  | cons o outs ih =>
    rw [spoilAll_cons, ih]
    by_cases h : Output.tokLen ∈ outs
    · rw [if_pos h, if_pos (List.mem_cons_of_mem _ h)]
    · rw [if_neg h]
      cases o <;>
        first
        | (rw [if_pos (List.mem_cons_self ..)]; rfl)
        | (rw [if_neg (by simp only [List.mem_cons, reduceCtorEq, false_or]; exact h)]; rfl)

theorem spoilAll_payLen (s : State) (outs : List Output) :
    (s.spoilAll outs).payLen = if Output.payLen ∈ outs then .unspecified else s.payLen := by
  induction outs generalizing s with
  | nil => rfl
  | cons o outs ih =>
    rw [spoilAll_cons, ih]
    by_cases h : Output.payLen ∈ outs
    · rw [if_pos h, if_pos (List.mem_cons_of_mem _ h)]
    · rw [if_neg h]
      cases o <;>
        first
        | (rw [if_pos (List.mem_cons_self ..)]; rfl)
        | (rw [if_neg (by simp only [List.mem_cons, reduceCtorEq, false_or]; exact h)]; rfl)

theorem spoilAll_padCnt (s : State) (outs : List Output) :
    (s.spoilAll outs).padCnt = if Output.padCnt ∈ outs then .unspecified else s.padCnt := by
  induction outs generalizing s with
  | nil => rfl
  | cons o outs ih =>
    rw [spoilAll_cons, ih]
    by_cases h : Output.padCnt ∈ outs
    · rw [if_pos h, if_pos (List.mem_cons_of_mem _ h)]
    · rw [if_neg h]
      cases o <;>
        first
        | (rw [if_pos (List.mem_cons_self ..)]; rfl)
        | (rw [if_neg (by simp only [List.mem_cons, reduceCtorEq, false_or]; exact h)]; rfl)

theorem spoilAll_freqCount (s : State) (outs : List Output) :
    (s.spoilAll outs).freqCount = if Output.freqCount ∈ outs then .unspecified else s.freqCount := by
  induction outs generalizing s with
  | nil => rfl
  | cons o outs ih =>
    rw [spoilAll_cons, ih]
    by_cases h : Output.freqCount ∈ outs
    · rw [if_pos h, if_pos (List.mem_cons_of_mem _ h)]
    · rw [if_neg h]
      cases o <;>
        first
        | (rw [if_pos (List.mem_cons_self ..)]; rfl)
        | (rw [if_neg (by simp only [List.mem_cons, reduceCtorEq, false_or]; exact h)]; rfl)

theorem spoilAll_frameLen (s : State) (outs : List Output) :
    (s.spoilAll outs).frameLen = if Output.frameLen ∈ outs then .unspecified else s.frameLen := by
  induction outs generalizing s with
  | nil => rfl
  | cons o outs ih =>
    rw [spoilAll_cons, ih]
    by_cases h : Output.frameLen ∈ outs
    · rw [if_pos h, if_pos (List.mem_cons_of_mem _ h)]
    · rw [if_neg h]
      cases o <;>
        first
        | (rw [if_pos (List.mem_cons_self ..)]; rfl)
        | (rw [if_neg (by simp only [List.mem_cons, reduceCtorEq, false_or]; exact h)]; rfl)

theorem spoilAll_rlist (s : State) (outs : List Output) :
    (s.spoilAll outs).rlist = if Output.rlist ∈ outs then .unspecified else s.rlist := by
  induction outs generalizing s with
  | nil => rfl
  | cons o outs ih =>
    rw [spoilAll_cons, ih]
    by_cases h : Output.rlist ∈ outs
    · rw [if_pos h, if_pos (List.mem_cons_of_mem _ h)]
    · rw [if_neg h]
      cases o <;>
        first
        | (rw [if_pos (List.mem_cons_self ..)]; rfl)
        | (rw [if_neg (by simp only [List.mem_cons, reduceCtorEq, false_or]; exact h)]; rfl)

theorem spoilAll_codeLen (s : State) (outs : List Output) :
    (s.spoilAll outs).codeLen = if Output.codeLen ∈ outs then .unspecified else s.codeLen := by
  induction outs generalizing s with
  | nil => rfl
  | cons o outs ih =>
    rw [spoilAll_cons, ih]
    by_cases h : Output.codeLen ∈ outs
    · rw [if_pos h, if_pos (List.mem_cons_of_mem _ h)]
    · rw [if_neg h]
      cases o <;>
        first
        | (rw [if_pos (List.mem_cons_self ..)]; rfl)
        | (rw [if_neg (by simp only [List.mem_cons, reduceCtorEq, false_or]; exact h)]; rfl)

theorem spoilAll_code (s : State) (outs : List Output) :
    (s.spoilAll outs).code = if Output.code ∈ outs then .unspecified else s.code := by
  induction outs generalizing s with
  | nil => rfl
  | cons o outs ih =>
    rw [spoilAll_cons, ih]
    by_cases h : Output.code ∈ outs
    · rw [if_pos h, if_pos (List.mem_cons_of_mem _ h)]
    · rw [if_neg h]
      cases o <;>
        first
        | (rw [if_pos (List.mem_cons_self ..)]; rfl)
        | (rw [if_neg (by simp only [List.mem_cons, reduceCtorEq, false_or]; exact h)]; rfl)

theorem spoilAll_tree (s : State) (outs : List Output) :
    (s.spoilAll outs).tree = if Output.tree ∈ outs then .unspecified else s.tree := by
  induction outs generalizing s with
  | nil => rfl
  | cons o outs ih =>
    rw [spoilAll_cons, ih]
    by_cases h : Output.tree ∈ outs
    · rw [if_pos h, if_pos (List.mem_cons_of_mem _ h)]
    · rw [if_neg h]
      cases o <;>
        first
        | (rw [if_pos (List.mem_cons_self ..)]; rfl)
        | (rw [if_neg (by simp only [List.mem_cons, reduceCtorEq, false_or]; exact h)]; rfl)

theorem spoilAll_freq (s : State) (outs : List Output) :
    (s.spoilAll outs).freq = if Output.freq ∈ outs then List.replicate 256 freqEntryUnspecified else s.freq := by
  induction outs generalizing s with
  | nil => rfl
  | cons o outs ih =>
    rw [spoilAll_cons, ih]
    by_cases h : Output.freq ∈ outs
    · rw [if_pos h, if_pos (List.mem_cons_of_mem _ h)]
    · rw [if_neg h]
      cases o <;>
        first
        | (rw [if_pos (List.mem_cons_self ..)]; rfl)
        | (rw [if_neg (by simp only [List.mem_cons, reduceCtorEq, false_or]; exact h)]; rfl)

/-- Every buffer piece of an output set lies below the buffer's capacity. -/
def Fits (c : Config) (outs : List Output) : Prop := ∀ b n, Output.buf b n ∈ outs → n ≤ bufCapacity c b

/-- A range is at most the buffer's capacity, whether or not its length was computed. -/
theorem rangeOf_eq (s : State) (b : Buf) (known : Option Nat) :
    rangeOf s b known = .buf b (min (known.getD (bufCapacity s.cfg b)) (bufCapacity s.cfg b)) := by
  cases known <;> simp [rangeOf, wholeOf]

/-- The output sets of all commands lie below the capacities. -/
theorem fits_outputSet (s : State) (known : Computed) (i : Instr) : Fits s.cfg (outputSet s known i) := by
  intro b n h
  cases i <;>
    simp only [outputSet, prefixOf, wholeOf, rangeOf_eq, List.mem_cons, List.not_mem_nil, or_false, false_or, Output.buf.injEq,
      reduceCtorEq] at h <;>
    aesop

theorem fits_failedOutputs (s : State) (i : Instr) : Fits s.cfg (failedOutputs s i) := fits_outputSet s _ i

/-- A piece of an output set covers a buffer byte. -/
def covers (b : Buf) (i : Nat) : Output → Bool
  | .buf b' n => b' = b && i < n
  | _ => false

/-- What making one piece of an output set UNSPECIFIED does to a buffer byte. -/
theorem cell_spoil {s : State} (hc : s.cfg.Legal) {o : Output} (hf : Fits s.cfg [o]) {b : Buf} {i : Nat}
    (hi : i < bufCapacity s.cfg b) :
    (s.spoil o).cell b i = if covers b i o then some .unspecified else s.cell b i := by
  cases o with
  | buf b' n =>
    have hn : n ≤ bufCapacity s.cfg b' := hf b' n (List.mem_cons_self ..)
    unfold State.cell
    simp only [State.spoil]
    rw [memGet_memErase_buf hc hn hi]
    by_cases hb : b = b'
    · subst hb
      by_cases hin : i < n
      · have hu : i < undetOf (undetExtend s.undet b n) b := by cases b <;> simp [undetExtend, undetOf, hin]
        rw [if_pos (⟨rfl, hin⟩ : b = b ∧ i < n)]
        simp [hu, covers, hin]
      · have hu : i < undetOf (undetExtend s.undet b n) b ↔ i < undetOf s.undet b := by
          cases b <;> simp only [undetExtend, undetOf] <;> omega
        rw [if_neg (fun h => hin h.2 : ¬(b = b ∧ i < n))]
        simp only [hu, covers, hin, decide_false, Bool.and_false]
        rfl
    · have hu : undetOf (undetExtend s.undet b' n) b = undetOf s.undet b := by
        cases b <;> cases b' <;> first | rfl | exact absurd rfl hb
      rw [if_neg (fun h => hb h.1 : ¬(b = b' ∧ i < n))]
      simp only [hu, covers, Ne.symm hb, decide_false, Bool.false_and]
      rfl
  | _ => rfl

/-- What making an output set UNSPECIFIED does to a buffer byte: UNSPECIFIED if the set covers it, else as before (R184). -/
theorem cell_spoilAll {s : State} (hc : s.cfg.Legal) {outs : List Output} (hf : Fits s.cfg outs) {b : Buf} {i : Nat}
    (hi : i < bufCapacity s.cfg b) :
    (s.spoilAll outs).cell b i = if outs.any (covers b i) then some .unspecified else s.cell b i := by
  induction outs generalizing s with
  | nil => rfl
  | cons o outs ih =>
    have hcfg : (s.spoil o).cfg = s.cfg := by cases o <;> rfl
    have ho : Fits s.cfg [o] := fun b n h => hf b n (List.mem_singleton.1 h ▸ List.mem_cons_self ..)
    rw [spoilAll_cons, ih (hcfg ▸ hc) (fun b n h => hcfg ▸ hf b n (List.mem_cons_of_mem _ h)) (hcfg ▸ hi),
      cell_spoil hc ho hi, List.any_cons]
    cases outs.any (covers b i) <;> cases covers b i o <;> rfl

theorem wf_spoilAll {c : Config} {s : State} (outs : List Output) (h : Memory.wf c s.mem = true) :
    Memory.wf c (s.spoilAll outs).mem = true := by
  induction outs generalizing s with
  | nil => exact h
  | cons o outs ih =>
    rw [spoilAll_cons]
    apply ih
    cases o <;> first | exact h | exact wf_memErase _ _ h

theorem undet_spoilAll {s : State} {outs : List Output} (hf : Fits s.cfg outs)
    (h : ∀ b, undetOf s.undet b ≤ bufCapacity s.cfg b) (b : Buf) :
    undetOf (s.spoilAll outs).undet b ≤ bufCapacity s.cfg b := by
  induction outs generalizing s with
  | nil => exact h b
  | cons o outs ih =>
    have hcfg : (s.spoil o).cfg = s.cfg := by cases o <;> rfl
    rw [spoilAll_cons, ← hcfg]
    apply ih (hcfg ▸ fun b n h => hf b n (List.mem_cons_of_mem _ h))
    intro b'
    rw [hcfg]
    cases o with
    | buf b'' n =>
      have := hf b'' n (List.mem_cons_self ..)
      have := h b'
      cases b'' <;> cases b' <;> simp only [State.spoil, undetExtend, undetOf, bufCapacity] at * <;> omega
    | _ => exact h b'

/-- Raising an error answers a next state (R350). -/
theorem raiseKnowing_eq (known : Computed) (i : Instr) (e : ErrorKind) (s : State) :
    raiseKnowing known i e s = .next ((s.spoilAll (outputSet s known i)).latched e (errorOffset s i)) := rfl

/-- No command but DECOMPRESS_FRAME has computed a length of its output ranges when it raises. -/
theorem knownLengths_eq_nothing {i : Instr} (s : State) (h : i ≠ .decompressFrame) : knownLengths s i = .nothing :=
  if_neg fun hi => h hi.1

end Sys2Proof.Machine
end

