-- ==== Sys2Proof/Laws/Turn.lean ====
section
/-! SUPPORT. Sys2Proof/Laws/Turn.lean: everything one turn of a polling loop can do (R150, R152), and what a host read leaves (R90). -/

namespace Sys2Proof.Machine

/-- A host read changes only the record of what was read (R90). -/
theorem hostRead_eq (s : State) (a : Nat) (w : Width) :
    s.hostRead a w = { s with hostReads := ⟨a, w, s.memRead a w⟩ :: s.hostReads } := rfl

/-- With BUSY = 0 the one poll ends the loop, whatever the number of polls it carries. -/
theorem waitTurn_idle {s : State} (polls : Nat) (h : s.status.busy = false) :
    waitTurn polls s = .next (s.hostRead statusOffset .w4).ticked := by simp [waitTurn, h]

/-- With BUSY = 1 and polls left, one more poll; the loop stays first in the queue. -/
theorem waitTurn_poll {s : State} (more : Nat) (h : s.status.busy = true) :
    waitTurn (more + 1) s = .next (State.ticked { s.hostRead statusOffset .w4 with hostQueue := .wait more :: s.hostQueue }) := by
  simp [waitTurn, h]

/-- With BUSY = 1 and no polls left, the engine takes its step; the loop stays first in the queue. -/
theorem waitTurn_engine {s : State} (h : s.status.busy = true) :
    waitTurn 0 s = engineTurn { s with hostQueue := .wait 0 :: s.hostQueue } := by simp [waitTurn, h]

/-- A turn of a polling loop that answers a next state is a poll or an engine turn. -/
theorem waitTurn_cases (polls : Nat) (s : State) :
    (∃ q, waitTurn polls s = .next (State.ticked { s.hostRead statusOffset .w4 with hostQueue := q }))
      ∨ (s.status.busy = true ∧ waitTurn polls s = engineTurn { s with hostQueue := .wait 0 :: s.hostQueue }) := by
  cases hb : s.status.busy with
  | false => exact .inl ⟨_, waitTurn_idle polls hb⟩
  | true =>
    cases polls with
    | zero => exact .inr ⟨rfl, waitTurn_engine hb⟩
    | succ more => exact .inl ⟨_, waitTurn_poll more hb⟩

end Sys2Proof.Machine
end

