-- ==== Sys2Proof/Laws/Window.lean ====
section
/-! SUPPORT. Sys2Proof/Laws/Window.lean: which offsets are buffer bytes, and what a host write to a buffer does to the state. -/

namespace Sys2Proof.Machine

theorem bufPlace_of_lt {c : Config} {b : Buf} {i : Nat} (hi : i < bufCapacity c b) :
    bufPlace c b (bufBase b + i) = .buf b i := by
  unfold bufPlace
  rw [Nat.add_sub_cancel_left, if_pos hi]

theorem bufPlace_of_ge {c : Config} {b : Buf} {i : Nat} (hi : bufCapacity c b ≤ i) :
    bufPlace c b (bufBase b + i) = .reserved := by
  unfold bufPlace
  rw [Nat.add_sub_cancel_left, if_neg (by omega)]

/-- The size of a buffer's region (R82). -/
def regionSize : Buf → Nat
  | .f => 0x40000
  | .a | .c | .r | .t | .p => 0x20000

theorem place_region {c : Config} {b : Buf} {i : Nat} (hi : i < regionSize b) :
    place c (bufBase b + i) = bufPlace c b (bufBase b + i) := by
  have h1 : bufBase b ≤ bufBase b + i := Nat.le_add_right ..
  have h2 : bufBase b + i < bufBase b + regionSize b := by omega
  generalize bufBase b + i = a at h1 h2
  unfold place
  cases b <;> simp only [bufBase, regionSize] at h1 h2 <;> (repeat rw [if_neg (by omega)]) <;> rw [if_pos (by omega)]

/-- Every buffer fits its region (R11, R82). -/
theorem capacity_le_region {c : Config} (hc : c.Legal) (b : Buf) : bufCapacity c b ≤ regionSize b := by
  have := hc.2
  cases b <;> simp only [bufCapacity, tokenMax, payloadMax, frameMax, regionSize] <;> omega

/-- A buffer byte below the capacity stands at its offset (R82, R84). -/
theorem place_buf {c : Config} (hc : c.Legal) {b : Buf} {i : Nat} (hi : i < bufCapacity c b) :
    place c (bufBase b + i) = .buf b i := by
  have := capacity_le_region hc b
  rw [place_region (by omega), bufPlace_of_lt hi]

/-- Only buffer bytes are buffer places. -/
theorem place_eq_buf {c : Config} {a i : Nat} {b : Buf} (h : place c a = .buf b i) :
    a = bufBase b + i ∧ i < bufCapacity c b := by
  have key : ∀ b', bufBase b' ≤ a → bufPlace c b' a = .buf b i → a = bufBase b + i ∧ i < bufCapacity c b := by
    intro b' hle hp
    unfold bufPlace at hp
    split at hp
    · cases hp; exact ⟨by omega, ‹_›⟩
    · cases hp
  unfold place at h
  by_cases hlt : a < 0x01000
  · rw [if_pos hlt] at h; cases h
  rw [if_neg hlt] at h
  by_cases hlt : a < 0x01100
  · rw [if_pos hlt] at h; cases h
  rw [if_neg hlt] at h
  by_cases hlt : a < 0x02000
  · rw [if_pos hlt] at h; cases h
  rw [if_neg hlt] at h
  by_cases hlt : a < 0x02400
  · rw [if_pos hlt] at h; cases h
  rw [if_neg hlt] at h
  by_cases hlt : a < 0x03000
  · rw [if_pos hlt] at h; cases h
  rw [if_neg hlt] at h
  by_cases hlt : a < 0x03100
  · rw [if_pos hlt] at h; cases h
  rw [if_neg hlt] at h
  by_cases hlt : a < 0x04000
  · rw [if_pos hlt] at h; cases h
  rw [if_neg hlt] at h
  by_cases hlt : a < 0x06000
  · rw [if_pos hlt] at h; cases h
  rw [if_neg hlt] at h
  by_cases hlt : a < 0x20000
  · rw [if_pos hlt] at h; cases h
  rw [if_neg hlt] at h
  by_cases hlt : a < 0x40000
  · rw [if_pos hlt] at h; exact key _ (by simp only [bufBase]; omega) h
  rw [if_neg hlt] at h
  by_cases hlt : a < 0x60000
  · rw [if_pos hlt] at h; exact key _ (by simp only [bufBase]; omega) h
  rw [if_neg hlt] at h
  by_cases hlt : a < 0x80000
  · rw [if_pos hlt] at h; exact key _ (by simp only [bufBase]; omega) h
  rw [if_neg hlt] at h
  by_cases hlt : a < 0xA0000
  · rw [if_pos hlt] at h; exact key _ (by simp only [bufBase]; omega) h
  rw [if_neg hlt] at h
  by_cases hlt : a < 0xC0000
  · rw [if_pos hlt] at h; exact key _ (by simp only [bufBase]; omega) h
  rw [if_neg hlt] at h
  by_cases hlt : a < 0x100000
  · rw [if_pos hlt] at h; exact key _ (by simp only [bufBase]; omega) h
  rw [if_neg hlt] at h
  cases h

/-- Host bytes written to a buffer below its capacity land there, and nothing else changes. -/
theorem pokeBytes_buf {b : Buf} (bytes : List Byte) :
    ∀ {s : State} {i : Nat}, s.cfg.Legal → i + bytes.length ≤ bufCapacity s.cfg b →
      s.pokeBytes (bufBase b + i) bytes = { s with mem := memWriteBytes s.mem (bufBase b + i) bytes } := by
  induction bytes with
  | nil => intro s i _ _; rfl
  | cons x xs ih =>
    intro s i hc h
    simp only [List.length_cons] at h
    have hx : s.pokeByte (bufBase b + i) x = { s with mem := memSet s.mem (bufBase b + i) x } := by
      unfold State.pokeByte
      rw [place_buf hc (by omega)]
    rw [State.pokeBytes, hx]
    exact ih (s := { s with mem := memSet s.mem (bufBase b + i) x }) (i := i + 1) hc
      (by show i + 1 + xs.length ≤ bufCapacity s.cfg b; omega)

/-- A host write keeps the canonical form of memory, and the number of FREQ entries. -/
theorem pokeBytes_keeps (bytes : List Byte) : ∀ (s : State) (a : Nat), Memory.wf s.cfg s.mem = true →
    Memory.wf s.cfg (s.pokeBytes a bytes).mem = true ∧ (s.pokeBytes a bytes).freq.length = s.freq.length
      ∧ (s.pokeBytes a bytes) = { s with mem := (s.pokeBytes a bytes).mem, freq := (s.pokeBytes a bytes).freq } := by
  induction bytes with
  | nil => intro s a h; exact ⟨h, rfl, rfl⟩
  | cons x xs ih =>
    intro s a h
    rw [State.pokeBytes]
    have hx : Memory.wf s.cfg (s.pokeByte a x).mem = true ∧ (s.pokeByte a x).freq.length = s.freq.length
        ∧ s.pokeByte a x = { s with mem := (s.pokeByte a x).mem, freq := (s.pokeByte a x).freq } := by
      unfold State.pokeByte
      split
      · exact ⟨h, List.length_set, rfl⟩
      · rename_i b i hp
        obtain ⟨rfl, hi⟩ := place_eq_buf hp
        exact ⟨wf_memSet x h (inSomeBuffer_of_lt hi), rfl, rfl⟩
      all_goals exact ⟨h, rfl, rfl⟩
    obtain ⟨h1, h2, h3⟩ := hx
    have hcfg : (s.pokeByte a x).cfg = s.cfg := by rw [h3]
    obtain ⟨g1, g2, g3⟩ := ih (s.pokeByte a x) (a + 1) (hcfg ▸ h1)
    refine ⟨hcfg ▸ g1, g2.trans h2, ?_⟩
    rw [g3, h3]

end Sys2Proof.Machine
end

