-- ==== Sys2Proof/Tests/Slice0.lean ====
section
/-! SUPPORT. Sys2Proof/Tests/Slice0.lean: the author's own tests: well-formedness, decoding, one step of each command on the spec's vectors (95_test_vectors.md), and a witness for the hypotheses of each statement. -/

namespace Sys2Proof.Tests

open Sys2Proof.Machine

-- One thread: many kernel evaluations at once would ask for a stack each.
set_option Elab.async false

/-! ## Well-formedness: an ill-formed term for each check -/

/-- R80: the last window offset is 0xFFFFF. -/
theorem test_wf_refuses_read_beyond_window : (HostAction.read 0x100000 .w4).wellFormed = false := by decide

theorem test_wf_admits_last_offset : (HostAction.read 0xFFFFF .w1).wellFormed = true := by decide

theorem test_wf_refuses_write_beyond_window : (HostAction.write 0x100000 .w1 0#32).wellFormed = false := by decide

/-- R86: a 1-byte write carries 8 bits, a 2-byte write 16. -/
theorem test_wf_refuses_wide_value : (HostAction.write 0x20000 .w1 0x100#32).wellFormed = false := by decide

theorem test_wf_refuses_wide_halfword : (HostAction.write 0x20000 .w2 0x10000#32).wellFormed = false := by decide

theorem test_wf_admits_full_byte : (HostAction.write 0x20000 .w1 0xFF#32).wellFormed = true := by decide

theorem test_wf_refuses_script_offset : (HostStmt.w32 0x100000 0#32).wellFormed = false := by decide

theorem test_wf_refuses_script_range : (HostStmt.wbytes 0xFFFFF [1#8, 2#8]).wellFormed = false := by decide

theorem test_wf_refuses_script_read_range : (HostStmt.rbytes 0xFFFFF 2).wellFormed = false := by decide

theorem test_wf_admits_script_range : (HostStmt.rbytes 0xFFFFE 2).wellFormed = true := by decide

/-- R140, R141: a run of 1 is no token. -/
theorem test_wf_refuses_run_of_one : (Token.run 5#8 1#8).wellFormed = false := by decide

theorem test_wf_admits_run_of_two : (Token.run 5#8 2#8).wellFormed = true := by decide

/-! ## Decoding: words written out from R121 and R122 -/

theorem test_decode_control_words :
    decode 0b00000000_00000000_00000000_00000000#32 = .ok .nop
      ∧ decode 0b00000000_00000000_00000000_00001111#32 = .ok .streamReset
      ∧ decode 0b00000000_00000000_00000000_00010000#32 = .ok .clearError := by decide

theorem test_decode_rt_words :
    decode 0b00000000_00000000_00000000_00000001#32 = .ok .rtFwd
      ∧ decode 0b00000000_00000000_00000000_00000010#32 = .ok .rtInv := by decide

theorem test_decode_rrt_words :
    decode 0b00000000_00000000_00000000_00000011#32 = .ok .rrtEnc
      ∧ decode 0b00000000_00000000_00000000_00000100#32 = .ok .rrtDec := by decide

theorem test_decode_rlc_words :
    decode 0b00000000_00000000_00000000_00000101#32 = .ok .rlcEnc
      ∧ decode 0b00000000_00000000_00000000_00000110#32 = .ok .rlcDec := by decide

theorem test_decode_ec_words :
    decode 0b00000000_00000000_00000000_00000111#32 = .ok .ecCount
      ∧ decode 0b00000000_00000000_00000000_00001000#32 = .ok .ecBuild
      ∧ decode 0b00000000_00000000_00000000_00001001#32 = .ok .ecPack
      ∧ decode 0b00000000_00000000_00000000_00001010#32 = .ok .ecUnpack := by decide

theorem test_decode_frame_words :
    decode 0b00000000_00000000_00000000_00001011#32 = .ok .frameSer
      ∧ decode 0b00000000_00000000_00000000_00001100#32 = .ok .frameDes
      ∧ decode 0b00000000_00000000_00000000_00001101#32 = .ok .compressBlock
      ∧ decode 0b00000000_00000000_00000000_00001110#32 = .ok .decompressFrame := by decide

/-- R123: the first opcode outside the map, and a word with a reserved bit set. -/
theorem test_decode_refuses :
    decode 0b00000000_00000000_00000000_00010001#32 = .error .unknownOpcode
      ∧ decode 0b00000000_00000000_00000001_00000001#32 = .error .reservedBitsSet := by decide

theorem test_table_word : decodeTableWord 32 0x0D = some .compressBlock ∧ decodeTableWord 32 0x11 = none
    ∧ decodeTableWord 8 0x10D = some .compressBlock := by decide

/-! ## One step of each command -/

/-- The state of a result that is a next state. -/
def after : Result → Option State
  | .next s => some s
  | .fault _ => none
  | .refused _ => none

/-- Reset, with the first bytes of one buffer written. -/
def bufState (b : Buf) (bytes : List Byte) : State := { State.reset with mem := memWriteBuf [] b bytes }

/-- The step that performs a command word. -/
def run (s : State) (word : Nat) : Option State := after (step (s.withFetchWord 32 word))

/-- "banana" and what the stages make of it (95_test_vectors.md 2.1 to 2.6). -/
def banana : List Byte := [0x62, 0x61, 0x6E, 0x61, 0x6E, 0x61]

def bananaColumn : List Byte := [0x61, 0x6E, 0x6E, 0x62, 0x61, 0x61]

def bananaRanks : List Byte := [0x61, 0x6E, 0x00, 0x63, 0x02, 0x00]

def bananaTokens : List Byte := [0x00, 0x61, 0x00, 0x6E, 0x00, 0x00, 0x00, 0x63, 0x00, 0x02, 0x00, 0x00]

def bananaFrame : List Byte :=
  [0x00, 0x00, 0x00, 0x04, 0x04, 0x00, 0x05, 0x00, 0x00, 0x00, 0x00, 0x08, 0x02, 0x00, 0x00, 0x00, 0x01, 0x61, 0x00, 0x00]
    ++ [0x00, 0x01, 0x63, 0x00, 0x00, 0x00, 0x01, 0x6E, 0x00, 0x00, 0x00, 0x01, 0x00, 0x00, 0x00, 0x03, 0x9B, 0xEA, 0x30]

/-- The 22-byte frame of "a" (95_test_vectors.md 2.5). -/
def aFrame : List Byte :=
  [0x00, 0x00, 0x00, 0x01, 0x06, 0x00, 0x02, 0x00, 0x00, 0x00, 0x00, 0x01, 0x61, 0x00, 0x00, 0x00, 0x01, 0x00, 0x00, 0x00]
    ++ [0x01, 0x40]

/-- Every command word runs as the first command after reset. -/
theorem test_every_command_runs_after_reset : ∀ w < 17, (run State.reset w).isSome = true := by decide +kernel

/-- R178: STATUS = 2. -/
theorem test_nop : (run State.reset 0x00).map State.statusWord = some 0x00000002#32 := by decide +kernel

/-- R181: STATUS = 6, ERR_CODE = 11. -/
theorem test_illegal_word :
    (run State.reset 0x11).map (fun t => (t.statusWord, t.errCodeWord)) = some (0x00000006#32, 11#32) := by decide +kernel

/-- R204. -/
theorem test_rtFwd_banana :
    (run { bufState .a banana with blkLen := .val 6 } 0x01).map (fun t => (t.readBuf .c 6, t.rotIdx))
      = some (some bananaColumn, .val 4) := by decide +kernel

/-- R183: BLK_LEN = 1025. -/
theorem test_rtFwd_length :
    (run { State.reset with blkLen := .val 1025 } 0x01).map (fun t => (t.errCodeWord, t.rotIdx))
      = some (6#32, .unspecified) := by decide +kernel

/-- R106: BUF_A has no value after reset. -/
theorem test_rtFwd_no_value :
    step (({ State.reset with blkLen := .val 1 } : State).withFetchWord 32 0x01) = .fault (.noValueRead .a) := rfl

/-- R206. -/
theorem test_rtInv_banana :
    (run { bufState .c bananaColumn with blkLen := .val 6, rotIdx := .val 4 } 0x02).map (fun t => t.readBuf .a 6)
      = some (some banana) := by decide +kernel

/-- R208. -/
theorem test_rtInv_invalid_column :
    (run { bufState .c [0x61, 0x61] with blkLen := .val 2, rotIdx := .val 1 } 0x02).map State.errCodeWord
      = some 10#32 := by decide +kernel

/-- R223. -/
theorem test_rrtEnc_banana :
    (run { bufState .c bananaColumn with blkLen := .val 6 } 0x03).map
        (fun t => (t.readBuf .r 6, (List.range 5).map t.rlistAt))
      = some (some bananaRanks, [0x61, 0x62, 0x6E, 0x00, 0x01]) := by decide +kernel

/-- R225. -/
theorem test_rrtDec_ff :
    (run { bufState .r [0xFF, 0xFF] with blkLen := .val 2 } 0x04).map (fun t => t.readBuf .c 2)
      = some (some [0xFF, 0xFE]) := by decide +kernel

/-- R242. -/
theorem test_rlcEnc_runs :
    (run { bufState .r [5, 5, 5, 7, 9, 9] with blkLen := .val 6 } 0x05).map (fun t => (t.readBuf .t 8, t.tokLen))
      = some (some [1, 5, 3, 0, 7, 1, 9, 2], .val 8) := by decide +kernel

/-- R241: 257 equal bytes are a run of 255 and a run of 2 (95_test_vectors.md 2.3). -/
theorem test_rlcEnc_one_past_cap : rlcEnc (List.replicate 257 0) = [1, 0, 0xFF, 1, 0, 2] := by decide +kernel

/-- R244. -/
theorem test_rlcDec_runs :
    (run { bufState .t [1, 5, 3, 0, 7, 1, 9, 2] with tokLen := .val 8 } 0x06).map (fun t => (t.readBuf .r 6, t.blkLen))
      = some (some [5, 5, 5, 7, 9, 9], .val 6) := by decide +kernel

/-- R243: a bad tag. -/
theorem test_rlcDec_bad_tag :
    (run { bufState .t [2] with tokLen := .val 1 } 0x06).map State.errCodeWord = some 5#32 := by decide +kernel

/-- R261. -/
theorem test_ecCount_banana :
    (run { bufState .t bananaTokens with tokLen := .val 12 } 0x07).map
        (fun t => ([0x00, 0x02, 0x61, 0x63, 0x6E, 0x6F].map t.freqAt, t.freqCount))
      = some ([8, 1, 1, 1, 1, 0], .val 5) := by decide +kernel

/-- Reset, with FREQ the counts of the banana tokens. -/
def bananaFreq : State := State.reset.writeFreq (hist bananaTokens)

/-- R267: the lengths of the codes of 0x00, 0x02, 0x61, 0x63, 0x6E and 0x6F. -/
theorem test_ecBuild_lengths :
    (run bananaFreq 0x08).map (fun t => ([0x00, 0x02, 0x61, 0x63, 0x6E, 0x6F].map t.codeLenAt, t.freqCount))
      = some ([1, 3, 3, 3, 3, 0], .val 5) := by decide +kernel

/-- R147, R267: byte 0 of the same entries of CODE. -/
theorem test_ecBuild_codes :
    (run bananaFreq 0x08).map (fun t => [0x00, 0x02, 0x61, 0x63, 0x6E].map fun sym => codeByte (t.codeAt sym) 0)
      = some [0x80, 0x00, 0x20, 0x40, 0x60] := by decide +kernel

/-- Reset, with FREQ and the codes built from the counts of a token stream. -/
def codedState (T : List Byte) : State := (State.reset.writeFreq (hist T)).buildCodes (hist T)

/-- R269. -/
theorem test_ecPack_banana :
    (run { codedState bananaTokens with mem := memWriteBuf [] .t bananaTokens, tokLen := .val 12 } 0x09).map
        (fun t => (t.readBuf .p 3, t.payLen, t.padCnt))
      = some (some [0x9B, 0xEA, 0x30], .val 3, .val 4) := by decide +kernel

/-- R268: a byte without a code. -/
theorem test_ecPack_symbol_not_in_code :
    (run { codedState [0x41, 0x42] with mem := memWriteBuf [] .t [0x41, 0x43], tokLen := .val 2 } 0x09).map State.errCodeWord
      = some 9#32 := by decide +kernel

/-- R271. -/
theorem test_ecUnpack_banana :
    (run { codedState bananaTokens with mem := memWriteBuf [] .p [0x9B, 0xEA, 0x30], payLen := .val 3, padCnt := .val 4 }
        0x0A).map (fun t => (t.readBuf .t 12, t.tokLen))
      = some (some bananaTokens, .val 12) := by decide +kernel

/-- R270: one data bit too many. -/
theorem test_ecUnpack_wrong_pad :
    (run { codedState [0x41, 0x42] with mem := memWriteBuf [] .p [0x40], payLen := .val 1, padCnt := .val 5 } 0x0A).map
        State.errCodeWord
      = some 2#32 := by decide +kernel

/-- R301. -/
theorem test_frameSer_banana :
    (run { bananaFreq with
        mem := memWriteBuf [] .p [0x9B, 0xEA, 0x30], payLen := .val 3, padCnt := .val 4, rotIdx := .val 4 } 0x0B).map
        (fun t => (t.readBuf .f 39, t.frameLen))
      = some (some bananaFrame, .val 39) := by decide +kernel

/-- R300: a pad count with no payload. -/
theorem test_frameSer_bad_pad :
    (run { State.reset with padCnt := .val 3 } 0x0B).map State.errCodeWord = some 4#32 := by decide +kernel

/-- R312: the bytes after the frame, here one with no value, are not read. -/
theorem test_frameDes_banana :
    (run { bufState .f bananaFrame with inLen := 40 } 0x0C).map
        (fun t => (t.rotIdx, t.padCntValue, t.readBuf .p 3, t.frameLen))
      = some (.val 4, 4#8, some [0x9B, 0xEA, 0x30], .val 39) := by decide +kernel

/-- R310, R353: a window cut short; ERR_OFFSET is STREAM_OFFSET. -/
theorem test_frameDes_truncated :
    (run { bufState .f bananaFrame with inLen := 38, streamOffset := 0x64 } 0x0C).map
        (fun t => (t.errCodeWord, t.errOffset, t.streamOffset))
      = some (1#32, 0x64#32, 0x64#32) := by decide +kernel

/-- R320, R321: STREAM_OFFSET wraps (95_test_vectors.md 2.9). -/
theorem test_compressBlock_banana :
    (run { bufState .a banana with blkLen := .val 6, streamOffset := 0xFFFFFFF0 } 0x0D).map
        (fun t => (t.readBuf .f 39, t.frameLen, t.streamOffset))
      = some (some bananaFrame, .val 39, 0x17#32) := by decide +kernel

/-- R321: the frame of "a". -/
theorem test_compressBlock_a :
    (run { bufState .a [0x61] with blkLen := .val 1 } 0x0D).map (fun t => (t.readBuf .f 22, t.frameLen))
      = some (some aFrame, .val 22) := by decide +kernel

/-- R322. -/
theorem test_decompressFrame_banana :
    (run { bufState .f bananaFrame with inLen := 39 } 0x0E).map
        (fun t => (t.readBuf .a 6, t.blkLen, t.frameLen, t.streamOffset))
      = some (some banana, .val 6, .val 39, 39#32) := by decide +kernel

/-- R313: END. -/
theorem test_decompressFrame_end :
    (run State.reset 0x0E).map (fun t => (t.statusWord, t.frameLen)) = some (0x0000000A#32, .val 0) := by decide +kernel

/-- R179. -/
theorem test_streamReset :
    (run { State.reset with streamOffset := 39 } 0x0F).map State.streamOffset = some 0#32 := by decide +kernel

/-- A state with an error latched, as an illegal command leaves it. -/
def failedState : State :=
  { State.reset with
    status := ⟨false, true, true, false, true, false⟩
    cmd := 0x11
    errCode := some .illegalCommand }

/-- R180. -/
theorem test_clearError :
    (run failedState 0x10).map (fun t => (t.statusWord, t.errCodeWord)) = some (0x00000002#32, 0#32) := by decide +kernel

/-- R171: a command word while ERR = 1 is rejected: CMD and REJ change, DONE stays. -/
theorem test_rejected :
    (failedState.memWrite 0x1C .w4 0x01#32).statusWord = 0x00000016#32
      ∧ (failedState.memWrite 0x1C .w4 0x01#32).cmd = 1#32 := by decide +kernel

/-- R93: BLK_LEN written while BUSY = 1 (95_test_vectors.md 2.9). -/
theorem test_busy_write :
    ((State.reset.withFetchWord 32 0x01).memWrite 0x2C .w4 5#32).blkLen = .val 0
      ∧ ((State.reset.withFetchWord 32 0x01).memWrite 0x2C .w4 5#32).statusWord = 0x00000021#32 := by decide +kernel

/-- R89: the first word of the banana frame is its RotationIndex. -/
theorem test_big_endian_read : (bufState .f bananaFrame).memRead 0xC0000 .w4 = 4#32 := by decide +kernel

/-- R150: an EXPECT is one read, as wide as the statement says (log entry 15). -/
theorem test_script_expect_width : expandStmt (.expect 0x20001 .w1 6#32) = [.read 0x20001 .w1] := rfl

/-- What WAIT leaves of a state in one step: the queue, the readings, BUSY. -/
def afterWait (s : State) (polls : Nat) : Option (List HostAction × List HostReading × Bool) :=
  (after (step { s with hostQueue := expandProgram [.wait polls, .r32 0x24] })).map fun t =>
    (t.hostQueue, t.hostReads, t.status.busy)

/-- R150, R152: after a rejected command (STATUS as in 95_test_vectors.md, program 4: ERR and REJ) WAIT polls once. -/
theorem test_wait_idle :
    afterWait (failedState.memWrite 0x1C .w4 1#32) 3 = some ([.read 0x24 .w4], [⟨0x20, .w4, 0x16#32⟩], false) := by
  decide +kernel

/-- R150, R151: while BUSY = 1 WAIT polls again, or the engine takes its step and the loop goes on. -/
theorem test_wait_busy :
    afterWait (State.reset.withFetchWord 32 0) 1 = some ([.wait 0, .read 0x24 .w4], [⟨0x20, .w4, 1#32⟩], true)
      ∧ afterWait (State.reset.withFetchWord 32 0) 0 = some ([.wait 0, .read 0x24 .w4], [], false) := by
  decide +kernel

/-- R81, R87: a 4-byte access one past the last aligned one. -/
theorem test_misaligned_read : (bufState .f bananaFrame).memRead 0xC0002 .w4 = 0#32 := by decide +kernel

/-! ## Witnesses: a concrete state and operands that meet all hypotheses of a statement together -/

/-- A result whose next state meets a check is a next state. -/
theorem next_of {r : Result} {p : State → Bool} (h : (after r).any p = true) : ∃ t, r = .next t ∧ p t = true := by
  cases r with
  | next t => exact ⟨t, rfl, by simpa [after] using h⟩
  | fault f => cases h
  | refused f => cases h

theorem default_legal : Config.default.Legal := by decide

/-- A state in which the word `w` is pending. -/
def pendingState (w : Word) : State := State.reset.withPending w

theorem witness_StepPerformsThePendingCommand :
    (pendingState 1).status.busy = true ∧ decode (pendingState 1).cmd = .ok .rtFwd ∧ (pendingState 1).hostQueue = [] :=
  ⟨rfl, by decide, rfl⟩

theorem witness_StepPerformsThePendingCommand_pause :
    let s : State := { pendingState 16 with hostQueue := [.pause] }
    s.status.busy = true ∧ decode s.cmd = .ok .clearError ∧ s.hostQueue = .pause :: [] := ⟨rfl, by decide, rfl⟩

theorem witness_StepPerformsThePendingCommand_wait :
    let s : State := { pendingState 13 with hostQueue := [.wait 0] }
    s.status.busy = true ∧ decode s.cmd = .ok .compressBlock ∧ s.hostQueue = .wait 0 :: [] := ⟨rfl, by decide, rfl⟩

theorem witness_IllegalWordRaisesIllegalCommand :
    (pendingState 17).status.busy = true ∧ (pendingState 17).hostQueue = []
      ∧ decode (pendingState 17).cmd = .error .unknownOpcode := ⟨rfl, rfl, by decide⟩

theorem witness_IdleStepHoldsAllState :
    State.reset.status.busy = false ∧ State.reset.hostQueue = []
      ∧ ({ State.reset with hostQueue := [.pause] } : State).hostQueue = .pause :: [] := ⟨rfl, rfl, rfl⟩

/-- A read, a write, a hardware reset and a WAIT, each first in the queue; the WAIT while idle and while a command is pending. -/
theorem witness_HostActionsReadWriteAndReset :
    ({ State.reset with hostQueue := [.read 0xC0000 .w4] } : State).hostQueue = .read 0xC0000 .w4 :: []
      ∧ ({ State.reset with hostQueue := [.write 0x2C .w4 6#32, .pause] } : State).hostQueue = .write 0x2C .w4 6#32 :: [.pause]
      ∧ ({ State.reset with hostQueue := [.hardReset] } : State).hostQueue = .hardReset :: []
      ∧ (let s : State := { State.reset with hostQueue := [.wait 3] }
        s.status.busy = false ∧ s.hostQueue = .wait 3 :: [])
      ∧ (let s : State := { pendingState 1 with hostQueue := [.wait 1] }
        s.status.busy = true ∧ s.hostQueue = .wait (0 + 1) :: []) := ⟨rfl, rfl, rfl, ⟨rfl, rfl⟩, rfl, rfl⟩

/-- The registers' second clause, and the error registers' last one. -/
theorem witness_RegistersReadAndTakeWritesByTheirClass : State.reset.status.busy = false := rfl

theorem witness_StatusControlAndErrorRegistersRead :
    failedState.status.busy = false ∧ failedState.errCode = some .illegalCommand := ⟨rfl, rfl⟩

/-- Both outcomes: rejected (word 1 under an error), accepted (word 0x10 under an error, word 1 without). -/
theorem witness_CommandWriteAcceptsOrRejects :
    failedState.status.busy = false ∧ State.reset.status.busy = false ∧ failedState.status.err = true
      ∧ State.reset.status.err = false := ⟨rfl, rfl, rfl, rfl⟩

/-- The clauses at their edges: CMD, the last register, the first table byte, and the dropped constants and reserved offsets. -/
theorem witness_BusyWritesAreDropped :
    (pendingState 1).status.busy = true
      ∧ (∀ a ∈ [0x1C, 0x4C, 0x1000, 0x0, 0x14, 0x50, 0x6000], ¬((a = 0x18 ∨ a = 0x20) ∧ Width.w4 = .w4))
      ∧ place (pendingState 1).cfg 0x1000 ≠ .reserved ∧ place (pendingState 1).cfg 0x6000 = .reserved := by
  refine ⟨rfl, by decide, by decide, by decide⟩

theorem witness_CtrlWriteResetsOrStores :
    (0x00000001#32).getLsbD 0 = true ∧ (0x00000006#32).getLsbD 0 = false := by decide

theorem witness_MisalignedAndNarrowAccessesHaveNoEffect :
    0xFFFFE % widthBytes .w4 ≠ 0 ∧ 0xFFFFF < 0x100000 + widthBytes .w1 - 1 ∧ (0xFFF < 0x1000 ∧ Width.w1 ≠ .w4) := by decide

/-- The last aligned word of BUF_A, and the last byte of BUF_F. -/
theorem witness_BufferWriteReadsBack :
    State.reset.cfg.Legal ∧ State.reset.status.busy = false
      ∧ (1020 % widthBytes .w4 = 0 ∧ 1020 + widthBytes .w4 ≤ bufCapacity State.reset.cfg .a)
      ∧ 3338 % widthBytes .w1 = 0 ∧ 3338 + widthBytes .w1 ≤ bufCapacity State.reset.cfg .f := by
  refine ⟨default_legal, rfl, by decide, by decide⟩

/-- A reserved register offset, the last word of a gap, and the ends of two buffer regions. -/
theorem witness_ReservedOffsetsReadZeroAndDropWrites :
    (0x50 ≤ 0xFFC ∧ 0xFFC < 0x1000) ∧ (0x6000 ≤ 0x1FFFC ∧ 0x1FFFC < 0x20000)
      ∧ (bufCapacity State.reset.cfg .a ≤ 1024 ∧ 1024 < 0x20000)
      ∧ bufCapacity State.reset.cfg .f ≤ 0x3FFFC ∧ 0x3FFFC < 0x40000 := by
  decide

theorem witness_TablesReadByteByByteAndOnlyFreqTakesWrites :
    State.reset.status.busy = false ∧ State.reset.freq.length = 256 ∧ 255 < 256 ∧ 2 % widthBytes .w2 = 0
      ∧ 2 + widthBytes .w2 ≤ 4 := ⟨rfl, by decide +kernel, by decide, by decide, by decide⟩

theorem witness_RtFwdSortsTheRotations :
    let s : State := { bufState .a banana with blkLen := .val 6 }
    s.blkLenValue.toNat ≤ s.cfg.blockMax ∧ s.cfg.Legal ∧ s.readBuf .a s.blkLenValue.toNat = some banana := by
  refine ⟨by decide, default_legal, by decide +kernel⟩

theorem witness_InverseReorderingSucceedsExactlyOnOutputs : 1 ≤ ([0x61] : List Byte).length := by decide

theorem witness_RtInvRecoversTheBlock :
    let s : State := { bufState .c [0x61] with blkLen := .val 1, rotIdx := .val 1 }
    s.blkLenValue.toNat ≤ s.cfg.blockMax ∧ s.cfg.Legal ∧ s.readBuf .c s.blkLenValue.toNat = some [0x61]
      ∧ s.rotIdxValue = BitVec.ofNat 32 1 ∧ IsReordering [0x61] [0x61] 1 := by
  refine ⟨by decide, default_legal, by decide +kernel, rfl, [1, 0], ?_, by decide, rfl, by decide⟩
  exact List.Perm.swap 0 1 []

/-- R208: the column `61 61` with index 1 is the output of RT for no block. -/
theorem not_reordering_aa_1 : ¬∃ B, IsReordering B [0x61, 0x61] 1 := by
  rintro ⟨B, SA, hperm, hsorted, hI, hcol⟩
  have hl : SA.length = 3 := by simpa [columnWithSentinel] using (congrArg List.length hcol).symm
  have hB : B.length = 2 := by have := hperm.length_eq; simp [hl] at this; omega
  match B, hB, SA, hl with
  | [x, y], _, [p, q, r], _ =>
    obtain rfl : q = 0 := by simpa using hI
    have hp : p < 3 := by simpa using hperm.subset (List.mem_cons_self ..)
    have hr : r < 3 := by simpa using hperm.subset (by simp : r ∈ [p, 0, r])
    have hd : [p, 0, r].Nodup := hperm.nodup_iff.2 List.nodup_range
    simp only [List.nodup_cons, List.mem_cons, List.not_mem_nil, or_false, not_or] at hd
    simp only [columnWithSentinel, withSentinel, List.map_cons, List.map_nil, List.take, List.drop, List.cons_append,
      List.nil_append, List.length_cons, List.length_nil] at hcol
    have : (p = 1 ∧ r = 2) ∨ (p = 2 ∧ r = 1) := by omega
    rcases this with ⟨rfl, rfl⟩ | ⟨rfl, rfl⟩
    · simp at hcol
      obtain ⟨rfl, rfl⟩ := hcol
      revert hsorted; decide
    · simp at hcol
      obtain ⟨rfl, rfl⟩ := hcol
      revert hsorted; decide

/-- An index one above the length, an index in range that makes no output of RT with the column (R208), and index 0. -/
theorem witness_RtInvRejectsBadIndexesAndColumns :
    let s : State := { bufState .c [0x61] with blkLen := .val 1, rotIdx := .val 2 }
    let r : State := { bufState .c [0x61, 0x61] with blkLen := .val 2, rotIdx := .val 1 }
    let s' : State := { bufState .c [0x61] with blkLen := .val 1, rotIdx := .val 0 }
    (s.blkLenValue.toNat ≤ s.cfg.blockMax ∧ s.readBuf .c s.blkLenValue.toNat = some [0x61]
        ∧ s.blkLenValue.toNat < s.rotIdxValue.toNat)
      ∧ (r.blkLenValue.toNat ≤ r.cfg.blockMax ∧ r.readBuf .c r.blkLenValue.toNat = some [0x61, 0x61]
        ∧ r.rotIdxValue.toNat ≤ r.blkLenValue.toNat ∧ ¬∃ B, IsReordering B [0x61, 0x61] r.rotIdxValue.toNat)
      ∧ s'.blkLenValue.toNat ≤ s'.cfg.blockMax ∧ s'.readBuf .c s'.blkLenValue.toNat = some [0x61]
      ∧ s'.rotIdxValue = 0#32 ∧ s'.blkLenValue ≠ 0#32 := by
  refine ⟨⟨by decide, by decide +kernel, by decide⟩, ⟨by decide, by decide +kernel, by decide, not_reordering_aa_1⟩, by decide,
    by decide +kernel, rfl, by decide⟩

/-- R263, R264: three symbols, of which the first two merge and then stand left of the third, whose count is larger. -/
theorem witness_EcBuildMakesTheTreeOfTheMerges :
    let F := hist [0x05, 0x06, 0x07, 0x07, 0x07]
    F.length = 256 ∧ card F = 3 ∧ F.getD 0x07 0 ≠ 0
      ∧ buildTree F = some (.node (.node (.leaf 5 1 0) (.leaf 6 1 1) 2 3) (.leaf 7 3 2) 5 4) := by decide +kernel

/-- R263: the leaves in rising symbol order, numbered from 0. -/
theorem test_leavesOf : leavesOf (hist [0x07, 0x05, 0x07]) = [.leaf 5 1 0, .leaf 7 2 1] := by decide +kernel

theorem witness_MoveToFrontShiftsEntries : identityList.Perm identityList ∧ 255 < 256 := ⟨List.Perm.refl _, by decide⟩

theorem witness_RrtCommandsComplete :
    let s : State := { bufState .c bananaColumn with blkLen := .val 6 }
    let s' : State := { bufState .r bananaRanks with blkLen := .val 6 }
    (s.blkLenValue.toNat ≤ s.cfg.blockMax ∧ s.cfg.Legal ∧ s.readBuf .c s.blkLenValue.toNat = some bananaColumn)
      ∧ s'.blkLenValue.toNat ≤ s'.cfg.blockMax ∧ s'.cfg.Legal ∧ s'.readBuf .r s'.blkLenValue.toNat = some bananaRanks := by
  refine ⟨⟨by decide, default_legal, by decide +kernel⟩, by decide, default_legal, by decide +kernel⟩

theorem witness_FirstByteIsItsOwnRankAndRepeatsAreZero : 4 + 1 < bananaColumn.length := by decide

/-- A stream whose second token has tag 2 and one whose run does not fit in a block of 2 bytes (R243). -/
theorem witness_RunLengthDecoderAcceptsExactlyTokenStreams :
    let s : State := { bufState .t [0x00, 0x05, 0x02] with tokLen := .val 3 }
    rlcDec [0x00, 0x05, 0x02] 9 = .error .malformedRunToken ∧ badTokenStart [0x02] = true ∧ badTokenStart [0x01, 0x05, 0x01] = true
      ∧ rlcDec [0x00, 0x05, 0x01, 0x07, 0x02, 0x09] 2 = .error .outputOverflow
      ∧ s.tokLenValue.toNat ≤ tokenMax s.cfg ∧ s.readBuf .t s.tokLenValue.toNat = some [0x00, 0x05, 0x02]
      ∧ rlcDec [0x00, 0x05, 0x02] s.cfg.blockMax = .error .malformedRunToken := by
  refine ⟨rfl, rfl, rfl, rfl, by decide, by decide +kernel, rfl⟩

theorem witness_RunLengthRoundTrip :
    banana.length ≤ 6 ∧ (∀ t ∈ [Token.run 5 3, .literal 7, .run 9 2], t.wellFormed = true)
      ∧ rlcDec ([Token.run 5 3, .literal 7, .run 9 2].flatMap tokenBytes) 6 = .ok [5, 5, 5, 7, 9, 9] :=
  ⟨by decide, by decide, rfl⟩

theorem witness_RlcCommandsComplete :
    let s : State := { bufState .r bananaRanks with blkLen := .val 6 }
    let s' : State := { bufState .t [0x01, 0x05, 0x02] with tokLen := .val 3 }
    (s.cfg.Legal ∧ s.blkLenValue.toNat ≤ s.cfg.blockMax ∧ s.readBuf .r s.blkLenValue.toNat = some bananaRanks)
      ∧ s'.cfg.Legal ∧ s'.tokLenValue.toNat ≤ tokenMax s'.cfg ∧ (∀ k ∈ [Token.run 5 2], k.wellFormed = true)
      ∧ s'.readBuf .t s'.tokLenValue.toNat = some ([Token.run 5 2].flatMap tokenBytes)
      ∧ ([Token.run 5 2].flatMap tokenSymbols).length ≤ s'.cfg.blockMax := by
  refine ⟨⟨default_legal, by decide, by decide +kernel⟩, default_legal, by decide, by decide, by decide +kernel, by decide⟩

theorem witness_EcCountCounts :
    let s : State := { bufState .t bananaTokens with tokLen := .val 12 }
    s.cfg.Legal ∧ s.tokLenValue.toNat ≤ tokenMax s.cfg ∧ s.readBuf .t s.tokLenValue.toNat = some bananaTokens := by
  refine ⟨default_legal, by decide, by decide +kernel⟩

/-- A table of two symbols and a table of one. -/
theorem witness_CodesArePrefixFreeAndMeetKraft :
    ((hist [0x41, 0x42]).length = 256 ∧ 2 ≤ card (hist [0x41, 0x42])) ∧ (hist [0x07]).length = 256 ∧ card (hist [0x07]) = 1 := by
  decide +kernel

theorem witness_OwnCodesTakeAtMostEightBitsAToken : bananaTokens.length ≤ 12 := by decide

theorem witness_EntropyCoderRoundTrip :
    bananaTokens.length ≤ 12
      ∧ ecPack (fun b => codeIn (treeCodes (buildTree (hist bananaTokens))) b.toNat) 12 bananaTokens
        = .ok ([0x9B, 0xEA, 0x30], 4) := by
  refine ⟨by decide, ?_⟩
  rfl

theorem witness_EcPackCompletes :
    let s : State := { codedState [0x41, 0x42] with mem := memWriteBuf [] .t [0x42], tokLen := .val 1 }
    s.cfg.Legal ∧ s.tokLenValue.toNat ≤ tokenMax s.cfg ∧ s.readBuf .t s.tokLenValue.toNat = some [0x42]
      ∧ (∀ b ∈ [(0x42 : Byte)], s.codeLenAt b.toNat ≠ 0#8)
      ∧ (([(0x42 : Byte)].map fun b => (s.codeLenAt b.toNat).toNat).sum + 7) / 8 ≤ payloadMax s.cfg := by
  refine ⟨default_legal, by decide, by decide +kernel, by decide +kernel, by decide +kernel⟩

/-- The payload `60` of "41 42" with pad bits that are not 0 (95_test_vectors.md 2.4). -/
theorem witness_EcUnpackCompletes :
    let s : State :=
      { codedState [0x41, 0x42] with mem := memWriteBuf [] .p [0x60], payLen := .val 1, padCnt := .val 6 }
    s.cfg.Legal ∧ s.payLenValue.toNat ≤ payloadMax s.cfg ∧ s.readBuf .p s.payLenValue.toNat = some [0x60]
      ∧ ([0x41, 0x42] : List Byte).length ≤ tokenMax s.cfg ∧ s.freqTable = hist [0x41, 0x42]
      ∧ s.treeValue = buildTree (hist [0x41, 0x42])
      ∧ payloadBits [0x60]
        = (([0x41, 0x42] : List Byte).flatMap fun b => codeIn (treeCodes (buildTree (hist [0x41, 0x42]))) b.toNat)
          ++ [true, false, false, false, false, false]
      ∧ s.padCntValue.toNat = [true, false, false, false, false, false].length := by
  refine ⟨default_legal, by decide, by decide +kernel, by decide, by decide +kernel, by decide +kernel, by decide +kernel,
    by decide⟩

/-- EC_PACK: a token without a code after one that has one, and, in an instance of BLOCK_MAX 1, a code of 20 bits that the 2-byte
payload buffer cannot hold. EC_UNPACK: pad count 8, pad count 1 with no payload, and data bits under the empty tree. -/
theorem witness_EcPackAndEcUnpackRejectBadInputs :
    let r : State := { codedState [0x61] with mem := memWriteBuf [] .t [0x61, 0x62], tokLen := .val 2 }
    let r' : State :=
      { State.resetOf ⟨1, 0, 0⟩ with
        mem := memWriteBuf [] .t [0x00], tokLen := .val 1, codeLen := .val (List.replicate 256 20) }
    let s : State := { bufState .p [0x40] with payLen := .val 1, padCnt := .val 8 }
    let s' : State := { State.reset with padCnt := .val 1 }
    let s'' : State := { bufState .p [0x01] with payLen := .val 1 }
    (r.tokLenValue.toNat ≤ tokenMax r.cfg ∧ r.readBuf .t r.tokLenValue.toNat = some ([0x61] ++ 0x62 :: [])
        ∧ r.codeLenAt 0x61 = 1#8 ∧ r.codeLenAt 0x62 = 0#8)
      ∧ (r'.readBuf .t r'.tokLenValue.toNat = some ([] ++ 0x00 :: []) ∧ r'.codeLenAt 0x00 ≠ 0#8
        ∧ payloadMax r'.cfg < (0 + (r'.codeLenAt 0x00).toNat + 7) / 8)
      ∧ (s.payLenValue.toNat ≤ payloadMax s.cfg ∧ s.readBuf .p s.payLenValue.toNat = some [0x40] ∧ 8 ≤ s.padCntValue.toNat)
      ∧ (s'.readBuf .p s'.payLenValue.toNat = some [] ∧ s'.payLenValue = 0#32 ∧ s'.padCntValue ≠ 0#8)
      ∧ s''.readBuf .p s''.payLenValue.toNat = some [0x01] ∧ s''.padCntValue.toNat < 8 ∧ s''.payLenValue ≠ 0#32
      ∧ s''.treeValue = none := by
  refine ⟨⟨by decide, by decide +kernel, by decide +kernel, by decide +kernel⟩,
    ⟨by decide +kernel, by decide +kernel, by decide +kernel⟩, ⟨by decide, by decide +kernel, by decide⟩,
    ⟨by decide +kernel, rfl, by decide⟩, by decide +kernel, by decide, by decide, rfl⟩

/-- R270, one case for each error under a nonempty tree: bit 1 under a single leaf, counts other than those of FREQ, data that ends
inside a code, and one token more than the limit. By R264 the leaves 5 and 7 merge first, and 6 is then the lesser key, so the codes of
the counts of 5, 6, 6, 7 are 6 = `0`, 5 = `10`, 7 = `11`. -/
theorem test_ecUnpack_errors :
    let F := hist [0x05]
    let F' := hist [0x05, 0x06, 0x06, 0x07]
    ecUnpack (buildTree F) F 9 [0x80] 7 = .error .inconsistentFreqTable
      ∧ ecUnpack (buildTree F') F' 9 [0x80] 6 = .error .inconsistentFreqTable
      ∧ ecUnpack (buildTree F') F' 9 [0x80] 7 = .error .inconsistentFreqTable
      ∧ ecUnpack (buildTree F') F' 1 [0x00] 6 = .error .outputOverflow := by
  decide +kernel

/-- The command's part: a state whose payload EC_UNPACK rejects. -/
theorem witness_EcUnpackReportsTheError :
    let s : State := { codedState [0x05] with mem := memWriteBuf [] .p [0x80], payLen := .val 1, padCnt := .val 7 }
    s.payLenValue.toNat ≤ payloadMax s.cfg ∧ s.readBuf .p s.payLenValue.toNat = some [0x80]
      ∧ (ecUnpack s.treeValue s.freqTable (tokenMax s.cfg) [0x80] s.padCntValue.toNat).toOption = none := by
  refine ⟨by decide, by decide +kernel, by decide +kernel⟩

theorem witness_FrameCodecRoundTrip :
    4 < 2 ^ 32 ∧ (hist [0x61]).length = 256 ∧ (∀ c ∈ hist [0x61], c < 2 ^ 32)
      ∧ serializeFrame 4 1#32 0#8 (hist [0x61]) [0x00]
        = .ok [0, 0, 0, 1, 0, 0, 1, 0x61, 0, 0, 0, 1, 0, 0, 0, 1, 0]
      ∧ deserializeFrame 4 ([0, 0, 0, 0, 0, 0, 0, 0, 0, 0, 0].map some ++ [none])
        = .ok (some ⟨0, 0, List.replicate 256 0, 0, [], 11⟩) := by
  refine ⟨by decide, by decide +kernel, by decide +kernel, rfl, rfl⟩

/-- The frame of "banana" (R301), pad count 8, and a payload with an empty table. -/
theorem witness_FrameSerLaysOutTheFrameOrRejects :
    let s : State :=
      { bananaFreq with
        mem := memWriteBuf [] .p [0x9B, 0xEA, 0x30], payLen := .val 3, padCnt := .val 4, rotIdx := .val 4 }
    let s' : State := { bufState .p [0x40] with payLen := .val 1, padCnt := .val 8 }
    let s'' : State := { bufState .p [0x40] with payLen := .val 1 }
    (s.cfg.Legal ∧ s.payLenValue.toNat ≤ payloadMax s.cfg ∧ s.readBuf .p s.payLenValue.toNat = some [0x9B, 0xEA, 0x30]
        ∧ s.padCntValue.toNat < 8 ∧ card s.freqTable = 5)
      ∧ (s'.readBuf .p s'.payLenValue.toNat = some [0x40] ∧ 8 ≤ s'.padCntValue.toNat)
      ∧ s''.readBuf .p s''.payLenValue.toNat = some [0x40] ∧ s''.padCntValue.toNat < 8 ∧ card s''.freqTable = 0 := by
  refine ⟨⟨default_legal, by decide, by decide +kernel, by decide, by decide +kernel⟩, ⟨by decide +kernel, by decide⟩,
    by decide +kernel, by decide, by decide +kernel⟩

/-- The frame of "a" in a window of 23 bytes, the last one without a value. -/
theorem witness_FrameDesReadsTheFrameOrReportsTheFirstBadField :
    let s : State := { bufState .f aFrame with inLen := 23 }
    s.cfg.Legal ∧ s.inLen.toNat ≤ frameMax s.cfg ∧ (hist [0x00, 0x61]).length = 256
      ∧ (∀ c ∈ hist [0x00, 0x61], c < 2 ^ 32)
      ∧ serializeFrame (payloadMax s.cfg) 1#32 6#8 (hist [0x00, 0x61]) [0x40] = .ok aFrame
      ∧ s.bufWindow .f s.inLen.toNat = aFrame.map some ++ [none] := by
  refine ⟨default_legal, by decide, by decide +kernel, by decide +kernel, rfl, by decide +kernel⟩

/-- The second part: a window whose bytes all have a value. -/
theorem witness_FrameDesReportsTheFirstBadField :
    let s : State := { bufState .f aFrame with inLen := 21 }
    s.inLen.toNat ≤ frameMax s.cfg ∧ s.readBuf .f s.inLen.toNat = some (aFrame.take 21) ∧ aFrame.take 21 ≠ []
      ∧ s.status.err = false := by
  refine ⟨by decide, by decide +kernel, by decide, rfl⟩

/-- R310, each check in wire order at its boundary: cut in the header, pad 8, cut in the table's length, k = 257, cut in an entry,
a zero count, a repeated symbol, cut before P, P above PAYLOAD_MAX, k = 0 with P = 1, P = 0 with pad 1, cut in the payload. -/
theorem test_frameFailure_header :
    frameFailure 9 [0, 0, 0, 1] = some .truncatedFrame ∧ frameFailure 9 [0, 0, 0, 1, 8] = some .paddingOutOfRange
      ∧ frameFailure 9 [0, 0, 0, 1, 7, 0] = some .truncatedFrame
      ∧ frameFailure 9 [0, 0, 0, 1, 0, 1, 1] = some .inconsistentFreqTable
      ∧ frameFailure 9 [0, 0, 0, 1, 0, 0, 1, 5, 0, 0, 0] = some .truncatedFrame
      ∧ frameFailure 9 [0, 0, 0, 1, 0, 0, 1, 5, 0, 0, 0, 0] = some .inconsistentFreqTable
      ∧ frameFailure 9 [0, 0, 0, 1, 0, 0, 2, 5, 0, 0, 0, 1, 5, 0, 0, 0, 1] = some .inconsistentFreqTable := by
  decide +kernel

theorem test_frameFailure_payload :
    frameFailure 9 [0, 0, 0, 1, 0, 0, 1, 5, 0, 0, 0, 1, 0, 0, 0] = some .truncatedFrame
      ∧ frameFailure 9 [0, 0, 0, 1, 0, 0, 1, 5, 0, 0, 0, 1, 0, 0, 0, 10] = some .frameTooLarge
      ∧ frameFailure 9 [0, 0, 0, 1, 0, 0, 0, 0, 0, 0, 1] = some .inconsistentFreqTable
      ∧ frameFailure 9 [0, 0, 0, 1, 1, 0, 1, 5, 0, 0, 0, 1, 0, 0, 0, 0] = some .paddingOutOfRange
      ∧ frameFailure 9 [0, 0, 0, 1, 0, 0, 1, 5, 0, 0, 0, 1, 0, 0, 0, 1] = some .truncatedFrame
      ∧ frameFailure 9 aFrame = none := by
  decide +kernel

theorem witness_EmptyWindowIsTheEndOfTheStream : State.reset.inLen = 0#32 := rfl

/-- Reset, with "a" in BUF_A and BLK_LEN = 1. -/
def aState : State := { bufState .a [0x61] with blkLen := .val 1 }

/-- A block of one byte, and the empty block. -/
theorem witness_CompressBlockNeverFails :
    (aState.cfg.Legal ∧ aState.blkLenValue.toNat ≤ aState.cfg.blockMax
        ∧ aState.readBuf .a aState.blkLenValue.toNat = some [0x61])
      ∧ State.reset.blkLenValue.toNat ≤ State.reset.cfg.blockMax
      ∧ State.reset.readBuf .a State.reset.blkLenValue.toNat = some [] := by
  refine ⟨⟨default_legal, by decide, by decide +kernel⟩, by decide, by decide +kernel⟩

/-- A block of one byte, and the empty block. -/
theorem witness_CompressBlockEqualsItsStages :
    (aState.cfg.Legal ∧ aState.blkLenValue ≠ 0#32 ∧ aState.status.err = false
        ∧ ∃ t, exec .compressBlock aState = .next t ∧ (!t.status.err) = true)
      ∧ State.reset.blkLenValue = 0#32 ∧ ∃ t, exec .compressBlock State.reset = .next t ∧ (!t.status.err) = true :=
  ⟨⟨default_legal, by decide, rfl, next_of (p := fun t => !t.status.err) (by decide +kernel)⟩, rfl,
    next_of (p := fun t => !t.status.err) (by decide +kernel)⟩

/-- Reset, with the frame of "a" in BUF_F and IN_LEN = 22. -/
def aFrameState : State := { bufState .f aFrame with inLen := 22 }

theorem witness_DecompressFrameEqualsItsStages :
    aFrameState.cfg.Legal ∧ aFrameState.inLen ≠ 0#32 ∧ aFrameState.status.err = false
      ∧ ∃ t, exec .decompressFrame aFrameState = .next t ∧ (!t.status.err) = true :=
  ⟨default_legal, by decide, rfl, next_of (p := fun t => !t.status.err) (by decide +kernel)⟩

/-- The frame of "a", the frame of the empty block, and the latter with rotation index 1. -/
theorem witness_DecompressFrameRecoversTheBlockOrReportsTheFirstStage :
    let e : State := { bufState .f (List.replicate 11 0) with inLen := 11 }
    let e' : State := { bufState .f (be32 1 ++ List.replicate 7 0) with inLen := 11 }
    (aFrameState.cfg.Legal ∧ aFrameState.inLen.toNat ≤ frameMax aFrameState.cfg
        ∧ ([0x61] : List Byte).length ≤ aFrameState.cfg.blockMax ∧ blockFrame aFrameState.cfg [0x61] = some aFrame
        ∧ aFrameState.bufWindow .f aFrameState.inLen.toNat = aFrame.map some ++ [])
      ∧ (blockFrame e.cfg [] = some (List.replicate 11 0) ∧ e.inLen.toNat ≤ frameMax e.cfg
        ∧ e.bufWindow .f e.inLen.toNat = (List.replicate 11 (0 : Byte)).map some ++ [])
      ∧ e'.inLen.toNat ≤ frameMax e'.cfg
      ∧ e'.bufWindow .f e'.inLen.toNat = (be32 (1#32).toNat ++ List.replicate 7 0).map some ++ [] := by
  refine ⟨⟨default_legal, by decide, by decide, by decide +kernel, by decide +kernel⟩,
    ⟨by decide +kernel, by decide, by decide +kernel⟩, by decide, by decide +kernel⟩

/-- The stages' part: a frame whose payload ends inside no code but has other counts than its table, one whose token stream is a
literal cut off, and one whose rotation index is above its block's length. -/
theorem witness_DecompressFrameReportsTheFirstStage :
    let F := hist [0x05]
    let G := hist [0x00, 0x61]
    (F.length = 256 ∧ (∀ c ∈ F, c < 2 ^ 32) ∧ (serializeFrame 2048 0#32 6#8 F [0x00]).toOption.isSome = true
        ∧ (ecUnpack (buildTree F) F 2048 [0x00] 6).toOption = none)
      ∧ ((serializeFrame 2048 0#32 7#8 (hist [0x00]) [0x00]).toOption.isSome = true
        ∧ (ecUnpack (buildTree (hist [0x00])) (hist [0x00]) 2048 [0x00] 7).toOption = some [0x00]
        ∧ (rlcDec [0x00] 1024).toOption = none)
      ∧ (serializeFrame 2048 2#32 6#8 G [0x40]).toOption.isSome = true
      ∧ (ecUnpack (buildTree G) G 2048 [0x40] 6).toOption = some [0x00, 0x61]
      ∧ (rlcDec [0x00, 0x61] 1024).toOption = some [0x61] ∧ (rtInv (mtfDec [0x61]).1 2).toOption = none := by
  decide +kernel

/-- R322, R343: the frame of "a" with rotation index 2 ends in INVALID_ROTATION_INDEX. R184, R124: its block of one byte is
UNSPECIFIED in BUF_A, its token stream of two in BUF_T, and the bytes after them are as before, with NO VALUE. -/
theorem test_decompressFrame_bad_rotation :
    (run { bufState .f (be32 2 ++ aFrame.drop 4) with inLen := 22 } 0x0E).map
        (fun t => (t.errCode, [t.cell .a 0, t.cell .a 1, t.cell .t 1, t.cell .t 2]))
      = some (some .invalidRotationIndex, [some .unspecified, none, some .unspecified, none]) := by decide +kernel

/-- R184: a frame cut short, which no stage decodes, leaves all of BUF_P UNSPECIFIED (95_test_vectors.md, program 4, end state). -/
theorem test_decompressFrame_truncated :
    (run { bufState .f bananaFrame with inLen := 38 } 0x0E).map (fun t => (t.errCodeWord, t.cell .p 3, t.cell .p 2047))
      = some (1#32, some .unspecified, some .unspecified) := by decide +kernel

/-- A block of one byte, and the empty block. -/
theorem witness_CompressThenDecompressGivesTheBlockBack :
    (aState.cfg.Legal ∧ aState.blkLenValue.toNat ≤ aState.cfg.blockMax
        ∧ aState.readBuf .a aState.blkLenValue.toNat = some [0x61])
      ∧ State.reset.blkLenValue.toNat ≤ State.reset.cfg.blockMax
      ∧ State.reset.readBuf .a State.reset.blkLenValue.toNat = some [] := by
  refine ⟨⟨default_legal, by decide, by decide +kernel⟩, by decide, by decide +kernel⟩

theorem witness_PerformedCommandsClearBusyAndSetDone : exec .nop State.reset = .next State.reset.finished := rfl

theorem witness_LengthIsCheckedBeforeAnyByteIsRead :
    let s : State := { State.reset with blkLen := .val 1025 }
    inputRange s .rtFwd = some (.a, 1025) ∧ bufCapacity s.cfg .a < 1025 := ⟨rfl, by decide⟩

/-- Ready inputs, and a range of one byte that has no value. -/
theorem witness_CommandsStopOnlyOnBytesWithoutValue :
    inputsReady aState .rtFwd = true
      ∧ (let s : State := { State.reset with blkLen := .val 1 }
        inputRange s .rtFwd = some (.a, 1) ∧ 1 ≤ bufCapacity s.cfg .a ∧ Buf.a ≠ .f ∧ ∃ j < 1, s.cell .a j = none) :=
  ⟨by decide +kernel, rfl, by decide, by decide, 0, by decide, rfl⟩

theorem witness_SuccessChangesOnlyTheOutputs :
    aState.cfg.Legal ∧ aState.status.err = false ∧ ∃ t, exec .rtFwd aState = .next t ∧ (!t.status.err) = true :=
  ⟨default_legal, rfl, next_of (p := fun t => !t.status.err) (by decide +kernel)⟩

/-- An index above the block length, for the statements about errors. -/
theorem witness_ErrorsAreLatchedAndPrecise :
    let s : State := { bufState .c [0x61] with blkLen := .val 1, rotIdx := .val 2 }
    s.cfg.Legal ∧ s.status.err = false ∧ ∃ t, exec .rtInv s = .next t ∧ t.status.err = true :=
  ⟨default_legal, rfl, next_of (p := fun t => t.status.err) (by decide +kernel)⟩

/-- A stage of DECOMPRESS_FRAME that fails after FrameDes: the ranges are bounded by 1, 2 and 1. -/
theorem witness_ErrorsAreLatchedAndPrecise_stage :
    let s : State := { bufState .f (be32 2 ++ aFrame.drop 4) with inLen := 22 }
    s.cfg.Legal ∧ s.status.err = false ∧ knownLengths s .decompressFrame = ⟨some 1, some 2, some 1⟩
      ∧ ∃ t, exec .decompressFrame s = .next t ∧ t.status.err = true :=
  ⟨default_legal, rfl, by decide +kernel, next_of (p := fun t => t.status.err) (by decide +kernel)⟩

theorem witness_RaisedErrorsAreThoseOfTheTable :
    let s : State := { State.reset with blkLen := .val 1025 }
    s.status.err = false ∧ ∃ t, exec .compressBlock s = .next t ∧ t.status.err = true :=
  ⟨rfl, next_of (p := fun t => t.status.err) (by decide +kernel)⟩

/-- The three clauses: STREAM_RESET, a COMPRESS_BLOCK that succeeds, any other command. -/
theorem witness_StreamOffsetAdvancesByTheFrameLength :
    aState.status.err = false ∧ aState.status.endOfStream = false ∧ (∃ t, exec .streamReset aState = .next t)
      ∧ (∃ t, exec .compressBlock aState = .next t ∧ (!t.status.err && !t.status.endOfStream) = true)
      ∧ ∃ t, exec .nop aState = .next t :=
  ⟨rfl, rfl, ⟨_, rfl⟩, next_of (p := fun t => !t.status.err && !t.status.endOfStream) (by decide +kernel), ⟨_, rfl⟩⟩

/-- The same statement under a latched error. -/
theorem witness_StreamOffsetAdvancesByTheFrameLength_error :
    failedState.status.err = true ∧ failedState.status.endOfStream = false ∧ ∃ t, exec .clearError failedState = .next t :=
  ⟨rfl, rfl, ⟨_, rfl⟩⟩

/-- Two states that agree on the inputs and differ elsewhere. -/
theorem witness_CompressBlockDependsOnlyOnItsInputs :
    let s' : State := { aState with rotIdx := .val 77, inLen := 5 }
    aState.cfg.Legal ∧ aState.cfg = s'.cfg ∧ aState.blkLenValue = s'.blkLenValue ∧ aState.streamOffset = s'.streamOffset
      ∧ aState.readBuf .a aState.blkLenValue.toNat = some [0x61] ∧ s'.readBuf .a aState.blkLenValue.toNat = some [0x61]
      ∧ aState.blkLenValue.toNat ≤ aState.cfg.blockMax ∧ ∃ t, exec .compressBlock aState = .next t ∧ true = true :=
  ⟨default_legal, rfl, rfl, rfl, by decide +kernel, by decide +kernel, by decide,
    next_of (p := fun _ => true) (by decide +kernel)⟩

/-- The failed state meets the invariant. -/
theorem failedState_inv : Inv failedState where
  cfg := default_legal
  mem := rfl
  undet b := by cases b <;> exact Nat.zero_le _
  rlist l h := by cases h; exact List.Perm.refl _
  freq := by decide +kernel
  codes := .inl ⟨hist [], by decide +kernel, by decide +kernel, by decide +kernel, by decide +kernel⟩
  freqCount v h := by cases h; exact Nat.zero_le _
  frameLen v h := by cases h; exact Nat.zero_le _
  noError h := by cases h
  error _ := by decide
  quiet h := by cases h
  sticky h := by cases h

theorem witness_TheFirstErrorStaysLatched :
    Inv failedState ∧ failedState.status.err = true ∧ step failedState = .next failedState.ticked := ⟨failedState_inv, rfl, rfl⟩

/-- A completion that raises the interrupt output, and a write of STATUS that lowers it. -/
theorem witness_InterruptRisesAndFallsOnlyOnTheseEvents :
    let s : State := { pendingState 0 with ctrl := ⟨true, false⟩ }
    let s' : State :=
      { State.reset with
        ctrl := ⟨true, false⟩
        status := ⟨false, true, false, false, false, false⟩
        hostQueue := [.write 0x20 .w4 2#32] }
    (s.irq = false ∧ ∃ t, step s = .next t ∧ t.irq = true) ∧ s'.irq = true ∧ ∃ t, step s' = .next t ∧ (!t.irq) = true :=
  ⟨⟨rfl, next_of (p := fun t => t.irq) (by decide +kernel)⟩, rfl, next_of (p := fun t => !t.irq) (by decide +kernel)⟩

theorem witness_EveryStepKeepsTheInvariant : Inv failedState ∧ step failedState = .next failedState.ticked :=
  ⟨failedState_inv, rfl⟩

theorem witness_ResetMeetsTheInvariant : Config.Legal ⟨65536, 0, 0⟩ ∧ Config.Legal ⟨1, 0, 0⟩ := by decide

end Sys2Proof.Tests
end

/-! ## The register layer of the window: one read rule and one write rule for all named registers -/

namespace Sys2Proof.Machine

@[simp] theorem regAt_regOffset (r : RegName) : regAt (regOffset r) = some r := by cases r <;> rfl

theorem regOffset_le (r : RegName) : regOffset r ≤ 0x4C := by cases r <;> decide

theorem aligned_regOffset (r : RegName) : aligned (regOffset r) (widthBytes .w4) = true := by cases r <;> rfl

theorem regOffset_of_regAt {a : Nat} {r : RegName} (h : regAt a = some r) : a = regOffset r := by
  unfold regAt at h
  split at h <;> cases h <;> rfl

/-- No register stands above STREAM_OFFSET (R55, R83). -/
theorem regAt_eq_none {a : Nat} (h : 0x50 ≤ a) : regAt a = none :=
  Option.eq_none_iff_forall_ne_some.2 fun r hr => by
    have := regOffset_le r
    have := regOffset_of_regAt hr
    omega

/-- A 32-bit read of a register is exact, unless its class makes it free while BUSY = 1 (R90, R93). -/
theorem memRead_regOffset {s : State} {r : RegName} (h : s.status.busy = false ∨ exactWhileBusy r = true) :
    s.memRead (regOffset r) .w4 = s.regValue r := by
  have hlt : regOffset r < 0x01000 := by have := regOffset_le r; omega
  have hexact : (s.status.busy && !exactWhileBusy r) = false := by
    rcases h with h | h <;> simp [h]
  simp only [State.memRead, aligned_regOffset, regAt_regOffset, hexact, if_pos hlt]
  rfl

/-- A 32-bit write at a register's offset is the register write (R91). -/
theorem memWrite_regOffset (s : State) (r : RegName) (v : Word) :
    s.memWrite (regOffset r) .w4 v = s.writeReg r v := by
  have hlt : regOffset r < 0x01000 := by have := regOffset_le r; omega
  simp only [State.memWrite, aligned_regOffset, regAt_regOffset, if_pos hlt]
  rfl

theorem writeReg_constant {r : RegName} (s : State) (v : Word) (h : regClass r = .constant) : s.writeReg r v = s := by
  simp [State.writeReg, h]

theorem writeReg_result {s : State} {r : RegName} (v : Word) (hb : s.status.busy = false) (h : regClass r = .result) :
    s.writeReg r v = s := by
  simp [State.writeReg, h, hb]

theorem writeReg_operand {s : State} {r : RegName} (v : Word) (hb : s.status.busy = false)
    (h : regClass r = .operand) : s.writeReg r v = s.storeOperand r v := by
  simp [State.writeReg, h, hb]

@[simp] theorem storeOperand_status (s : State) (r : RegName) (v : Word) : (s.storeOperand r v).status = s.status := by
  cases r <;> rfl

/-- An operand register reads what was stored; of PAD_CNT only bits 7:0 are (R44). -/
theorem regValue_storeOperand {r : RegName} (s : State) (v : Word) (h : regClass r = .operand) :
    (s.storeOperand r v).regValue r = if r = .padCnt then (v.setWidth 8).setWidth 32 else v := by
  cases r <;> cases h <;> rfl

/-- While BUSY = 0 a write to an operand register is stored. -/
theorem memWrite_operand {s : State} {r : RegName} (v : Word) (hb : s.status.busy = false)
    (h : regClass r = .operand) : s.memWrite (regOffset r) .w4 v = s.storeOperand r v := by
  rw [memWrite_regOffset, writeReg_operand v hb h]

/-- While BUSY = 0 an operand register reads back the value written to it. -/
theorem memRead_memWrite_operand {s : State} {r : RegName} (v : Word) (hb : s.status.busy = false)
    (h : regClass r = .operand) :
    (s.memWrite (regOffset r) .w4 v).memRead (regOffset r) .w4
      = if r = .padCnt then (v.setWidth 8).setWidth 32 else v := by
  rw [memWrite_operand v hb h, memRead_regOffset (.inl (by rwa [storeOperand_status])), regValue_storeOperand s v h]

/-! ## The words that STATUS and CTRL read, bit by bit -/

theorem testBit_foldr_bit (flags : List Bool) (k : Nat) : (flags.foldr Nat.bit 0).testBit k = flags.getD k false := by
  induction flags generalizing k with
  | nil => simp
  | cons flag flags ih =>
    cases k with
    | zero => exact Nat.testBit_bit_zero flag _
    | succ k => exact (Nat.testBit_bit_succ ..).trans (ih k)

/-- A word put together from flags, bit 0 first, shows them, and 0 above them. -/
theorem getLsbD_ofNat_foldr_bit {n : Nat} {flags : List Bool} (h : flags.length ≤ n) (k : Nat) :
    (BitVec.ofNat n (flags.foldr Nat.bit 0)).getLsbD k = flags.getD k false := by
  rw [BitVec.getLsbD_ofNat, testBit_foldr_bit]
  by_cases hk : k < n
  · simp [hk]
  · rw [List.getD_eq_default _ _ (by omega), Bool.and_false]

/-- The bits of STATUS (R35). -/
theorem statusWord_getLsbD (s : State) (k : Nat) :
    s.statusWord.getLsbD k =
      [s.status.busy, s.status.done, s.status.err, s.status.endOfStream, s.status.rej, s.status.busyViol, s.irq].getD k
        false := by
  rw [← getLsbD_ofNat_foldr_bit (n := 32) (by simp)]
  simp only [State.statusWord, List.foldr, Nat.bit_val]
  congr 2
  omega

/-- The bits of CTRL; bit 0, SRST, reads 0 (R33). -/
theorem ctrlWord_getLsbD (s : State) (k : Nat) :
    s.ctrlWord.getLsbD k = [false, s.ctrl.doneIe, s.ctrl.errIe].getD k false := by
  rw [← getLsbD_ofNat_foldr_bit (n := 32) (by simp)]
  simp only [State.ctrlWord, List.foldr, Nat.bit_val, Bool.toNat_false]
  congr 2
  omega

theorem ctrlWord_getLsbD_reserved (s : State) {k : Nat} (h1 : k ≠ 1) (h2 : k ≠ 2) : s.ctrlWord.getLsbD k = false := by
  rw [ctrlWord_getLsbD]
  match k with
  | 0 => rfl
  | 1 => exact absurd rfl h1
  | 2 => exact absurd rfl h2
  | _ + 3 => rfl

/-! ## Reserved offsets -/

/-- An aligned access that begins below a bound divisible by 4 ends below it. -/
theorem lt_of_aligned {a hi j : Nat} {w : Width} (ha : aligned a (widthBytes w) = true) (hhi : 4 ∣ hi) (h : a < hi)
    (hj : j < widthBytes w) : a + j < hi := by
  simp only [aligned, Bool.and_eq_true, beq_iff_eq] at ha
  obtain ⟨hmod, -⟩ := ha
  cases w <;> simp only [widthBytes] at hmod hj <;> omega

theorem unbe_eq_zero {bytes : List Byte} (h : ∀ b ∈ bytes, b = 0) : unbe bytes = 0 := by
  rw [List.eq_replicate_iff.2 ⟨rfl, h⟩, unbe]
  generalize bytes.length = n
  induction n with
  | zero => rfl
  | succ n ih => exact ih

/-- A read that touches no place with state gives 0, busy or not (R60, R84). -/
theorem memRead_eq_zero_of_reserved {s : State} {a : Nat} {w : Width} (ha : 0x1000 ≤ a)
    (h : aligned a (widthBytes w) = true → ∀ j < widthBytes w, place s.cfg (a + j) = .reserved) :
    s.memRead a w = 0#32 := by
  cases hal : aligned a (widthBytes w) with
  | false => simp [State.memRead, hal]
  | true =>
    have hres := h hal
    have htouch : touchesState s.cfg a (widthBytes w) = false := by
      simpa [touchesState] using hres
    have hbytes : s.bytesValue a (widthBytes w) = 0#32 := by
      rw [State.bytesValue, unbe_eq_zero]
      simpa [State.byteAt] using fun j hj => by rw [hres j hj]; rfl
    simp [State.memRead, hal, htouch, hbytes, Nat.not_lt.2 ha]

/-- A write that begins at a reserved offset is dropped, busy or not (R60, R84). -/
theorem memWrite_of_reserved {s : State} {a : Nat} (w : Width) (v : Word) (ha : 0x1000 ≤ a)
    (h : place s.cfg a = .reserved) : s.memWrite a w v = s := by
  simp [State.memWrite, h, Nat.not_lt.2 ha]

/-- Reads of a register offset that no register has give 0, and writes are dropped (R55, R83). -/
theorem access_noRegister (s : State) {a : Nat} (w : Width) (v : Word) (ha : a < 0x1000) (h : regAt a = none) :
    s.memRead a w = 0#32 ∧ s.memWrite a w v = s := by
  simp [State.memRead, State.memWrite, ha, h]

/-- A reserved range reads 0 and drops writes at every width. -/
theorem access_reservedRange (s : State) {lo hi a : Nat} (w : Width) (v : Word) (hlo : 0x1000 ≤ lo) (hhi : 4 ∣ hi)
    (hres : ∀ x, lo ≤ x → x < hi → place s.cfg x = .reserved) (h1 : lo ≤ a) (h2 : a < hi) :
    s.memRead a w = 0#32 ∧ s.memWrite a w v = s :=
  ⟨memRead_eq_zero_of_reserved (by omega) fun hal j hj => hres (a + j) (by omega) (lt_of_aligned hal hhi h2 hj),
    memWrite_of_reserved w v (by omega) (hres a h1 h2)⟩

/-- The gaps between the tables (R82), each as its first offset and the offset after its last. -/
def tableGaps : List (Nat × Nat) := [(0x1100, 0x2000), (0x2400, 0x3000), (0x3100, 0x4000), (0x6000, 0x20000)]

theorem place_tableGap (c : Config) {lo hi a : Nat} (hgap : (lo, hi) ∈ tableGaps) (h1 : lo ≤ a) (h2 : a < hi) :
    place c a = .reserved := by
  simp only [tableGaps, List.mem_cons, Prod.mk.injEq, List.not_mem_nil, or_false] at hgap
  unfold place
  rcases hgap with ⟨rfl, rfl⟩ | ⟨rfl, rfl⟩ | ⟨rfl, rfl⟩ | ⟨rfl, rfl⟩ <;>
    (repeat rw [if_neg (by omega)]) <;> rw [if_pos (by omega)]

theorem access_tableGap (s : State) {lo hi a : Nat} (w : Width) (v : Word) (hgap : (lo, hi) ∈ tableGaps) (h1 : lo ≤ a)
    (h2 : a < hi) : s.memRead a w = 0#32 ∧ s.memWrite a w v = s := by
  have bounds : ∀ gap ∈ tableGaps, 0x1000 ≤ gap.1 ∧ 4 ∣ gap.2 := by decide
  obtain ⟨hlo, hhi⟩ := bounds _ hgap
  exact access_reservedRange s w v hlo hhi (fun _ => place_tableGap s.cfg hgap) h1 h2

/-- A buffer region from the capacity on (R84). -/
theorem place_aboveCapacity {c : Config} {b : Buf} {a : Nat} (h1 : bufBase b + bufCapacity c b ≤ a)
    (h2 : a < bufBase b + regionSize b) : place c a = .reserved := by
  obtain ⟨i, rfl⟩ := Nat.exists_eq_add_of_le (Nat.le_of_add_right_le h1)
  rw [place_region (by omega), bufPlace_of_ge (by omega)]

/-! ## The state after reset -/

@[simp] theorem freqEntryByte_zero (j : Nat) : freqEntryByte FreqEntry.zero j = .val 0 := by
  unfold freqEntryByte
  split <;> rfl

@[simp] theorem freqByteAt_resetOf (cfg : Config) (sym j : Nat) : (State.resetOf cfg).freqByteAt sym j = 0 := by
  have hentry : (State.resetOf cfg).freq.getD sym FreqEntry.zero = FreqEntry.zero := List.getElem?_getD_replicate_default_eq ..
  rw [State.freqByteAt, hentry, freqEntryByte_zero]
  rfl

@[simp] theorem freqAt_resetOf (cfg : Config) (sym : Nat) : (State.resetOf cfg).freqAt sym = 0 :=
  unbe_eq_zero (by simp)

@[simp] theorem codeLenAt_resetOf (cfg : Config) (sym : Nat) : (State.resetOf cfg).codeLenAt sym = 0 :=
  List.getElem?_getD_replicate_default_eq ..

@[simp] theorem codeAt_resetOf (cfg : Config) (sym : Nat) : (State.resetOf cfg).codeAt sym = 0 :=
  List.getElem?_getD_replicate_default_eq ..

theorem rlistAt_resetOf (cfg : Config) {i : Nat} (hi : i < 256) : (State.resetOf cfg).rlistAt i = BitVec.ofNat 8 i := by
  have hlist : (State.resetOf cfg).rlistAt i = identityList.getD i 0 := rfl
  simp [hlist, identityList, hi]

@[simp] theorem undetOf_resetOf (cfg : Config) (b : Buf) : undetOf (State.resetOf cfg).undet b = 0 := by
  cases b <;> rfl

/-- After reset no buffer byte has a value (R59). -/
@[simp] theorem cell_resetOf (cfg : Config) (b : Buf) (i : Nat) : (State.resetOf cfg).cell b i = none := by
  rw [State.cell, undetOf_resetOf]
  rfl

theorem leavesFrom_replicate_zero (n sym seq : Nat) : leavesFrom sym seq (List.replicate n 0) = [] := by
  induction n generalizing sym with
  | zero => rfl
  | succ n ih => exact ih (sym + 1)

/-- Counts that are all 0 give the empty tree (R266). -/
theorem buildTree_replicate_zero (n : Nat) : buildTree (List.replicate n 0) = none := by
  rw [buildTree, leavesFrom_replicate_zero]
  rfl

theorem codeIn_empty (sym : Nat) : codeIn (treeCodes none) sym = [] := rfl

theorem codeLengths_none : codeLengths none = List.replicate 256 0 := by
  simp [codeLengths, codeIn_empty]

theorem codeWords_none : codeWords none = List.replicate 256 0 := by
  simp [codeWords, codeIn_empty, packCode, bitsToNat]

/-- After reset the code tables are those of an all-zero table of counts. -/
theorem codesCoherent_resetOf (cfg : Config) : CodesCoherent (State.resetOf cfg) := by
  refine .inl ⟨List.replicate 256 0, List.length_replicate, ?_⟩
  rw [buildTree_replicate_zero, codeLengths_none, codeWords_none]
  exact ⟨rfl, rfl, rfl⟩

/-! ## Steps -/

/-- With no host action left, a step is an engine turn (R172, R176). -/
theorem step_silent {s : State} (h : s.hostQueue = []) : step s = engineTurn s := by
  simp [step, takeTurn, h]

/-- A step takes the first host action from the queue (R100). -/
theorem step_action {s : State} {action : HostAction} {rest : List HostAction} (h : s.hostQueue = action :: rest) :
    step s = hostTurn action { s with hostQueue := rest } := by
  simp [step, takeTurn, h]

/-- An engine turn performs the pending command (R172). -/
theorem engineTurn_pending {s : State} {i : Instr} (hb : s.status.busy = true) (hd : decode s.cmd = .ok i) :
    engineTurn s = tickedResult (exec i s) := by
  simp [engineTurn, performPending, State.fetch, hb, hd]

/-- While a command is pending, a WAIT with no poll left is an engine turn, and stays in the queue (R150, R176). -/
theorem step_waitZero {s : State} {rest : List HostAction} (h : s.hostQueue = .wait 0 :: rest)
    (hb : s.status.busy = true) : step s = engineTurn s := by
  have hturn := waitTurn_engine (s := { s with hostQueue := rest }) hb
  rw [step_action h, hostTurn, hturn, ← h]

/-! ## The obligations on the state, the registers and the reserved offsets -/

/-- Settles O3: each of the three queues makes the step an engine turn. -/
theorem stepPerformsThePendingCommand : Obligations.StepPerformsThePendingCommand := by
  intro s i hb hd
  refine ⟨fun h => ?_, fun rest h => ?_, fun rest h => ?_⟩
  · rw [step_silent h, engineTurn_pending hb hd]
  · rw [step_action h]
    exact engineTurn_pending (s := { s with hostQueue := rest }) hb hd
  · rw [step_waitZero h hb, engineTurn_pending hb hd]

/-- Settles O9, through the register write rule. -/
theorem ctrlWriteResetsOrStores : Obligations.CtrlWriteResetsOrStores := by
  intro s v
  have hw : s.memWrite 0x18 .w4 v = s.writeCtrl v := memWrite_regOffset s .ctrl v
  rw [hw, State.writeCtrl]
  exact ⟨fun h => if_pos h, fun h => if_neg (ne_true_of_eq_false h)⟩

/-- Settles O10, through the register write rule. -/
theorem statusWriteOneToClear : Obligations.StatusWriteOneToClear := by
  intro s v
  have hclear : ∀ flag bit : Bool, (flag && !bit) = if bit then false else flag := by decide
  rw [← hclear, ← hclear, ← hclear]
  exact memWrite_regOffset s .status v

/-- Settles O12: every clause is the register read or write rule for one class of registers. -/
theorem registersReadAndTakeWritesByTheirClass : Obligations.RegistersReadAndTakeWritesByTheirClass := by
  intro s v
  have read (r : RegName) (h : s.status.busy = false ∨ exactWhileBusy r = true) := memRead_regOffset h
  refine ⟨⟨read .id (.inr rfl), read .version (.inr rfl), read .blockMax (.inr rfl), read .tokenMax (.inr rfl),
    read .payloadMax (.inr rfl), read .frameMax (.inr rfl), ?_⟩, fun hb => ⟨⟨read .blkLen (.inl hb), read .rotIdx (.inl hb),
    read .tokLen (.inl hb), read .payLen (.inl hb), ?_, read .freqCount (.inl hb), read .frameLen (.inl hb),
    read .inLen (.inl hb), read .streamOffset (.inl hb)⟩, ?_, ?_, ?_, ?_⟩⟩
  · refine List.forall_mem_map (f := regOffset) (l := [.id, .version, .blockMax, .tokenMax, .payloadMax, .frameMax]).2 fun r hr => ?_
    have hclass : regClass r = .constant := by revert r; decide
    rw [memWrite_regOffset, writeReg_constant s v hclass]
  · rw [BitVec.ofNat_toNat]
    exact read .padCnt (.inl hb)
  · have store (r : RegName) (h : regClass r = .operand) := memWrite_operand v hb h
    rw [BitVec.ofNat_toNat]
    exact ⟨store .blkLen rfl, store .rotIdx rfl, store .tokLen rfl, store .payLen rfl, store .padCnt rfl, store .inLen rfl,
      store .streamOffset rfl⟩
  · refine List.forall_mem_map (f := regOffset) (l := [.blkLen, .rotIdx, .tokLen, .payLen, .inLen, .streamOffset]).2 fun r hr => ?_
    have hclass : regClass r = .operand := by revert r; decide
    have hpad : r ≠ .padCnt := by revert r; decide
    rw [memRead_memWrite_operand v hb hclass, if_neg hpad]
  · have low : BitVec.ofNat 32 (v.toNat % 256) = (v.setWidth 8).setWidth 32 := by
      rw [← BitVec.ofNat_toNat 32 (v.setWidth 8), BitVec.toNat_setWidth]
    rw [low]
    exact memRead_memWrite_operand (r := .padCnt) v hb rfl
  · refine List.forall_mem_map (f := regOffset) (l := [.errCode, .errOffset, .freqCount, .frameLen]).2 fun r hr => ?_
    have hclass : regClass r = .result := by revert r; decide
    rw [memWrite_regOffset, writeReg_result v hb hclass]

/-- Settles O13, through the register read rule and the bits of the two words. -/
theorem statusControlAndErrorRegistersRead : Obligations.StatusControlAndErrorRegistersRead := by
  intro s
  have hw : s.memRead 0x20 .w4 = s.statusWord := memRead_regOffset (r := .status) (.inr rfl)
  have hc : s.memRead 0x18 .w4 = s.ctrlWord := memRead_regOffset (r := .ctrl) (.inr rfl)
  simp only [hw, hc]
  refine ⟨⟨statusWord_getLsbD s 0, statusWord_getLsbD s 1, statusWord_getLsbD s 2, statusWord_getLsbD s 3,
    statusWord_getLsbD s 4, statusWord_getLsbD s 5, statusWord_getLsbD s 6, fun k hk => ?_⟩,
    ⟨ctrlWord_getLsbD s 1, ctrlWord_getLsbD s 2, fun k => ctrlWord_getLsbD_reserved s⟩,
    memRead_regOffset (r := .cmd) (.inr rfl), fun hb => ⟨?_, ?_⟩⟩
  · rw [statusWord_getLsbD, List.getD_eq_default _ _ hk]
  · exact memRead_regOffset (r := .errOffset) (.inl hb)
  · refine (memRead_regOffset (r := .errCode) (.inl hb)).trans ?_
    simp only [State.regValue, State.errCodeWord]
    rcases s.errCode with _ | e
    · rfl
    · cases e <;> rfl

/-- Settles O15: the register range has no register, and every other range is a range of reserved places. -/
theorem reservedOffsetsReadZeroAndDropWrites : Obligations.ReservedOffsetsReadZeroAndDropWrites := by
  intro s a w v h
  rcases h with ⟨h1, h2⟩ | ⟨h1, h2⟩ | ⟨h1, h2⟩ | ⟨h1, h2⟩ | ⟨h1, h2⟩ | ⟨b, i, rfl, h1, h2⟩
  · exact access_noRegister s w v h2 (regAt_eq_none h1)
  · exact access_tableGap s w v (by decide) h1 h2
  · exact access_tableGap s w v (by decide) h1 h2
  · exact access_tableGap s w v (by decide) h1 h2
  · exact access_tableGap s w v (by decide) h1 h2
  · have hbase : 0x1000 ≤ bufBase b := by cases b <;> decide
    have hend : 4 ∣ bufBase b + regionSize b := by cases b <;> decide
    have hi : i < regionSize b := by cases b <;> exact h2
    exact access_reservedRange s w v (by omega) hend (fun _ => place_aboveCapacity) (by omega) (by omega)

/-- Settles O17: the registers by evaluation, the tables and the buffers by the lemmas on the reset state. -/
theorem resetStateHasTheResetValues : Obligations.ResetStateHasTheResetValues := by
  intro cfg
  exact ⟨rfl, rfl, rfl, rfl, rfl, rfl, rfl, rfl, rfl, rfl, rfl, rfl, rfl, rfl, rfl, fun i hi => rlistAt_resetOf cfg hi,
    fun sym _ => ⟨freqAt_resetOf cfg sym, codeLenAt_resetOf cfg sym, codeAt_resetOf cfg sym⟩, rfl, rfl, cell_resetOf cfg⟩

/-- Settles O60, clause by clause of the invariant. -/
theorem resetMeetsTheInvariant : Obligations.ResetMeetsTheInvariant := fun cfg hc =>
  { cfg := hc
    mem := wf_nil cfg
    undet := fun b => (undetOf_resetOf cfg b).trans_le (Nat.zero_le _)
    rlist := fun l h => by cases h; exact List.Perm.refl _
    freq := List.length_replicate
    codes := codesCoherent_resetOf cfg
    freqCount := fun v h => by cases h; exact Nat.zero_le _
    frameLen := fun v h => by cases h; exact Nat.zero_le _
    noError := fun _ => ⟨rfl, rfl⟩
    error := fun h => by cases h
    quiet := fun h => by cases h
    sticky := fun h => by cases h }

end Sys2Proof.Machine

namespace Sys2Proof.Machine

/-! ## Reads and writes of the window, by what the access addresses -/

section
variable {s : State} {a : Nat} {w : Width}

theorem aligned_iff {a n : Nat} : aligned a n = true ↔ a % n = 0 ∧ a + n - 1 ≤ 0xFFFFF := by
  simp [aligned]

theorem memRead_misaligned (h : aligned a (widthBytes w) = false) : s.memRead a w = 0#32 := by
  simp [State.memRead, h]

theorem memWrite_misaligned (v : Word) (h : aligned a (widthBytes w) = false) : s.memWrite a w v = s := by
  simp [State.memWrite, h]

theorem widthBytes_ne_four (hw : w ≠ .w4) : widthBytes w ≠ 4 := by
  cases w with
  | w1 => decide
  | w2 => decide
  | w4 => exact absurd rfl hw

theorem memRead_narrowRegister (ha : a < 0x1000) (hw : w ≠ .w4) : s.memRead a w = 0#32 := by
  simp [State.memRead, ha, widthBytes_ne_four hw]

theorem memWrite_narrowRegister (v : Word) (ha : a < 0x1000) (hw : w ≠ .w4) : s.memWrite a w v = s := by
  simp [State.memWrite, ha, widthBytes_ne_four hw]

/-- While BUSY = 0 an aligned read outside REGS is the big-endian value of its bytes (R90). -/
theorem memRead_idle (hb : s.status.busy = false) (hal : aligned a (widthBytes w) = true) (ha : 0x1000 ≤ a) :
    s.memRead a w = s.bytesValue a (widthBytes w) := by
  simp [State.memRead, hal, hb, Nat.not_lt.2 ha]

/-- The tables that take no host write (R92). -/
def readOnlyPlace : Place → Bool
  | .rlist _ | .codeLen _ | .code _ _ => true
  | .reserved | .freq _ _ | .buf _ _ => false

/-- While BUSY = 1 a write outside REGS is dropped, with a violation where it addresses state (R93). -/
theorem memWrite_busy (v : Word) (hb : s.status.busy = true) (hal : aligned a (widthBytes w) = true) (ha : 0x1000 ≤ a) :
    s.memWrite a w v = if place s.cfg a = .reserved then s else s.violated := by
  simp only [State.memWrite, hal, hb, if_neg (Nat.not_lt.2 ha)]
  cases place s.cfg a <;> rfl

/-- While BUSY = 0 a write outside REGS stores its bytes, unless it addresses a table that takes none (R91, R92). -/
theorem memWrite_idle (v : Word) (hb : s.status.busy = false) (hal : aligned a (widthBytes w) = true) (ha : 0x1000 ≤ a) :
    s.memWrite a w v =
      if place s.cfg a = .reserved ∨ readOnlyPlace (place s.cfg a) = true then s
      else s.pokeBytes a ((List.range (widthBytes w)).map (valueByte v (widthBytes w))) := by
  simp only [State.memWrite, hal, hb, if_neg (Nat.not_lt.2 ha)]
  cases place s.cfg a <;> rfl

theorem regClass_eq_control {r : RegName} : regClass r = .control ↔ r = .ctrl ∨ r = .status := by cases r <;> decide

theorem regClass_eq_command {r : RegName} : regClass r = .command ↔ r = .cmd := by cases r <;> decide

/-- Of the registers other than CTRL, the constants are those below CMD (R31, R32). -/
theorem regClass_eq_constant {r : RegName} : r ≠ .ctrl → (regClass r = .constant ↔ regOffset r < 0x1C) := by
  cases r <;> decide

/-- What a register write can do (R60, R93): nothing, a violation while BUSY = 1, a write of CTRL or STATUS, or, while BUSY = 0, the
issue of a command or a stored operand. -/
theorem writeReg_cases (s : State) (r : RegName) (v : Word) :
    s.writeReg r v = s ∨ (s.status.busy = true ∧ s.writeReg r v = s.violated)
      ∨ (r = .ctrl ∧ s.writeReg r v = s.writeCtrl v)
      ∨ (r = .status ∧ s.writeReg r v = { s with status := statusCleared s.status v })
      ∨ (s.status.busy = false ∧ r = .cmd ∧ s.writeReg r v = s.issue v)
      ∨ (s.status.busy = false ∧ s.writeReg r v = s.storeOperand r v) := by
  cases hclass : regClass r with
  | constant => exact .inl (writeReg_constant s v hclass)
  | control =>
    rcases regClass_eq_control.1 hclass with rfl | rfl
    · exact .inr (.inr (.inl ⟨rfl, rfl⟩))
    · exact .inr (.inr (.inr (.inl ⟨rfl, rfl⟩)))
  | command =>
    obtain rfl := regClass_eq_command.1 hclass
    cases hb : s.status.busy with
    | true => exact .inr (.inl ⟨rfl, by simp [State.writeReg, regClass, hb]⟩)
    | false => exact .inr (.inr (.inr (.inr (.inl ⟨rfl, rfl, by simp [State.writeReg, regClass, hb]⟩))))
  | result =>
    cases hb : s.status.busy with
    | true => exact .inr (.inl ⟨rfl, by simp [State.writeReg, hclass, hb]⟩)
    | false => exact .inl (writeReg_result v hb hclass)
  | operand =>
    cases hb : s.status.busy with
    | true => exact .inr (.inl ⟨rfl, by simp [State.writeReg, hclass, hb]⟩)
    | false => exact .inr (.inr (.inr (.inr (.inr ⟨rfl, writeReg_operand v hb hclass⟩))))

/-- What a host write can do (R91, R93): nothing, a register write, a violation while BUSY = 1, or bytes stored while BUSY = 0. -/
theorem memWrite_cases (s : State) (a : Nat) (w : Width) (v : Word) :
    s.memWrite a w v = s
      ∨ (∃ r, a = regOffset r ∧ w = .w4 ∧ s.memWrite a w v = s.writeReg r v)
      ∨ (s.status.busy = true ∧ s.memWrite a w v = s.violated)
      ∨ (s.status.busy = false ∧ ∃ bytes, s.memWrite a w v = s.pokeBytes a bytes) := by
  cases hal : aligned a (widthBytes w) with
  | false => exact .inl (memWrite_misaligned v hal)
  | true =>
    rcases Nat.lt_or_ge a 0x1000 with ha | ha
    · by_cases hw : w = .w4
      · cases hr : regAt a with
        | none => exact .inl (access_noRegister s w v ha hr).2
        | some r =>
          obtain rfl := regOffset_of_regAt hr
          subst hw
          exact .inr (.inl ⟨r, rfl, rfl, memWrite_regOffset s r v⟩)
      · exact .inl (memWrite_narrowRegister v ha hw)
    · cases hb : s.status.busy with
      | true =>
        rw [memWrite_busy v hb hal ha]
        split
        · exact .inl rfl
        · exact .inr (.inr (.inl ⟨rfl, rfl⟩))
      | false =>
        rw [memWrite_idle v hb hal ha]
        split
        · exact .inl rfl
        · exact .inr (.inr (.inr ⟨rfl, _, rfl⟩))

/-- Every offset divisible by 4 up to STREAM_OFFSET is a register's (R83). -/
theorem exists_regOffset {a : Nat} (hmod : a % 4 = 0) (ha : a ≤ 0x4C) : ∃ r, a = regOffset r := by
  have every : ∀ k < 20, (regAt (4 * k)).isSome = true := by decide
  obtain ⟨r, hr⟩ := Option.isSome_iff_exists.1 (every (a / 4) (by omega))
  rw [Nat.mul_div_cancel' (Nat.dvd_of_mod_eq_zero hmod)] at hr
  exact ⟨r, regOffset_of_regAt hr⟩

/-- While BUSY = 1 a write of a register other than CTRL and STATUS is dropped; those from CMD on count as a violation (R93). -/
theorem writeReg_busy {r : RegName} (v : Word) (hb : s.status.busy = true) (hctrl : r ≠ .ctrl) (hstatus : r ≠ .status) :
    s.writeReg r v = if 0x1C ≤ regOffset r then s.violated else s := by
  by_cases hlow : 0x1C ≤ regOffset r
  · rw [if_pos hlow]
    cases hclass : regClass r with
    | constant => exact absurd ((regClass_eq_constant hctrl).1 hclass) (Nat.not_lt.2 hlow)
    | control => exact absurd (regClass_eq_control.1 hclass) (not_or.2 ⟨hctrl, hstatus⟩)
    | command | result | operand => simp [State.writeReg, hclass, hb]
  · rw [if_neg hlow, writeReg_constant s v ((regClass_eq_constant hctrl).2 (Nat.lt_of_not_le hlow))]

end

/-! ## The bytes of an access -/

section
variable {s : State} {a i j : Nat} {w : Width}

theorem widthBytes_le (w : Width) : widthBytes w ≤ 4 := by cases w <;> decide

theorem widthBytes_pos (w : Width) : 0 < widthBytes w := by cases w <;> decide

/-- Bytes 1 to n of an access of `n + 1` bytes carry what an access of `n` bytes carries. -/
theorem valueByte_succ (v : Word) {n j : Nat} : valueByte v (n + 1) (j + 1) = valueByte v n j := by
  rw [valueByte, valueByte, show n + 1 - 1 - (j + 1) = n - 1 - j by omega]

theorem unbe_cons (b : Byte) (bs : List Byte) : unbe (b :: bs) = 256 ^ bs.length * b.toNat + unbe bs := by
  have h := unbe_append [b] bs
  rw [List.singleton_append] at h
  rw [h, mul_comm]
  simp [unbe]

/-- The bytes an access carries, read most significant first, are the low bytes of the value (R89, R91). -/
theorem unbe_valueBytes (v : Word) (n : Nat) : unbe ((List.range n).map (valueByte v n)) = v.toNat % 256 ^ n := by
  induction n with
  | zero => simp [unbe, Nat.mod_one]
  | succ n ih =>
    have hfirst : (valueByte v (n + 1) 0).toNat = v.toNat / 256 ^ n % 256 := by
      rw [valueByte, BitVec.extractLsb'_toNat, Nat.shiftRight_eq_div_pow, Nat.pow_mul]
      rfl
    have hrest : (List.range n).map (valueByte v (n + 1) ∘ Nat.succ) = (List.range n).map (valueByte v n) :=
      List.map_congr_left fun j _ => valueByte_succ v
    rw [List.range_succ_eq_map, List.map_cons, List.map_map, hrest, unbe_cons, ih, hfirst, List.length_map,
      List.length_range, Nat.mod_pow_succ]
    omega

theorem unbe_windowBytes_lt (s : State) (a : Nat) {n : Nat} (hn : n ≤ 4) :
    unbe ((List.range n).map fun j => s.byteAt (a + j)) < 2 ^ 32 := by
  have h := unbe_lt ((List.range n).map fun j => s.byteAt (a + j))
  rw [List.length_map, List.length_range] at h
  exact h.trans_le (Nat.pow_le_pow_right (by decide) hn)

theorem toNat_bytesValue (s : State) (a : Nat) {n : Nat} (hn : n ≤ 4) :
    (s.bytesValue a n).toNat = unbe ((List.range n).map fun j => s.byteAt (a + j)) := by
  rw [State.bytesValue, BitVec.toNat_ofNat, Nat.mod_eq_of_lt (unbe_windowBytes_lt s a hn)]

/-- The value of consecutive bytes is put together from those of its two parts (R89). -/
theorem toNat_bytesValue_add (s : State) (a : Nat) {m n : Nat} (h : m + n ≤ 4) :
    (s.bytesValue a (m + n)).toNat = 256 ^ n * (s.bytesValue a m).toNat + (s.bytesValue (a + m) n).toNat := by
  rw [toNat_bytesValue s a h, toNat_bytesValue s a (by omega), toNat_bytesValue s (a + m) (by omega), List.range_add,
    List.map_append, unbe_append, List.map_map, List.length_map, List.length_range, mul_comm]
  simp only [Function.comp_def, Nat.add_assoc]

theorem bytesValue_one (s : State) (a : Nat) : s.bytesValue a 1 = (s.byteAt a).setWidth 32 := by
  apply BitVec.eq_of_toNat_eq
  rw [toNat_bytesValue s a (by decide), BitVec.toNat_setWidth]
  have := (s.byteAt a).isLt
  simp [unbe]
  omega

/-- While BUSY = 0 a byte read gives the byte (R90). -/
theorem memRead_byte (hb : s.status.busy = false) (ha : 0x1000 ≤ a) (hend : a < 0x100000) :
    s.memRead a .w1 = (s.byteAt a).setWidth 32 := by
  rw [memRead_idle hb (aligned_iff.2 ⟨Nat.mod_one a, by simp only [widthBytes]; omega⟩) ha]
  exact bytesValue_one s a

/-! ## Where the tables lie -/

theorem place_rlist (c : Config) (hi : i < 256) : place c (0x1000 + i) = .rlist i := by
  unfold place
  rw [if_neg (by omega), if_pos (by omega), Nat.add_sub_cancel_left]

theorem place_freq (c : Config) {sym : Nat} (hsym : sym < 256) (hj : j < 4) :
    place c (0x2000 + 4 * sym + j) = .freq sym j := by
  have h1 : (0x2000 + 4 * sym + j - 0x2000) / 4 = sym := by omega
  have h2 : (0x2000 + 4 * sym + j - 0x2000) % 4 = j := by omega
  unfold place
  rw [if_neg (by omega), if_neg (by omega), if_neg (by omega), if_pos (by omega), h1, h2]

theorem place_codeLen (c : Config) {sym : Nat} (hsym : sym < 256) : place c (0x3000 + sym) = .codeLen sym := by
  unfold place
  rw [if_neg (by omega), if_neg (by omega), if_neg (by omega), if_neg (by omega), if_neg (by omega), if_pos (by omega),
    Nat.add_sub_cancel_left]

theorem place_code (c : Config) {sym : Nat} (hsym : sym < 256) (hj : j < 32) :
    place c (0x4000 + 32 * sym + j) = .code sym j := by
  have h1 : (0x4000 + 32 * sym + j - 0x4000) / 32 = sym := by omega
  have h2 : (0x4000 + 32 * sym + j - 0x4000) % 32 = j := by omega
  unfold place
  rw [if_neg (by omega), if_neg (by omega), if_neg (by omega), if_neg (by omega), if_neg (by omega), if_neg (by omega),
    if_neg (by omega), if_pos (by omega), h1, h2]

/-- RLIST, CODELEN and CODE take no host write (R92). -/
theorem readOnlyPlace_place (c : Config)
    (ha : (0x1000 ≤ a ∧ a < 0x1100) ∨ (0x3000 ≤ a ∧ a < 0x3100) ∨ (0x4000 ≤ a ∧ a < 0x6000)) :
    readOnlyPlace (place c a) = true := by
  rcases ha with ⟨h1, h2⟩ | ⟨h1, h2⟩ | ⟨h1, h2⟩
  · obtain ⟨i, rfl⟩ := Nat.exists_eq_add_of_le h1
    rw [place_rlist c (by omega)]
    rfl
  · obtain ⟨i, rfl⟩ := Nat.exists_eq_add_of_le h1
    rw [place_codeLen c (by omega)]
    rfl
  · rw [show a = 0x4000 + 32 * ((a - 0x4000) / 32) + (a - 0x4000) % 32 by omega, place_code c (by omega) (by omega)]
    rfl

/-! ## The bits of a byte of CODE -/

theorem bitsToNat_eq_foldr (bits : List Bool) : bitsToNat bits = bits.reverse.foldr Nat.bit 0 := by
  rw [List.foldr_reverse, bitsToNat]
  simp only [Nat.bit_val]

/-- Bit `7 - k` of byte `j` of a CODE entry is code bit `8j + k` (R85, R147). -/
theorem codeByte_getLsbD (code : CodeWord) (j : Nat) {k : Nat} (hk : k < 8) :
    (codeByte code j).getLsbD (7 - k) = code.getMsbD (8 * j + k) := by
  have hbits : (codeBits code (8 * j + 8)).drop (8 * j) = (List.range 8).map fun k => code.getMsbD (8 * j + k) := by
    rw [codeBits, List.range_add, List.map_append, List.drop_left' (by simp), List.map_map]
    rfl
  rw [codeByte, hbits, bitsToNat_eq_foldr, getLsbD_ofNat_foldr_bit (by simp), List.getD_eq_getElem?_getD,
    List.getElem?_reverse (by simp; omega)]
  simp [show 8 - 1 - (7 - k) = k by omega, hk]

/-! ## Host bytes stored to FREQ -/

theorem freqEntryByte_set (e : FreqEntry) (b : Byte) {j k : Nat} (hj : j < 4) (hk : k < 4) :
    freqEntryByte (freqEntrySetByte e j b) k = if k = j then .val b else freqEntryByte e k := by
  interval_cases j <;> interval_cases k <;> rfl

theorem pokeByte_freq (s : State) {sym : Nat} (b : Byte) (hsym : sym < 256) (hj : j < 4) :
    s.pokeByte (0x2000 + 4 * sym + j) b =
      { s with freq := s.freq.set sym (freqEntrySetByte (s.freq.getD sym FreqEntry.zero) j b) } := by
  rw [State.pokeByte, place_freq s.cfg hsym hj]

/-- A byte stored to FREQ reads back, and every other byte of FREQ reads as before (R91). -/
theorem freqByteAt_pokeByte {sym other k : Nat} (b : Byte) (hlen : s.freq.length = 256) (hsym : sym < 256) (hj : j < 4)
    (hk : k < 4) :
    (s.pokeByte (0x2000 + 4 * sym + j) b).freqByteAt other k =
      if other = sym ∧ k = j then b else s.freqByteAt other k := by
  rw [pokeByte_freq s b hsym hj]
  by_cases ho : other = sym
  · subst ho
    simp only [State.freqByteAt, List.getD_eq_getElem?_getD, List.getElem?_set_self (hlen.symm ▸ hsym), Option.getD_some,
      freqEntryByte_set _ b hj hk, true_and]
    split <;> rfl
  · simp [State.freqByteAt, List.getElem?_set_ne (Ne.symm ho), ho]

/-- Bytes stored to one entry of FREQ change only FREQ (R91). -/
theorem pokeBytes_freq {sym : Nat} (bytes : List Byte) (hsym : sym < 256) : ∀ (s : State) (j : Nat),
    j + bytes.length ≤ 4 →
    s.pokeBytes (0x2000 + 4 * sym + j) bytes =
      { s with freq := (s.pokeBytes (0x2000 + 4 * sym + j) bytes).freq } := by
  induction bytes with
  | nil => intro s j _; rfl
  | cons b bs ih =>
    intro s j hj
    rw [List.length_cons] at hj
    rw [State.pokeBytes, pokeByte_freq s b hsym (by omega)]
    exact ih _ (j + 1) (by omega)

/-- Bytes stored to one entry of FREQ read back, and every other byte of FREQ reads as before (R91). -/
theorem freqByteAt_pokeBytes {sym other k : Nat} (bytes : List Byte) (hsym : sym < 256) (hk : k < 4) :
    ∀ (s : State) (j : Nat), s.freq.length = 256 → j + bytes.length ≤ 4 →
    (s.pokeBytes (0x2000 + 4 * sym + j) bytes).freqByteAt other k =
      if other = sym ∧ j ≤ k ∧ k < j + bytes.length then bytes.getD (k - j) 0 else s.freqByteAt other k := by
  induction bytes with
  | nil =>
    intro s j _ _
    rw [if_neg (by simp only [List.length_nil]; omega)]
    rfl
  | cons b bs ih =>
    intro s j hlen hj
    rw [List.length_cons] at hj ⊢
    have hlen' : (s.pokeByte (0x2000 + 4 * sym + j) b).freq.length = 256 := by
      rw [pokeByte_freq s b hsym (by omega)]
      simpa using hlen
    refine (ih (s.pokeByte (0x2000 + 4 * sym + j) b) (j + 1) hlen' (by omega)).trans ?_
    rw [freqByteAt_pokeByte b hlen hsym (by omega) hk]
    by_cases ho : other = sym
    · rcases Nat.lt_trichotomy k j with hkj | rfl | hkj
      · rw [if_neg (by omega), if_neg (by omega), if_neg (by omega)]
      · rw [if_neg (by omega), if_pos ⟨ho, rfl⟩, if_pos (by omega), Nat.sub_self, List.getD_cons_zero]
      · obtain ⟨d, rfl⟩ := Nat.exists_eq_add_of_lt hkj
        rw [show j + d + 1 - (j + 1) = d by omega, show j + d + 1 - j = d + 1 by omega, List.getD_cons_succ]
        by_cases hin : d < bs.length
        · rw [if_pos ⟨ho, by omega, by omega⟩, if_pos ⟨ho, by omega, by omega⟩]
        · rw [if_neg (by omega), if_neg (by omega), if_neg (by omega)]
    · simp [ho]

end

/-! ## Host bytes stored to a buffer -/

section
variable {s : State} {b : Buf} {i : Nat} {w : Width}

/-- What bytes stored inside a buffer do to the cells of all buffers. -/
theorem cell_of_memWriteBytes {t : State} (hc : s.cfg.Legal) {bytes : List Byte}
    (hfit : i + bytes.length ≤ bufCapacity s.cfg b) (ht : t = { s with mem := memWriteBytes s.mem (bufBase b + i) bytes })
    {b' : Buf} {i' : Nat} (hi' : i' < bufCapacity s.cfg b') :
    t.cell b' i' =
      if b' = b ∧ i ≤ i' ∧ i' < i + bytes.length then bytes[i' - i]?.map Held.val else s.cell b' i' := by
  have hget := memGet_memWriteBytes s.mem (bufBase b + i) bytes (bufBase b' + i')
  by_cases h : b' = b ∧ i ≤ i' ∧ i' < i + bytes.length
  · rw [if_pos h]
    obtain ⟨rfl, hlo, hhi⟩ := h
    rw [if_pos ⟨by omega, by omega⟩, show bufBase b' + i' - (bufBase b' + i) = i' - i by omega,
      List.getElem?_eq_getElem (by omega)] at hget
    rw [List.getElem?_eq_getElem (by omega), ht, State.cell, hget]
    rfl
  · rw [if_neg] at hget
    · rw [if_neg h, ht, State.cell, hget]
      rfl
    · rintro ⟨hlo, hhi⟩
      obtain ⟨rfl, heq⟩ := bufBase_inj hc (b' := b) (i' := bufBase b' + i' - bufBase b) hi' (by omega) (by omega)
      exact h ⟨rfl, by omega, by omega⟩

theorem bufBase_ge (b : Buf) : 0x1000 ≤ bufBase b := by cases b <;> decide

/-- An access whose index in a buffer is a multiple of its width, and that ends below the capacity, is aligned (R87). -/
theorem aligned_buf {c : Config} (hc : c.Legal) (hmod : i % widthBytes w = 0) (hfit : i + widthBytes w ≤ bufCapacity c b) :
    aligned (bufBase b + i) (widthBytes w) = true := by
  have hbase : widthBytes w ∣ bufBase b := by cases w <;> cases b <;> decide
  have hend : bufBase b + regionSize b ≤ 0x100000 := by cases b <;> decide
  have hregion := capacity_le_region hc b
  exact aligned_iff.2 ⟨Nat.mod_eq_zero_of_dvd (hbase.add (Nat.dvd_of_mod_eq_zero hmod)), by omega⟩

/-- While BUSY = 0 an aligned write inside a buffer stores its bytes there, and nothing else changes (R91). -/
theorem memWrite_buf (v : Word) (hc : s.cfg.Legal) (hb : s.status.busy = false) (hmod : i % widthBytes w = 0)
    (hfit : i + widthBytes w ≤ bufCapacity s.cfg b) :
    s.memWrite (bufBase b + i) w v =
      { s with
        mem := memWriteBytes s.mem (bufBase b + i) ((List.range (widthBytes w)).map (valueByte v (widthBytes w))) } := by
  have hpos := widthBytes_pos w
  rw [memWrite_idle v hb (aligned_buf hc hmod hfit) ((bufBase_ge b).trans (Nat.le_add_right ..)),
    place_buf hc (by omega), if_neg (by simp [readOnlyPlace]), pokeBytes_buf _ hc (by simpa using hfit)]

/-- Each byte of an aligned write inside a buffer lands at its index, and every other byte of every buffer stays (R89, R91). -/
theorem cell_memWrite_buf (v : Word) (hc : s.cfg.Legal) (hb : s.status.busy = false) (hmod : i % widthBytes w = 0)
    (hfit : i + widthBytes w ≤ bufCapacity s.cfg b) {b' : Buf} {i' : Nat} (hi' : i' < bufCapacity s.cfg b') :
    (s.memWrite (bufBase b + i) w v).cell b' i' =
      if b' = b ∧ i ≤ i' ∧ i' < i + widthBytes w then some (.val (valueByte v (widthBytes w) (i' - i)))
      else s.cell b' i' := by
  rw [cell_of_memWriteBytes hc (by simpa using hfit) (memWrite_buf v hc hb hmod hfit) hi', List.length_map,
    List.length_range]
  refine if_ctx_congr Iff.rfl (fun hin => ?_) fun _ => rfl
  simp [show i' - i < widthBytes w by omega]

/-- While BUSY = 0 an aligned read inside a buffer whose bytes hold those of a value gives the value (R89, R90). -/
theorem memRead_buf (v : Word) (hc : s.cfg.Legal) (hb : s.status.busy = false) (hmod : i % widthBytes w = 0)
    (hfit : i + widthBytes w ≤ bufCapacity s.cfg b)
    (hcell : ∀ j < widthBytes w, s.cell b (i + j) = some (.val (valueByte v (widthBytes w) j))) :
    s.memRead (bufBase b + i) w = BitVec.ofNat 32 (v.toNat % 256 ^ widthBytes w) := by
  rw [memRead_idle hb (aligned_buf hc hmod hfit) ((bufBase_ge b).trans (Nat.le_add_right ..)), State.bytesValue,
    ← unbe_valueBytes]
  congr 2
  refine List.map_congr_left fun j hj => ?_
  have hj := List.mem_range.1 hj
  rw [State.byteAt, Nat.add_assoc, place_buf hc (by omega)]
  simp only [State.placeByte, State.bufByte, hcell j hj]
  rfl

end

/-! ## Wider reads, and host accesses to the tables -/

section
variable {s : State} {a : Nat}

/-- While BUSY = 0 a read of twice the width is put together from two reads (R89, R90). -/
theorem toNat_memRead_double {w half : Width} (hb : s.status.busy = false)
    (hw : widthBytes w = widthBytes half + widthBytes half) (ha : 0x1000 ≤ a) (hend : a < 0x100000)
    (hmod : a % widthBytes w = 0) :
    (s.memRead a w).toNat =
      256 ^ widthBytes half * (s.memRead a half).toNat + (s.memRead (a + widthBytes half) half).toNat := by
  have hle := widthBytes_le w
  have hdvd : widthBytes half ∣ a :=
    (hw ▸ Nat.dvd_add (dvd_refl _) (dvd_refl _) : widthBytes half ∣ widthBytes w).trans (Nat.dvd_of_mod_eq_zero hmod)
  have hlast : a + widthBytes w ≤ 0x100000 := by cases w <;> simp only [widthBytes] at hmod ⊢ <;> omega
  rw [memRead_idle hb (aligned_iff.2 ⟨hmod, by omega⟩) ha,
    memRead_idle hb (aligned_iff.2 ⟨Nat.mod_eq_zero_of_dvd hdvd, by omega⟩) ha,
    memRead_idle hb (aligned_iff.2 ⟨Nat.mod_eq_zero_of_dvd (hdvd.add (dvd_refl _)), by omega⟩) (by omega), hw,
    toNat_bytesValue_add s a (hw ▸ hle)]

/-- While BUSY = 0 an aligned write inside an entry of FREQ stores its bytes there (R91). -/
theorem memWrite_freq {sym j : Nat} {w : Width} (v : Word) (hb : s.status.busy = false) (hsym : sym < 256)
    (hmod : j % widthBytes w = 0) (hfit : j + widthBytes w ≤ 4) :
    s.memWrite (0x2000 + 4 * sym + j) w v =
      s.pokeBytes (0x2000 + 4 * sym + j) ((List.range (widthBytes w)).map (valueByte v (widthBytes w))) := by
  have hpos := widthBytes_pos w
  have hdvd : widthBytes w ∣ 0x2000 + 4 * sym := by
    have h4 : widthBytes w ∣ 4 := by cases w <;> decide
    exact h4.trans (by omega)
  have hal : aligned (0x2000 + 4 * sym + j) (widthBytes w) = true :=
    aligned_iff.2 ⟨Nat.mod_eq_zero_of_dvd (hdvd.add (Nat.dvd_of_mod_eq_zero hmod)), by omega⟩
  rw [memWrite_idle v hb hal (by omega), place_freq s.cfg hsym (by omega), if_neg (by simp [readOnlyPlace])]

theorem freqAt_eq (s : State) (sym : Nat) : s.freqAt sym = unbe ((List.range 4).map (s.freqByteAt sym)) := rfl

/-- A write inside an entry of FREQ sets exactly its bytes (R91). -/
theorem freqByteAt_memWrite {sym j other k : Nat} {w : Width} (v : Word) (hb : s.status.busy = false)
    (hlen : s.freq.length = 256) (hsym : sym < 256) (hmod : j % widthBytes w = 0) (hfit : j + widthBytes w ≤ 4) (hk : k < 4) :
    (s.memWrite (0x2000 + 4 * sym + j) w v).freqByteAt other k =
      if other = sym ∧ j ≤ k ∧ k < j + widthBytes w then valueByte v (widthBytes w) (k - j)
      else s.freqByteAt other k := by
  rw [memWrite_freq v hb hsym hmod hfit, freqByteAt_pokeBytes _ hsym hk s j hlen (by simpa using hfit), List.length_map,
    List.length_range]
  refine if_ctx_congr Iff.rfl (fun hin => ?_) fun _ => rfl
  simp [show k - j < widthBytes w by omega]

/-- A word written to an entry of FREQ is its count (R85, R91). -/
theorem freqAt_memWrite {sym : Nat} (v : Word) (hb : s.status.busy = false) (hlen : s.freq.length = 256) (hsym : sym < 256) :
    (s.memWrite (0x2000 + 4 * sym) .w4 v).freqAt sym = v.toNat :=
  calc (s.memWrite (0x2000 + 4 * sym) .w4 v).freqAt sym
    _ = unbe ((List.range 4).map (valueByte v 4)) := by
      rw [freqAt_eq]
      refine congrArg unbe (List.map_congr_left fun k hk => ?_)
      have hk := List.mem_range.1 hk
      exact (freqByteAt_memWrite (j := 0) v hb hlen hsym rfl (le_refl 4) hk).trans (if_pos
        ⟨rfl, Nat.zero_le k, hk.trans_eq (Nat.zero_add 4).symm⟩)
    _ = v.toNat := (unbe_valueBytes v 4).trans (Nat.mod_eq_of_lt v.isLt)

/-- RLIST, CODELEN and CODE drop host writes (R92). -/
theorem memWrite_readOnly {w : Width} (v : Word) (hb : s.status.busy = false) (ha : 0x1000 ≤ a)
    (hp : readOnlyPlace (place s.cfg a) = true) : s.memWrite a w v = s := by
  cases hal : aligned a (widthBytes w) with
  | false => exact memWrite_misaligned v hal
  | true => rw [memWrite_idle v hb hal ha, if_pos (.inr hp)]

/-- While BUSY = 0 a word read of an entry of FREQ gives the count (R85, R90). -/
theorem memRead_freq {sym : Nat} (hb : s.status.busy = false) (hsym : sym < 256) :
    s.memRead (0x2000 + 4 * sym) .w4 = BitVec.ofNat 32 (s.freqAt sym) := by
  have hbyte : ∀ j < 4, s.byteAt (0x2000 + 4 * sym + j) = s.freqByteAt sym j := fun j hj => by
    rw [State.byteAt, place_freq s.cfg hsym hj]
    rfl
  rw [memRead_idle hb (aligned_iff.2 ⟨by simp only [widthBytes]; omega, by simp only [widthBytes]; omega⟩) (by omega),
    State.bytesValue, freqAt_eq]
  exact congrArg (BitVec.ofNat 32 ∘ unbe) (List.map_congr_left fun j hj => hbyte j (List.mem_range.1 hj))

end

/-! ## A host write does not count as a step by itself -/

@[simp] theorem pokeByte_epoch (s : State) (a : Nat) (b : Byte) : (s.pokeByte a b).epoch = s.epoch := by
  unfold State.pokeByte
  split <;> rfl

@[simp] theorem pokeBytes_epoch (s : State) (a : Nat) (bytes : List Byte) : (s.pokeBytes a bytes).epoch = s.epoch := by
  induction bytes generalizing s a with
  | nil => rfl
  | cons b bs ih => rw [State.pokeBytes, ih, pokeByte_epoch]

@[simp] theorem issue_epoch (s : State) (w : Word) : (s.issue w).epoch = s.epoch := by
  unfold State.issue
  split <;> rfl

@[simp] theorem storeOperand_epoch (s : State) (r : RegName) (v : Word) : (s.storeOperand r v).epoch = s.epoch := by
  cases r <;> rfl

@[simp] theorem writeCtrl_epoch (s : State) (v : Word) : (s.writeCtrl v).epoch = s.epoch := by
  unfold State.writeCtrl
  split <;> rfl

@[simp] theorem writeReg_epoch (s : State) (r : RegName) (v : Word) : (s.writeReg r v).epoch = s.epoch := by
  rcases writeReg_cases s r v with heq | ⟨-, heq⟩ | ⟨-, heq⟩ | ⟨-, heq⟩ | ⟨-, -, heq⟩ | ⟨-, heq⟩ <;> rw [heq]
  · exact violated_epoch s
  · exact writeCtrl_epoch s v
  · exact issue_epoch s v
  · exact storeOperand_epoch s r v

@[simp] theorem memWrite_epoch (s : State) (a : Nat) (w : Width) (v : Word) : (s.memWrite a w v).epoch = s.epoch := by
  rcases memWrite_cases s a w v with heq | ⟨r, -, -, heq⟩ | ⟨-, heq⟩ | ⟨-, bytes, heq⟩ <;> rw [heq]
  · exact writeReg_epoch s r v
  · exact violated_epoch s
  · exact pokeBytes_epoch s a bytes

/-! ## What a step can do -/

section
variable {s t : State}

theorem ticked_of_tickedResult {r : Result} (h : tickedResult r = .next t) : ∃ u, r = .next u ∧ t = u.ticked := by
  cases r with
  | next u => cases h; exact ⟨u, rfl, rfl⟩
  | fault r => cases h
  | refused r => cases h

/-- An engine turn that answers a next state leaves an idle block as it is, or performs the pending command (R172, R369). -/
theorem engineTurn_cases (h : engineTurn s = .next t) :
    t = s.ticked ∨ (s.status.busy = true ∧ ∃ u, performPending s = .next u ∧ t = u.ticked) := by
  obtain ⟨u, hu, rfl⟩ := ticked_of_tickedResult h
  cases hb : s.status.busy with
  | false =>
    rw [hb] at hu
    cases hu
    exact .inl rfl
  | true =>
    rw [hb] at hu
    exact .inr ⟨rfl, u, hu, rfl⟩

/-- A step that answers a next state is a turn without effect on the block, a host write, a hardware reset, or an engine turn
(R100). The queue and the record of reads are the model's own. -/
theorem step_turns (h : step s = .next t) :
    (∃ queue reads, t = State.ticked { s with hostQueue := queue, hostReads := reads })
      ∨ (∃ a w v rest, s.hostQueue = .write a w v :: rest
        ∧ t = (State.memWrite { s with hostQueue := rest } a w v).ticked)
      ∨ (∃ rest, s.hostQueue = .hardReset :: rest ∧ t = (State.blockReset { s with hostQueue := rest }).ticked)
      ∨ ∃ queue, engineTurn { s with hostQueue := queue } = .next t := by
  cases hq : s.hostQueue with
  | nil =>
    rw [step_silent hq] at h
    exact .inr (.inr (.inr ⟨s.hostQueue, h⟩))
  | cons action rest =>
    rw [step_action hq] at h
    cases action with
    | read a w => cases h; exact .inl ⟨rest, _, rfl⟩
    | write a w v => cases h; exact .inr (.inl ⟨a, w, v, rest, rfl, rfl⟩)
    | hardReset => cases h; exact .inr (.inr (.inl ⟨rest, rfl, rfl⟩))
    | pause => exact .inr (.inr (.inr ⟨rest, h⟩))
    | wait polls =>
      rcases waitTurn_cases polls { s with hostQueue := rest } with ⟨queue, hpoll⟩ | ⟨-, hturn⟩
      · cases hpoll.symm.trans h
        exact .inl ⟨queue, _, rfl⟩
      · exact .inr (.inr (.inr ⟨_, hturn.symm.trans h⟩))

/-- What a step that answers a next state can do (R100): nothing to the block, a host write, a hardware reset, or the performance of
the pending command. -/
theorem step_cases (h : step s = .next t) :
    (∃ queue reads, t = State.ticked { s with hostQueue := queue, hostReads := reads })
      ∨ (∃ a w v rest, s.hostQueue = .write a w v :: rest
        ∧ t = (State.memWrite { s with hostQueue := rest } a w v).ticked)
      ∨ (∃ rest, s.hostQueue = .hardReset :: rest ∧ t = (State.blockReset { s with hostQueue := rest }).ticked)
      ∨ (s.status.busy = true ∧ ∃ queue u, performPending { s with hostQueue := queue } = .next u ∧ t = u.ticked) := by
  rcases step_turns h with h | h | h | ⟨queue, hturn⟩
  · exact .inl h
  · exact .inr (.inl h)
  · exact .inr (.inr (.inl h))
  · rcases engineTurn_cases hturn with rfl | ⟨hb, u, hu, rfl⟩
    · exact .inl ⟨queue, s.hostReads, rfl⟩
    · exact .inr (.inr (.inr ⟨hb, queue, u, hu, rfl⟩))

/-- A command that answers a next state has raised an error of its row of the table (R340, R341), or has completed. -/
theorem exec_next_cases {i : Instr} (h : exec i s = .next t) :
    (∃ e, t = (s.spoilAll (failedOutputs s i)).latched e (errorOffset s i) ∧ (i ∈ raisedBy e ∨ i = .compressBlock))
      ∨ Completes s t i := by
  rcases exec_cases i s with ⟨e, hraise, hrow⟩ | ⟨b, n, -, -, -, hfault⟩ | ⟨u, hu, hcomplete⟩
  · cases hraise.symm.trans h
    exact .inl ⟨e, rfl, hrow⟩
  · cases hfault.symm.trans h
  · cases hu.symm.trans h
    exact .inr hcomplete

/-- What performing a pending word can leave (R172, R181): a raised error, or a completed command. -/
theorem performPending_cases (h : performPending s = .next t) :
    (∃ e, t = s.latched e 0)
      ∨ ∃ i, decode s.cmd = .ok i
        ∧ ((∃ e, t = (s.spoilAll (failedOutputs s i)).latched e (errorOffset s i)) ∨ Completes s t i) := by
  rw [performPending, State.fetch] at h
  cases hd : decode s.cmd with
  | error r =>
    rw [hd] at h
    cases h
    exact .inl ⟨.illegalCommand, rfl⟩
  | ok i =>
    rw [hd] at h
    refine .inr ⟨i, rfl, ?_⟩
    rcases exec_next_cases h with ⟨e, ht, -⟩ | hcomplete
    · exact .inl ⟨e, ht⟩
    · exact .inr hcomplete

end

/-! ## Every output fits its buffer -/

@[simp] theorem length_freqTable (s : State) : s.freqTable.length = 256 := by simp [State.freqTable]

theorem length_le_of_readBuf {s : State} {b : Buf} {n lim : Nat} {bytes : List Byte} (h : s.readBuf b n = some bytes)
    (hn : n ≤ lim) : bytes.length ≤ lim := (length_of_readBuf h).trans_le hn

theorem length_rlcEnc_le_tokenMax {c : Config} {S : List Byte} (hS : S.length ≤ c.blockMax) :
    (rlcEnc S).length ≤ tokenMax c := (length_rlcEnc_le S).trans (Nat.mul_le_mul_left 2 hS)

theorem length_blockTokens_le_tokenMax {c : Config} {B : List Byte} (hB : B.length ≤ c.blockMax) :
    (blockTokens B).length ≤ tokenMax c := (length_blockTokens_le B).trans (Nat.mul_le_mul_left 2 hB)

theorem length_serializeFrame {lim : Nat} {rot : Word} {pad : Byte} {F : List Nat} {payload frame : List Byte}
    (h : serializeFrame lim rot pad F payload = .ok frame) :
    frame.length = 11 + 5 * card F + payload.length ∧ payload.length ≤ lim := by
  have hlim : payload.length ≤ lim := by
    by_contra hlong
    rw [serializeFrame, if_pos (Nat.lt_of_not_le hlong)] at h
    cases h
  refine ⟨?_, hlim⟩
  rcases serializeFrame_cases lim rot pad F payload with ⟨-, he⟩ | he | he | ⟨f, hf, hlen⟩
  · cases he.symm.trans h
  · cases he.symm.trans h
  · cases he.symm.trans h
  · cases hf.symm.trans h
    exact hlen

/-- A frame that a command serializes from 256 counts fits BUF_F (R12, R300). -/
theorem length_serializeFrame_le {c : Config} {rot : Word} {pad : Byte} {F : List Nat} {payload frame : List Byte}
    (hF : F.length = 256) (h : serializeFrame (payloadMax c) rot pad F payload = .ok frame) :
    frame.length ≤ frameMax c := by
  obtain ⟨hlen, hpayload⟩ := length_serializeFrame h
  have hcard := card_le F
  rw [payloadMax] at hpayload
  rw [frameMax]
  omega

theorem length_rlcDec_le {T S : List Byte} {lim : Nat} (h : rlcDec T lim = .ok S) : S.length ≤ lim := by
  rcases rlcDec_cases T lim with ⟨S', hS', hlen⟩ | he | he
  · cases hS'.symm.trans h
    exact hlen
  · cases he.symm.trans h
  · cases he.symm.trans h

theorem length_ecPack_le {code : Byte → List Bool} {lim : Nat} {T payload : List Byte} {pad : Nat}
    (h : ecPack code lim T = .ok (payload, pad)) : payload.length ≤ lim := by
  rcases ecPack_cases code lim T with ⟨payload', pad', hp, hlen, -⟩ | he | he
  · cases hp.symm.trans h
    exact hlen
  · cases he.symm.trans h
  · cases he.symm.trans h

theorem length_ecUnpack_le {tree : Option CodeTree} {F : List Nat} {lim : Nat} {payload T : List Byte} {pad : Nat}
    (h : ecUnpack tree F lim payload pad = .ok T) : T.length ≤ lim := by
  rcases ecUnpack_cases tree F lim payload pad with ⟨T', hT', hlen, -⟩ | ⟨-, he⟩ | he | he
  · cases hT'.symm.trans h
    exact hlen
  · cases he.symm.trans h
  · cases he.symm.trans h
  · cases he.symm.trans h

theorem frameBounds_of_deserializeFrame {lim : Nat} {w : List (Option Byte)} {fr : Frame}
    (h : deserializeFrame lim w = .ok (some fr)) : FrameBounds lim fr := by
  rcases deserializeFrame_cases lim w with ⟨-, he⟩ | ⟨fr', hfr, hb⟩ | ⟨e, -, he⟩ | ⟨-, he⟩
  · cases he.symm.trans h
  · cases hfr.symm.trans h
    exact hb
  · cases he.symm.trans h
  · cases he.symm.trans h

theorem lengths_of_decodeFrame {c : Config} {fr : Frame} {T R B : List Byte} (hfr : FrameBounds (payloadMax c) fr)
    (h : decodeFrame c fr = .ok (T, R, B)) :
    T.length ≤ tokenMax c ∧ R.length ≤ c.blockMax ∧ B.length = R.length := by
  rcases decodeFrame_cases c fr hfr with ⟨T', R', B', hd, hlen⟩ | ⟨e, -, he⟩
  · cases hd.symm.trans h
    exact hlen
  · cases he.symm.trans h

/-! ## What the operations of the state keep of the invariant -/

section
variable {s : State}

/-- The invariant says nothing of the operand registers, the enables and the model's own fields. -/
theorem Inv.setOperands (h : Inv s) (ctrl : Ctrl) (blkLen rotIdx tokLen payLen : Held Word) (padCnt : Held Byte)
    (inLen streamOffset : Word) (epoch : Nat) (hostQueue : List HostAction) (hostReads : List HostReading) :
    Inv { s with
      ctrl := ctrl, blkLen := blkLen, rotIdx := rotIdx, tokLen := tokLen, payLen := payLen, padCnt := padCnt
      inLen := inLen, streamOffset := streamOffset, epoch := epoch, hostQueue := hostQueue, hostReads := hostReads } :=
  { h with }

theorem Inv.ticked (h : Inv s) : Inv s.ticked := h.setOperands ..

theorem Inv.setMem (h : Inv s) {mem : Memory} (hmem : Memory.wf s.cfg mem = true) : Inv { s with mem := mem } :=
  { h with mem := hmem }

theorem Inv.writeBuf (h : Inv s) {b : Buf} {bytes : List Byte} (hfit : bytes.length ≤ bufCapacity s.cfg b) :
    Inv (s.writeBuf b bytes) := h.setMem (wf_memWriteBuf h.mem hfit)

theorem Inv.setRlist (h : Inv s) {l : List Byte} (hl : l.Perm identityList) : Inv { s with rlist := .val l } :=
  { h with rlist := fun _ hv => by cases hv; exact hl }

theorem Inv.setFreq (h : Inv s) {freq : List FreqEntry} (hlen : freq.length = 256) : Inv { s with freq := freq } :=
  { h with freq := hlen }

theorem Inv.writeFreq (h : Inv s) {F : List Nat} (hF : F.length = 256) : Inv (s.writeFreq F) :=
  h.setFreq (by rwa [List.length_map])

theorem toNat_ofNat_le {w n bound : Nat} (h : n ≤ bound) : (BitVec.ofNat w n).toNat ≤ bound := by
  rw [BitVec.toNat_ofNat]
  exact (Nat.mod_le ..).trans h

theorem Inv.setFreqCount (h : Inv s) {n : Nat} (hn : n ≤ 256) : Inv { s with freqCount := .val (BitVec.ofNat 32 n) } :=
  { h with freqCount := fun _ hv => by cases hv; exact toNat_ofNat_le hn }

theorem Inv.setFrameLen (h : Inv s) {n : Nat} (hn : n ≤ frameMax s.cfg) :
    Inv { s with frameLen := .val (BitVec.ofNat 32 n) } :=
  { h with frameLen := fun _ hv => by cases hv; exact toNat_ofNat_le hn }

theorem Inv.buildCodes (h : Inv s) {F : List Nat} (hF : F.length = 256) : Inv (s.buildCodes F) :=
  { h.setFreqCount (hF ▸ card_le F) with codes := .inl ⟨F, hF, rfl, rfl, rfl⟩ }

/-- A status without BUSY, and with ERR as it was, meets the invariant: that of a completion or a rejection. -/
theorem Inv.setIdle (h : Inv s) {status : Status} (hbusy : status.busy = false) (herr : status.err = s.status.err) :
    Inv { s with status := status } :=
  { h with
    noError := fun he => h.noError (herr.symm.trans he)
    error := fun he => h.error (herr.symm.trans he)
    quiet := fun hb => absurd hb (ne_true_of_eq_false hbusy)
    sticky := fun hb => absurd hb (ne_true_of_eq_false hbusy) }

theorem Inv.finished (h : Inv s) : Inv s.finished := h.setIdle rfl rfl

theorem Inv.errorCleared (h : Inv s) : Inv s.errorCleared :=
  { h with
    noError := fun _ => ⟨rfl, rfl⟩
    error := fun he => by cases he
    sticky := fun _ he => by cases he }

theorem Inv.latched (h : Inv s) (e : ErrorKind) (offset : Word) : Inv (s.latched e offset) :=
  { h with
    noError := fun he => by cases he
    error := fun _ he => by cases he
    quiet := fun hb => by cases hb
    sticky := fun hb => by cases hb }

/-! ### Raising an error -/

/-- An output set that holds TREE, CODELEN and CODE together or none of them. -/
def CodesTogether (outs : List Output) : Prop :=
  (Output.codeLen ∈ outs ↔ Output.tree ∈ outs) ∧ (Output.code ∈ outs ↔ Output.tree ∈ outs)

theorem codesTogether_outputSet (s : State) (known : Computed) (i : Instr) : CodesTogether (outputSet s known i) := by
  cases i <;> simp [CodesTogether, outputSet, prefixOf, wholeOf, rangeOf_eq]

theorem CodesCoherent.spoilAll (h : CodesCoherent s) {outs : List Output} (ho : CodesTogether outs) :
    CodesCoherent (s.spoilAll outs) := by
  obtain ⟨hlen, hcode⟩ := ho
  simp only [CodesCoherent, spoilAll_tree, spoilAll_codeLen, spoilAll_code, hlen, hcode]
  by_cases hm : Output.tree ∈ outs
  · simp [hm]
  · simp only [if_neg hm]
    exact h

/-- Making an output set UNSPECIFIED keeps the invariant (R184). -/
theorem Inv.spoilAll (h : Inv s) {outs : List Output} (hfit : Fits s.cfg outs) (ho : CodesTogether outs) :
    Inv (s.spoilAll outs) where
  cfg := by rw [spoilAll_cfg]; exact h.cfg
  mem := by rw [spoilAll_cfg]; exact wf_spoilAll outs h.mem
  undet b := by rw [spoilAll_cfg]; exact undet_spoilAll hfit h.undet b
  rlist l hl := by
    rw [spoilAll_rlist] at hl
    split at hl
    · cases hl
    · exact h.rlist l hl
  freq := by
    rw [spoilAll_freq]
    split
    · exact List.length_replicate
    · exact h.freq
  codes := h.codes.spoilAll ho
  freqCount v hv := by
    rw [spoilAll_freqCount] at hv
    split at hv
    · cases hv
    · exact h.freqCount v hv
  frameLen v hv := by
    rw [spoilAll_frameLen] at hv
    rw [spoilAll_cfg]
    split at hv
    · cases hv
    · exact h.frameLen v hv
  noError := by simpa using h.noError
  error := by simpa using h.error
  quiet := by simpa using h.quiet
  sticky := by simpa using h.sticky

theorem Inv.raised (h : Inv s) (i : Instr) (e : ErrorKind) :
    Inv ((s.spoilAll (failedOutputs s i)).latched e (errorOffset s i)) :=
  (h.spoilAll (fits_failedOutputs s i) (codesTogether_outputSet s _ i)).latched e _

/-! ### Completing a command -/

theorem Inv.writePayload (h : Inv s) {payload : List Byte} (pad : Nat) (hfit : payload.length ≤ payloadMax s.cfg) :
    Inv (s.writePayload payload pad) :=
  (h.writeBuf (b := .p) hfit).setOperands ..

theorem Inv.writeFrame (h : Inv s) {fr : Frame} (hfr : FrameBounds (payloadMax s.cfg) fr) : Inv (s.writeFrame fr) := by
  have hlen : fr.length ≤ frameMax s.cfg := by
    have hcount := hfr.count
    have hpayload := hfr.payload
    rw [hfr.length, frameMax]
    rw [payloadMax] at hpayload
    omega
  exact ((((h.writeBuf (b := .p) hfr.payload).writeFreq hfr.freq).setFreqCount hfr.count).setFrameLen hlen).setOperands ..

theorem Inv.compressToTokens (h : Inv s) {B : List Byte} (hB : B.length ≤ s.cfg.blockMax) :
    Inv (s.compressToTokens B) := by
  have hcolumn : (rt B).1.length ≤ s.cfg.blockMax := (rt_lengths B).1.trans_le hB
  have hranks : (mtfEnc (rt B).1).1.length ≤ s.cfg.blockMax := (length_mtfEnc _).trans_le hcolumn
  have hmem := wf_memWriteBuf (b := .t) (wf_memWriteBuf (b := .r) (wf_memWriteBuf (b := .c) h.mem hcolumn) hranks)
    (length_blockTokens_le_tokenMax hB)
  exact ((h.setMem hmem).setRlist (perm_mtfEnc (rt B).1)).setOperands ..

theorem Inv.writeDecoded (h : Inv s) {T R B : List Byte} (hT : T.length ≤ tokenMax s.cfg) (hR : R.length ≤ s.cfg.blockMax)
    (hB : B.length = R.length) : Inv (s.writeDecoded T R B) := by
  have hcolumn : (mtfDec R).1.length ≤ s.cfg.blockMax := (length_mtfDec R).trans_le hR
  have hmem := wf_memWriteBuf (b := .a) (wf_memWriteBuf (b := .c) (wf_memWriteBuf (b := .r) (wf_memWriteBuf (b := .t)
    h.mem hT) hR) hcolumn) (hB.trans_le hR)
  exact ((h.setMem hmem).setRlist (perm_mtfDec R)).setOperands ..

theorem Inv.emitFrame (h : Inv s) {frame : List Byte} (hfit : frame.length ≤ frameMax s.cfg) : Inv (s.emitFrame frame) :=
  ((h.writeBuf (b := .f) hfit).setFrameLen hfit).setOperands ..

/-- A command that completes keeps the invariant: every output fits its place (R105, R124). -/
theorem Inv.completes {t : State} {i : Instr} (h : Inv s) (ht : Completes s t i) : Inv t := by
  cases i with
  | nop => cases ht; exact h.finished
  | streamReset => cases ht; exact (h.setOperands ..).finished
  | clearError => cases ht; exact h.errorCleared.finished
  | ecBuild => cases ht; exact (h.buildCodes (length_freqTable s)).finished
  | rtFwd =>
    obtain ⟨hn, B, hB, rfl⟩ := ht
    have hfit : (rt B).1.length ≤ s.cfg.blockMax := (rt_lengths B).1.trans_le (length_le_of_readBuf hB hn)
    exact ((h.writeBuf (b := .c) hfit).setOperands ..).finished
  | rtInv =>
    obtain ⟨hn, C, B, hC, hB, rfl⟩ := ht
    have hfit : B.length ≤ s.cfg.blockMax := (rtInv_length hB).trans_le (length_le_of_readBuf hC hn)
    exact (h.writeBuf (b := .a) hfit).finished
  | rrtEnc =>
    obtain ⟨hn, S, hS, rfl⟩ := ht
    have hfit : (mtfEnc S).1.length ≤ s.cfg.blockMax := (length_mtfEnc S).trans_le (length_le_of_readBuf hS hn)
    exact ((h.writeBuf (b := .r) hfit).setRlist (perm_mtfEnc S)).finished
  | rrtDec =>
    obtain ⟨hn, R, hR, rfl⟩ := ht
    have hfit : (mtfDec R).1.length ≤ s.cfg.blockMax := (length_mtfDec R).trans_le (length_le_of_readBuf hR hn)
    exact ((h.writeBuf (b := .c) hfit).setRlist (perm_mtfDec R)).finished
  | rlcEnc =>
    obtain ⟨hn, S, hS, rfl⟩ := ht
    have hfit : (rlcEnc S).length ≤ tokenMax s.cfg := length_rlcEnc_le_tokenMax (length_le_of_readBuf hS hn)
    exact ((h.writeBuf (b := .t) hfit).setOperands ..).finished
  | rlcDec =>
    obtain ⟨-, T, S, -, hS, rfl⟩ := ht
    exact ((h.writeBuf (b := .r) (length_rlcDec_le hS)).setOperands ..).finished
  | ecCount =>
    obtain ⟨-, T, -, rfl⟩ := ht
    have hcard : card (hist T) ≤ 256 := length_hist T ▸ card_le (hist T)
    exact ((h.writeFreq (length_hist T)).setFreqCount hcard).finished
  | ecPack =>
    obtain ⟨-, T, payload, pad, -, hp, rfl⟩ := ht
    exact (h.writePayload pad (length_ecPack_le hp)).finished
  | ecUnpack =>
    obtain ⟨-, payload, T, -, hT, rfl⟩ := ht
    exact ((h.writeBuf (b := .t) (length_ecUnpack_le hT)).setOperands ..).finished
  | frameSer =>
    obtain ⟨-, payload, frame, -, hf, rfl⟩ := ht
    have hfit := length_serializeFrame_le (length_freqTable s) hf
    exact ((h.writeBuf (b := .f) hfit).setFrameLen hfit).finished
  | frameDes =>
    obtain ⟨-, r, hr, rfl⟩ := ht
    cases r with
    | none => exact (h.setFrameLen (n := 0) (Nat.zero_le _)).setIdle rfl rfl
    | some fr => exact (h.writeFrame (frameBounds_of_deserializeFrame hr)).finished
  | compressBlock =>
    obtain ⟨hn, B, payload, pad, frame, hB, hp, hf, rfl⟩ := ht
    have hfit : frame.length ≤ frameMax s.cfg := by
      split at hf
      · subst hf; exact Nat.zero_le _
      · exact length_serializeFrame_le (length_hist _) hf
    have htokens := ((h.compressToTokens (length_le_of_readBuf hB hn)).writeFreq (length_hist (blockTokens B))).buildCodes
      (length_hist (blockTokens B))
    exact ((htokens.writePayload pad (length_ecPack_le hp)).emitFrame hfit).finished
  | decompressFrame =>
    obtain ⟨-, r, hr, ht⟩ := ht
    cases r with
    | none => cases ht; exact (h.setFrameLen (n := 0) (Nat.zero_le _)).setIdle rfl rfl
    | some fr =>
      obtain ⟨T, R, B, hd, rfl⟩ := ht
      have hfr := frameBounds_of_deserializeFrame hr
      obtain ⟨hT, hR, hB⟩ := lengths_of_decodeFrame hfr hd
      exact ((((h.writeFrame hfr).buildCodes hfr.freq).writeDecoded hT hR hB).setOperands ..).finished

theorem Inv.performPending {t : State} (h : Inv s) (ht : performPending s = .next t) : Inv t := by
  rcases performPending_cases ht with ⟨e, rfl⟩ | ⟨i, -, ⟨e, rfl⟩ | hc⟩
  · exact h.latched e 0
  · exact h.raised i e
  · exact h.completes hc

/-! ### Host writes -/

theorem Inv.violated (h : Inv s) : Inv s.violated := { h with }

theorem Inv.blockReset (h : Inv s) : Inv s.blockReset := (resetMeetsTheInvariant s.cfg h.cfg).setOperands ..

/-- Issue of a word keeps the invariant: under an error every word but NOP's and CLEAR_ERROR's is rejected (R171). -/
theorem Inv.issue (h : Inv s) (hb : s.status.busy = false) (w : Word) : Inv (s.issue w) := by
  have hcmd : Inv { s with cmd := w } := { h with sticky := fun hbusy => absurd hbusy (ne_true_of_eq_false hb) }
  unfold State.issue
  split
  · exact hcmd.setIdle hb rfl
  · rename_i haccept
    have hword : s.status.err = true → w = 0x00000000 ∨ w = 0x00000010 := by
      simpa [Classical.or_iff_not_imp_left] using haccept
    exact { hcmd with
      quiet := fun _ => ⟨rfl, rfl⟩
      sticky := fun _ herr => hword herr }

theorem Inv.storeOperand (h : Inv s) (r : RegName) (v : Word) : Inv (s.storeOperand r v) := by
  cases r <;> exact h.setOperands ..

theorem Inv.writeCtrl (h : Inv s) (v : Word) : Inv (s.writeCtrl v) := by
  unfold State.writeCtrl
  split
  · exact h.blockReset
  · exact h.setOperands ..

theorem Inv.statusCleared (h : Inv s) (v : Word) : Inv { s with status := statusCleared s.status v } :=
  { h with quiet := fun hb => ⟨by simp [Sys2Proof.Machine.statusCleared, (h.quiet hb).1], (h.quiet hb).2⟩ }

theorem Inv.writeReg (h : Inv s) (r : RegName) (v : Word) : Inv (s.writeReg r v) := by
  rcases writeReg_cases s r v with heq | ⟨-, heq⟩ | ⟨-, heq⟩ | ⟨-, heq⟩ | ⟨hb, -, heq⟩ | ⟨-, heq⟩ <;> rw [heq]
  · exact h
  · exact h.violated
  · exact h.writeCtrl v
  · exact h.statusCleared v
  · exact h.issue hb v
  · exact h.storeOperand r v

theorem Inv.pokeBytes (h : Inv s) (a : Nat) (bytes : List Byte) : Inv (s.pokeBytes a bytes) := by
  obtain ⟨hmem, hfreq, heq⟩ := pokeBytes_keeps bytes s a h.mem
  rw [heq]
  exact (h.setMem hmem).setFreq (hfreq.trans h.freq)

theorem Inv.memWrite (h : Inv s) (a : Nat) (w : Width) (v : Word) : Inv (s.memWrite a w v) := by
  rcases memWrite_cases s a w v with heq | ⟨r, -, -, heq⟩ | ⟨-, heq⟩ | ⟨-, bytes, heq⟩ <;> rw [heq]
  · exact h
  · exact h.writeReg r v
  · exact h.violated
  · exact h.pokeBytes a bytes

end

/-! ## A command's input -/

section
variable {s : State} {i : Instr} {b : Buf} {n : Nat}

/-- A command other than the two that read frames reads its whole input range before anything else, once its length check passes:
a byte with NO VALUE there is its fault (R20, R106). -/
theorem exec_fault (hin : inputRange s i = some (b, n)) (hlen : n ≤ bufCapacity s.cfg b) (hbuf : b ≠ .f)
    (hread : s.readBuf b n = none) : exec i s = .fault (.noValueRead b) := by
  have hcheck := Nat.not_lt.2 hlen
  cases i <;> cases hin
  case frameDes | decompressFrame => exact absurd rfl hbuf
  all_goals exact (if_neg hcheck).trans (by rw [hread])

/-- With a value in every input byte whose length check passes, no input byte has NO VALUE (R391). -/
theorem cell_ne_none_of_inputsReady (hready : inputsReady s i = true) (hin : inputRange s i = some (b, n))
    (hlen : n ≤ bufCapacity s.cfg b) {j : Nat} (hj : j < n) : s.cell b j ≠ none := by
  have hok : lengthOk s i = true := by simp [lengthOk, hin, hlen]
  simp only [inputsReady, hin, hok, Bool.not_true, Bool.false_or, List.all_eq_true, List.mem_range] at hready
  exact Option.isSome_iff_ne_none.1 (hready j hj)

end

/-! ## What a command that completes leaves unchanged -/

section
variable {named : Output → Bool} {stored : Buf → Nat} {s t : State}

theorem ChangesOnly.refl (named : Output → Bool) (stored : Buf → Nat) (s : State) : ChangesOnly named stored s s where
  cfg := rfl
  ctrl := rfl
  cmd := rfl
  inLen := rfl
  rotIdx := .inr rfl
  blkLen := .inr rfl
  tokLen := .inr rfl
  payLen := .inr rfl
  padCnt := .inr rfl
  freqCount := .inr rfl
  frameLen := .inr rfl
  rlist := .inr rfl
  freq := .inr rfl
  codeLen := .inr rfl
  code := .inr rfl
  tree := .inr rfl
  cells := fun _ _ _ _ => rfl
  epoch := rfl
  hostQueue := rfl
  hostReads := rfl

/-- STATUS, ERR_CODE, ERR_OFFSET and STREAM_OFFSET are left open. -/
theorem ChangesOnly.setControl (h : ChangesOnly named stored s t) (status : Status) (errCode : Option ErrorKind)
    (errOffset streamOffset : Word) :
    ChangesOnly named stored s
      { t with status := status, errCode := errCode, errOffset := errOffset, streamOffset := streamOffset } :=
  { h with }

theorem ChangesOnly.finished (h : ChangesOnly named stored s t) : ChangesOnly named stored s t.finished := h.setControl ..

theorem ChangesOnly.buildCodes (h : ChangesOnly named stored s t) (htree : named .tree = true)
    (hlen : named .codeLen = true) (hcode : named .code = true) (hcount : named .freqCount = true) (F : List Nat) :
    ChangesOnly named stored s (t.buildCodes F) :=
  { h with tree := .inl htree, codeLen := .inl hlen, code := .inl hcode, freqCount := .inl hcount }

/-- The cells of the buffers beyond what is stored do not change where a memory lists them alike. -/
theorem ChangesOnly.setMem (h : ChangesOnly named stored s t) {mem : Memory}
    (hmem : ∀ b i, stored b ≤ i → i < bufCapacity s.cfg b → memGet mem (bufBase b + i) = memGet t.mem (bufBase b + i)) :
    ChangesOnly named stored s { t with mem := mem } :=
  { h with
    cells := fun b i hout hi => by
      rw [← h.cells b i hout hi, State.cell, State.cell, hmem b i hout hi] }

/-- A store to a buffer leaves the listed value of every buffer byte it does not cover. -/
theorem memGet_memWriteBuf_of_le {c : Config} (hc : c.Legal) {m : Memory} {b b' : Buf} {bytes : List Byte} {i : Nat}
    (hfit : bytes.length ≤ bufCapacity c b) (hcover : bytes.length ≤ stored b) (hout : stored b' ≤ i)
    (hi : i < bufCapacity c b') : memGet (memWriteBuf m b bytes) (bufBase b' + i) = memGet m (bufBase b' + i) := by
  rw [memGet_memWriteBuf hc hfit hi, if_neg]
  rintro ⟨rfl, hin⟩
  omega

theorem ChangesOnly.writeBuf (h : ChangesOnly named stored s t) (hc : s.cfg.Legal) {b : Buf} {bytes : List Byte}
    (hfit : bytes.length ≤ bufCapacity s.cfg b) (hcover : bytes.length ≤ stored b) :
    ChangesOnly named stored s (t.writeBuf b bytes) :=
  h.setMem fun _ _ hout hi => memGet_memWriteBuf_of_le hc hfit hcover hout hi

theorem ChangesOnly.writeFreq (h : ChangesOnly named stored s t) (hfreq : named .freq = true) (F : List Nat) :
    ChangesOnly named stored s (t.writeFreq F) := { h with freq := .inl hfreq }

theorem ChangesOnly.writePayload (h : ChangesOnly named stored s t) (hc : s.cfg.Legal) (hlen : named .payLen = true)
    (hpad : named .padCnt = true) {payload : List Byte} (pad : Nat) (hfit : payload.length ≤ payloadMax s.cfg)
    (hcover : payload.length ≤ stored .p) : ChangesOnly named stored s (t.writePayload payload pad) :=
  { h.writeBuf hc (b := .p) hfit hcover with payLen := .inl hlen, padCnt := .inl hpad }

theorem ChangesOnly.emitFrame (h : ChangesOnly named stored s t) (hc : s.cfg.Legal) (hlen : named .frameLen = true)
    {frame : List Byte} (hfit : frame.length ≤ frameMax s.cfg) (hcover : frame.length ≤ stored .f) :
    ChangesOnly named stored s (t.emitFrame frame) :=
  { h.writeBuf hc (b := .f) hfit hcover with frameLen := .inl hlen }

theorem ChangesOnly.writeFrame (h : ChangesOnly named stored s t) (hc : s.cfg.Legal)
    (hnamed : ∀ o ∈ [Output.rotIdx, .padCnt, .freq, .freqCount, .payLen, .frameLen], named o = true) {fr : Frame}
    (hfit : fr.payload.length ≤ payloadMax s.cfg) (hcover : fr.payload.length ≤ stored .p) :
    ChangesOnly named stored s (t.writeFrame fr) :=
  { h.writeBuf hc (b := .p) hfit hcover with
    rotIdx := .inl (hnamed _ (by simp)), padCnt := .inl (hnamed _ (by simp)), freq := .inl (hnamed _ (by simp))
    freqCount := .inl (hnamed _ (by simp)), payLen := .inl (hnamed _ (by simp)), frameLen := .inl (hnamed _ (by simp)) }

theorem ChangesOnly.compressToTokens (h : ChangesOnly named stored s t) (hc : s.cfg.Legal)
    (hnamed : ∀ o ∈ [Output.rotIdx, .rlist, .tokLen], named o = true) {B : List Byte} (hB : B.length ≤ s.cfg.blockMax)
    (hcolumn : B.length ≤ stored .c) (hranks : B.length ≤ stored .r) (htokens : (blockTokens B).length ≤ stored .t) :
    ChangesOnly named stored s (t.compressToTokens B) := by
  have hC : (rt B).1.length = B.length := (rt_lengths B).1
  have hR : (mtfEnc (rt B).1).1.length = B.length := (length_mtfEnc _).trans hC
  have hmem (b : Buf) (i : Nat) (hout : stored b ≤ i) (hi : i < bufCapacity s.cfg b) :
      memGet (t.compressToTokens B).mem (bufBase b + i) = memGet t.mem (bufBase b + i) := by
    rw [compressToTokens_mem, memGet_memWriteBuf_of_le (b := .t) hc (length_blockTokens_le_tokenMax hB) htokens hout hi,
      memGet_memWriteBuf_of_le (b := .r) hc (hR.trans_le hB) (hR.trans_le hranks) hout hi,
      memGet_memWriteBuf_of_le (b := .c) hc (hC.trans_le hB) (hC.trans_le hcolumn) hout hi]
  exact { h.setMem hmem with
    rotIdx := .inl (hnamed _ (by simp)), rlist := .inl (hnamed _ (by simp)), tokLen := .inl (hnamed _ (by simp)) }

theorem ChangesOnly.writeDecoded (h : ChangesOnly named stored s t) (hc : s.cfg.Legal)
    (hnamed : ∀ o ∈ [Output.tokLen, .blkLen, .rlist], named o = true) {T R B : List Byte} (hT : T.length ≤ tokenMax s.cfg)
    (hR : R.length ≤ s.cfg.blockMax) (hB : B.length = R.length) (htokens : T.length ≤ stored .t)
    (hblock : ∀ b ∈ [Buf.r, .c, .a], R.length ≤ stored b) : ChangesOnly named stored s (t.writeDecoded T R B) := by
  have hC : (mtfDec R).1.length = R.length := length_mtfDec R
  have hmem (b : Buf) (i : Nat) (hout : stored b ≤ i) (hi : i < bufCapacity s.cfg b) :
      memGet (t.writeDecoded T R B).mem (bufBase b + i) = memGet t.mem (bufBase b + i) := by
    rw [writeDecoded_mem,
      memGet_memWriteBuf_of_le (b := .a) hc (hB.trans_le hR) (hB.trans_le (hblock _ (by simp))) hout hi,
      memGet_memWriteBuf_of_le (b := .c) hc (hC.trans_le hR) (hC.trans_le (hblock _ (by simp))) hout hi,
      memGet_memWriteBuf_of_le (b := .r) hc hR (hblock _ (by simp)) hout hi,
      memGet_memWriteBuf_of_le (b := .t) hc hT htokens hout hi]
  exact { h.setMem hmem with
    tokLen := .inl (hnamed _ (by simp)), blkLen := .inl (hnamed _ (by simp)), rlist := .inl (hnamed _ (by simp)) }

end

section
variable {s t : State}

@[simp] theorem onlyIn_self (b : Buf) (n : Nat) : onlyIn b n b = n := if_pos rfl

theorem inputBytes_eq (i : Instr) {b : Buf} {n : Nat} {bytes : List Byte} (hin : inputRange s i = some (b, n))
    (hread : s.readBuf b n = some bytes) : inputBytes s i = bytes := by
  rw [inputBytes, hin]
  simp [hread]

theorem windowFrame_eq {r : Option Frame}
    (h : deserializeFrame (payloadMax s.cfg) (s.bufWindow .f s.inLen.toNat) = .ok r) : windowFrame s = r := by
  rw [windowFrame, h]

/-- The codes of a table of counts do not depend on the rest of the state. -/
theorem codeOf_buildCodes (s t : State) (F : List Nat) : (s.buildCodes F).codeOf = (t.buildCodes F).codeOf := rfl

/-- The outputs R124 names for a command. -/
def namedOutputs (s : State) (i : Instr) (o : Output) : Bool := (outputSet s .nothing i).contains o

/-- COMPRESS_BLOCK changes its outputs and the bytes its stages store (R321). -/
theorem changesOnly_compressBlock (hc : s.cfg.Legal) (ht : Completes s t .compressBlock) :
    ChangesOnly (namedOutputs s .compressBlock) (storedLength s .compressBlock) s t := by
  obtain ⟨hn, B, payload, pad, frame, hB, hp, hf, rfl⟩ := ht
  have hpayload : blockPayload s B = payload := by
    rw [blockPayload, codeOf_buildCodes s ((s.compressToTokens B).writeFreq (hist (blockTokens B))), hp]
    rfl
  have hframe : frame.length = compressStores s B .f ∧ frame.length ≤ frameMax s.cfg := by
    rw [compressStores, length_of_readBuf hB, hpayload]
    split at hf
    · subst hf
      rw [if_pos ‹_›]
      exact ⟨rfl, Nat.zero_le _⟩
    · rw [if_neg ‹_›]
      exact ⟨(length_serializeFrame hf).1, length_serializeFrame_le (length_hist _) hf⟩
  have hstored : storedLength s .compressBlock = compressStores s B :=
    congrArg (compressStores s) (inputBytes_eq .compressBlock rfl hB)
  rw [hstored]
  have htokens := (ChangesOnly.refl (namedOutputs s .compressBlock) (compressStores s B) s).compressToTokens (B := B) hc
    (fun o ho => by fin_cases ho <;> rfl) (length_le_of_readBuf hB hn) (le_refl _) (le_refl _) (le_refl _)
  have hcodes := (htokens.writeFreq rfl (hist (blockTokens B))).buildCodes rfl rfl rfl rfl (hist (blockTokens B))
  have hpacked := hcodes.writePayload hc rfl rfl pad (length_ecPack_le hp) (congrArg List.length hpayload).ge
  exact (hpacked.emitFrame hc rfl hframe.2 hframe.1.le).finished

/-- DECOMPRESS_FRAME changes its outputs and the bytes its stages store (R322). -/
theorem changesOnly_decompressFrame (hc : s.cfg.Legal) (ht : Completes s t .decompressFrame) :
    ChangesOnly (namedOutputs s .decompressFrame) (storedLength s .decompressFrame) s t := by
  obtain ⟨-, r, hr, ht⟩ := ht
  have hwindow := windowFrame_eq hr
  have hstart := ChangesOnly.refl (namedOutputs s .decompressFrame) (storedLength s .decompressFrame) s
  cases r with
  | none => cases ht; exact { hstart with frameLen := .inl rfl }
  | some fr =>
    obtain ⟨T, R, B, hd, rfl⟩ := ht
    have hfr := frameBounds_of_deserializeFrame hr
    obtain ⟨hT, hR, hB⟩ := lengths_of_decodeFrame hfr hd
    have hdecoded : windowDecoded s = (T, R, B) := by
      rw [windowDecoded, hwindow]
      simp only [hd]
    have hpayload : storedLength s .decompressFrame .p = fr.payload.length := by
      simp [storedLength, decompressStores, hwindow]
    have htokens : storedLength s .decompressFrame .t = T.length := by
      simp [storedLength, decompressStores, hdecoded]
    have hblock : ∀ b ∈ [Buf.r, .c, .a], R.length ≤ storedLength s .decompressFrame b := by
      simp [storedLength, decompressStores, hdecoded]
    have hframe := hstart.writeFrame hc (fun o ho => by fin_cases ho <;> rfl) hfr.payload hpayload.ge
    have hcodes := hframe.buildCodes rfl rfl rfl rfl fr.freq
    exact ((hcodes.writeDecoded hc (fun o ho => by fin_cases ho <;> rfl) hT hR hB htokens.ge hblock).setControl ..).finished

/-- A command that completes changes only the outputs R124 names for it and the buffer bytes it stores (R105). -/
theorem Completes.changesOnly {i : Instr} (hc : s.cfg.Legal) (ht : Completes s t i) :
    ChangesOnly (namedOutputs s i) (storedLength s i) s t := by
  have hstart := ChangesOnly.refl (namedOutputs s i) (storedLength s i) s
  cases i with
  | nop => cases ht; exact hstart.finished
  | streamReset => cases ht; exact (hstart.setControl ..).finished
  | clearError => cases ht; exact hstart.setControl ..
  | ecBuild => cases ht; exact (hstart.buildCodes rfl rfl rfl rfl _).finished
  | rtFwd =>
    obtain ⟨hn, B, hB, rfl⟩ := ht
    have hfit : (rt B).1.length ≤ s.cfg.blockMax := (rt_lengths B).1.trans_le (length_le_of_readBuf hB hn)
    have hcover : (rt B).1.length ≤ storedLength s .rtFwd .c := by simp [storedLength, inputBytes_eq .rtFwd rfl hB]
    exact ChangesOnly.finished { hstart.writeBuf hc (b := .c) hfit hcover with rotIdx := .inl rfl }
  | rtInv =>
    obtain ⟨hn, C, B, hC, hB, rfl⟩ := ht
    have hfit : B.length ≤ s.cfg.blockMax := (rtInv_length hB).trans_le (length_le_of_readBuf hC hn)
    have hcover : B.length ≤ storedLength s .rtInv .a := by simp [storedLength, inputBytes_eq .rtInv rfl hC, hB, bytesOf]
    exact (hstart.writeBuf hc (b := .a) hfit hcover).finished
  | rrtEnc =>
    obtain ⟨hn, S, hS, rfl⟩ := ht
    have hfit : (mtfEnc S).1.length ≤ s.cfg.blockMax := (length_mtfEnc S).trans_le (length_le_of_readBuf hS hn)
    have hcover : (mtfEnc S).1.length ≤ storedLength s .rrtEnc .r := by simp [storedLength, inputBytes_eq .rrtEnc rfl hS]
    exact ChangesOnly.finished { hstart.writeBuf hc (b := .r) hfit hcover with rlist := .inl rfl }
  | rrtDec =>
    obtain ⟨hn, R, hR, rfl⟩ := ht
    have hfit : (mtfDec R).1.length ≤ s.cfg.blockMax := (length_mtfDec R).trans_le (length_le_of_readBuf hR hn)
    have hcover : (mtfDec R).1.length ≤ storedLength s .rrtDec .c := by simp [storedLength, inputBytes_eq .rrtDec rfl hR]
    exact ChangesOnly.finished { hstart.writeBuf hc (b := .c) hfit hcover with rlist := .inl rfl }
  | rlcEnc =>
    obtain ⟨hn, S, hS, rfl⟩ := ht
    have hfit : (rlcEnc S).length ≤ tokenMax s.cfg := length_rlcEnc_le_tokenMax (length_le_of_readBuf hS hn)
    have hcover : (rlcEnc S).length ≤ storedLength s .rlcEnc .t := by simp [storedLength, inputBytes_eq .rlcEnc rfl hS]
    exact ChangesOnly.finished { hstart.writeBuf hc (b := .t) hfit hcover with tokLen := .inl rfl }
  | rlcDec =>
    obtain ⟨-, T, S, hT, hS, rfl⟩ := ht
    have hcover : S.length ≤ storedLength s .rlcDec .r := by simp [storedLength, inputBytes_eq .rlcDec rfl hT, hS, bytesOf]
    exact ChangesOnly.finished { hstart.writeBuf hc (b := .r) (length_rlcDec_le hS) hcover with blkLen := .inl rfl }
  | ecCount =>
    obtain ⟨-, T, -, rfl⟩ := ht
    exact ChangesOnly.finished { hstart.writeFreq rfl (hist T) with freqCount := .inl rfl }
  | ecPack =>
    obtain ⟨-, T, payload, pad, hT, hp, rfl⟩ := ht
    have hcover : payload.length ≤ storedLength s .ecPack .p := by
      simp [storedLength, inputBytes_eq .ecPack rfl hT, hp, payloadOf]
    exact (hstart.writePayload hc rfl rfl pad (length_ecPack_le hp) hcover).finished
  | ecUnpack =>
    obtain ⟨-, payload, T, hp, hT, rfl⟩ := ht
    have hcover : T.length ≤ storedLength s .ecUnpack .t := by simp [storedLength, inputBytes_eq .ecUnpack rfl hp, hT, bytesOf]
    exact ChangesOnly.finished { hstart.writeBuf hc (b := .t) (length_ecUnpack_le hT) hcover with tokLen := .inl rfl }
  | frameSer =>
    obtain ⟨-, payload, frame, hp, hf, rfl⟩ := ht
    have hfit : frame.length ≤ frameMax s.cfg := length_serializeFrame_le (length_freqTable s) hf
    have hcover : frame.length ≤ storedLength s .frameSer .f := by
      simp [storedLength, inputBytes_eq .frameSer rfl hp, hf, bytesOf]
    exact ChangesOnly.finished { hstart.writeBuf hc (b := .f) hfit hcover with frameLen := .inl rfl }
  | frameDes =>
    obtain ⟨-, r, hr, rfl⟩ := ht
    cases r with
    | none => exact { hstart with frameLen := .inl rfl }
    | some fr =>
      have hcover : fr.payload.length ≤ storedLength s .frameDes .p := by simp [storedLength, windowFrame_eq hr]
      exact (hstart.writeFrame hc (fun o ho => by fin_cases ho <;> rfl) (frameBounds_of_deserializeFrame hr).payload
        hcover).finished
  | compressBlock => exact changesOnly_compressBlock hc ht
  | decompressFrame => exact changesOnly_decompressFrame hc ht

/-- Which flags and control registers a command that completes changes (R174, R179, R180, R313, R320). -/
theorem Completes.control {i : Instr} (ht : Completes s t i) :
    t.status.rej = (if i = .clearError then false else s.status.rej) ∧ t.status.busyViol = s.status.busyViol
      ∧ (i ≠ .frameDes → i ≠ .decompressFrame → t.status.endOfStream = s.status.endOfStream)
      ∧ (i ≠ .compressBlock → i ≠ .decompressFrame → i ≠ .streamReset → t.streamOffset = s.streamOffset)
      ∧ (i ≠ .clearError → t.errCode = s.errCode ∧ t.errOffset = s.errOffset) := by
  cases i with
  | nop => cases ht; simp
  | streamReset => cases ht; simp
  | clearError => cases ht; simp
  | ecBuild => cases ht; simp
  | rtFwd => obtain ⟨-, B, -, rfl⟩ := ht; simp
  | rtInv => obtain ⟨-, C, B, -, -, rfl⟩ := ht; simp
  | rrtEnc => obtain ⟨-, S, -, rfl⟩ := ht; simp
  | rrtDec => obtain ⟨-, R, -, rfl⟩ := ht; simp
  | rlcEnc => obtain ⟨-, S, -, rfl⟩ := ht; simp
  | rlcDec => obtain ⟨-, T, S, -, -, rfl⟩ := ht; simp
  | ecCount => obtain ⟨-, T, -, rfl⟩ := ht; simp
  | ecPack => obtain ⟨-, T, payload, pad, -, -, rfl⟩ := ht; simp
  | ecUnpack => obtain ⟨-, payload, T, -, -, rfl⟩ := ht; simp
  | frameSer => obtain ⟨-, payload, frame, -, -, rfl⟩ := ht; simp
  | frameDes => obtain ⟨-, r, -, rfl⟩ := ht; cases r <;> simp
  | compressBlock => obtain ⟨-, B, payload, pad, frame, -, -, -, rfl⟩ := ht; simp
  | decompressFrame =>
    obtain ⟨-, r, -, ht⟩ := ht
    cases r with
    | none => cases ht; simp
    | some fr => obtain ⟨T, R, B, -, rfl⟩ := ht; simp

/-- A command that answers a next state without an error has completed. -/
theorem completes_of_exec {i : Instr} (h : exec i s = .next t) (herr : t.status.err = false) : Completes s t i := by
  rcases exec_next_cases h with ⟨e, rfl, -⟩ | hcomplete
  · cases herr
  · exact hcomplete

end

/-! ## The obligations on the window, the storage and what commands leave unchanged -/

/-- Settles O59: a step does nothing to the block, writes, resets or performs a command, and each keeps the invariant. -/
theorem everyStepKeepsTheInvariant : Obligations.EveryStepKeepsTheInvariant := by
  intro s t h hstep
  rcases step_cases hstep with ⟨queue, reads, rfl⟩ | ⟨a, w, v, rest, -, rfl⟩ | ⟨rest, -, rfl⟩ | ⟨-, queue, u, hu, rfl⟩
  · exact h.setOperands ..
  · have hq : Inv { s with hostQueue := rest } := h.setOperands ..
    exact (hq.memWrite a w v).ticked
  · have hq : Inv { s with hostQueue := rest } := h.setOperands ..
    exact hq.blockReset.ticked
  · have hq : Inv { s with hostQueue := queue } := h.setOperands ..
    exact (hq.performPending hu).ticked

/-- Settles O14: the write stores its bytes in the buffer, and what the cells then hold gives the read. -/
theorem bufferWriteReadsBack : Obligations.BufferWriteReadsBack := by
  intro s b i w v hc hb hmod hfit
  have hwrite := memWrite_buf v hc hb hmod hfit
  have hcell : ∀ j < widthBytes w,
      (s.memWrite (bufBase b + i) w v).cell b (i + j) = some (.val (valueByte v (widthBytes w) j)) := by
    intro j hj
    rw [cell_memWrite_buf v hc hb hmod hfit (by omega), if_pos ⟨rfl, by omega, by omega⟩, Nat.add_sub_cancel_left]
  have hcfg : (s.memWrite (bufBase b + i) w v).cfg = s.cfg := by rw [hwrite]
  have hbusy : (s.memWrite (bufBase b + i) w v).status.busy = false := by rw [hwrite]; exact hb
  refine ⟨memRead_buf v (hcfg ▸ hc) hbusy hmod (hcfg ▸ hfit) hcell, hcell, fun b' i' hout hi' => ?_, by rw [hwrite]⟩
  rw [cell_memWrite_buf v hc hb hmod hfit hi', if_neg hout]

/-- Settles O16: reads by the place of each byte, and a write to FREQ as bytes stored to one entry. -/
theorem tablesReadByteByByteAndOnlyFreqTakesWrites : Obligations.TablesReadByteByByteAndOnlyFreqTakesWrites := by
  intro s hb hlen
  have hcode (sym j : Nat) (hsym : sym < 256) (hj : j < 32) :
      s.memRead (0x4000 + 32 * sym + j) .w1 = (codeByte (s.codeAt sym) j).setWidth 32 := by
    rw [memRead_byte hb (by omega) (by omega), State.byteAt, place_code s.cfg hsym hj]
    rfl
  refine ⟨fun i hi => ?_, fun sym hsym => ?_, fun sym hsym => memRead_freq hb hsym,
    fun sym hsym j hj => ⟨?_, fun k hk => ?_⟩, fun a ha hend => ⟨fun hmod => ?_, fun hmod => ?_⟩, fun a w v ha => ?_,
    fun sym j w v hsym hmod hfit => ?_⟩
  · rw [memRead_byte hb (by omega) (by omega), State.byteAt, place_rlist s.cfg hi]
    rfl
  · rw [memRead_byte hb (by omega) (by omega), State.byteAt, place_codeLen s.cfg hsym]
    rfl
  · have := (codeByte (s.codeAt sym) j).isLt
    rw [hcode sym j hsym hj, BitVec.toNat_setWidth]
    omega
  · rw [hcode sym j hsym hj, BitVec.getLsbD_setWidth, codeByte_getLsbD _ _ hk, decide_eq_true (by omega), Bool.true_and]
  · exact toNat_memRead_double (half := .w1) hb rfl ha hend hmod
  · exact toNat_memRead_double (half := .w2) hb rfl ha hend hmod
  · exact memWrite_readOnly v hb (by omega) (readOnlyPlace_place s.cfg ha)
  · have hread (other k : Nat) (hk : k < 4) := freqByteAt_memWrite (other := other) v hb hlen hsym hmod hfit hk
    refine ⟨fun k hk => ?_, ?_, fun other k hk hout => ?_, ?_⟩
    · rw [hread sym (j + k) (by omega), if_pos ⟨rfl, by omega, by omega⟩, Nat.add_sub_cancel_left]
      rfl
    · rintro rfl
      obtain rfl : j = 0 := by simp only [widthBytes] at hfit; omega
      exact freqAt_memWrite v hb hlen hsym
    · rw [hread other k hk, if_neg hout]
    · rw [memWrite_freq v hb hsym hmod hfit]
      exact pokeBytes_freq _ hsym s j (by simpa using hfit)

/-- Settles O51: of what a command can do, only the fault is no next state, and it needs an input byte with NO VALUE. -/
theorem commandsStopOnlyOnBytesWithoutValue : Obligations.CommandsStopOnlyOnBytesWithoutValue := by
  refine fun i s => ⟨fun hready => ?_, fun b n hin hlen hbuf hnone => exec_fault hin hlen hbuf (readBuf_eq_none.2 hnone)⟩
  rcases exec_cases i s with ⟨e, hraise, -⟩ | ⟨b, n, hin, hlen, ⟨j, hj, hnone⟩, -⟩ | ⟨t, ht, -⟩
  · exact ⟨_, hraise⟩
  · exact absurd hnone (cell_ne_none_of_inputsReady hready hin hlen hj)
  · exact ⟨t, ht⟩

/-- Settles O52: a command without an error has completed, and completion changes only its outputs. -/
theorem successChangesOnlyTheOutputs : Obligations.SuccessChangesOnlyTheOutputs := by
  intro i s t hc _ hexec herr
  have ht := completes_of_exec hexec herr
  exact ⟨ht.changesOnly hc, ht.control⟩

/-- Settles O6: each clause is the turn of the action that stands first in the queue. -/
theorem hostActionsReadWriteAndReset : Obligations.HostActionsReadWriteAndReset := by
  intro s rest
  have hstatus : s.memRead 0x20 .w4 = s.statusWord := memRead_regOffset (r := .status) (.inr rfl)
  have hpoll : (s.memRead 0x20 .w4).getLsbD 0 = s.status.busy := by
    rw [hstatus]
    exact statusWord_getLsbD s 0
  refine ⟨fun a w hq => step_action hq, fun a w v hq => ?_, fun hq => step_action hq, fun polls hq => ?_⟩
  · rw [step_action hq, hostTurn, State.ticked, memWrite_epoch]
  have hturn : step s = waitTurn polls { s with hostQueue := rest } := step_action hq
  refine ⟨fun hb => ⟨hpoll.trans hb, ?_⟩, ?_⟩
  · rw [hturn, waitTurn_idle (s := { s with hostQueue := rest }) polls hb]
    rfl
  · rintro more rfl hb
    refine ⟨hpoll.trans hb, ?_⟩
    rw [hturn, waitTurn_poll (s := { s with hostQueue := rest }) more hb]
    rfl

/-- Settles O8: by alignment, then registers by their class and the rest by the place addressed. -/
theorem busyWritesAreDropped : Obligations.BusyWritesAreDropped := by
  intro s a w v hb hother
  have aligned_reg (ha : a ≤ 0x4C) (hmod : a % 4 = 0) : aligned a (widthBytes .w4) = true :=
    aligned_iff.2 ⟨hmod, by simp only [widthBytes]; omega⟩
  cases hal : aligned a (widthBytes w) with
  | false =>
    rw [memWrite_misaligned v hal, if_neg]
    rintro (⟨-, ha, hmod, rfl⟩ | ⟨hal', -⟩)
    · exact absurd (aligned_reg ha hmod) (ne_true_of_eq_false hal)
    · cases hal'
  | true =>
    rcases Nat.lt_or_ge a 0x1000 with ha | ha
    · have hlow : ¬ 0x1000 ≤ a := Nat.not_le.2 ha
      by_cases hw : w = .w4
      · subst hw
        have hmod : a % 4 = 0 := (aligned_iff.1 hal).1
        rcases Nat.lt_or_ge 0x4C a with hhigh | hle
        · rw [(access_noRegister s .w4 v ha (regAt_eq_none (by omega))).2, if_neg (by omega)]
        · obtain ⟨r, rfl⟩ := exists_regOffset hmod hle
          have hctrl : r ≠ .ctrl := by rintro rfl; exact hother ⟨.inl rfl, rfl⟩
          have hstatus : r ≠ .status := by rintro rfl; exact hother ⟨.inr rfl, rfl⟩
          rw [memWrite_regOffset, writeReg_busy v hb hctrl hstatus]
          simp [hle, hmod, hlow, State.violated]
      · rw [memWrite_narrowRegister v ha hw, if_neg]
        simp [hw, hlow]
    · rw [memWrite_busy v hb hal ha]
      have hhigh : ¬ a ≤ 0x4C := by omega
      by_cases hp : place s.cfg a = .reserved <;> simp [hp, ha, hhigh, State.violated]

/-- Settles O11: such an access is not aligned, or is narrower than a register. -/
theorem misalignedAndNarrowAccessesHaveNoEffect : Obligations.MisalignedAndNarrowAccessesHaveNoEffect := by
  rintro s a w v (h | ⟨ha, hw⟩)
  · have hal : aligned a (widthBytes w) = false := by
      rw [Bool.eq_false_iff, Ne, aligned_iff]
      omega
    exact ⟨memWrite_misaligned v hal, memRead_misaligned hal⟩
  · exact ⟨memWrite_narrowRegister v ha hw, memRead_narrowRegister ha hw⟩

end Sys2Proof.Machine

namespace Sys2Proof.Machine

/-! ## Command words -/

@[simp] theorem toNat_opcField (w : Word) : (opcField w).toNat = w.toNat % 256 := by
  simp [opcField]

theorem rsvField_eq_zero (w : Word) : rsvField w = 0 ↔ w.toNat / 256 = 0 := by
  have := w.isLt
  rw [← BitVec.toNat_inj, rsvField, BitVec.extractLsb'_toNat, Nat.shiftRight_eq_div_pow]
  simp only [BitVec.ofNat_eq_ofNat, BitVec.toNat_ofNat]
  omega

/-- The opcode map and the opcodes of the commands are one table (R122). -/
theorem commandOfOpcode_eq_some {n : Nat} {i : Instr} : commandOfOpcode n = some i ↔ n = i.opcode.toNat := by
  constructor
  · intro h
    unfold commandOfOpcode at h
    split at h <;> cases h <;> rfl
  · rintro rfl
    cases i <;> rfl

theorem opcode_le (i : Instr) : i.opcode.toNat ≤ 0x10 := by cases i <;> decide

/-- The opcode map has a command for each number up to 0x10 and for no other (R122). -/
theorem exists_commandOfOpcode {n : Nat} : (∃ i, commandOfOpcode n = some i) ↔ n ≤ 0x10 := by
  constructor
  · rintro ⟨i, hi⟩
    exact commandOfOpcode_eq_some.1 hi ▸ opcode_le i
  · have every : ∀ n ≤ 0x10, (commandOfOpcode n).isSome = true := by decide
    exact fun hn => Option.isSome_iff_exists.1 (every n hn)

/-- A word decodes to a command by its two fields (R121, R122). -/
theorem decode_eq_ok {w : Word} {i : Instr} :
    decode w = .ok i ↔ w.toNat / 256 = 0 ∧ commandOfOpcode (w.toNat % 256) = some i := by
  rw [decode, ← rsvField_eq_zero, ← toNat_opcField]
  by_cases hrsv : rsvField w = 0
  · rw [if_neg (not_not.2 hrsv)]
    cases commandOfOpcode (opcField w).toNat <;> simp [hrsv]
  · rw [if_pos hrsv]
    exact iff_of_false nofun fun h => hrsv h.1

@[simp] theorem toNat_encode (i : Instr) : (encode i).toNat = i.opcode.toNat := by cases i <;> rfl

theorem decode_eq_ok_iff_encode {w : Word} {i : Instr} : decode w = .ok i ↔ w = encode i := by
  have := opcode_le i
  rw [decode_eq_ok, commandOfOpcode_eq_some, ← BitVec.toNat_inj, toNat_encode]
  omega

theorem decode_encode (i : Instr) : decode (encode i) = .ok i := decode_eq_ok_iff_encode.2 rfl

/-- Settles O1: a legal word is the word of its command. -/
theorem writtenCommandWordsDecode : Obligations.WrittenCommandWordsDecode :=
  ⟨decode_encode .nop, decode_encode .rtFwd, decode_encode .rtInv, decode_encode .rrtEnc, decode_encode .rrtDec,
    decode_encode .rlcEnc, decode_encode .rlcDec, decode_encode .ecCount, decode_encode .ecBuild, decode_encode .ecPack,
    decode_encode .ecUnpack, decode_encode .frameSer, decode_encode .frameDes, decode_encode .compressBlock,
    decode_encode .decompressFrame, decode_encode .streamReset, decode_encode .clearError, rfl, rfl, rfl, rfl⟩

/-- Settles O2, through the two fields of a word and the opcode map. -/
theorem commandWordsAreExactlyTheOpcodeMap : Obligations.CommandWordsAreExactlyTheOpcodeMap := by
  refine ⟨fun w i => decode_eq_ok_iff_encode, fun w => ?_⟩
  simp only [decode_eq_ok, exists_and_left, exists_commandOfOpcode]

/-! ## The run-length decoder, token by token -/

/-- Every token stands for at least one byte. -/
theorem length_tokenSymbols_pos {k : Token} (hk : k.wellFormed = true) : 0 < (tokenSymbols k).length := by
  cases k with
  | literal b => exact Nat.one_pos
  | run b c =>
    have hc : 2 ≤ c.toNat := by simpa [Token.wellFormed] using hk
    simp only [tokenSymbols, List.length_replicate]
    omega

/-- The decoder on a valid token: its bytes are counted against the limit, whatever comes after it (R243). -/
theorem rlcDecFrom_tokenBytes (lim : Nat) (out : List Byte) {k : Token} (hk : k.wellFormed = true) (rest : List Byte) :
    rlcDecFrom lim out (tokenBytes k ++ rest) =
      if lim < out.length + (tokenSymbols k).length then .error .outputOverflow
      else rlcDecFrom lim (out ++ tokenSymbols k) rest := by
  cases k with
  | literal b =>
    show rlcDecFrom lim out (0x00 :: b :: rest) = _
    rw [rlcDecFrom.eq_def]
    exact if_pos rfl
  | run b c =>
    have hc : 2 ≤ c.toNat := by simpa [Token.wellFormed] using hk
    rw [tokenSymbols, List.length_replicate]
    exact (if_neg (by decide)).trans ((if_pos rfl).trans (if_neg (Nat.not_lt.2 hc)))

/-- The decoder passes over valid tokens whose bytes fit (R243). -/
theorem rlcDecFrom_flatMap_tokenBytes {lim : Nat} {toks : List Token} (htoks : ∀ t ∈ toks, t.wellFormed = true)
    (rest : List Byte) : ∀ out : List Byte, out.length + (toks.flatMap tokenSymbols).length ≤ lim →
    rlcDecFrom lim out (toks.flatMap tokenBytes ++ rest) = rlcDecFrom lim (out ++ toks.flatMap tokenSymbols) rest := by
  induction toks with
  | nil => intro out _; simp
  | cons k toks ih =>
    intro out hfit
    obtain ⟨hk, htoks⟩ := List.forall_mem_cons.1 htoks
    rw [List.flatMap_cons, List.length_append] at hfit
    rw [List.flatMap_cons, List.append_assoc, rlcDecFrom_tokenBytes lim out hk, if_neg (by omega),
      ih htoks _ (by rw [List.length_append]; omega), List.flatMap_cons, List.append_assoc]

/-- The bytes are a concatenation of valid tokens that fit in the limit, followed by `rest`. -/
def TokensThen (lim : Nat) (T : List Byte) (toks : List Token) (rest : List Byte) : Prop :=
  (∀ t ∈ toks, t.wellFormed = true) ∧ T = toks.flatMap tokenBytes ++ rest ∧ (toks.flatMap tokenSymbols).length ≤ lim

theorem rlcDec_of_tokensThen {lim : Nat} {T rest : List Byte} {toks : List Token} (h : TokensThen lim T toks rest) :
    rlcDec T lim = rlcDecFrom lim (toks.flatMap tokenSymbols) rest := by
  obtain ⟨htoks, rfl, hfit⟩ := h
  exact rlcDecFrom_flatMap_tokenBytes htoks rest [] (by simpa using hfit)

/-- Tokens that fit and nothing after them decode to their bytes. -/
theorem rlcDec_of_tokensThen_nil {lim : Nat} {T : List Byte} {toks : List Token} (h : TokensThen lim T toks []) :
    rlcDec T lim = .ok (toks.flatMap tokenSymbols) := rlcDec_of_tokensThen h

/-- Tokens that fit, followed by bytes that begin no valid token, are malformed. -/
theorem rlcDec_of_tokensThen_bad {lim : Nat} {T rest : List Byte} {toks : List Token} (h : TokensThen lim T toks rest)
    (hbad : badTokenStart rest = true) : rlcDec T lim = .error .malformedRunToken :=
  (rlcDec_of_tokensThen h).trans (rlcDecFrom_badTokenStart lim _ hbad)

/-- Tokens that fit, followed by a valid token that does not, overflow. -/
theorem rlcDec_of_tokensThen_over {lim : Nat} {T rest : List Byte} {toks : List Token} {k : Token}
    (h : TokensThen lim T toks (tokenBytes k ++ rest)) (hk : k.wellFormed = true)
    (hover : lim < (toks.flatMap tokenSymbols).length + (tokenSymbols k).length) :
    rlcDec T lim = .error .outputOverflow := by
  rw [rlcDec_of_tokensThen h, rlcDecFrom_tokenBytes lim _ hk, if_pos hover]

/-- Bytes are empty, begin no valid token, or begin with one (R140, R141). -/
theorem tokenStart_cases (T : List Byte) :
    T = [] ∨ badTokenStart T = true ∨ ∃ k rest, k.wellFormed = true ∧ T = tokenBytes k ++ rest := by
  match T with
  | [] => exact .inl rfl
  | tag :: T =>
    refine .inr ?_
    by_cases h0 : tag = 0
    · subst h0
      cases T with
      | nil => exact .inl rfl
      | cons b rest => exact .inr ⟨.literal b, rest, rfl, rfl⟩
    · by_cases h1 : tag = 1
      · subst h1
        match T with
        | [] => exact .inl rfl
        | [_] => exact .inl rfl
        | b :: c :: rest =>
          by_cases hc : c.toNat < 2
          · exact .inl (by simp [badTokenStart, hc])
          · exact .inr ⟨.run b c, rest, decide_eq_true (Nat.le_of_not_lt hc), rfl⟩
      · exact .inl ((if_neg h0).trans (if_neg h1))

/-- How a token stream ends after its valid tokens that fit: it is over, or bytes follow that begin no valid token, or a valid token
that does not fit. -/
theorem exists_tokensThen (lim : Nat) (T : List Byte) :
    ∃ toks rest, TokensThen lim T toks rest
      ∧ (rest = [] ∨ badTokenStart rest = true
        ∨ ∃ k rest', k.wellFormed = true ∧ rest = tokenBytes k ++ rest'
          ∧ lim < (toks.flatMap tokenSymbols).length + (tokenSymbols k).length) := by
  induction lim using Nat.strong_induction_on generalizing T with
  | _ lim ih =>
    have hstart : TokensThen lim T [] T := ⟨by simp, rfl, Nat.zero_le _⟩
    rcases tokenStart_cases T with hnil | hbad | ⟨k, rest, hk, rfl⟩
    · exact ⟨[], T, hstart, .inl hnil⟩
    · exact ⟨[], T, hstart, .inr (.inl hbad)⟩
    · by_cases hover : lim < (tokenSymbols k).length
      · exact ⟨[], _, hstart, .inr (.inr ⟨k, rest, hk, rfl, by simpa using hover⟩)⟩
      · have hpos := length_tokenSymbols_pos hk
        obtain ⟨toks, tail, ⟨htoks, rfl, hfit⟩, hend⟩ := ih (lim - (tokenSymbols k).length) (by omega) rest
        have hlen : ((k :: toks).flatMap tokenSymbols).length
            = (tokenSymbols k).length + (toks.flatMap tokenSymbols).length := by
          rw [List.flatMap_cons, List.length_append]
        refine ⟨k :: toks, tail, ⟨List.forall_mem_cons.2 ⟨hk, htoks⟩, ?_, by omega⟩,
          hend.imp_right (Or.imp_right ?_)⟩
        · rw [List.flatMap_cons, List.append_assoc]
        · rintro ⟨k', rest', hk', rfl, hover'⟩
          exact ⟨k', rest', hk', rfl, by omega⟩

/-- What RLCdec answers, with the division of the stream into tokens that says why (R243). -/
theorem rlcDec_parse (T : List Byte) (lim : Nat) :
    (∃ toks, TokensThen lim T toks [] ∧ rlcDec T lim = .ok (toks.flatMap tokenSymbols))
      ∨ (∃ toks rest, TokensThen lim T toks rest ∧ badTokenStart rest = true
        ∧ rlcDec T lim = .error .malformedRunToken)
      ∨ ∃ toks k rest, TokensThen lim T toks (tokenBytes k ++ rest) ∧ k.wellFormed = true
        ∧ lim < (toks.flatMap tokenSymbols).length + (tokenSymbols k).length ∧ rlcDec T lim = .error .outputOverflow := by
  obtain ⟨toks, rest, h, rfl | hbad | ⟨k, rest', hk, rfl, hover⟩⟩ := exists_tokensThen lim T
  · exact .inl ⟨toks, h, rlcDec_of_tokensThen_nil h⟩
  · exact .inr (.inl ⟨toks, rest, h, hbad, rlcDec_of_tokensThen_bad h hbad⟩)
  · exact .inr (.inr ⟨toks, k, rest', h, hk, hover, rlcDec_of_tokensThen_over h hk hover⟩)

theorem rlcDec_eq_ok {T S : List Byte} {lim : Nat} :
    rlcDec T lim = .ok S ↔ ∃ toks, TokensThen lim T toks [] ∧ S = toks.flatMap tokenSymbols := by
  constructor
  · intro h
    rcases rlcDec_parse T lim with ⟨toks, htoks, heq⟩ | ⟨_, _, -, -, heq⟩ | ⟨_, _, _, -, -, -, heq⟩ <;>
      cases heq.symm.trans h
    exact ⟨toks, htoks, rfl⟩
  · rintro ⟨toks, htoks, rfl⟩
    exact rlcDec_of_tokensThen_nil htoks

theorem rlcDec_eq_malformed {T : List Byte} {lim : Nat} :
    rlcDec T lim = .error .malformedRunToken ↔
      ∃ toks rest, TokensThen lim T toks rest ∧ badTokenStart rest = true := by
  constructor
  · intro h
    rcases rlcDec_parse T lim with ⟨_, -, heq⟩ | ⟨toks, rest, htoks, hbad, -⟩ | ⟨_, _, _, -, -, -, heq⟩
    · cases heq.symm.trans h
    · exact ⟨toks, rest, htoks, hbad⟩
    · cases heq.symm.trans h
  · rintro ⟨toks, rest, htoks, hbad⟩
    exact rlcDec_of_tokensThen_bad htoks hbad

theorem rlcDec_eq_overflow {T : List Byte} {lim : Nat} :
    rlcDec T lim = .error .outputOverflow ↔
      ∃ toks k rest, TokensThen lim T toks (tokenBytes k ++ rest) ∧ k.wellFormed = true
        ∧ lim < (toks.flatMap tokenSymbols).length + (tokenSymbols k).length := by
  constructor
  · intro h
    rcases rlcDec_parse T lim with ⟨_, -, heq⟩ | ⟨_, _, -, -, heq⟩ | ⟨toks, k, rest, htoks, hk, hover, -⟩
    · cases heq.symm.trans h
    · cases heq.symm.trans h
    · exact ⟨toks, k, rest, htoks, hk, hover⟩
  · rintro ⟨toks, k, rest, htoks, hk, hover⟩
    exact rlcDec_of_tokensThen_over htoks hk hover

theorem exec_rlcDec_error {s : State} {T : List Byte} {e : ErrorKind} (hlen : s.tokLenValue.toNat ≤ tokenMax s.cfg)
    (hread : s.readBuf .t s.tokLenValue.toNat = some T) (h : rlcDec T s.cfg.blockMax = .error e) :
    exec .rlcDec s = raiseIn .rlcDec e s := by
  simp only [exec, execRlcDec, if_neg (Nat.not_lt.2 hlen), hread, h]

/-- Settles O28: the three outcomes by the division of the stream into tokens, and RLC_DEC raises the error RLCdec does. -/
theorem runLengthDecoderAcceptsExactlyTokenStreams : Obligations.RunLengthDecoderAcceptsExactlyTokenStreams := by
  refine ⟨fun T S lim => ?_, fun T lim => ?_, fun T lim => ?_, fun s T e hlen hread h => ?_⟩
  · rw [rlcDec_eq_ok]
    refine exists_congr fun toks => ?_
    rw [TokensThen, List.append_nil]
    constructor
    · rintro ⟨⟨htoks, hT, hfit⟩, rfl⟩
      exact ⟨htoks, hT, rfl, hfit⟩
    · rintro ⟨htoks, hT, rfl, hfit⟩
      exact ⟨⟨htoks, hT, hfit⟩, rfl⟩
  · simp only [rlcDec_eq_malformed, TokensThen, and_assoc]
  · rw [rlcDec_eq_overflow]
    refine exists_congr fun toks => exists_congr fun k => exists_congr fun rest => ?_
    rw [TokensThen, List.forall_mem_cons, List.append_assoc]
    tauto
  · exact ⟨_, exec_rlcDec_error hlen hread h, rfl, rfl⟩

/-! ## The packer -/

@[simp] theorem length_codeOf (s : State) (b : Byte) : (s.codeOf b).length = (s.codeLenAt b.toNat).toNat := by
  simp [State.codeOf, codeBits]

theorem length_flatMap_codeOf (s : State) (T : List Byte) :
    (T.flatMap s.codeOf).length = (T.map fun b => (s.codeLenAt b.toNat).toNat).sum := by
  simp only [List.length_flatMap, length_codeOf]

/-- A stream whose bytes all have a code and whose bits fit packs to its codes in order (R268). -/
theorem packBits_ok {code : Byte → List Bool} {maxBytes : Nat} {T : List Byte} (hcode : ∀ b ∈ T, (code b).length ≠ 0) :
    ∀ bits, bytesForBits (bits.length + (T.flatMap code).length) ≤ maxBytes →
    packBits code maxBytes bits T = .ok (bits ++ T.flatMap code) := by
  induction T with
  | nil => intro bits _; simp [packBits]
  | cons b T ih =>
    intro bits hfit
    obtain ⟨hb, hcode⟩ := List.forall_mem_cons.1 hcode
    rw [List.flatMap_cons, List.length_append, ← Nat.add_assoc] at hfit
    have hfirst : bytesForBits (bits.length + (code b).length) ≤ maxBytes :=
      (Nat.div_le_div_right (by omega)).trans hfit
    rw [packBits, if_neg hb, if_neg (Nat.not_lt.2 hfirst), ih hcode _ (by rwa [List.length_append]), List.append_assoc,
      List.flatMap_cons]

theorem ecPack_ok {code : Byte → List Bool} {maxBytes : Nat} {T : List Byte} (hcode : ∀ b ∈ T, (code b).length ≠ 0)
    (hfit : bytesForBits (T.flatMap code).length ≤ maxBytes) :
    ecPack code maxBytes T = .ok (padBits (T.flatMap code)) := by
  rw [ecPack, packBits_ok hcode [] (by simpa using hfit), List.nil_append]

/-- A byte made of eight bits shows them in order (R145). -/
theorem byteBits_ofNat_bitsToNat {bits : List Bool} (h : bits.length = 8) :
    byteBits (BitVec.ofNat 8 (bitsToNat bits)) = bits := by
  refine List.ext_getElem (by simp [byteBits, h]) fun i hi hi' => ?_
  have hbit := getLsbD_ofNat_foldr_bit (n := 8) (flags := bits.reverse) (by simp [h]) (7 - i)
  rw [← bitsToNat_eq_foldr, List.getD_eq_getElem _ _ (by simp; omega), List.getElem_reverse] at hbit
  have hi8 : i < 8 := h ▸ hi'
  have hidx : bits.length - 1 - (7 - i) = i := by omega
  simp only [hidx] at hbit
  simp [byteBits, BitVec.getMsbD, hi8, hbit]

/-- The packed bytes are the one of the first eight bits and those of the rest. -/
theorem packBytes_append {first : List Bool} (h : first.length = 8) (bits : List Bool) :
    packBytes (first ++ bits) = BitVec.ofNat 8 (bitsToNat first) :: packBytes bits := by
  rw [packBytes, List.length_append, h, show (8 + bits.length) / 8 = bits.length / 8 + 1 by omega, List.range_succ_eq_map,
    List.map_cons, List.map_map, Nat.mul_zero, List.drop_zero, List.take_left' h]
  refine congrArg _ (List.map_congr_left fun q _ => ?_)
  rw [Function.comp_apply, Nat.mul_succ, Nat.add_comm, ← List.drop_drop, List.drop_left' h]

/-- Packing whole bytes loses no bit (R145). -/
theorem payloadBits_packBytes (n : Nat) : ∀ bits : List Bool, bits.length = 8 * n → payloadBits (packBytes bits) = bits := by
  induction n with
  | zero =>
    intro bits h
    rw [List.length_eq_zero_iff.1 h]
    rfl
  | succ n ih =>
    intro bits h
    have hfirst : (bits.take 8).length = 8 := by rw [List.length_take]; omega
    have hrest : payloadBits (packBytes (bits.drop 8)) = bits.drop 8 := ih _ (by rw [List.length_drop]; omega)
    rw [← List.take_append_drop 8 bits, packBytes_append hfirst, payloadBits, List.flatMap_cons,
      byteBits_ofNat_bitsToNat hfirst, ← payloadBits, hrest]

/-- The bits of a padded payload are the data bits and then the pad bits, all 0 (R146, R268). -/
theorem payloadBits_padBits (bits : List Bool) :
    payloadBits (padBits bits).1 = bits ++ List.replicate (padBits bits).2 false := by
  obtain ⟨-, -, hlen⟩ := padBits_spec bits
  exact payloadBits_packBytes (bytesForBits bits.length) _ (by rw [List.length_append, List.length_replicate]; exact hlen)

theorem exec_ecPack_ok {s : State} {T payload : List Byte} {pad : Nat} (hlen : s.tokLenValue.toNat ≤ tokenMax s.cfg)
    (hread : s.readBuf .t s.tokLenValue.toNat = some T) (h : ecPack s.codeOf (payloadMax s.cfg) T = .ok (payload, pad)) :
    exec .ecPack s = .next (s.writePayload payload pad).finished := by
  simp only [exec, execEcPack, if_neg (Nat.not_lt.2 hlen), hread, h]

/-- Settles O37: the stream packs to its codes in order, and the payload shows them and the pad bits. -/
theorem ecPackCompletes : Obligations.EcPackCompletes := by
  intro s T hc hlen hread hcodes hfit
  have hcode : ∀ b ∈ T, (s.codeOf b).length ≠ 0 := fun b hb h =>
    hcodes b hb (BitVec.toNat_inj.1 ((length_codeOf s b).symm.trans h))
  have hpack := ecPack_ok hcode ((congrArg bytesForBits (length_flatMap_codeOf s T)).trans_le hfit)
  obtain ⟨-, hpad, -⟩ := padBits_spec (T.flatMap s.codeOf)
  have hpayload := length_ecPack_le hpack
  have hbits := payloadBits_padBits (T.flatMap s.codeOf)
  refine ⟨_, (padBits (T.flatMap s.codeOf)).1, (padBits (T.flatMap s.codeOf)).2, exec_ecPack_ok hlen hread hpack,
    readBuf_of_memWriteBuf rfl, hbits, Nat.le_of_lt_succ hpad, rfl, rfl, rfl, ⟨rfl, rfl, rfl⟩, ?_⟩
  exact ((ChangesOnly.refl _ _ s).writePayload hc rfl rfl _ hpayload (le_refl _)).finished

/-! ## The fields of a frame -/

/-- The table entries of counts given by a function of the symbol: the symbols whose count is not 0, in rising order (R300). -/
theorem entriesFrom_map_range' (f : Nat → Nat) (n : Nat) : ∀ sym,
    entriesFrom sym ((List.range' sym n).map f)
      = ((List.range' sym n).filter fun x => f x ≠ 0).map fun x => (BitVec.ofNat 8 x, f x) := by
  induction n with
  | zero => intro sym; rfl
  | succ n ih =>
    intro sym
    rw [List.range'_succ, List.map_cons, entriesFrom, ih, List.filter_cons]
    by_cases h : f sym = 0 <;> simp [h]

/-- The symbols whose count is not 0, in rising order. -/
def usedSymbols (s : State) : List Nat := (List.range 256).filter fun sym => s.freqAt sym ≠ 0

/-- The table entries of FREQ as it reads (R300). -/
theorem entriesFrom_freqTable (s : State) :
    entriesFrom 0 s.freqTable = (usedSymbols s).map fun sym => (BitVec.ofNat 8 sym, s.freqAt sym) := by
  rw [State.freqTable, usedSymbols, List.range_eq_range']
  exact entriesFrom_map_range' s.freqAt 256 0

theorem length_usedSymbols (s : State) : (usedSymbols s).length = card s.freqTable := by
  rw [← length_entriesFrom 0, entriesFrom_freqTable, List.length_map]

/-- Table entry `i` stands at offset `5 i` of the table (R130). -/
theorem take_drop_flatMap_entryBytes (E : List (Byte × Nat)) : ∀ {i : Nat} (hi : i < E.length) (tail : List Byte),
    ((E.flatMap entryBytes ++ tail).drop (5 * i)).take 5 = entryBytes E[i] := by
  induction E with
  | nil => intro i hi; cases hi
  | cons e E ih =>
    intro i hi tail
    have he : (entryBytes e).length = 5 := rfl
    rw [List.flatMap_cons, List.append_assoc]
    cases i with
    | zero => exact List.take_left' he
    | succ i =>
      rw [Nat.mul_succ, Nat.add_comm, ← List.drop_drop, List.drop_left' he]
      exact ih (Nat.lt_of_succ_lt_succ hi) tail

/-- A frame with the fields of R130 in order, for the table entries `E`. -/
def frameOf (rot : Word) (pad : Byte) (E : List (Byte × Nat)) (payload : List Byte) : List Byte :=
  be32 rot.toNat ++ ([pad] ++ (be16 E.length ++ (E.flatMap entryBytes ++ (be32 payload.length ++ payload))))

section
variable (rot : Word) (pad : Byte) (E : List (Byte × Nat)) (payload : List Byte)

theorem take_frameOf_rot : (frameOf rot pad E payload).take 4 = be32 rot.toNat := rfl

theorem take_drop_frameOf_pad : ((frameOf rot pad E payload).drop 4).take 1 = [pad] := rfl

theorem take_drop_frameOf_count : ((frameOf rot pad E payload).drop 5).take 2 = be16 E.length := rfl

/-- The table begins at offset 7. -/
theorem drop_frameOf (n : Nat) :
    (frameOf rot pad E payload).drop (7 + n) = (E.flatMap entryBytes ++ (be32 payload.length ++ payload)).drop n :=
  (List.drop_drop ..).symm

theorem take_drop_frameOf_entry {i : Nat} (hi : i < E.length) :
    ((frameOf rot pad E payload).drop (7 + 5 * i)).take 5 = entryBytes E[i] := by
  rw [drop_frameOf, take_drop_flatMap_entryBytes E hi]

theorem drop_frameOf_table :
    (frameOf rot pad E payload).drop (7 + 5 * E.length) = be32 payload.length ++ payload := by
  rw [drop_frameOf, List.drop_left' (length_flatMap_entryBytes E)]

theorem take_drop_frameOf_length :
    ((frameOf rot pad E payload).drop (7 + 5 * E.length)).take 4 = be32 payload.length := by
  rw [drop_frameOf_table]
  rfl

theorem drop_frameOf_payload : (frameOf rot pad E payload).drop (11 + 5 * E.length) = payload := by
  rw [show 11 + 5 * E.length = 7 + 5 * E.length + 4 by omega, ← List.drop_drop, drop_frameOf_table]
  rfl

end

section
variable {lim : Nat} {rot : Word} {pad : Byte} {F : List Nat} {payload : List Byte}

theorem serializeFrame_badPadding (hl : payload.length ≤ lim) (hpad : 8 ≤ pad.toNat ∨ (payload = [] ∧ pad ≠ 0)) :
    serializeFrame lim rot pad F payload = .error .paddingOutOfRange := by
  rw [serializeFrame, if_neg (Nat.not_lt.2 hl), if_pos (by rwa [List.length_eq_zero_iff])]

theorem serializeFrame_noTable (hl : payload.length ≤ lim) (hpad : ¬(8 ≤ pad.toNat ∨ (payload = [] ∧ pad ≠ 0)))
    (hk : card F = 0 ∧ payload ≠ []) : serializeFrame lim rot pad F payload = .error .inconsistentFreqTable := by
  rw [serializeFrame, if_neg (Nat.not_lt.2 hl), if_neg (by rwa [List.length_eq_zero_iff]),
    if_pos (by rwa [length_entriesFrom, Ne, List.length_eq_zero_iff])]

theorem serializeFrame_eq_frameOf (hl : payload.length ≤ lim) (hpad : ¬(8 ≤ pad.toNat ∨ (payload = [] ∧ pad ≠ 0)))
    (hk : ¬(card F = 0 ∧ payload ≠ [])) :
    serializeFrame lim rot pad F payload = .ok (frameOf rot pad (entriesFrom 0 F) payload) := by
  rw [serializeFrame, if_neg (Nat.not_lt.2 hl), if_neg (by rwa [List.length_eq_zero_iff]),
    if_neg (by rwa [length_entriesFrom, Ne, List.length_eq_zero_iff]), frameOf]
  simp only [List.append_assoc]

end

section
variable {s : State} {payload : List Byte}

theorem exec_frameSer_ok {frame : List Byte} (hlen : s.payLenValue.toNat ≤ payloadMax s.cfg)
    (hread : s.readBuf .p s.payLenValue.toNat = some payload)
    (h : serializeFrame (payloadMax s.cfg) s.rotIdxValue s.padCntValue s.freqTable payload = .ok frame) :
    exec .frameSer s =
      .next (State.finished { s.writeBuf .f frame with frameLen := .val (BitVec.ofNat 32 frame.length) }) := by
  simp only [exec, execFrameSer, if_neg (Nat.not_lt.2 hlen), hread, h]

theorem exec_frameSer_error {e : ErrorKind} (hlen : s.payLenValue.toNat ≤ payloadMax s.cfg)
    (hread : s.readBuf .p s.payLenValue.toNat = some payload)
    (h : serializeFrame (payloadMax s.cfg) s.rotIdxValue s.padCntValue s.freqTable payload = .error e) :
    exec .frameSer s = raiseIn .frameSer e s := by
  simp only [exec, execFrameSer, if_neg (Nat.not_lt.2 hlen), hread, h]

end

/-- Settles O41: each of the serializer's checks ends in its error, and a frame that passes them has its fields at their offsets. -/
theorem frameSerLaysOutTheFrameOrRejects : Obligations.FrameSerLaysOutTheFrameOrRejects := by
  intro s payload hc hlen hread k entries
  have hl : payload.length ≤ payloadMax s.cfg := length_le_of_readBuf hread hlen
  split_ifs with hpad hk
  · exact ⟨_, exec_frameSer_error hlen hread (serializeFrame_badPadding hl hpad), rfl⟩
  · exact ⟨_, exec_frameSer_error hlen hread (serializeFrame_noTable hl hpad hk), rfl⟩
  · have hframe := serializeFrame_eq_frameOf (rot := s.rotIdxValue) hl hpad hk
    have hE : (entriesFrom 0 s.freqTable).length = k := length_entriesFrom 0 s.freqTable
    have hflen := (length_serializeFrame hframe).1
    have hfit := length_serializeFrame_le (length_freqTable s) hframe
    refine ⟨_, frameOf s.rotIdxValue s.padCntValue (entriesFrom 0 s.freqTable) payload, exec_frameSer_ok hlen hread hframe,
      hflen ▸ readBuf_of_memWriteBuf rfl, take_frameOf_rot .., take_drop_frameOf_pad .., hE ▸ take_drop_frameOf_count ..,
      fun i hi => ?_, hE ▸ take_drop_frameOf_length .., hE ▸ drop_frameOf_payload .., by rw [finished_frameLen, hflen], rfl,
      ⟨rfl, rfl, rfl⟩, ?_⟩
    · have hi' : i < (usedSymbols s).length := (length_usedSymbols s).symm ▸ hi
      rw [take_drop_frameOf_entry _ _ _ _ (hE.symm ▸ hi), show entries = usedSymbols s from rfl,
        List.getD_eq_getElem _ _ hi']
      simp only [entriesFrom_freqTable, List.getElem_map]
      rfl
    · have hstart := ChangesOnly.refl (· == .frameLen) (fun b => if b = .f then 11 + 5 * k + payload.length else 0) s
      exact ChangesOnly.finished { hstart.writeBuf hc (b := .f) hfit hflen.le with frameLen := .inl rfl }

end Sys2Proof.Machine

namespace Sys2Proof.Machine

/-! ## Raising an error, in the words of the frame of change -/

section
variable {s t : State} {outs : List Output}

/-- The bytes that a set covers with one more piece: the larger of the two ranges. -/
theorem coveredBytes_concat (outs : List Output) (o : Output) (b : Buf) :
    coveredBytes (outs ++ [o]) b = max (coveredBytes outs b) (coveredBytes [o] b) := by
  cases o with
  | buf b' n => by_cases hb : b' = b <;> simp [coveredBytes, hb]
  | _ => simp [coveredBytes]

theorem lt_coveredBytes_singleton {o : Output} {b : Buf} {i : Nat} :
    i < coveredBytes [o] b ↔ covers b i o = true := by
  cases o with
  | buf b' n => by_cases hb : b' = b <;> simp [coveredBytes, covers, hb]
  | _ => simp [coveredBytes, covers]

/-- A buffer byte lies below the covered bytes exactly when some piece of the set covers it. -/
theorem lt_coveredBytes {b : Buf} {i : Nat} : i < coveredBytes outs b ↔ outs.any (covers b i) = true := by
  induction outs using List.reverseRecOn with
  | nil => simp [coveredBytes]
  | append_singleton outs o ih =>
    rw [coveredBytes_concat, lt_max_iff, ih, lt_coveredBytes_singleton, List.any_append, Bool.or_eq_true]
    simp

/-- A place that changes only if an output set names it. -/
theorem contains_or_eq_of_eq_ite {α : Type} {o : Output} {x spoiled kept : α}
    (h : x = if o ∈ outs then spoiled else kept) : outs.contains o = true ∨ x = kept := by
  by_cases ho : o ∈ outs
  · exact .inl (List.contains_iff_mem.2 ho)
  · exact .inr (h.trans (if_neg ho))

/-- Making an output set UNSPECIFIED changes only the set's pieces (R184). -/
theorem changesOnly_spoilAll (hc : s.cfg.Legal) (hfit : Fits s.cfg outs) :
    ChangesOnly (fun o => outs.contains o) (coveredBytes outs) s (s.spoilAll outs) where
  cfg := spoilAll_cfg s outs
  ctrl := spoilAll_ctrl s outs
  cmd := spoilAll_cmd s outs
  inLen := spoilAll_inLen s outs
  rotIdx := contains_or_eq_of_eq_ite (spoilAll_rotIdx s outs)
  blkLen := contains_or_eq_of_eq_ite (spoilAll_blkLen s outs)
  tokLen := contains_or_eq_of_eq_ite (spoilAll_tokLen s outs)
  payLen := contains_or_eq_of_eq_ite (spoilAll_payLen s outs)
  padCnt := contains_or_eq_of_eq_ite (spoilAll_padCnt s outs)
  freqCount := contains_or_eq_of_eq_ite (spoilAll_freqCount s outs)
  frameLen := contains_or_eq_of_eq_ite (spoilAll_frameLen s outs)
  rlist := contains_or_eq_of_eq_ite (spoilAll_rlist s outs)
  freq := contains_or_eq_of_eq_ite (spoilAll_freq s outs)
  codeLen := contains_or_eq_of_eq_ite (spoilAll_codeLen s outs)
  code := contains_or_eq_of_eq_ite (spoilAll_code s outs)
  tree := contains_or_eq_of_eq_ite (spoilAll_tree s outs)
  cells b i hout hi := by
    have huncovered : ¬ outs.any (covers b i) = true := fun h => Nat.not_lt.2 hout (lt_coveredBytes.2 h)
    rw [cell_spoilAll hc hfit hi, if_neg huncovered]
  epoch := spoilAll_epoch s outs
  hostQueue := spoilAll_hostQueue s outs
  hostReads := spoilAll_hostReads s outs

/-- Every piece of an output set made UNSPECIFIED is so (R184). -/
theorem holdsUnspecified_spoilAll (hc : s.cfg.Legal) (hfit : Fits s.cfg outs) {o : Output} (ho : o ∈ outs) :
    HoldsUnspecified (s.spoilAll outs) o := by
  cases o with
  | rotIdx => exact (spoilAll_rotIdx s outs).trans (if_pos ho)
  | blkLen => exact (spoilAll_blkLen s outs).trans (if_pos ho)
  | tokLen => exact (spoilAll_tokLen s outs).trans (if_pos ho)
  | payLen => exact (spoilAll_payLen s outs).trans (if_pos ho)
  | padCnt => exact (spoilAll_padCnt s outs).trans (if_pos ho)
  | freqCount => exact (spoilAll_freqCount s outs).trans (if_pos ho)
  | frameLen => exact (spoilAll_frameLen s outs).trans (if_pos ho)
  | rlist => exact (spoilAll_rlist s outs).trans (if_pos ho)
  | codeLen => exact (spoilAll_codeLen s outs).trans (if_pos ho)
  | code => exact (spoilAll_code s outs).trans (if_pos ho)
  | tree => exact (spoilAll_tree s outs).trans (if_pos ho)
  | freq =>
    intro entry hentry
    rw [spoilAll_freq, if_pos ho] at hentry
    exact List.eq_of_mem_replicate hentry
  | buf b n =>
    intro i hi
    have hcovered : outs.any (covers b i) = true := List.any_eq_true.2 ⟨.buf b n, ho, by simp [covers, hi]⟩
    rw [cell_spoilAll hc hfit (hi.trans_le (hfit b n ho)), if_pos hcovered]

/-- Latching an error makes no piece of an output set known. -/
theorem HoldsUnspecified.latched {o : Output} (h : HoldsUnspecified t o) (e : ErrorKind) (offset : Word) :
    HoldsUnspecified (t.latched e offset) o := by
  cases o <;> exact h

/-- The offset recorded with an error is that of the stream for the two commands that read frames (R353). -/
theorem errorOffset_eq (s : State) (i : Instr) :
    errorOffset s i = if i = .frameDes ∨ i = .decompressFrame then s.streamOffset else 0#32 := by
  cases i <;> rfl

/-- A command whose length is above the capacity of the buffer it indexes raises before it reads a byte (R183). -/
theorem exec_lengthOutOfRange {i : Instr} {b : Buf} {n : Nat} (hin : inputRange s i = some (b, n))
    (hover : bufCapacity s.cfg b < n) : exec i s = raiseIn i .lengthOutOfRange s := by
  cases i <;> cases hin <;> exact if_pos hover

/-! ## Completion -/

/-- A command that completes clears BUSY and sets DONE (R174), and only CLEAR_ERROR changes ERR (R180, R352). -/
theorem Completes.flags {i : Instr} (ht : Completes s t i) :
    t.status.busy = false ∧ t.status.done = true
      ∧ t.status.err = (if i = .clearError then false else s.status.err) := by
  cases i with
  | nop => cases ht; exact ⟨rfl, rfl, rfl⟩
  | streamReset => cases ht; exact ⟨rfl, rfl, rfl⟩
  | clearError => cases ht; exact ⟨rfl, rfl, rfl⟩
  | ecBuild => cases ht; exact ⟨rfl, rfl, rfl⟩
  | rtFwd => obtain ⟨-, B, -, rfl⟩ := ht; exact ⟨rfl, rfl, rfl⟩
  | rtInv => obtain ⟨-, C, B, -, -, rfl⟩ := ht; exact ⟨rfl, rfl, rfl⟩
  | rrtEnc => obtain ⟨-, S, -, rfl⟩ := ht; exact ⟨rfl, rfl, rfl⟩
  | rrtDec => obtain ⟨-, R, -, rfl⟩ := ht; exact ⟨rfl, rfl, rfl⟩
  | rlcEnc => obtain ⟨-, S, -, rfl⟩ := ht; exact ⟨rfl, rfl, rfl⟩
  | rlcDec => obtain ⟨-, T, S, -, -, rfl⟩ := ht; exact ⟨rfl, rfl, rfl⟩
  | ecCount => obtain ⟨-, T, -, rfl⟩ := ht; exact ⟨rfl, rfl, rfl⟩
  | ecPack => obtain ⟨-, T, payload, pad, -, -, rfl⟩ := ht; exact ⟨rfl, rfl, rfl⟩
  | ecUnpack => obtain ⟨-, payload, T, -, -, rfl⟩ := ht; exact ⟨rfl, rfl, rfl⟩
  | frameSer => obtain ⟨-, payload, frame, -, -, rfl⟩ := ht; exact ⟨rfl, rfl, rfl⟩
  | frameDes => obtain ⟨-, r, -, rfl⟩ := ht; cases r <;> exact ⟨rfl, rfl, rfl⟩
  | compressBlock => obtain ⟨-, B, payload, pad, frame, -, -, -, rfl⟩ := ht; exact ⟨rfl, rfl, rfl⟩
  | decompressFrame =>
    obtain ⟨-, r, -, ht⟩ := ht
    cases r with
    | none => cases ht; exact ⟨rfl, rfl, rfl⟩
    | some fr => obtain ⟨T, R, B, -, rfl⟩ := ht; exact ⟨rfl, rfl, rfl⟩

/-- A command that ends with an error where none was latched has raised it. -/
theorem raised_of_exec {i : Instr} (h : exec i s = .next t) (hclear : s.status.err = false)
    (herr : t.status.err = true) :
    ∃ e, t = (s.spoilAll (failedOutputs s i)).latched e (errorOffset s i) ∧ (i ∈ raisedBy e ∨ i = .compressBlock) := by
  rcases exec_next_cases h with hraised | hcomplete
  · exact hraised
  · obtain ⟨-, -, hkept⟩ := hcomplete.flags
    simp [hkept, hclear] at herr

/-! ## The engine turn of an illegal word, and the issue of a word -/

/-- An engine turn on an illegal word latches ILLEGAL_COMMAND with offset 0 and spoils nothing (R181). -/
theorem engineTurn_illegal {r : DecodeReject} (hb : s.status.busy = true) (hd : decode s.cmd = .error r) :
    engineTurn s = .next (s.latched .illegalCommand 0).ticked := by
  simp [engineTurn, performPending, State.fetch, hb, hd, execIllegal, raiseError, tickedResult]

/-- While BUSY = 0 a write of CMD issues its word (R170). -/
theorem memWrite_cmd (w : Word) (hb : s.status.busy = false) : s.memWrite 0x1C .w4 w = s.issue w := by
  have hreg : s.memWrite 0x1C .w4 w = s.writeReg .cmd w := memWrite_regOffset s .cmd w
  simp [hreg, State.writeReg, regClass, hb]

/-- A word is rejected exactly when an error is latched and it is neither NOP's nor CLEAR_ERROR's (R171). -/
theorem issue_eq (s : State) (w : Word) :
    s.issue w =
      if s.status.err = true ∧ w ≠ 0x00000000#32 ∧ w ≠ 0x00000010#32 then State.rejected { s with cmd := w }
      else State.accepted { s with cmd := w } := by
  simp [State.issue, and_assoc]

end

/-! ## The obligations on the command protocol -/

/-- Settles O49: a command that answers a next state has latched an error or completed, and both clear BUSY and set DONE. -/
theorem performedCommandsClearBusyAndSetDone : Obligations.PerformedCommandsClearBusyAndSetDone := by
  intro i s t h
  rcases exec_next_cases h with ⟨e, rfl, -⟩ | hcomplete
  · exact ⟨rfl, rfl⟩
  · obtain ⟨hbusy, hdone, -⟩ := hcomplete.flags
    exact ⟨hbusy, hdone⟩

/-- Settles O53: the error was raised in this command, and raising spoils exactly its output set and latches it. -/
theorem errorsAreLatchedAndPrecise : Obligations.ErrorsAreLatchedAndPrecise := by
  intro i s t hc hclear h herr
  obtain ⟨e, rfl, -⟩ := raised_of_exec h hclear herr
  have hfit := fits_failedOutputs s i
  refine ⟨⟨e, rfl⟩, errorOffset_eq s i, ?_, spoilAll_streamOffset s _,
    fun o ho => (holdsUnspecified_spoilAll hc hfit ho).latched e _, (changesOnly_spoilAll hc hfit).setControl ..⟩
  rw [latched_status, spoilAll_status]

/-- Settles O4: with a silent host the step is an engine turn, which performs the illegal word. -/
theorem illegalWordRaisesIllegalCommand : Obligations.IllegalWordRaisesIllegalCommand := by
  intro s r hb hq hd
  exact (step_silent hq).trans (engineTurn_illegal hb hd)

/-- Settles O7: the write issues the word, which is accepted or rejected. -/
theorem commandWriteAcceptsOrRejects : Obligations.CommandWriteAcceptsOrRejects := by
  intro s w hb
  exact (memWrite_cmd w hb).trans (issue_eq s w)

/-- Settles O18: each meaning is its effect, by evaluation. -/
theorem controlCommandsComplete : Obligations.ControlCommandsComplete :=
  fun _ => ⟨rfl, rfl, rfl⟩

/-- Settles O50: the length check comes first, and its error is latched. -/
theorem lengthIsCheckedBeforeAnyByteIsRead : Obligations.LengthIsCheckedBeforeAnyByteIsRead := by
  intro i s b n hin hover
  exact ⟨_, exec_lengthOutOfRange hin hover, rfl, rfl⟩

end Sys2Proof.Machine

namespace Sys2Proof.Machine

/-! ## Sorting by a strict order -/

section
variable {α : Type} {lt : α → α → Bool}

theorem pairwise_insertSorted (htrans : ∀ x y z, lt x y = true → lt y z = true → lt x z = true) {x : α} {ys : List α}
    (hx : ∀ y ∈ ys, lt x y = true ∨ lt y x = true) (hys : ys.Pairwise (lt · · = true)) :
    (insertSorted lt x ys).Pairwise (lt · · = true) := by
  induction ys with
  | nil => exact List.pairwise_singleton ..
  | cons y ys ih =>
    obtain ⟨hy, hrest⟩ := List.pairwise_cons.1 hys
    unfold insertSorted
    split
    next hyx =>
      refine List.pairwise_cons.2 ⟨fun z hz => ?_, ih (fun z hz => hx z (List.mem_cons_of_mem y hz)) hrest⟩
      rcases List.mem_cons.1 ((perm_insertSorted lt x ys).mem_iff.1 hz) with rfl | hz
      · exact hyx
      · exact hy z hz
    next hyx =>
      have hxy : lt x y = true := (hx y List.mem_cons_self).resolve_right hyx
      exact List.pairwise_cons.2
        ⟨List.forall_mem_cons.2 ⟨hxy, fun z hz => htrans x y z hxy (hy z hz)⟩, hys⟩

/-- Insertion sort puts a list in order when the order is transitive and compares every two entries. -/
theorem pairwise_sortList (htrans : ∀ x y z, lt x y = true → lt y z = true → lt x z = true) {xs : List α}
    (htotal : xs.Pairwise fun x y => lt x y = true ∨ lt y x = true) : (sortList lt xs).Pairwise (lt · · = true) := by
  induction xs with
  | nil => exact List.Pairwise.nil
  | cons x xs ih =>
    obtain ⟨hx, hrest⟩ := List.pairwise_cons.1 htotal
    exact pairwise_insertSorted htrans (fun y hy => hx y ((perm_sortList lt xs).mem_iff.1 hy)) (ih hrest)

end

/-- In a list sorted by an asymmetric order, an entry below another stands before it. -/
theorem idxOf_lt_idxOf_of_pairwise {R : Nat → Nat → Prop} (hasymm : ∀ x y, R x y → ¬R y x) {l : List Nat}
    (hl : l.Pairwise R) {a b : Nat} (ha : a ∈ l) (hb : b ∈ l) (hab : R a b) : l.idxOf a < l.idxOf b := by
  by_contra hle
  rcases Nat.lt_or_eq_of_le (Nat.not_lt.1 hle) with hlt | heq
  · have hba := List.pairwise_iff_getElem.1 hl _ _ (List.idxOf_lt_length_of_mem hb) (List.idxOf_lt_length_of_mem ha) hlt
    rw [List.getElem_idxOf, List.getElem_idxOf] at hba
    exact hasymm a b hab hba
  · obtain rfl := (List.idxOf_inj hb).1 heq
    exact hasymm _ _ hab hab

/-- As many distinct numbers below `n` as there are make a permutation of them. -/
theorem perm_range_of_nodup {l : List Nat} {n : Nat} (hnodup : l.Nodup) (hlt : ∀ x ∈ l, x < n) (hlen : l.length = n) :
    l.Perm (List.range n) :=
  (List.subperm_of_subset hnodup fun x hx => List.mem_range.2 (hlt x hx)).perm_of_length_le
    (by rw [List.length_range, hlen])

/-! ## The order of symbols and of symbol sequences (R19, R200) -/

theorem rank_injective : Function.Injective Sym.rank := by
  intro x y h
  match x, y with
  | .sentinel, .sentinel => rfl
  | .byte _, .byte _ => exact congrArg Sym.byte (BitVec.eq_of_toNat_eq (Nat.succ.inj h))
  | .sentinel, .byte _ => cases h
  | .byte _, .sentinel => cases h

theorem lexLt_iff {xs ys : List Sym} : lexLt xs ys = true ↔ xs.map Sym.rank < ys.map Sym.rank := by
  induction xs generalizing ys with
  | nil => cases ys <;> simp [lexLt]
  | cons x xs ih =>
    cases ys with
    | nil => simp [lexLt]
    | cons y ys =>
      rw [lexLt, List.map_cons, List.map_cons, List.cons_lt_cons_iff, rank_injective.eq_iff]
      by_cases hxy : x = y
      · subst hxy
        simp [ih]
      · simp [hxy]

theorem lexLt_trans (xs ys zs : List Sym) (h : lexLt xs ys = true) (h' : lexLt ys zs = true) : lexLt xs zs = true :=
  lexLt_iff.2 (lt_trans (lexLt_iff.1 h) (lexLt_iff.1 h'))

theorem lexLt_asymm (xs ys : List Sym) (h : lexLt xs ys = true) : ¬lexLt ys xs = true :=
  fun h' => lt_asymm (lexLt_iff.1 h) (lexLt_iff.1 h')

theorem lexLt_total {xs ys : List Sym} (h : xs ≠ ys) : lexLt xs ys = true ∨ lexLt ys xs = true := by
  rw [lexLt_iff, lexLt_iff]
  exact lt_or_gt_of_ne fun heq => h (rank_injective.list_map heq)

theorem lexLt_cons {x y : Sym} {xs ys : List Sym} :
    lexLt (x :: xs) (y :: ys) = true ↔ x.rank < y.rank ∨ x = y ∧ lexLt xs ys = true := by
  simp only [lexLt_iff, List.map_cons, List.cons_lt_cons_iff, rank_injective.eq_iff]

/-- Among sequences of one length, what is appended does not matter to a strict order. -/
theorem lexLt_append {xs ys : List Sym} (hlen : xs.length = ys.length) (h : lexLt xs ys = true) (us vs : List Sym) :
    lexLt (xs ++ us) (ys ++ vs) = true := by
  induction xs generalizing ys with
  | nil =>
    obtain rfl := List.length_eq_zero_iff.1 hlen.symm
    cases h
  | cons x xs ih =>
    cases ys with
    | nil => cases hlen
    | cons y ys =>
      rw [List.cons_append, List.cons_append, lexLt_cons]
      exact (lexLt_cons.1 h).imp_right fun ⟨hxy, hlt⟩ => ⟨hxy, ih (Nat.succ.inj hlen) hlt⟩

/-! ## The rotations of a block with its sentinel (R201) -/

theorem rotation_eq_rotate {X : List Sym} {i : Nat} (hi : i ≤ X.length) : rotation X i = X.rotate i :=
  (List.rotate_eq_drop_append_take hi).symm

/-- A rotation begins with the symbol at its position; the next rotation moves that symbol to the end. -/
theorem rotate_cons_and_succ {X : List Sym} {i : Nat} (hi : i < X.length) :
    ∃ xs : List Sym, X.rotate i = X.getD i .sentinel :: xs ∧ X.rotate (i + 1) = xs ++ [X.getD i .sentinel]
      ∧ xs.length = X.length - 1 := by
  have hfirst : X.rotate i = X.getD i .sentinel :: (X.drop (i + 1) ++ X.take i) := by
    rw [List.rotate_eq_drop_append_take hi.le, List.drop_eq_getElem_cons hi, List.getD_eq_getElem _ _ hi, List.cons_append]
  refine ⟨_, hfirst, ?_, ?_⟩
  · rw [← List.rotate_rotate, hfirst, List.rotate_cons_succ, List.rotate_zero]
  · simp only [List.length_append, List.length_drop, List.length_take]
    omega

section
variable {B : List Byte} {i j : Nat}

/-- The sentinel stands in a rotation where the rotation shows it, so it tells the rotations apart. -/
theorem idxOf_sentinel_rotation (hi : i ≤ B.length) : (rotation (withSentinel B) i).idxOf .sentinel = B.length - i := by
  have hdrop : (withSentinel B).drop i = (B.drop i).map Sym.byte ++ [Sym.sentinel] := by
    rw [withSentinel, List.drop_append_of_le_length (by rwa [List.length_map]), List.map_drop]
  rw [rotation, hdrop, List.append_assoc, List.idxOf_append_of_notMem (by simp [-List.map_drop])]
  simp

theorem rotation_injOn (hi : i ≤ B.length) (hj : j ≤ B.length)
    (h : rotation (withSentinel B) i = rotation (withSentinel B) j) : i = j := by
  have := congrArg (List.idxOf Sym.sentinel) h
  rw [idxOf_sentinel_rotation hi, idxOf_sentinel_rotation hj] at this
  omega

/-- The rotation that begins with the sentinel is the least (R202). -/
theorem lexLt_rotation_length (hi : i < B.length) :
    lexLt (rotation (withSentinel B) B.length) (rotation (withSentinel B) i) = true := by
  obtain ⟨xs, hxs, -⟩ := rotate_cons_and_succ (X := withSentinel B) (i := B.length) (by simp)
  obtain ⟨ys, hys, -⟩ := rotate_cons_and_succ (X := withSentinel B) (i := i) (by simp; omega)
  rw [rotation_eq_rotate (by simp), rotation_eq_rotate (by simp; omega), hxs, hys, lexLt_cons, withSentinel_getD_length,
    withSentinel_getD_lt hi]
  exact .inl (Nat.succ_pos _)

/-- `SA` lists the rotations in strictly rising order (R201). -/
theorem pairwise_sortedRotations (B : List Byte) :
    (sortedRotations (withSentinel B)).Pairwise
      (fun i j => lexLt (rotation (withSentinel B) i) (rotation (withSentinel B) j) = true) := by
  unfold sortedRotations
  refine List.pairwise_map.2 (List.Pairwise.imp_of_mem ?_
    (pairwise_sortList (fun p q r => lexLt_trans p.2 q.2 r.2) (List.pairwise_map.2 ?_)))
  · intro p q hp hq hpq
    obtain ⟨i, -, rfl⟩ := List.mem_map.1 ((perm_sortList _ _).mem_iff.1 hp)
    obtain ⟨j, -, rfl⟩ := List.mem_map.1 ((perm_sortList _ _).mem_iff.1 hq)
    exact hpq
  · refine List.Pairwise.imp_of_mem ?_ (List.nodup_reverse.2 List.nodup_range)
    intro i j hi hj hij
    simp only [length_withSentinel, List.mem_reverse, List.mem_range, Nat.lt_succ_iff] at hi hj
    exact lexLt_total fun h => hij (rotation_injOn hi hj h)

end

/-! ## The column of last symbols and the sentinel in it (R201, R205) -/

theorem columnWithSentinel_eq_insertIdx {C : List Byte} {I : Nat} (hI : I ≤ C.length) :
    columnWithSentinel C I = (C.map Sym.byte).insertIdx I .sentinel := by
  induction C generalizing I with
  | nil =>
    obtain rfl := Nat.le_zero.1 hI
    rfl
  | cons b C ih =>
    cases I with
    | zero => rfl
    | succ I => rw [List.map_cons, List.insertIdx_succ_cons, ← ih (Nat.le_of_succ_le_succ hI)]; rfl

@[simp] theorem length_columnWithSentinel (C : List Byte) (I : Nat) : (columnWithSentinel C I).length = C.length + 1 := by
  simp only [columnWithSentinel, List.length_append, List.length_map, List.length_take, List.length_drop,
    List.length_singleton]
  omega

theorem filterMap_toByte?_map_byte (C : List Byte) : (C.map Sym.byte).filterMap Sym.toByte? = C := by
  rw [List.filterMap_map]
  exact List.filterMap_some

/-- Dropping the sentinel entry gives the column back. -/
theorem eraseIdx_columnWithSentinel {C : List Byte} {I : Nat} (hI : I ≤ C.length) :
    (columnWithSentinel C I).eraseIdx I = C.map Sym.byte := by
  rw [columnWithSentinel_eq_insertIdx hI, List.eraseIdx_insertIdx_self]

/-- The sentinel is the entry at `I` and no other. -/
theorem columnWithSentinel_getD_eq_sentinel {C : List Byte} {I p : Nat} (hI : I ≤ C.length) (hp : p ≤ C.length) :
    (columnWithSentinel C I).getD p .sentinel = .sentinel ↔ p = I := by
  rw [columnWithSentinel_eq_insertIdx hI, List.getD_eq_getElem _ _ (by simp [List.length_insertIdx, hI]; omega),
    List.getElem_insertIdx]
  split
  · simp; omega
  · split
    · simp_all
    · simp; omega

/-- The symbol before position `r` of a block with its sentinel, in the cyclic order: the sentinel before the first byte. -/
theorem withSentinel_getD_pred {B : List Byte} {r : Nat} (hr : r ≤ B.length) :
    (withSentinel B).getD ((r + B.length) % (B.length + 1)) .sentinel
      = if r = 0 then .sentinel else .byte (B.getD (r - 1) 0) := by
  cases r with
  | zero => rw [Nat.zero_add, Nat.mod_eq_of_lt (Nat.lt_succ_self _), withSentinel_getD_length, if_pos rfl]
  | succ r =>
    rw [Nat.succ_add_eq_add_succ, Nat.add_mod_right, Nat.mod_eq_of_lt (by omega), withSentinel_getD_lt hr,
      if_neg (Nat.succ_ne_zero r), Nat.add_sub_cancel, List.getD_eq_getElem]

theorem lastColumn_withSentinel (B : List Byte) (SA : List Nat) :
    lastColumn (withSentinel B) SA
      = SA.map fun r => (withSentinel B).getD ((r + B.length) % (B.length + 1)) .sentinel := by
  simp [lastColumn]

/-! ## A block's sorted rotations -/

section
variable {B : List Byte} {SA : List Nat}

/-- `SA` lists all rotations of the block with its sentinel in strictly rising order (R201). -/
def SortsRotations (B : List Byte) (SA : List Nat) : Prop :=
  SA.Perm (List.range (B.length + 1))
    ∧ SA.Pairwise (fun i j => lexLt (rotation (withSentinel B) i) (rotation (withSentinel B) j) = true)

theorem sortsRotations_sortedRotations (B : List Byte) : SortsRotations B (sortedRotations (withSentinel B)) :=
  ⟨length_withSentinel B ▸ perm_sortedRotations _, pairwise_sortedRotations B⟩

theorem SortsRotations.eq_sortedRotations (h : SortsRotations B SA) : SA = sortedRotations (withSentinel B) := by
  obtain ⟨hperm, hsorted⟩ := h
  obtain ⟨hperm', hsorted'⟩ := sortsRotations_sortedRotations B
  exact (hperm.trans hperm'.symm).eq_of_pairwise (fun i j _ _ hij hji => absurd hji (lexLt_asymm _ _ hij)) hsorted hsorted'

theorem SortsRotations.mem_iff (h : SortsRotations B SA) {i : Nat} : i ∈ SA ↔ i ≤ B.length := by
  rw [h.1.mem_iff, List.mem_range, Nat.lt_succ_iff]

theorem SortsRotations.nodup (h : SortsRotations B SA) : SA.Nodup := h.1.nodup_iff.2 List.nodup_range

theorem SortsRotations.length_eq (h : SortsRotations B SA) : SA.length = B.length + 1 := by
  simpa using h.1.length_eq

theorem SortsRotations.idxOf_lt (h : SortsRotations B SA) {i : Nat} (hi : i ≤ B.length) : SA.idxOf i < B.length + 1 :=
  h.length_eq ▸ List.idxOf_lt_length_of_mem (h.mem_iff.2 hi)

/-- The ranks are in the order of the rotations. -/
theorem SortsRotations.idxOf_lt_idxOf (h : SortsRotations B SA) {i j : Nat} (hi : i ≤ B.length) (hj : j ≤ B.length)
    (hij : lexLt (rotation (withSentinel B) i) (rotation (withSentinel B) j) = true) : SA.idxOf i < SA.idxOf j :=
  idxOf_lt_idxOf_of_pairwise (fun _ _ => lexLt_asymm _ _) h.2 (h.mem_iff.2 hi) (h.mem_iff.2 hj) hij

/-- The rotation that begins with the sentinel has rank 0 (R202). -/
theorem SortsRotations.head?_eq (h : SortsRotations B SA) : SA.head? = some B.length := by
  obtain ⟨first, rest, rfl⟩ := List.exists_cons_of_length_eq_add_one h.length_eq
  have hfirst : first ≤ B.length := h.mem_iff.1 List.mem_cons_self
  rcases Nat.lt_or_eq_of_le hfirst with hlt | rfl
  · have := h.idxOf_lt_idxOf (le_refl _) hfirst (lexLt_rotation_length hlt)
    rw [List.idxOf_cons_self] at this
    exact absurd this (Nat.not_lt_zero _)
  · rfl

theorem SortsRotations.idxOf_eq_zero_iff (h : SortsRotations B SA) {i : Nat} : SA.idxOf i = 0 ↔ i = B.length := by
  obtain ⟨rest, rfl⟩ := List.head?_eq_some_iff.1 h.head?_eq
  by_cases hi : B.length = i
  · simp [hi]
  · simp [List.idxOf_cons_ne rest hi, Ne.symm hi]

/-- The last symbol of the rotation of each rank (R201). -/
theorem SortsRotations.lastColumn_getD_idxOf (h : SortsRotations B SA) {r : Nat} (hr : r ≤ B.length) :
    (lastColumn (withSentinel B) SA).getD (SA.idxOf r) .sentinel
      = (withSentinel B).getD ((r + B.length) % (B.length + 1)) .sentinel := by
  have hlt : SA.idxOf r < SA.length := List.idxOf_lt_length_of_mem (h.mem_iff.2 hr)
  rw [lastColumn_withSentinel, List.getD_eq_getElem _ _ (by rwa [List.length_map]), List.getElem_map, List.getElem_idxOf]

/-- The last column without its sentinel entry: for each other rotation, the byte before its position. -/
theorem SortsRotations.eraseIdx_lastColumn (h : SortsRotations B SA) :
    (lastColumn (withSentinel B) SA).eraseIdx (SA.idxOf 0)
      = ((SA.erase 0).map fun r => B.getD (r - 1) 0).map Sym.byte := by
  rw [lastColumn_withSentinel, List.eraseIdx_map, List.eraseIdx_idxOf_eq_erase, List.map_map]
  refine List.map_congr_left fun r hr => ?_
  obtain ⟨hr0, hr⟩ := (List.Nodup.mem_erase_iff h.nodup).1 hr
  rw [withSentinel_getD_pred (h.mem_iff.1 hr), if_neg hr0]
  rfl

end

/-! ## The forward function and the relation of R201 -/

theorem rt_index (B : List Byte) : (rt B).2 = (sortedRotations (withSentinel B)).idxOf 0 := rfl

theorem rt_column (B : List Byte) :
    (rt B).1 = ((sortedRotations (withSentinel B)).erase 0).map fun r => B.getD (r - 1) 0 := by
  rw [← filterMap_toByte?_map_byte (List.map _ _), ← (sortsRotations_sortedRotations B).eraseIdx_lastColumn]
  rfl

theorem rt_getElem?_index (B : List Byte) : (sortedRotations (withSentinel B))[(rt B).2]? = some 0 := by
  have h0 := (sortsRotations_sortedRotations B).mem_iff.2 (Nat.zero_le _)
  rw [rt_index, List.getElem?_eq_getElem (List.idxOf_lt_length_of_mem h0), List.getElem_idxOf]

/-- Putting the sentinel back at the index gives the last column (R201, R205). -/
theorem columnWithSentinel_rt (B : List Byte) :
    columnWithSentinel (rt B).1 (rt B).2 = lastColumn (withSentinel B) (sortedRotations (withSentinel B)) := by
  have h := sortsRotations_sortedRotations B
  have h0 : (0 : Nat) ≤ B.length := Nat.zero_le _
  have hlt : (rt B).2 < (lastColumn (withSentinel B) (sortedRotations (withSentinel B))).length := by
    rw [lastColumn_withSentinel, List.length_map]
    exact List.idxOf_lt_length_of_mem (h.mem_iff.2 h0)
  have hsentinel : (lastColumn (withSentinel B) (sortedRotations (withSentinel B)))[(rt B).2] = .sentinel := by
    rw [← List.getD_eq_getElem _ .sentinel hlt, rt_index, h.lastColumn_getD_idxOf h0, withSentinel_getD_pred h0, if_pos rfl]
  rw [columnWithSentinel_eq_insertIdx ((rt_lengths B).2.trans_eq (rt_lengths B).1.symm), rt_column,
    ← h.eraseIdx_lastColumn, ← rt_index]
  conv_rhs => rw [← List.insertIdx_eraseIdx_getElem hlt, hsentinel]

/-- The relation of R201 is the graph of RT: the sorted rotations are unique, and the column and the index follow. -/
theorem isReordering_iff_rt_eq {B C : List Byte} {I : Nat} : IsReordering B C I ↔ rt B = (C, I) := by
  constructor
  · rintro ⟨SA, hperm, hsorted, hindex, hcolumn⟩
    obtain rfl := SortsRotations.eq_sortedRotations ⟨hperm, hsorted⟩
    have h := sortsRotations_sortedRotations B
    obtain ⟨hlt, hzero⟩ := List.getElem?_eq_some_iff.1 hindex
    have hI : (rt B).2 = I := by rw [rt_index, ← hzero, h.nodup.idxOf_getElem]
    rw [← lastColumn_withSentinel, ← columnWithSentinel_rt] at hcolumn
    have hlen := congrArg List.length hcolumn
    simp only [length_columnWithSentinel, Nat.succ.injEq] at hlen
    have hle := (rt_lengths B).2.trans_eq (rt_lengths B).1.symm
    have hmap := eraseIdx_columnWithSentinel hle
    subst hI
    rw [← hcolumn, eraseIdx_columnWithSentinel (hle.trans_eq hlen.symm)] at hmap
    rw [← filterMap_toByte?_map_byte C, hmap, filterMap_toByte?_map_byte]
  · intro h
    obtain ⟨hperm, hsorted⟩ := sortsRotations_sortedRotations B
    obtain ⟨rfl, rfl⟩ := Prod.mk.inj h
    exact ⟨_, hperm, hsorted, rt_getElem?_index B, (columnWithSentinel_rt B).trans (lastColumn_withSentinel ..)⟩

/-! ## The properties of R202 -/

theorem perm_rt_column (B : List Byte) : (rt B).1.Perm B := by
  have hperm := ((sortsRotations_sortedRotations B).1.erase 0).map fun r => B.getD (r - 1) 0
  rw [List.range_succ_eq_map, List.erase_cons_head, List.map_map] at hperm
  have hbytes : (List.range B.length).map ((fun r => B.getD (r - 1) 0) ∘ Nat.succ) = B :=
    List.ext_getElem (by simp) fun i h h' => by simp [List.getElem?_eq_getElem h']
  rw [rt_column]
  exact hperm.trans (.of_eq hbytes)

theorem rt_index_eq_zero_iff (B : List Byte) : (rt B).2 = 0 ↔ B.length = 0 := by
  rw [rt_index, (sortsRotations_sortedRotations B).idxOf_eq_zero_iff, eq_comm]

/-- The rotation of rank 0 begins with the sentinel, so its last symbol is the block's last byte. -/
theorem head?_rt_column {B : List Byte} (hB : B ≠ []) : (rt B).1.head? = some (B.getLast hB) := by
  obtain ⟨rest, hrest⟩ := List.head?_eq_some_iff.1 (sortsRotations_sortedRotations B).head?_eq
  have hpos := List.length_pos_iff.2 hB
  rw [rt_column, hrest, List.erase_cons_tail (by simpa using hB), List.map_cons, List.head?_cons, List.getLast_eq_getElem,
    List.getD_eq_getElem]

/-- Settles O20: each property read off the sorted rotations. -/
theorem reorderingProperties : Obligations.ReorderingProperties := fun B =>
  ⟨(rt_lengths B).1, perm_rt_column B, (rt_lengths B).2, rt_index_eq_zero_iff B, rfl, fun hB => head?_rt_column hB⟩

/-! ## The successor mapping (R205) -/

/-- The row that follows row `p`: the model's reading of the successor mapping. -/
def nextRow (T : List Nat) (p : Nat) : Nat := T.getD p 0

/-- The order of R205 on positions of `L`: by symbol, then by position. -/
def SymbolBefore (L : List Sym) (i j : Nat) : Prop :=
  (L.getD i .sentinel).rank < (L.getD j .sentinel).rank ∨ (L.getD i .sentinel = L.getD j .sentinel ∧ i < j)

section
variable {L : List Sym}

theorem SymbolBefore.asymm {i j : Nat} (h : SymbolBefore L i j) : ¬SymbolBefore L j i := by
  rintro (h' | ⟨heq', hlt'⟩) <;> rcases h with h | ⟨heq, hlt⟩
  · omega
  · rw [heq] at h'; omega
  · rw [heq'] at h; omega
  · omega

theorem perm_successors (L : List Sym) : (successors L).Perm (List.range L.length) := by
  have hperm := (perm_sortList (fun p q => p.1.rank < q.1.rank || (p.1.rank == q.1.rank && p.2 < q.2)) L.zipIdx).map Prod.snd
  rwa [List.zipIdx_map_snd, ← List.range_eq_range'] at hperm

@[simp] theorem length_successors (L : List Sym) : (successors L).length = L.length := by
  simpa using (perm_successors L).length_eq

theorem pairwise_successors (L : List Sym) : (successors L).Pairwise (SymbolBefore L) := by
  unfold successors
  refine List.pairwise_map.2 (List.Pairwise.imp_of_mem ?_ (pairwise_sortList ?_ ?_))
  · intro p q hp hq hpq
    have hp := List.mk_mem_zipIdx_iff_getElem?.1 ((perm_sortList _ _).mem_iff.1 hp)
    have hq := List.mk_mem_zipIdx_iff_getElem?.1 ((perm_sortList _ _).mem_iff.1 hq)
    simpa [SymbolBefore, List.getD_eq_getElem?_getD, hp, hq, rank_injective.eq_iff] using hpq
  · simp only [Bool.or_eq_true, Bool.and_eq_true, decide_eq_true_eq, beq_iff_eq]
    omega
  · refine List.pairwise_iff_getElem.2 fun i j hi hj hij => ?_
    simp only [List.getElem_zipIdx, Bool.or_eq_true, Bool.and_eq_true, decide_eq_true_eq, beq_iff_eq]
    omega

theorem eq_successors {T : List Nat} (hperm : T.Perm (List.range L.length)) (hsorted : T.Pairwise (SymbolBefore L)) :
    T = successors L :=
  (hperm.trans (perm_successors L).symm).eq_of_pairwise (fun _ _ _ _ hij hji => absurd hji hij.asymm) hsorted
    (pairwise_successors L)

theorem nextRow_eq_getElem {p : Nat} (hp : p < L.length) :
    nextRow (successors L) p = (successors L)[p]'(by rwa [length_successors]) :=
  List.getD_eq_getElem _ _ _

theorem nextRow_lt {p : Nat} (hp : p < L.length) : nextRow (successors L) p < L.length := by
  rw [nextRow_eq_getElem hp]
  exact List.mem_range.1 ((perm_successors L).mem_iff.1 (List.getElem_mem _))

theorem nextRow_injOn : Set.InjOn (nextRow (successors L)) (Set.Iio L.length) := by
  intro p hp q hq h
  rw [nextRow_eq_getElem hp, nextRow_eq_getElem hq] at h
  exact (((perm_successors L).nodup_iff.2 List.nodup_range).getElem_inj_iff).1 h

theorem symbolBefore_nextRow {p q : Nat} (hpq : p < q) (hq : q < L.length) :
    SymbolBefore L (nextRow (successors L) p) (nextRow (successors L) q) := by
  rw [nextRow_eq_getElem (hpq.trans hq), nextRow_eq_getElem hq]
  exact List.pairwise_iff_getElem.1 (pairwise_successors L) _ _ _ _ hpq

end

/-! ## The inverse walk recovers the block -/

section
variable {B : List Byte} {SA : List Nat}

/-- The rank of the next rotation is where the successor mapping leads: sorting the last symbols stably sorts the rotations that
begin with them. -/
theorem SortsRotations.successors_lastColumn (h : SortsRotations B SA) :
    successors (lastColumn (withSentinel B) SA) = SA.map fun i => SA.idxOf ((i + 1) % (B.length + 1)) := by
  have hnext (i : Nat) : (i + 1) % (B.length + 1) ≤ B.length := Nat.lt_succ_iff.1 (Nat.mod_lt _ (Nat.succ_pos _))
  refine (eq_successors (perm_range_of_nodup ?_ ?_ ?_) (List.pairwise_map.2 (h.2.imp_of_mem ?_))).symm
  · refine (List.nodup_map_iff_inj_on h.nodup).2 fun i hi j hj hij => ?_
    have hmod := (List.idxOf_inj (h.mem_iff.2 (hnext i))).1 hij
    have hi := h.mem_iff.1 hi
    have hj := h.mem_iff.1 hj
    exact (Nat.ModEq.add_right_cancel' 1 hmod).eq_of_lt_of_lt (Nat.lt_succ_of_le hi) (Nat.lt_succ_of_le hj)
  · intro p hp
    obtain ⟨i, -, rfl⟩ := List.mem_map.1 hp
    simpa [lastColumn_withSentinel, h.length_eq] using h.idxOf_lt (hnext i)
  · simp [lastColumn_withSentinel]
  · intro i j hi hj hij
    have hi := h.mem_iff.1 hi
    have hj := h.mem_iff.1 hj
    have hsymbol {k : Nat} (hk : k ≤ B.length) : (lastColumn (withSentinel B) SA).getD (SA.idxOf ((k + 1) % (B.length + 1)))
        .sentinel = (withSentinel B).getD k .sentinel := by
      rw [h.lastColumn_getD_idxOf (hnext k), Nat.mod_add_mod, Nat.add_assoc, Nat.add_comm 1, Nat.add_mod_right,
        Nat.mod_eq_of_lt (Nat.lt_succ_of_le hk)]
    obtain ⟨xs, hxs, hxs', hxslen⟩ := rotate_cons_and_succ (X := withSentinel B) (i := i) (by simp; omega)
    obtain ⟨ys, hys, hys', hyslen⟩ := rotate_cons_and_succ (X := withSentinel B) (i := j) (by simp; omega)
    rw [rotation_eq_rotate (by simp; omega), rotation_eq_rotate (by simp; omega), hxs, hys, lexLt_cons] at hij
    unfold SymbolBefore
    rw [hsymbol hi, hsymbol hj]
    refine hij.imp_right fun ⟨heq, htail⟩ => ⟨heq, h.idxOf_lt_idxOf (hnext i) (hnext j) ?_⟩
    rw [rotation_eq_rotate (by simpa using (hnext i).trans (Nat.le_succ _)),
      rotation_eq_rotate (by simpa using (hnext j).trans (Nat.le_succ _)), ← length_withSentinel B, List.rotate_mod,
      List.rotate_mod, hxs', hys']
    exact lexLt_append (hxslen.trans hyslen.symm) htail _ _

theorem SortsRotations.nextRow_idxOf (h : SortsRotations B SA) {i : Nat} (hi : i < B.length) :
    nextRow (successors (lastColumn (withSentinel B) SA)) (SA.idxOf i) = SA.idxOf (i + 1) := by
  have hmem : SA.idxOf i < SA.length := List.idxOf_lt_length_of_mem (h.mem_iff.2 hi.le)
  rw [h.successors_lastColumn, nextRow, List.getD_eq_getElem _ _ (by rwa [List.length_map]), List.getElem_map,
    List.getElem_idxOf, Nat.mod_eq_of_lt (Nat.succ_lt_succ hi)]

/-- From the rank of rotation `i` the walk reads the rest of the block (R205). -/
theorem SortsRotations.walkRows_eq (h : SortsRotations B SA) {k i : Nat} (hk : i + k = B.length) :
    walkRows (lastColumn (withSentinel B) SA) (successors (lastColumn (withSentinel B) SA)) k (SA.idxOf i)
      = .ok (B.drop i) := by
  induction k generalizing i with
  | zero => rw [walkRows, List.drop_of_length_le (by omega)]
  | succ k ih =>
    have hi : i < B.length := by omega
    have hnext := h.nextRow_idxOf hi
    have hne : SA.idxOf i ≠ 0 := fun h0 => hi.ne (h.idxOf_eq_zero_iff.1 h0)
    have hsymbol : (lastColumn (withSentinel B) SA).getD (SA.idxOf (i + 1)) .sentinel = .byte B[i] := by
      rw [h.lastColumn_getD_idxOf hi, withSentinel_getD_pred hi, if_neg (Nat.succ_ne_zero i), Nat.succ_sub_one,
        List.getD_eq_getElem]
    rw [nextRow] at hnext
    rw [walkRows, if_neg hne, hnext, hsymbol, ih (by omega), List.drop_eq_getElem_cons hi]

end

/-- For an index in range the inverse is the walk from that row (R205). -/
theorem rtInv_eq_walkRows {C : List Byte} {I : Nat} (hI : I ≤ C.length) :
    rtInv C I = walkRows (columnWithSentinel C I) (successors (columnWithSentinel C I)) C.length I := by
  rw [rtInv, if_neg (Nat.not_lt.2 hI)]

/-- R207: the inverse recovers every block. -/
theorem rtInv_rt (B : List Byte) : rtInv (rt B).1 (rt B).2 = .ok B := by
  obtain ⟨hcolumn, hindex⟩ := rt_lengths B
  rw [rtInv_eq_walkRows (hindex.trans_eq hcolumn.symm), columnWithSentinel_rt, hcolumn, rt_index,
    (sortsRotations_sortedRotations B).walkRows_eq (Nat.zero_add _), List.drop_zero]

/-! ## Orbits of a permutation of the first numbers -/

section
variable {f : Nat → Nat} {n : Nat}

/-- An orbit that does not return to 0 within `n` steps repeats nothing in that time. -/
theorem injOn_orbit (hmaps : Set.MapsTo f (Set.Iio (n + 1)) (Set.Iio (n + 1))) (hinj : Set.InjOn f (Set.Iio (n + 1)))
    (hne : ∀ m < n, f^[m] (f 0) ≠ 0) : Set.InjOn (fun k => f^[k] (f 0)) (Set.Iio (n + 1)) := by
  have hlt {a b : Nat} (hb : b ≤ n) (hab : a < b) (h : f^[a] (f 0) = f^[b] (f 0)) : False := by
    obtain ⟨d, rfl⟩ := Nat.exists_eq_add_of_lt hab
    have hcancel : f^[a + 1] 0 = f^[a + 1] (f^[d] (f 0)) := by
      rw [← Function.iterate_add_apply, Nat.add_right_comm]
      exact h
    refine hne d (by omega) (hinj.iterate hmaps (a + 1) ?_ (Nat.succ_pos n) hcancel.symm)
    exact hmaps.iterate (d + 1) (Nat.succ_pos n)
  intro a ha b hb h
  rcases Nat.lt_trichotomy a b with hab | hab | hab
  · exact (hlt (Nat.lt_succ_iff.1 hb) hab h).elim
  · exact hab
  · exact (hlt (Nat.lt_succ_iff.1 ha) hab h.symm).elim

/-- Such an orbit passes through all `n + 1` places. -/
theorem surjOn_orbit (hmaps : Set.MapsTo f (Set.Iio (n + 1)) (Set.Iio (n + 1))) (hinj : Set.InjOn f (Set.Iio (n + 1)))
    (hne : ∀ m < n, f^[m] (f 0) ≠ 0) : Set.SurjOn (fun k => f^[k] (f 0)) (Set.Iio (n + 1)) (Set.Iio (n + 1)) := by
  have hall := Finset.surjOn_of_injOn_of_card_le (s := Finset.range (n + 1)) (t := Finset.range (n + 1))
    (fun k => f^[k] (f 0))
  simp only [Finset.coe_range] at hall
  exact hall (fun k _ => hmaps.iterate k (hmaps (Nat.succ_pos n))) (injOn_orbit hmaps hinj hne) le_rfl

/-- It is back at 0 after `n` steps. -/
theorem orbit_returns (hmaps : Set.MapsTo f (Set.Iio (n + 1)) (Set.Iio (n + 1))) (hinj : Set.InjOn f (Set.Iio (n + 1)))
    (hne : ∀ m < n, f^[m] (f 0) ≠ 0) : f^[n] (f 0) = 0 := by
  obtain ⟨k, hk, hzero⟩ := surjOn_orbit hmaps hinj hne (Nat.succ_pos n : 0 ∈ Set.Iio (n + 1))
  have hkn : k = n := by
    by_contra hkn
    exact hne k (lt_of_le_of_ne (Nat.lt_succ_iff.1 hk) hkn) hzero
  exact hkn ▸ hzero

/-- A permutation of the numbers up to `n` is one cycle exactly when the orbit of 0 does not close early (R207). -/
theorem oneCycle_iff_orbit_ne_zero (hmaps : Set.MapsTo f (Set.Iio (n + 1)) (Set.Iio (n + 1)))
    (hinj : Set.InjOn f (Set.Iio (n + 1))) :
    (∀ p < n + 1, ∃ k, f^[k] 0 = p) ↔ ∀ m < n, f^[m] (f 0) ≠ 0 := by
  constructor
  · intro hall m hm hzero
    have hperiodic : Function.IsPeriodicPt f (m + 1) 0 := hzero
    have hsub : Finset.range (n + 1) ⊆ (Finset.range (m + 1)).image fun k => f^[k] 0 := by
      intro p hp
      obtain ⟨k, rfl⟩ := hall p (Finset.mem_range.1 hp)
      exact Finset.mem_image.2
        ⟨k % (m + 1), Finset.mem_range.2 (Nat.mod_lt _ (Nat.succ_pos m)), hperiodic.iterate_mod_apply k⟩
    have hcard := (Finset.card_le_card hsub).trans Finset.card_image_le
    simp only [Finset.card_range] at hcard
    omega
  · intro hne p hp
    obtain ⟨k, -, hk⟩ := surjOn_orbit hmaps hinj hne hp
    exact ⟨k + 1, hk⟩

end

/-! ## What the walk reads -/

/-- The first `k` symbols of sorted row `p`, as the successor mapping spells them. -/
def spell (L : List Sym) (T : List Nat) : Nat → Nat → List Sym
  | 0, _ => []
  | k + 1, p => L.getD (nextRow T p) .sentinel :: spell L T k (nextRow T p)

section
variable {L : List Sym} {T : List Nat}

@[simp] theorem length_spell (k p : Nat) : (spell L T k p).length = k := by
  induction k generalizing p with
  | zero => rfl
  | succ k ih => rw [spell, List.length_cons, ih]

theorem spell_succ_last (k p : Nat) :
    spell L T (k + 1) p = spell L T k p ++ [L.getD ((nextRow T)^[k + 1] p) .sentinel] := by
  induction k generalizing p with
  | zero => rfl
  | succ k ih =>
    rw [spell, ih]
    rfl

theorem spell_getD {k i : Nat} (hi : i < k) (p : Nat) :
    (spell L T k p).getD i .sentinel = L.getD ((nextRow T)^[i + 1] p) .sentinel := by
  induction k generalizing i p with
  | zero => cases hi
  | succ k ih =>
    cases i with
    | zero => rfl
    | succ i => exact ih (Nat.lt_of_succ_lt_succ hi) _

/-- A walk that succeeds does not meet row 0, and returns the symbols it spells. -/
theorem spell_of_walkRows {k p : Nat} {bs : List Byte} (h : walkRows L T k p = .ok bs) :
    (∀ m < k, (nextRow T)^[m] p ≠ 0) ∧ spell L T k p = bs.map .byte := by
  induction k generalizing p bs with
  | zero =>
    cases h
    exact ⟨fun m hm => absurd hm (Nat.not_lt_zero m), rfl⟩
  | succ k ih =>
    unfold walkRows at h
    split at h
    · cases h
    next hp =>
      split at h
      · cases h
      next b hb =>
        split at h
        next bs' hbs =>
          cases h
          obtain ⟨hne, hspell⟩ := ih hbs
          refine ⟨fun m hm => ?_, ?_⟩
          · cases m with
            | zero => exact hp
            | succ m => exact hne m (Nat.lt_of_succ_lt_succ hm)
          · rw [spell, List.map_cons]
            exact congrArg₂ _ hb hspell
        · cases h

/-- Where every row but row 0 leads to a byte, a walk that does not meet row 0 succeeds. -/
theorem exists_walkRows_ok (hmaps : Set.MapsTo (nextRow T) (Set.Iio L.length) (Set.Iio L.length))
    (hbyte : ∀ p < L.length, p ≠ 0 → L.getD (nextRow T p) .sentinel ≠ .sentinel) {k p : Nat} (hp : p < L.length)
    (hne : ∀ m < k, (nextRow T)^[m] p ≠ 0) : ∃ bs, walkRows L T k p = .ok bs := by
  induction k generalizing p with
  | zero => exact ⟨[], rfl⟩
  | succ k ih =>
    have hp0 : p ≠ 0 := hne 0 (Nat.succ_pos k)
    obtain ⟨bs, hbs⟩ := ih (hmaps hp) fun m hm => hne (m + 1) (Nat.succ_lt_succ hm)
    rw [walkRows, if_neg hp0]
    cases hsymbol : L.getD (T.getD p 0) .sentinel with
    | sentinel => exact absurd hsymbol (hbyte p hp hp0)
    | byte b =>
      rw [nextRow] at hbs
      exact ⟨b :: bs, by simp only [hbs]⟩

/-- The rows are in the order of what they spell: rows that begin alike are followed by rows in the same order. -/
theorem spell_not_lexLt {k p q : Nat} (hpq : p < q) (hq : q < L.length) :
    ¬lexLt (spell L (successors L) k q) (spell L (successors L) k p) = true := by
  induction k generalizing p q with
  | zero => simp [spell, lexLt]
  | succ k ih =>
    have hbefore := symbolBefore_nextRow hpq hq
    rw [spell, spell, lexLt_cons]
    rintro (hlt | ⟨heq, hlt⟩)
    · exact hbefore.asymm (.inl hlt)
    · rcases hbefore with hbefore | ⟨-, hbefore⟩
      · rw [heq] at hbefore
        exact lt_irrefl _ hbefore
      · exact ih hbefore (nextRow_lt hq) hlt

/-- A row that the mapping leads back to in `k` steps spells the rotations of one sequence. -/
theorem rotate_spell {k p : Nat} (hperiodic : Function.IsPeriodicPt (nextRow T) (k + 1) p) (i : Nat) :
    (spell L T (k + 1) p).rotate i = spell L T (k + 1) ((nextRow T)^[i] p) := by
  induction i with
  | zero => rw [List.rotate_zero]; rfl
  | succ i ih =>
    have hnext : (nextRow T)^[k + 1] ((nextRow T)^[i + 1] p) = (nextRow T)^[i + 1] p := hperiodic.apply_iterate (i + 1)
    rw [← List.rotate_rotate, ih, spell, List.rotate_cons_succ, List.rotate_zero, ← Function.iterate_succ_apply' (nextRow T),
      spell_succ_last, hnext]

end

/-! ## The inverse function succeeds exactly on the outputs of RT (R207) -/

section
variable {C : List Byte} {I : Nat}

/-- Row 0 is followed by the row of the sentinel. -/
theorem nextRow_zero (hI : I ≤ C.length) : nextRow (successors (columnWithSentinel C I)) 0 = I := by
  have hsentinel {p : Nat} (hp : p ≤ C.length) := columnWithSentinel_getD_eq_sentinel hI hp
  have hlen := length_columnWithSentinel C I
  have hfirst := nextRow_lt (L := columnWithSentinel C I) (p := 0) (by omega)
  have hmem : I ∈ successors (columnWithSentinel C I) :=
    (perm_successors _).mem_iff.2 (List.mem_range.2 (by omega))
  obtain ⟨p, hp, hpI⟩ := List.getElem_of_mem hmem
  rw [length_successors] at hp
  rw [← nextRow_eq_getElem hp] at hpI
  rcases Nat.eq_zero_or_pos p with rfl | hpos
  · exact hpI
  · have hbefore := symbolBefore_nextRow hpos hp
    rw [hpI, SymbolBefore, (hsentinel hI).2 rfl] at hbefore
    rcases hbefore with hbefore | ⟨heq, -⟩
    · exact absurd hbefore (Nat.not_lt_zero _)
    · exact (hsentinel (by omega)).1 heq

theorem mapsTo_nextRow (C : List Byte) (I : Nat) :
    Set.MapsTo (nextRow (successors (columnWithSentinel C I))) (Set.Iio (C.length + 1)) (Set.Iio (C.length + 1)) :=
  length_columnWithSentinel C I ▸ fun _ hp => nextRow_lt hp

theorem injOn_nextRow (C : List Byte) (I : Nat) :
    Set.InjOn (nextRow (successors (columnWithSentinel C I))) (Set.Iio (C.length + 1)) :=
  length_columnWithSentinel C I ▸ nextRow_injOn

/-- The walk succeeds exactly when it does not meet row 0 early. -/
theorem exists_rtInv_ok_iff (hI : I ≤ C.length) :
    (∃ B, rtInv C I = .ok B) ↔ ∀ m < C.length, (nextRow (successors (columnWithSentinel C I)))^[m] I ≠ 0 := by
  have hlen := length_columnWithSentinel C I
  rw [rtInv_eq_walkRows hI]
  constructor
  · rintro ⟨B, hB⟩
    exact (spell_of_walkRows hB).1
  · refine exists_walkRows_ok (hlen ▸ mapsTo_nextRow C I) (fun p hp hp0 hsymbol => hp0 ?_) (by omega)
    rw [hlen] at hp
    have hpI := (columnWithSentinel_getD_eq_sentinel hI (Nat.lt_succ_iff.1 (mapsTo_nextRow C I hp))).1 hsymbol
    exact injOn_nextRow C I hp (Nat.succ_pos _) (hpI.trans (nextRow_zero hI).symm)

theorem exists_rtInv_ok_iff_oneCycle (hI : I ≤ C.length) :
    (∃ B, rtInv C I = .ok B) ↔ OneCycle (successors (columnWithSentinel C I)) := by
  have hcycle := oneCycle_iff_orbit_ne_zero (mapsTo_nextRow C I) (injOn_nextRow C I)
  rw [exists_rtInv_ok_iff hI, OneCycle, length_successors, length_columnWithSentinel]
  rw [nextRow_zero hI] at hcycle
  exact hcycle.symm

/-- The row the walk of RTinv stands in after `k` steps. -/
def walkRow (C : List Byte) (I k : Nat) : Nat := (nextRow (successors (columnWithSentinel C I)))^[k] I

theorem walkRow_lt (hI : I ≤ C.length) (i : Nat) : walkRow C I i < C.length + 1 :=
  (mapsTo_nextRow C I).iterate i (Nat.lt_succ_of_le hI)

end

section
variable {B C : List Byte} {I : Nat} (hI : I ≤ C.length) (h : rtInv C I = .ok B)
include hI h

theorem walkRow_ne_zero : ∀ m < C.length, walkRow C I m ≠ 0 := (exists_rtInv_ok_iff hI).1 ⟨B, h⟩

theorem injOn_walkRow : Set.InjOn (walkRow C I) (Set.Iio (C.length + 1)) := by
  have hinj := injOn_orbit (mapsTo_nextRow C I) (injOn_nextRow C I)
  rw [nextRow_zero hI] at hinj
  exact hinj (walkRow_ne_zero hI h)

/-- After the last byte the walk stands in row 0, and one more step leads back to its start. -/
theorem walkRow_length : walkRow C I C.length = 0 := by
  have hreturns := orbit_returns (mapsTo_nextRow C I) (injOn_nextRow C I)
  rw [nextRow_zero hI] at hreturns
  exact hreturns (walkRow_ne_zero hI h)

theorem isPeriodicPt_nextRow :
    Function.IsPeriodicPt (nextRow (successors (columnWithSentinel C I))) (C.length + 1) I := by
  have hlast := walkRow_length hI h
  rw [walkRow] at hlast
  rw [Function.IsPeriodicPt, Function.IsFixedPt, Function.iterate_succ_apply', hlast, nextRow_zero hI]

/-- The walk spells the block, and then the sentinel. -/
theorem withSentinel_eq_spell :
    withSentinel B = spell (columnWithSentinel C I) (successors (columnWithSentinel C I)) (C.length + 1) I := by
  have hwalk := (rtInv_eq_walkRows hI).symm.trans h
  rw [spell_succ_last, (spell_of_walkRows hwalk).2, isPeriodicPt_nextRow hI h,
    (columnWithSentinel_getD_eq_sentinel hI hI).2 rfl, withSentinel]

/-- Row `walkRow C I i` spells rotation `i` of the block. -/
theorem rotation_eq_spell {i : Nat} (hi : i ≤ C.length) :
    rotation (withSentinel B) i
      = spell (columnWithSentinel C I) (successors (columnWithSentinel C I)) (C.length + 1) (walkRow C I i) := by
  have hlen := rtInv_length h
  rw [rotation_eq_rotate (by rw [length_withSentinel]; omega), withSentinel_eq_spell hI h,
    rotate_spell (isPeriodicPt_nextRow hI h), walkRow]

/-- So the rank of each rotation is the row that spells it. -/
theorem map_walkRow_sortedRotations :
    (sortedRotations (withSentinel B)).map (walkRow C I) = List.range (C.length + 1) := by
  have hsorts := sortsRotations_sortedRotations B
  have hlen : B.length = C.length := rtInv_length h
  have hle {i : Nat} (hi : i ∈ sortedRotations (withSentinel B)) : i ≤ C.length := hlen ▸ hsorts.mem_iff.1 hi
  refine (perm_range_of_nodup ?_ ?_ ?_).eq_of_pairwise (fun _ _ _ _ hij hji => absurd hji (Nat.lt_asymm hij))
    (List.pairwise_map.2 (hsorts.2.imp_of_mem ?_)) List.pairwise_lt_range
  · exact (List.nodup_map_iff_inj_on hsorts.nodup).2 fun i hi j hj hij =>
      injOn_walkRow hI h (Nat.lt_succ_of_le (hle hi)) (Nat.lt_succ_of_le (hle hj)) hij
  · intro p hp
    obtain ⟨i, -, rfl⟩ := List.mem_map.1 hp
    exact walkRow_lt hI i
  · rw [List.length_map, hsorts.length_eq, hlen]
  · intro i j hi hj hij
    rw [rotation_eq_spell hI h (hle hi), rotation_eq_spell hI h (hle hj)] at hij
    rcases Nat.lt_trichotomy (walkRow C I i) (walkRow C I j) with hlt | heq | hgt
    · exact hlt
    · rw [heq] at hij
      exact absurd hij (lexLt_asymm _ _ hij)
    · exact absurd hij (spell_not_lexLt hgt ((walkRow_lt hI i).trans_eq (length_columnWithSentinel C I).symm))

/-- The symbol before position `i` of the block, in the cyclic order, is the last one of the row that spells rotation `i`. -/
theorem withSentinel_getD_walkRow (i : Nat) :
    (withSentinel B).getD ((i + C.length) % (C.length + 1)) .sentinel
      = (columnWithSentinel C I).getD (walkRow C I i) .sentinel := by
  have hperiodic := isPeriodicPt_nextRow hI h
  rw [withSentinel_eq_spell hI h, spell_getD (Nat.mod_lt _ (Nat.succ_pos _)), ← hperiodic.iterate_mod_apply,
    Nat.mod_add_mod, Nat.add_assoc, Nat.add_mod_right, hperiodic.iterate_mod_apply, walkRow]

/-- A block the inverse returns has the column and the index it was read from. -/
theorem isReordering_of_rtInv : IsReordering B C I := by
  have hsorts := sortsRotations_sortedRotations B
  have hlen : B.length = C.length := rtInv_length h
  have hmap := map_walkRow_sortedRotations hI h
  refine ⟨sortedRotations (withSentinel B), hsorts.1, hsorts.2, ?_, ?_⟩
  · have hrow := congrArg (·[I]?) hmap
    simp only [List.getElem?_map, List.getElem?_range (Nat.lt_succ_of_le hI), Option.map_eq_some_iff] at hrow
    obtain ⟨i, hi, hrow⟩ := hrow
    have hle : i ≤ C.length := hlen ▸ hsorts.mem_iff.1 (List.mem_of_getElem? hi)
    rw [hi, injOn_walkRow hI h (Nat.lt_succ_of_le hle) (Nat.succ_pos _) hrow]
  · calc columnWithSentinel C I
        = (List.range (C.length + 1)).map fun p => (columnWithSentinel C I).getD p .sentinel :=
          List.ext_getElem (by simp) fun p hp _ => by simp [List.getElem?_eq_getElem hp]
      _ = (sortedRotations (withSentinel B)).map fun i => (columnWithSentinel C I).getD (walkRow C I i) .sentinel := by
          rw [← hmap, List.map_map]; rfl
      _ = _ := List.map_congr_left fun i _ => by
          rw [hlen, withSentinel_getD_walkRow hI h]

end

/-- RTinv returns a block exactly when the pair is the output of RT for it (R207). -/
theorem rtInv_eq_ok_iff {B C : List Byte} {I : Nat} (hI : I ≤ C.length) : rtInv C I = .ok B ↔ rt B = (C, I) := by
  constructor
  · intro h
    exact isReordering_iff_rt_eq.1 (isReordering_of_rtInv hI h)
  · intro h
    have hinv := rtInv_rt B
    rwa [h] at hinv

/-- Settles O21: the walk succeeds when the orbit of row 0 does not close early, and then it reads the rotations in order. -/
theorem inverseReorderingSucceedsExactlyOnOutputs : Obligations.InverseReorderingSucceedsExactlyOnOutputs :=
  fun _ _ hI => ⟨exists_rtInv_ok_iff_oneCycle hI, fun _ => rtInv_eq_ok_iff hI⟩

/-! ## The commands RT_FWD and RT_INV -/

section
variable {s : State}

theorem exec_rtFwd_ok {B C : List Byte} {I : Nat} (hlen : s.blkLenValue.toNat ≤ s.cfg.blockMax)
    (hread : s.readBuf .a s.blkLenValue.toNat = some B) (h : rt B = (C, I)) :
    exec .rtFwd s = .next (State.finished { s.writeBuf .c C with rotIdx := .val (BitVec.ofNat 32 I) }) := by
  simp only [exec, execRtFwd, if_neg (Nat.not_lt.2 hlen), hread, h]

variable {C : List Byte} (hlen : s.blkLenValue.toNat ≤ s.cfg.blockMax)
  (hread : s.readBuf .c s.blkLenValue.toNat = some C)
include hlen hread

theorem exec_rtInv_ok {B : List Byte} (h : rtInv C s.rotIdxValue.toNat = .ok B) :
    exec .rtInv s = .next (s.writeBuf .a B).finished := by
  simp only [exec, execRtInv, if_neg (Nat.not_lt.2 hlen), hread, h]

theorem exec_rtInv_error {e : ErrorKind} (h : rtInv C s.rotIdxValue.toNat = .error e) :
    exec .rtInv s = raiseIn .rtInv e s := by
  simp only [exec, execRtInv, if_neg (Nat.not_lt.2 hlen), hread, h]

/-- An index in range that makes no output of RT with the column is INVALID_COLUMN (R206). -/
theorem exec_rtInv_invalidColumn (hI : s.rotIdxValue.toNat ≤ C.length) (hnone : ∀ B, rt B ≠ (C, s.rotIdxValue.toNat)) :
    exec .rtInv s = raiseIn .rtInv .invalidColumn s := by
  cases h : rtInv C s.rotIdxValue.toNat with
  | ok B => exact absurd ((rtInv_eq_ok_iff hI).1 h) (hnone B)
  | error e =>
    rcases rtInv_error h with ⟨hover, -⟩ | ⟨-, rfl⟩
    · exact absurd hI (Nat.not_le.2 hover)
    · exact exec_rtInv_error hlen hread h

end

/-- Settles O19: RT_FWD stores the outputs of RT, which stand in the relation of R201. -/
theorem rtFwdSortsTheRotations : Obligations.RtFwdSortsTheRotations := by
  intro s B hlen hc hread
  obtain ⟨hcolumn, hindex⟩ := rt_lengths B
  obtain ⟨C, I, hrt⟩ : ∃ C I, rt B = (C, I) := ⟨_, _, rfl⟩
  rw [hrt] at hcolumn hindex
  have hfit : C.length ≤ s.cfg.blockMax := hcolumn.trans_le (length_le_of_readBuf hread hlen)
  refine ⟨_, C, I, exec_rtFwd_ok hlen hread hrt, isReordering_iff_rt_eq.2 hrt, hindex,
    hcolumn ▸ readBuf_of_memWriteBuf rfl, rfl, rfl, ⟨rfl, rfl, rfl⟩, ?_⟩
  have hstart := ChangesOnly.refl (· == .rotIdx) (fun b => if b = .c then B.length else 0) s
  exact ChangesOnly.finished { hstart.writeBuf hc (b := .c) hfit hcolumn.le with rotIdx := .inl rfl }

/-- Settles O22: the inverse of an output of RT is the block, which RT_INV stores. -/
theorem rtInvRecoversTheBlock : Obligations.RtInvRecoversTheBlock := by
  intro s B C I hlen hc hread hrot h
  have hrt := isReordering_iff_rt_eq.1 h
  obtain ⟨hcolumn, hindex⟩ := rt_lengths B
  rw [hrt] at hcolumn hindex
  have hn : B.length = s.blkLenValue.toNat := hcolumn.symm.trans (length_of_readBuf hread)
  have hI : s.rotIdxValue.toNat = I := by
    have := s.blkLenValue.isLt
    rw [hrot, BitVec.toNat_ofNat, Nat.mod_eq_of_lt (by omega)]
  have hinv : rtInv C s.rotIdxValue.toNat = .ok B :=
    hI ▸ (rtInv_eq_ok_iff (hindex.trans_eq hcolumn.symm)).2 hrt
  refine ⟨_, exec_rtInv_ok hlen hread hinv, hn ▸ readBuf_of_memWriteBuf rfl, rfl, ⟨rfl, rfl, rfl⟩, ?_⟩
  exact ((ChangesOnly.refl _ _ s).writeBuf hc (b := .a) (hn.trans_le hlen) (le_refl _)).finished

/-- Settles O23: the range of the index is checked first; then only outputs of RT succeed, and the index of a block with bytes is
never 0. -/
theorem rtInvRejectsBadIndexesAndColumns : Obligations.RtInvRejectsBadIndexesAndColumns := by
  intro s C hlen hread
  have hC : C.length = s.blkLenValue.toNat := length_of_readBuf hread
  refine ⟨fun hover => ?_, fun hI hnone => ?_, fun hrot hblk => ?_⟩
  · have herror : rtInv C s.rotIdxValue.toNat = .error .invalidRotationIndex := by rw [rtInv, if_pos (by omega)]
    exact ⟨_, exec_rtInv_error hlen hread herror, rfl⟩
  · exact ⟨_, exec_rtInv_invalidColumn hlen hread (by omega) fun B hB => hnone ⟨B, isReordering_iff_rt_eq.2 hB⟩, rfl⟩
  · have hzero : s.rotIdxValue.toNat = 0 := by rw [hrot]; rfl
    refine ⟨_, exec_rtInv_invalidColumn hlen hread (by omega) fun B hB => hblk ?_, rfl⟩
    have hempty : B.length = 0 := (rt_index_eq_zero_iff B).1 (by rw [hB, hzero])
    have hcolumn := (rt_lengths B).1
    rw [hB] at hcolumn
    exact BitVec.eq_of_toNat_eq (hC.symm.trans (hcolumn.trans hempty))

end Sys2Proof.Machine

namespace Sys2Proof.Machine

/-! ## The move-to-front step (R221) -/

section
variable {l : List Byte} {r : Nat}

theorem mtfMove_eq (h : r < l.length) : mtfMove l r = l[r] :: l.eraseIdx r := by
  rw [mtfMove, List.getD_eq_getElem _ _ h]

theorem mtfMove_getElem?_zero (h : r < l.length) : (mtfMove l r)[0]? = l[r]? := by
  rw [mtfMove_eq h, List.getElem?_cons_zero, List.getElem?_eq_getElem h]

theorem mtfMove_getElem?_of_le {i : Nat} (hpos : 1 ≤ i) (hi : i ≤ r) : (mtfMove l r)[i]? = l[i - 1]? := by
  obtain ⟨j, rfl⟩ := Nat.exists_eq_add_of_le' hpos
  exact List.getElem?_eraseIdx_of_lt hi

theorem mtfMove_getElem?_of_gt {i : Nat} (hi : r < i) : (mtfMove l r)[i]? = l[i]? := by
  obtain ⟨j, rfl⟩ := Nat.exists_eq_add_of_le' (Nat.one_le_of_lt hi)
  exact List.getElem?_eraseIdx_of_ge (Nat.le_of_lt_succ hi)

theorem mtfMove_zero (h : l ≠ []) : mtfMove l 0 = l := by
  cases l with
  | nil => exact absurd rfl h
  | cons x xs => rfl

end

/-! ## Ranks in a permutation of 0 to 255 -/

section
variable {l : List Byte} (h : l.Perm identityList)
include h

theorem length_of_perm_identityList : l.length = 256 := h.length_eq.trans length_identityList

theorem toNat_lt_length (r : Byte) : r.toNat < l.length := (length_of_perm_identityList h).symm ▸ r.isLt

theorem idxOf_lt_length (x : Byte) : l.idxOf x < l.length := List.idxOf_lt_length_iff.2 (h.mem_iff.2 (mem_identityList x))

/-- A rank fits in the byte that stands for it. -/
theorem toNat_ofNat_idxOf (x : Byte) : (BitVec.ofNat 8 (l.idxOf x)).toNat = l.idxOf x := by
  have hlt := (idxOf_lt_length h x).trans_eq (length_of_perm_identityList h)
  rw [BitVec.toNat_ofNat, Nat.mod_eq_of_lt hlt]

theorem getD_idxOf (x : Byte) : l.getD (l.idxOf x) 0 = x := by
  rw [List.getD_eq_getElem _ _ (idxOf_lt_length h x), List.getElem_idxOf]

theorem idxOf_getD (r : Byte) : l.idxOf (l.getD r.toNat 0) = r.toNat := by
  rw [List.getD_eq_getElem _ _ (toNat_lt_length h r)]
  exact (h.nodup_iff.2 nodup_identityList).idxOf_getElem _ _

/-- The rank of a byte is 0 exactly when the byte stands in front. -/
theorem ofNat_idxOf_eq_zero_iff (x : Byte) : BitVec.ofNat 8 (l.idxOf x) = 0#8 ↔ l.idxOf x = 0 := by
  rw [← BitVec.toNat_inj, toNat_ofNat_idxOf h]
  rfl

theorem perm_mtfMove_idxOf (x : Byte) : (mtfMove l (l.idxOf x)).Perm identityList :=
  (perm_mtfMove (idxOf_lt_length h x)).trans h

theorem perm_mtfMove_toNat (r : Byte) : (mtfMove l r.toNat).Perm identityList :=
  (perm_mtfMove (toNat_lt_length h r)).trans h

/-- A byte that has just come to the front is the only one of rank 0. -/
theorem idxOf_mtfMove_eq_zero_iff (x y : Byte) : (mtfMove l (l.idxOf x)).idxOf y = 0 ↔ y = x := by
  rw [mtfMove, getD_idxOf h]
  by_cases hxy : x = y
  · simp [hxy]
  · simp [List.idxOf_cons_ne _ hxy, Ne.symm hxy]

end

/-- Settles O24, reading the list the step builds as its entry `r` and the rest without it. -/
theorem moveToFrontShiftsEntries : Obligations.MoveToFrontShiftsEntries := by
  intro l r h hr
  have hlen := length_of_perm_identityList h
  have hrl : r < l.length := hr.trans_eq hlen.symm
  exact ⟨mtfMove_getElem?_zero hrl, fun _ => mtfMove_getElem?_of_le, fun _ => mtfMove_getElem?_of_gt,
    mtfMove_zero (List.ne_nil_of_length_pos (by omega)), (perm_mtfMove hrl).trans h⟩

/-! ## MTFenc and MTFdec -/

theorem mtfEncFrom_cons (l : List Byte) (x : Byte) (xs : List Byte) :
    mtfEncFrom l (x :: xs)
      = (BitVec.ofNat 8 (l.idxOf x) :: (mtfEncFrom (mtfMove l (l.idxOf x)) xs).1,
        (mtfEncFrom (mtfMove l (l.idxOf x)) xs).2) := rfl

theorem mtfDecFrom_cons (l : List Byte) (r : Byte) (rs : List Byte) :
    mtfDecFrom l (r :: rs)
      = (l.getD r.toNat 0 :: (mtfDecFrom (mtfMove l r.toNat) rs).1, (mtfDecFrom (mtfMove l r.toNat) rs).2) := rfl

/-- The decoder meets the lists the encoder went through. -/
theorem mtfDecFrom_mtfEncFrom {l : List Byte} (h : l.Perm identityList) (S : List Byte) :
    mtfDecFrom l (mtfEncFrom l S).1 = (S, (mtfEncFrom l S).2) := by
  induction S generalizing l with
  | nil => rfl
  | cons x xs ih =>
    rw [mtfEncFrom_cons, mtfDecFrom_cons, toNat_ofNat_idxOf h, getD_idxOf h, ih (perm_mtfMove_idxOf h x)]

/-- The encoder meets the lists the decoder went through. -/
theorem mtfEncFrom_mtfDecFrom {l : List Byte} (h : l.Perm identityList) (R : List Byte) :
    mtfEncFrom l (mtfDecFrom l R).1 = (R, (mtfDecFrom l R).2) := by
  induction R generalizing l with
  | nil => rfl
  | cons r rs ih =>
    rw [mtfDecFrom_cons, mtfEncFrom_cons, idxOf_getD h, BitVec.ofNat_toNat, BitVec.setWidth_eq, ih (perm_mtfMove_toNat h r)]

theorem mtfDec_mtfEnc (S : List Byte) : mtfDec (mtfEnc S).1 = (S, (mtfEnc S).2) :=
  mtfDecFrom_mtfEncFrom (List.Perm.refl _) S

theorem mtfEnc_mtfDec (R : List Byte) : mtfEnc (mtfDec R).1 = (R, (mtfDec R).2) :=
  mtfEncFrom_mtfDecFrom (List.Perm.refl _) R

theorem take_mtfEncFrom (l S : List Byte) (k : Nat) : (mtfEncFrom l S).1.take k = (mtfEncFrom l (S.take k)).1 := by
  induction S generalizing l k with
  | nil => cases k <;> rfl
  | cons x xs ih =>
    cases k with
    | zero => rfl
    | succ k => exact congrArg (BitVec.ofNat 8 (l.idxOf x) :: ·) (ih _ k)

theorem take_mtfDecFrom (l R : List Byte) (k : Nat) : (mtfDecFrom l R).1.take k = (mtfDecFrom l (R.take k)).1 := by
  induction R generalizing l k with
  | nil => cases k <;> rfl
  | cons r rs ih =>
    cases k with
    | zero => rfl
    | succ k => exact congrArg (l.getD r.toNat 0 :: ·) (ih _ k)

theorem take_mtfEnc (S : List Byte) (k : Nat) : (mtfEnc S).1.take k = (mtfEnc (S.take k)).1 := take_mtfEncFrom _ S k

theorem take_mtfDec (R : List Byte) (k : Nat) : (mtfDec R).1.take k = (mtfDec (R.take k)).1 := take_mtfDecFrom _ R k

/-- Settles O25: a prefix of the ranks is the ranks of the prefix, so the round trip holds after every step. -/
theorem moveToFrontRoundTrip : Obligations.MoveToFrontRoundTrip := by
  intro S
  refine ⟨mtfDec_mtfEnc S, mtfEnc_mtfDec S, fun k => ?_, fun k => ?_⟩
  · rw [take_mtfEnc, mtfDec_mtfEnc]
  · rw [take_mtfDec, mtfEnc_mtfDec]

/-! ## The first rank and the ranks that are 0 (R223) -/

/-- In the identity a byte is its own rank. -/
theorem identityList_idxOf (x : Byte) : identityList.idxOf x = x.toNat := by
  have hget : identityList.getD x.toNat 0 = x := by simp [identityList, x.isLt]
  have h := idxOf_getD (List.Perm.refl identityList) x
  rwa [hget] at h

theorem mtfEnc_getElem?_zero (S : List Byte) : (mtfEnc S).1[0]? = S[0]? := by
  cases S with
  | nil => rfl
  | cons x xs =>
    rw [mtfEnc, mtfEncFrom_cons, identityList_idxOf, BitVec.ofNat_toNat, BitVec.setWidth_eq]
    rfl

/-- After each step the byte just encoded stands in front, from whatever list the pass began. -/
theorem mtfEncFrom_getElem?_succ_eq_zero_iff {l : List Byte} (h : l.Perm identityList) {S : List Byte} {i : Nat}
    (hi : i + 1 < S.length) : (mtfEncFrom l S).1[i + 1]? = some 0#8 ↔ S[i + 1]? = S[i]? := by
  induction S generalizing l i with
  | nil => exact absurd hi (Nat.not_lt_zero _)
  | cons x xs ih =>
    have hnext := perm_mtfMove_idxOf h x
    cases i with
    | succ i => exact ih hnext (Nat.lt_of_succ_lt_succ hi)
    | zero =>
      cases xs with
      | nil => exact absurd hi (lt_irrefl _)
      | cons y ys =>
        calc some (BitVec.ofNat 8 ((mtfMove l (l.idxOf x)).idxOf y)) = some 0#8
            ↔ (mtfMove l (l.idxOf x)).idxOf y = 0 := by rw [Option.some_inj, ofNat_idxOf_eq_zero_iff hnext]
          _ ↔ y = x := idxOf_mtfMove_eq_zero_iff h x y
          _ ↔ some y = some x := Option.some_inj.symm

/-- Settles O27: the pass begins with the identity, and each step brings its byte to the front. -/
theorem firstByteIsItsOwnRankAndRepeatsAreZero : Obligations.FirstByteIsItsOwnRankAndRepeatsAreZero :=
  fun S => ⟨length_mtfEnc S, mtfEnc_getElem?_zero S, fun _ => mtfEncFrom_getElem?_succ_eq_zero_iff (List.Perm.refl _)⟩

/-! ## The commands RRT_ENC and RRT_DEC -/

section
variable {s : State} {S : List Byte} (hlen : s.blkLenValue.toNat ≤ s.cfg.blockMax)
include hlen

theorem exec_rrtEnc (hread : s.readBuf .c s.blkLenValue.toNat = some S) :
    exec .rrtEnc s = .next (State.finished { s.writeBuf .r (mtfEnc S).1 with rlist := .val (mtfEnc S).2 }) := by
  simp only [exec, execRrtEnc, if_neg (Nat.not_lt.2 hlen), hread]

theorem exec_rrtDec (hread : s.readBuf .r s.blkLenValue.toNat = some S) :
    exec .rrtDec s = .next (State.finished { s.writeBuf .c (mtfDec S).1 with rlist := .val (mtfDec S).2 }) := by
  simp only [exec, execRrtDec, if_neg (Nat.not_lt.2 hlen), hread]

end

/-- A command that stores `n` bytes in one block buffer and an order in RLIST changes nothing else. -/
theorem changesOnly_rlist {s : State} (hc : s.cfg.Legal) {b : Buf} {bytes l : List Byte} {n : Nat}
    (hfit : bytes.length ≤ bufCapacity s.cfg b) (hn : bytes.length = n) :
    ChangesOnly (· == .rlist) (fun b' => if b' = b then n else 0) s
      (State.finished { s.writeBuf b bytes with rlist := .val l }) := by
  have hcover : bytes.length ≤ if b = b then n else 0 := by rw [if_pos rfl, hn]
  have hstart := ChangesOnly.refl (· == .rlist) (fun b' => if b' = b then n else 0) s
  exact ChangesOnly.finished { hstart.writeBuf hc hfit hcover with rlist := .inl rfl }

/-- Settles O26: the input passes the length check and has its bytes, so each command stores what its function returns. -/
theorem rrtCommandsComplete : Obligations.RrtCommandsComplete := by
  intro s S hlen hc
  refine ⟨fun hread => ?_, fun hread => ?_⟩
  · have hn := length_mtfEnc S
    have hfit : (mtfEnc S).1.length ≤ s.cfg.blockMax := hn.trans_le (length_le_of_readBuf hread hlen)
    exact ⟨_, (mtfEnc S).1, (mtfEnc S).2, exec_rrtEnc hlen hread, hn ▸ readBuf_of_memWriteBuf rfl, rfl, mtfDec_mtfEnc S, rfl,
      rfl, ⟨rfl, rfl, rfl⟩, changesOnly_rlist (b := .r) hc hfit hn⟩
  · have hn := length_mtfDec S
    have hfit : (mtfDec S).1.length ≤ s.cfg.blockMax := hn.trans_le (length_le_of_readBuf hread hlen)
    exact ⟨_, (mtfDec S).1, (mtfDec S).2, exec_rrtDec hlen hread, hn ▸ readBuf_of_memWriteBuf rfl, rfl, mtfEnc_mtfDec S, rfl,
      rfl, ⟨rfl, rfl, rfl⟩, changesOnly_rlist (b := .c) hc hfit hn⟩

end Sys2Proof.Machine

namespace Sys2Proof.Machine

/-! ## Chunks and their tokens (R240) -/

section
variable {b : Byte} {n : Nat}

/-- A chunk's length fits the count byte of its token. -/
theorem toNat_ofNat_of_le_255 (hmax : n ≤ 255) : (BitVec.ofNat 8 n).toNat = n := by
  rw [BitVec.toNat_ofNat, Nat.mod_eq_of_lt (Nat.lt_succ_of_le hmax)]

@[simp] theorem tokenSymbol_chunkToken (b : Byte) (n : Nat) : tokenSymbol (chunkToken b n) = b := by
  unfold chunkToken
  split <;> rfl

theorem wellFormed_chunkToken (hpos : 1 ≤ n) (hmax : n ≤ 255) : (chunkToken b n).wellFormed = true := by
  unfold chunkToken
  split
  · rfl
  · rw [Token.wellFormed, toNat_ofNat_of_le_255 hmax, decide_eq_true_eq]
    omega

theorem tokenSymbols_chunkToken (hmax : n ≤ 255) : tokenSymbols (chunkToken b n) = List.replicate n b := by
  unfold chunkToken
  split
  · subst_vars
    rfl
  · rw [tokenSymbols, toNat_ofNat_of_le_255 hmax]

/-- A chunk has the token that canonical form asks for between chunks of the same byte exactly when it is full (R240). -/
theorem chunkToken_eq_fullRun_iff (hmax : n ≤ 255) : chunkToken b n = .run b 255 ↔ n = 255 := by
  have hcount : BitVec.ofNat 8 n = 255 ↔ n = 255 := by
    rw [← BitVec.toNat_inj, toNat_ofNat_of_le_255 hmax]
    rfl
  unfold chunkToken
  split
  · exact iff_of_false Token.noConfusion (by omega)
  · simp only [Token.run.injEq, true_and, hcount]

/-- The valid tokens are those of chunks (R140, R240). -/
theorem exists_chunkToken {k : Token} (hk : k.wellFormed = true) :
    ∃ b n, 1 ≤ n ∧ n ≤ 255 ∧ k = chunkToken b n := by
  cases k with
  | literal b => exact ⟨b, 1, le_refl _, by omega, rfl⟩
  | run b c =>
    have hc : 2 ≤ c.toNat := by simpa [Token.wellFormed] using hk
    have hlt := c.isLt
    refine ⟨b, c.toNat, by omega, by omega, ?_⟩
    rw [chunkToken, if_neg (by omega), BitVec.ofNat_toNat, BitVec.setWidth_eq]

/-- A literal takes two bytes for one, a run less than two for each (R241). -/
theorem length_tokenBytes_chunk_eq_iff (hpos : 1 ≤ n) : (tokenBytes (chunkToken b n)).length = 2 * n ↔ n = 1 := by
  unfold chunkToken
  split
  · subst_vars
    exact iff_of_true rfl rfl
  · simp only [tokenBytes, List.length_cons, List.length_nil]
    omega

/-- Canonical form asks, before a token, that a chunk of the same byte be full (R241). -/
theorem canonicalTokens_chunkToken_cons_iff (hmax : n ≤ 255) {toks : List Token} :
    CanonicalTokens (chunkToken b n :: toks) ↔
      (toks.head?.map tokenSymbol = some b → n = 255) ∧ CanonicalTokens toks := by
  rw [CanonicalTokens, List.isChain_cons, tokenSymbol_chunkToken, chunkToken_eq_fullRun_iff hmax]
  refine and_congr_left fun _ => ?_
  cases toks <;> simp [eq_comm]

end

/-! ## The tokens of a byte sequence (R240, R241) -/

theorem head?_tokensFrom (S : List Byte) (b : Byte) (n : Nat) : (tokensFrom b n S).head?.map tokenSymbol = some b := by
  induction S generalizing n with
  | nil => exact congrArg some (tokenSymbol_chunkToken b n)
  | cons x xs ih =>
    unfold tokensFrom
    split
    · exact ih _
    · exact congrArg some (tokenSymbol_chunkToken b n)

theorem head?_tokensOf (S : List Byte) : (tokensOf S).head?.map tokenSymbol = S.head? := by
  cases S with
  | nil => rfl
  | cons x xs => exact head?_tokensFrom xs x 1

/-- A chunk that the bytes after it do not make longer becomes the first token. -/
theorem tokensFrom_eq_cons {b : Byte} {n : Nat} {S : List Byte} (hend : S.head? = some b → 255 ≤ n) :
    tokensFrom b n S = chunkToken b n :: tokensOf S := by
  cases S with
  | nil => rfl
  | cons x xs =>
    refine if_neg ?_
    rintro ⟨rfl, hlt⟩
    exact absurd (hend rfl) (Nat.not_le.2 hlt)

/-- A chunk takes up the equal bytes that follow while it has room. -/
theorem tokensFrom_replicate_append {b : Byte} {m : Nat} {S : List Byte} :
    ∀ n, n + m ≤ 255 → tokensFrom b n (List.replicate m b ++ S) = tokensFrom b (n + m) S := by
  induction m with
  | zero => exact fun n _ => rfl
  | succ m ih =>
    intro n hmax
    rw [List.replicate_succ, List.cons_append, tokensFrom, if_pos ⟨rfl, by omega⟩, ih _ (by omega),
      Nat.add_right_comm, Nat.add_assoc]

/-- The encoder cuts off a first chunk that is full or that the next byte ends. -/
theorem tokensOf_replicate_append {b : Byte} {n : Nat} (hpos : 1 ≤ n) (hmax : n ≤ 255) {S : List Byte}
    (hend : S.head? = some b → n = 255) : tokensOf (List.replicate n b ++ S) = chunkToken b n :: tokensOf S := by
  obtain ⟨m, rfl⟩ := Nat.exists_eq_add_of_le' hpos
  calc tokensFrom b 1 (List.replicate m b ++ S)
      = tokensFrom b (m + 1) S := by rw [tokensFrom_replicate_append 1 (by omega), Nat.add_comm]
    _ = chunkToken b (m + 1) :: tokensOf S := tokensFrom_eq_cons fun h => (hend h).ge

/-- The encoder's tokens are valid, canonical, and stand for the chunk begun and the bytes after it. -/
theorem tokensFrom_spec (S : List Byte) : ∀ (b : Byte) (n : Nat), 1 ≤ n → n ≤ 255 →
    (∀ k ∈ tokensFrom b n S, k.wellFormed = true) ∧ CanonicalTokens (tokensFrom b n S)
      ∧ (tokensFrom b n S).flatMap tokenSymbols = List.replicate n b ++ S := by
  induction S with
  | nil =>
    intro b n hpos hmax
    refine ⟨List.forall_mem_singleton.2 (wellFormed_chunkToken hpos hmax), .singleton _, ?_⟩
    rw [tokensFrom, List.flatMap_singleton, tokenSymbols_chunkToken hmax, List.append_nil]
  | cons x xs ih =>
    intro b n hpos hmax
    by_cases hgrow : x = b ∧ n < 255
    · obtain ⟨hwf, hcanon, hsymbols⟩ := ih b (n + 1) (by omega) (by omega)
      rw [tokensFrom, if_pos hgrow]
      refine ⟨hwf, hcanon, ?_⟩
      rw [hsymbols, List.replicate_succ', List.append_assoc, hgrow.1, List.singleton_append]
    · obtain ⟨hwf, hcanon, hsymbols⟩ := ih x 1 (le_refl _) (by omega)
      rw [tokensFrom, if_neg hgrow]
      refine ⟨List.forall_mem_cons.2 ⟨wellFormed_chunkToken hpos hmax, hwf⟩, ?_, ?_⟩
      · refine (canonicalTokens_chunkToken_cons_iff hmax).2 ⟨fun h => ?_, hcanon⟩
        rw [head?_tokensFrom, Option.some_inj] at h
        have hfull : ¬ n < 255 := fun hlt => hgrow ⟨h, hlt⟩
        omega
      · rw [List.flatMap_cons, hsymbols, tokenSymbols_chunkToken hmax]
        rfl

theorem tokensOf_spec (S : List Byte) :
    (∀ k ∈ tokensOf S, k.wellFormed = true) ∧ CanonicalTokens (tokensOf S) ∧ (tokensOf S).flatMap tokenSymbols = S := by
  cases S with
  | nil => exact ⟨List.forall_mem_nil _, .nil, rfl⟩
  | cons x xs => exact tokensFrom_spec xs x 1 (le_refl _) (by omega)

/-- Canonical valid tokens are the tokens of the bytes they stand for. -/
theorem tokensOf_flatMap_tokenSymbols {toks : List Token} (hwf : ∀ k ∈ toks, k.wellFormed = true)
    (hcanon : CanonicalTokens toks) : tokensOf (toks.flatMap tokenSymbols) = toks := by
  induction toks with
  | nil => rfl
  | cons k toks ih =>
    obtain ⟨hk, hwfRest⟩ := List.forall_mem_cons.1 hwf
    obtain ⟨b, n, hpos, hmax, rfl⟩ := exists_chunkToken hk
    obtain ⟨hfull, hcanonRest⟩ := (canonicalTokens_chunkToken_cons_iff hmax).1 hcanon
    have hrest := ih hwfRest hcanonRest
    have hend : (toks.flatMap tokenSymbols).head? = some b → n = 255 := by
      rwa [← head?_tokensOf, hrest]
    rw [List.flatMap_cons, tokenSymbols_chunkToken hmax, tokensOf_replicate_append hpos hmax hend, hrest]

/-- Among the streams of valid tokens the encoder's are exactly the canonical ones. -/
theorem tokensOf_flatMap_tokenSymbols_eq_iff {toks : List Token} (hwf : ∀ k ∈ toks, k.wellFormed = true) :
    tokensOf (toks.flatMap tokenSymbols) = toks ↔ CanonicalTokens toks := by
  refine ⟨fun h => ?_, tokensOf_flatMap_tokenSymbols hwf⟩
  obtain ⟨-, hcanon, -⟩ := tokensOf_spec (toks.flatMap tokenSymbols)
  rwa [h] at hcanon

/-! ## Token streams are read in one way -/

/-- The tag of a token fixes its length, so its bytes end where they end whatever follows (R140). -/
theorem tokenBytes_append_inj {k k' : Token} {rest rest' : List Byte} (h : tokenBytes k ++ rest = tokenBytes k' ++ rest') :
    k = k' ∧ rest = rest' := by
  cases k with
  | literal b =>
    cases k' with
    | literal b' => cases h; exact ⟨rfl, rfl⟩
    | run b' c' => exact absurd (List.cons.inj h).1 (by decide)
  | run b c =>
    cases k' with
    | literal b' => exact absurd (List.cons.inj h).1 (by decide)
    | run b' c' => cases h; exact ⟨rfl, rfl⟩

theorem tokenBytes_append_ne_nil (k : Token) (rest : List Byte) : tokenBytes k ++ rest ≠ [] := by
  cases k <;> exact List.cons_ne_nil _ _

theorem flatMap_tokenBytes_injective : Function.Injective fun toks : List Token => toks.flatMap tokenBytes := by
  intro toks
  induction toks with
  | nil =>
    intro toks' h
    cases toks' with
    | nil => rfl
    | cons k' toks' => exact absurd h.symm (tokenBytes_append_ne_nil k' _)
  | cons k toks ih =>
    intro toks' h
    cases toks' with
    | nil => exact absurd h (tokenBytes_append_ne_nil k _)
    | cons k' toks' =>
      obtain ⟨rfl, hrest⟩ := tokenBytes_append_inj h
      rw [ih hrest]

/-! ## The round trip (R245) and the encoder's output (R241) -/

/-- Valid tokens decode to the bytes they stand for, where those fit. -/
theorem rlcDec_flatMap_tokenBytes {toks : List Token} {lim : Nat} (hwf : ∀ k ∈ toks, k.wellFormed = true)
    (hfit : (toks.flatMap tokenSymbols).length ≤ lim) :
    rlcDec (toks.flatMap tokenBytes) lim = .ok (toks.flatMap tokenSymbols) :=
  rlcDec_of_tokensThen_nil ⟨hwf, (List.append_nil _).symm, hfit⟩

/-- A token stream decodes to nothing but the bytes its tokens stand for. -/
theorem eq_flatMap_tokenSymbols_of_rlcDec {toks : List Token} {S : List Byte} {lim : Nat}
    (h : rlcDec (toks.flatMap tokenBytes) lim = .ok S) : S = toks.flatMap tokenSymbols := by
  obtain ⟨toks', ⟨-, hbytes, -⟩, rfl⟩ := rlcDec_eq_ok.1 h
  rw [List.append_nil] at hbytes
  rw [flatMap_tokenBytes_injective hbytes]

theorem rlcDec_rlcEnc {S : List Byte} {lim : Nat} (hfit : S.length ≤ lim) : rlcDec (rlcEnc S) lim = .ok S := by
  obtain ⟨hwf, -, hsymbols⟩ := tokensOf_spec S
  have hdec := rlcDec_flatMap_tokenBytes (lim := lim) hwf (by rwa [hsymbols])
  rwa [hsymbols] at hdec

/-- Encoding the bytes of valid tokens gives their stream back exactly when it is canonical. -/
theorem rlcEnc_flatMap_tokenSymbols_eq_iff {toks : List Token} (hwf : ∀ k ∈ toks, k.wellFormed = true) :
    rlcEnc (toks.flatMap tokenSymbols) = toks.flatMap tokenBytes ↔ CanonicalTokens toks :=
  flatMap_tokenBytes_injective.eq_iff.trans (tokensOf_flatMap_tokenSymbols_eq_iff hwf)

/-- Settles O30: token streams are read in one way, and the encoder's are exactly the canonical ones. -/
theorem runLengthRoundTrip : Obligations.RunLengthRoundTrip := by
  refine ⟨fun S lim => rlcDec_rlcEnc, fun toks S lim hwf hdec => ?_⟩
  obtain ⟨hwf', hcanon', hsymbols'⟩ := tokensOf_spec S
  refine ⟨?_, tokensOf S, hcanon', hwf', rfl, hsymbols'⟩
  rw [eq_flatMap_tokenSymbols_of_rlcDec hdec]
  exact rlcEnc_flatMap_tokenSymbols_eq_iff hwf

/-- The encoder spends two bytes on each byte only where every chunk is a single byte (R241). -/
theorem length_tokensFrom_eq_iff (S : List Byte) : ∀ (b : Byte) (n : Nat), 1 ≤ n →
    (((tokensFrom b n S).flatMap tokenBytes).length = 2 * (n + S.length) ↔ n = 1 ∧ (b :: S).IsChain (· ≠ ·)) := by
  induction S with
  | nil =>
    intro b n hpos
    simpa [tokensFrom] using length_tokenBytes_chunk_eq_iff hpos
  | cons x xs ih =>
    intro b n hpos
    rw [List.isChain_cons_cons, List.length_cons]
    by_cases hgrow : x = b ∧ n < 255
    · have hmore := ih b (n + 1) (by omega)
      rw [tokensFrom, if_pos hgrow, ← Nat.add_assoc, Nat.add_right_comm, hmore]
      exact iff_of_false (by omega) fun ⟨_, hne, _⟩ => hne hgrow.1.symm
    · have hchunk := length_tokenBytes_chunk b n hpos
      have hrest := length_tokensFrom x xs 1 (le_refl _)
      have hne : n = 1 → b ≠ x := fun hn hx => hgrow ⟨hx.symm, by omega⟩
      rw [tokensFrom, if_neg hgrow, List.flatMap_cons, List.length_append]
      calc _ ↔ (tokenBytes (chunkToken b n)).length = 2 * n
              ∧ ((tokensFrom x 1 xs).flatMap tokenBytes).length = 2 * (1 + xs.length) := by omega
        _ ↔ n = 1 ∧ (x :: xs).IsChain (· ≠ ·) := by
            rw [length_tokenBytes_chunk_eq_iff hpos, ih x 1 (le_refl _), eq_self_iff_true, true_and]
        _ ↔ n = 1 ∧ b ≠ x ∧ (x :: xs).IsChain (· ≠ ·) := by
            rw [← and_assoc, and_iff_left_of_imp hne]

theorem length_rlcEnc_eq_iff (S : List Byte) : (rlcEnc S).length = 2 * S.length ↔ S.IsChain (· ≠ ·) := by
  cases S with
  | nil => exact iff_of_true rfl .nil
  | cons x xs =>
    rw [List.length_cons, Nat.add_comm, rlcEnc, tokensOf, length_tokensFrom_eq_iff xs x 1 (le_refl _), eq_self_iff_true,
      true_and]

/-- Settles O29: the tokens of the input are valid and canonical, and only a chunk of one byte takes two bytes for each. -/
theorem runLengthEncoderOutput : Obligations.RunLengthEncoderOutput := by
  intro S
  obtain ⟨hwf, hcanon, -⟩ := tokensOf_spec S
  exact ⟨⟨tokensOf S, hwf, hcanon, rfl⟩, length_rlcEnc_le S, length_rlcEnc_eq_iff S, rfl⟩

/-! ## The commands RLC_ENC and RLC_DEC -/

theorem exec_rlcEnc {s : State} {S : List Byte} (hlen : s.blkLenValue.toNat ≤ s.cfg.blockMax)
    (hread : s.readBuf .r s.blkLenValue.toNat = some S) :
    exec .rlcEnc s
      = .next (State.finished { s.writeBuf .t (rlcEnc S) with tokLen := .val (BitVec.ofNat 32 (rlcEnc S).length) }) := by
  simp only [exec, execRlcEnc, if_neg (Nat.not_lt.2 hlen), hread]

theorem exec_rlcDec_ok {s : State} {T S : List Byte} (hlen : s.tokLenValue.toNat ≤ tokenMax s.cfg)
    (hread : s.readBuf .t s.tokLenValue.toNat = some T) (h : rlcDec T s.cfg.blockMax = .ok S) :
    exec .rlcDec s = .next (State.finished { s.writeBuf .r S with blkLen := .val (BitVec.ofNat 32 S.length) }) := by
  simp only [exec, execRlcDec, if_neg (Nat.not_lt.2 hlen), hread, h]

/-- Storing a byte string that fits in its buffer changes nothing beyond it. -/
theorem changesOnly_writeBuf (named : Output → Bool) {s : State} (hc : s.cfg.Legal) {b : Buf} {bytes : List Byte}
    (hfit : bytes.length ≤ bufCapacity s.cfg b) :
    ChangesOnly named (fun b' => if b' = b then bytes.length else 0) s (s.writeBuf b bytes) :=
  (ChangesOnly.refl named _ s).writeBuf hc hfit (if_pos rfl).ge

/-- Settles O31: the encoder's stream fits BUF_T, and valid tokens that fit decode to their bytes. -/
theorem rlcCommandsComplete : Obligations.RlcCommandsComplete := by
  intro s hc
  refine ⟨fun S hlen hread => ?_, fun toks hlen hwf hread hfit => ?_⟩
  · obtain ⟨hwf, hcanon, hsymbols⟩ := tokensOf_spec S
    have hstream : (rlcEnc S).length ≤ tokenMax s.cfg := length_rlcEnc_le_tokenMax (length_le_of_readBuf hread hlen)
    have hstored := changesOnly_writeBuf (· == .tokLen) hc (b := .t) hstream
    exact ⟨_, tokensOf S, exec_rlcEnc hlen hread, hcanon, hwf, hsymbols, readBuf_of_memWriteBuf rfl, rfl, rfl,
      ⟨rfl, rfl, rfl⟩, ChangesOnly.finished { hstored with tokLen := .inl rfl }⟩
  · have hdec := rlcDec_flatMap_tokenBytes hwf hfit
    have hstored := changesOnly_writeBuf (· == .blkLen) hc (b := .r) hfit
    exact ⟨_, exec_rlcDec_ok hlen hread hdec, readBuf_of_memWriteBuf rfl, rfl, rfl, ⟨rfl, rfl, rfl⟩,
      ChangesOnly.finished { hstored with blkLen := .inl rfl }⟩

end Sys2Proof.Machine

namespace Sys2Proof.Machine

/-! ## Paths and leaves of a code tree (R265) -/

/-- Branch bits lead first to a node and from there on. -/
theorem descend_append (t : CodeTree) (xs ys : List Bool) :
    descend t (xs ++ ys) = (descend t xs).bind fun u => descend u ys := by
  induction xs generalizing t with
  | nil => simp
  | cons x xs ih =>
    cases t with
    | leaf sym freq seq => rfl
    | node l r freq seq => exact ih _

/-- The paths of a tree are the bit strings that lead from its root to a leaf. -/
theorem mem_treePaths_iff {t : CodeTree} {sym : Byte} {bits : List Bool} :
    (sym, bits) ∈ treePaths t ↔ ∃ freq seq, descend t bits = some (.leaf sym freq seq) := by
  induction t generalizing bits with
  | leaf sym' freq seq => cases bits <;> simp [treePaths, descend, eq_comm]
  | node l r freq seq ihl ihr =>
    match bits with
    | [] => simp [treePaths]
    | false :: bits => simp [treePaths, ← ihl]
    | true :: bits => simp [treePaths, ← ihr]

theorem treePaths_ne_nil (t : CodeTree) : treePaths t ≠ [] := by
  induction t with
  | leaf sym freq seq => exact List.cons_ne_nil _ _
  | node l r freq seq ihl ihr => simp [treePaths, ihl]

/-- A path is shorter than the tree has leaves: every branch on the way leaves a leaf aside. -/
theorem length_lt_of_mem_treePaths {t : CodeTree} {p : Byte × List Bool} (hp : p ∈ treePaths t) :
    p.2.length < (treePaths t).length := by
  induction t generalizing p with
  | leaf sym freq seq => simp_all [treePaths]
  | node l r freq seq ihl ihr =>
    have hl := List.length_pos_iff.2 (treePaths_ne_nil l)
    have hr := List.length_pos_iff.2 (treePaths_ne_nil r)
    simp only [treePaths, List.length_append, List.length_map]
    rcases List.mem_append.1 hp with hp | hp
    · obtain ⟨q, hq, rfl⟩ := List.mem_map.1 hp
      have := ihl hq
      simp only [List.length_cons]
      omega
    · obtain ⟨q, hq, rfl⟩ := List.mem_map.1 hp
      have := ihr hq
      simp only [List.length_cons]
      omega

/-- No path of a tree goes on as another: nothing lies below a leaf. -/
theorem eq_of_prefix_of_mem_treePaths {t : CodeTree} {p q : Byte × List Bool} (hp : p ∈ treePaths t)
    (hq : q ∈ treePaths t) (h : p.2 <+: q.2) : p = q := by
  obtain ⟨rest, hrest⟩ := h
  obtain ⟨freq, seq, hleaf⟩ := mem_treePaths_iff.1 hp
  obtain ⟨freq', seq', hleaf'⟩ := mem_treePaths_iff.1 hq
  rw [← hrest, descend_append, hleaf, Option.bind_some] at hleaf'
  cases rest with
  | nil =>
    have hsym : p.1 = q.1 := by
      simp only [descend_nil, Option.some.injEq, CodeTree.leaf.injEq] at hleaf'
      exact hleaf'.1
    exact Prod.ext hsym (by rw [← hrest, List.append_nil])
  | cons bit rest => cases hleaf'

/-- Kraft's equality for a binary tree: the leaves share out what its root has, half to each side. -/
theorem kraft_treePaths (t : CodeTree) : ∀ n, (∀ p ∈ treePaths t, p.2.length ≤ n) →
    ((treePaths t).map fun p => 2 ^ (n - p.2.length)).sum = 2 ^ n := by
  induction t with
  | leaf sym freq seq => intro n _; simp [treePaths]
  | node l r freq seq ihl ihr =>
    intro n hn
    rw [treePaths, List.forall_mem_append, List.forall_mem_map, List.forall_mem_map] at hn
    obtain ⟨hl, hr⟩ := hn
    cases n with
    | zero =>
      obtain ⟨p, hp⟩ := List.exists_mem_of_ne_nil _ (treePaths_ne_nil l)
      exact absurd (hl p hp) (Nat.not_succ_le_zero _)
    | succ n =>
      have hleft := ihl n fun p hp => Nat.le_of_succ_le_succ (hl p hp)
      have hright := ihr n fun p hp => Nat.le_of_succ_le_succ (hr p hp)
      simp only [treePaths, List.map_append, List.map_map, Function.comp_def, List.length_cons, Nat.add_sub_add_right,
        List.sum_append, hleft, hright, pow_succ]
      omega

/-- The symbols of a tree's leaves, from left to right. -/
def treeSymbols (t : CodeTree) : List Byte := (treePaths t).map Prod.fst

@[simp] theorem treeSymbols_leaf (sym : Byte) (freq seq : Nat) : treeSymbols (.leaf sym freq seq) = [sym] := rfl

@[simp] theorem treeSymbols_node (l r : CodeTree) (freq seq : Nat) :
    treeSymbols (.node l r freq seq) = treeSymbols l ++ treeSymbols r := by
  simp [treeSymbols, treePaths, Function.comp_def]

/-! ## The codes of a tree (R265, R266) -/

theorem map_fst_treeCodes (t : CodeTree) : (treeCodes (some t)).map Prod.fst = treeSymbols t := by cases t <;> rfl

theorem code_ne_nil {tree : Option CodeTree} {p : Byte × List Bool} (hp : p ∈ treeCodes tree) : p.2 ≠ [] := by
  match tree with
  | none => cases hp
  | some (.leaf sym freq seq) =>
    rw [treeCodes, List.mem_singleton] at hp
    simp [hp]
  | some (.node l r freq seq) =>
    obtain ⟨freq', seq', hleaf⟩ := mem_treePaths_iff.1 hp
    rintro hnil
    rw [hnil] at hleaf
    cases hleaf

/-- No code of a tree begins another (R265). -/
theorem eq_of_prefix_of_mem_treeCodes {tree : Option CodeTree} {p q : Byte × List Bool} (hp : p ∈ treeCodes tree)
    (hq : q ∈ treeCodes tree) (h : p.2 <+: q.2) : p = q := by
  match tree with
  | none => cases hp
  | some (.leaf sym freq seq) => exact (List.mem_singleton.1 hp).trans (List.mem_singleton.1 hq).symm
  | some (.node l r freq seq) => exact eq_of_prefix_of_mem_treePaths hp hq h

/-- A code has fewer bits than the tree has leaves, or is the one bit of a single leaf. -/
theorem length_code_le {t : CodeTree} {p : Byte × List Bool} (hp : p ∈ treeCodes (some t)) :
    p.2.length ≤ max 1 ((treeSymbols t).length - 1) := by
  cases t with
  | leaf sym freq seq =>
    rw [treeCodes, List.mem_singleton] at hp
    simp [hp]
  | node l r freq seq =>
    have hlt := length_lt_of_mem_treePaths hp
    rw [treeSymbols, List.length_map]
    omega

/-! ## The queue of roots (R264) -/

theorem KeyBelow.asymm {a b : CodeTree} (h : KeyBelow a b) : ¬KeyBelow b a := by
  unfold KeyBelow at *
  omega

theorem keyBelow_of_not_keyLt {a b : CodeTree} (h : ¬keyLt a b = true) (hseq : treeSeq a ≠ treeSeq b) : KeyBelow b a := by
  rw [← keyBelow_iff] at h
  unfold KeyBelow at *
  omega

theorem KeyBelow.trans {a b c : CodeTree} (h : KeyBelow a b) (h' : KeyBelow b c) : KeyBelow a c := by
  unfold KeyBelow at *
  omega

theorem perm_enqueue (t : CodeTree) (Q : List CodeTree) : (enqueue t Q).Perm (t :: Q) := by
  induction Q with
  | nil => exact .refl _
  | cons u us ih =>
    rw [enqueue]
    split
    · exact .refl _
    · exact (ih.cons u).trans (.swap t u us)

theorem sublist_enqueue (t : CodeTree) (Q : List CodeTree) : Q.Sublist (enqueue t Q) := by
  induction Q with
  | nil => exact List.nil_sublist _
  | cons u us ih =>
    rw [enqueue]
    split
    · exact List.sublist_cons_self ..
    · exact ih.cons_cons u

@[simp] theorem length_enqueue (t : CodeTree) (Q : List CodeTree) : (enqueue t Q).length = Q.length + 1 :=
  (perm_enqueue t Q).length_eq

/-- A root with a number of its own keeps the queue in strictly rising key order. -/
theorem pairwise_enqueue {t : CodeTree} {Q : List CodeTree} (hQ : Q.Pairwise KeyBelow)
    (hseq : ∀ u ∈ Q, treeSeq t ≠ treeSeq u) : (enqueue t Q).Pairwise KeyBelow := by
  induction Q with
  | nil => exact List.pairwise_singleton ..
  | cons u us ih =>
    obtain ⟨hu, hus⟩ := List.pairwise_cons.1 hQ
    obtain ⟨hseqU, hseqUs⟩ := List.forall_mem_cons.1 hseq
    rw [enqueue]
    split
    · have htu : KeyBelow t u := (keyBelow_iff t u).2 ‹_›
      exact hQ.cons (List.forall_mem_cons.2 ⟨htu, fun x hx => htu.trans (hu x hx)⟩)
    · have hut : KeyBelow u t := keyBelow_of_not_keyLt ‹_› hseqU
      refine (ih hus hseqUs).cons fun x hx => ?_
      rcases List.mem_cons.1 ((perm_enqueue t us).mem_iff.1 hx) with rfl | hx
      · exact hut
      · exact hu x hx

theorem perm_foldr_enqueue (L : List CodeTree) : (L.foldr enqueue []).Perm L := by
  induction L with
  | nil => exact .refl _
  | cons t L ih => exact (perm_enqueue t _).trans (ih.cons t)

/-- What holds of the roots of R264 before each round: they stand in strictly rising key order, and `next` is above all their
numbers. -/
structure IsQueue (next : Nat) (Q : List CodeTree) : Prop where
  sorted : Q.Pairwise KeyBelow
  numbered : ∀ t ∈ Q, treeSeq t < next

theorem isQueue_foldr_enqueue {next : Nat} {L : List CodeTree} (hnodup : (L.map treeSeq).Nodup)
    (hlt : ∀ t ∈ L, treeSeq t < next) : IsQueue next (L.foldr enqueue []) := by
  refine ⟨?_, fun t ht => hlt t ((perm_foldr_enqueue L).mem_iff.1 ht)⟩
  clear hlt
  induction L with
  | nil => exact .nil
  | cons t L ih =>
    obtain ⟨hfresh, hnodup⟩ := List.nodup_cons.1 hnodup
    refine pairwise_enqueue (ih hnodup) fun u hu heq => hfresh ?_
    exact List.mem_map.2 ⟨u, (perm_foldr_enqueue L).mem_iff.1 hu, heq.symm⟩

section
variable {next : Nat} {a b : CodeTree} {rest : List CodeTree}

/-- The root that a round of R264 makes of the two least. -/
def mergedRoot (next : Nat) (a b : CodeTree) : CodeTree := .node a b (treeFreq a + treeFreq b) next

/-- A round on a queue is a round of R264, and leaves a queue. -/
theorem IsQueue.round (h : IsQueue next (a :: b :: rest)) :
    MergeRound next (a :: b :: rest) (enqueue (mergedRoot next a b) rest)
      ∧ IsQueue (next + 1) (enqueue (mergedRoot next a b) rest) := by
  obtain ⟨ha, hb⟩ := List.pairwise_cons.1 h.sorted
  obtain ⟨hb, hrest⟩ := List.pairwise_cons.1 hb
  have hlt : ∀ t ∈ rest, treeSeq t < next := fun t ht => h.numbered t (by simp [ht])
  refine ⟨⟨a, b, rest, .refl _, ha, hb, perm_enqueue ..⟩, pairwise_enqueue hrest fun u hu => ?_, fun t ht => ?_⟩
  · exact (hlt u hu).ne'
  · rcases List.mem_cons.1 ((perm_enqueue _ rest).mem_iff.1 ht) with rfl | ht
    · exact Nat.lt_succ_self next
    · exact (hlt t ht).trans (Nat.lt_succ_self next)

theorem mergeRoots_round (fuel : Nat) : mergeRoots (fuel + 1) next (a :: b :: rest)
    = mergeRoots fuel (next + 1) (enqueue (mergedRoot next a b) rest) := rfl

theorem mergeRoots_singleton (fuel : Nat) : mergeRoots fuel next [a] = some a := by cases fuel <;> rfl

end

/-- Merging a queue of roots with enough fuel does the rounds of R264. -/
theorem mergeRoots_mergesTo (fuel : Nat) : ∀ {next : Nat} {Q : List CodeTree}, IsQueue next Q → Q ≠ [] →
    Q.length ≤ fuel + 1 → ∃ t, mergeRoots fuel next Q = some t ∧ MergesTo next Q t := by
  induction fuel with
  | zero =>
    intro next Q _ hne hlen
    obtain ⟨t, rfl⟩ := List.length_eq_one_iff.1 (Nat.le_antisymm hlen (List.length_pos_iff.2 hne))
    exact ⟨t, rfl, .one next t⟩
  | succ fuel ih =>
    intro next Q hQ hne hlen
    match Q with
    | [] => exact absurd rfl hne
    | [t] => exact ⟨t, mergeRoots_singleton _, .one next t⟩
    | a :: b :: rest =>
      obtain ⟨hround, hqueue⟩ := hQ.round
      obtain ⟨t, hmerge, hto⟩ := ih hqueue (List.length_pos_iff.1 (by simp)) (by simpa using hlen)
      exact ⟨t, hmerge, .round next _ _ t hround hto⟩

/-! ## The rounds of R264 as a relation -/

section
variable {next : Nat} {Q Q' Q'' : List CodeTree} {t : CodeTree}

theorem MergeRound.two_le_length (h : MergeRound next Q Q') : 2 ≤ Q.length := by
  obtain ⟨a, b, rest, hperm, -⟩ := h
  simp [hperm.length_eq]

/-- The element that is below all others is the same however a set of roots is listed. -/
theorem eq_of_perm_of_least {a a' : CodeTree} {rest rest' : List CodeTree} (hperm : (a :: rest).Perm (a' :: rest'))
    (ha : ∀ x ∈ rest, KeyBelow a x) (ha' : ∀ x ∈ rest', KeyBelow a' x) : a = a' ∧ rest.Perm rest' := by
  have heq : a = a' := by
    by_contra hne
    have hmem : a ∈ rest' := (List.mem_cons.1 (hperm.mem_iff.1 (List.mem_cons_self ..))).resolve_left hne
    have hmem' : a' ∈ rest := (List.mem_cons.1 (hperm.mem_iff.2 (List.mem_cons_self ..))).resolve_left (Ne.symm hne)
    exact (ha a' hmem').asymm (ha' a hmem)
  subst heq
  exact ⟨rfl, hperm.cons_inv⟩

theorem MergesTo.ne_nil (h : MergesTo next Q t) : Q ≠ [] := by
  cases h with
  | one => exact List.cons_ne_nil _ _
  | round _ _ _ _ first _ => exact List.length_pos_iff.1 (Nat.lt_of_succ_lt first.two_le_length)

/-- A round has one outcome (R264). -/
theorem MergeRound.unique (h : MergeRound next Q Q') (h' : MergeRound next Q Q'') : Q'.Perm Q'' := by
  obtain ⟨a, b, rest, hperm, ha, hb, hQ'⟩ := h
  obtain ⟨a', b', rest', hperm', ha', hb', hQ''⟩ := h'
  obtain ⟨rfl, hothers⟩ := eq_of_perm_of_least (hperm.symm.trans hperm') ha ha'
  obtain ⟨rfl, hrest⟩ := eq_of_perm_of_least hothers hb hb'
  exact (hQ'.trans (hrest.cons _)).trans hQ''.symm

/-- The rounds do not depend on how the set of roots is listed. -/
theorem MergesTo.perm (h : MergesTo next Q t) (hperm : Q.Perm Q') : MergesTo next Q' t := by
  cases h with
  | one => exact List.singleton_perm.1 hperm ▸ .one next t
  | round _ _ Q₁ _ first others =>
    obtain ⟨a, b, rest, hQ, hround⟩ := first
    exact .round next Q' Q₁ t ⟨a, b, rest, hperm.symm.trans hQ, hround⟩ others

/-- The rounds make one tree of a set of roots. -/
theorem MergesTo.unique (h : MergesTo next Q t) : ∀ {t'}, MergesTo next Q t' → t = t' := by
  induction h with
  | one next t =>
    intro t' h'
    cases h' with
    | one => rfl
    | round _ _ _ _ first _ => exact absurd first.two_le_length (by simp)
  | round next Q Q' t first _ ih =>
    intro t' h'
    cases h' with
    | one => exact absurd first.two_le_length (by simp)
    | round _ _ Q'' _ first' others' => exact ih (others'.perm (first'.unique first))

/-- What holds of the roots at the start and is kept by joining two roots holds of the tree. -/
theorem MergesTo.induction_roots {P : CodeTree → Prop} (h : MergesTo next Q t)
    (hjoin : ∀ a b seq, P a → P b → P (mergedRoot seq a b)) (hQ : ∀ u ∈ Q, P u) : P t := by
  induction h with
  | one next t => exact hQ t (List.mem_singleton_self t)
  | round next Q Q' t first _ ih =>
    obtain ⟨a, b, rest, hperm, -, -, hQ'⟩ := first
    obtain ⟨ha, hb, hrest⟩ : P a ∧ P b ∧ ∀ u ∈ rest, P u := by
      simpa using fun u hu => hQ u (hperm.mem_iff.2 hu)
    refine ih fun u hu => ?_
    rcases List.mem_cons.1 (hQ'.mem_iff.1 hu) with rfl | hu
    · exact hjoin a b next ha hb
    · exact hrest u hu

/-- The tree has the leaves of the roots it was made of. -/
theorem MergesTo.perm_treeSymbols (h : MergesTo next Q t) : (treeSymbols t).Perm (Q.flatMap treeSymbols) := by
  induction h with
  | one next t => simp
  | round next Q Q' t first _ ih =>
    obtain ⟨a, b, rest, hperm, -, -, hQ'⟩ := first
    refine ih.trans ((hQ'.flatMap_right _).trans (.trans (.of_eq ?_) (hperm.flatMap_right _).symm))
    simp

end

/-! ## The tree of a table of counts (R263, R264) -/

/-- The symbols whose count is not 0, in rising order (R263). -/
def countedSymbols (F : List Nat) : List Nat := (List.range 256).filter fun sym => F.getD sym 0 ≠ 0

@[simp] theorem mem_countedSymbols {F : List Nat} {sym : Nat} :
    sym ∈ countedSymbols F ↔ sym < 256 ∧ F.getD sym 0 ≠ 0 := by simp [countedSymbols]

theorem nodup_countedSymbols (F : List Nat) : (countedSymbols F).Nodup := List.nodup_range.filter _

/-- Bytes made of different symbols are different. -/
theorem eq_of_ofNat_eq {x y : Nat} (hx : x < 256) (hy : y < 256) (h : BitVec.ofNat 8 x = BitVec.ofNat 8 y) : x = y := by
  have := congrArg BitVec.toNat h
  simp only [BitVec.toNat_ofNat] at this
  omega

theorem nodup_map_countedSymbols (F : List Nat) : ((countedSymbols F).map (BitVec.ofNat 8)).Nodup :=
  (nodup_countedSymbols F).map_on fun _ hx _ hy =>
    eq_of_ofNat_eq (mem_countedSymbols.1 hx).1 (mem_countedSymbols.1 hy).1

/-- A table is the list of its entries. -/
theorem map_getD_range {F : List Nat} (hF : F.length = 256) : (List.range 256).map (F.getD · 0) = F := by
  refine List.ext_getElem (by simp [hF]) fun i _ hi => ?_
  simp [hi]

theorem leavesFrom_map_range' (f : Nat → Nat) (n : Nat) : ∀ sym seq, leavesFrom sym seq ((List.range' sym n).map f)
    = (((List.range' sym n).filter fun x => f x ≠ 0).zipIdx seq).map fun p => .leaf (BitVec.ofNat 8 p.1) (f p.1) p.2 := by
  induction n with
  | zero => intro sym seq; rfl
  | succ n ih =>
    intro sym seq
    rw [List.range'_succ, List.map_cons, leavesFrom, ih, ih, List.filter_cons]
    by_cases h : f sym = 0 <;> simp [h]

section
variable {F : List Nat} (hF : F.length = 256)
include hF

theorem leavesFrom_eq_leavesOf : leavesFrom 0 0 F = leavesOf F := by
  conv_lhs => rw [← map_getD_range hF, List.range_eq_range']
  rw [leavesFrom_map_range', ← List.range_eq_range']
  rfl

theorem length_countedSymbols : (countedSymbols F).length = card F := by
  conv_rhs => rw [← map_getD_range hF]
  rw [card, List.countP_map, List.countP_eq_length_filter]
  rfl

theorem length_leavesOf : (leavesOf F).length = card F := by
  rw [← length_countedSymbols hF, leavesOf, List.length_map, List.length_zipIdx]
  rfl

end

theorem map_treeSeq_leavesOf (F : List Nat) : (leavesOf F).map treeSeq = List.range' 0 (countedSymbols F).length := by
  rw [leavesOf, List.map_map]
  exact List.zipIdx_map_snd ..

theorem flatMap_treeSymbols_leavesOf (F : List Nat) :
    (leavesOf F).flatMap treeSymbols = (countedSymbols F).map (BitVec.ofNat 8) := by
  rw [leavesOf, List.flatMap_map]
  simp only [treeSymbols_leaf, ← List.map_eq_flatMap]
  rw [← countedSymbols]
  conv_rhs => rw [← List.zipIdx_map_fst 0 (countedSymbols F), List.map_map]
  rfl

section
variable {F : List Nat} (hF : F.length = 256)
include hF

theorem isQueue_leavesOf : IsQueue (card F) ((leavesOf F).foldr enqueue []) := by
  have hseq := map_treeSeq_leavesOf F
  refine isQueue_foldr_enqueue (hseq ▸ List.nodup_range') fun t ht => ?_
  have hmem := List.mem_map_of_mem (f := treeSeq) ht
  rw [hseq, length_countedSymbols hF] at hmem
  simpa using hmem

theorem buildTree_eq : buildTree F = mergeRoots (card F) (card F) ((leavesOf F).foldr enqueue []) := by
  rw [buildTree, leavesFrom_eq_leavesOf hF, length_leavesOf hF]

/-- The tree of R263 and R264 is empty exactly when no symbol has a count. -/
theorem buildTree_eq_none_iff : buildTree F = none ↔ card F = 0 := by
  have hlen := ((perm_foldr_enqueue (leavesOf F)).length_eq).trans (length_leavesOf hF)
  constructor
  · intro hnone
    by_contra hcard
    obtain ⟨t, ht, -⟩ := mergeRoots_mergesTo (card F) (isQueue_leavesOf hF) (List.length_pos_iff.1 (by omega)) (by omega)
    rw [buildTree_eq hF, ht] at hnone
    cases hnone
  · intro hcard
    rw [buildTree_eq hF, List.length_eq_zero_iff.1 (hlen.trans hcard), mergeRoots]

/-- The tree is the one the rounds of R264 make of the leaves of R263. -/
theorem buildTree_eq_some_iff {t : CodeTree} : buildTree F = some t ↔ MergesTo (card F) (leavesOf F) t := by
  have hperm := perm_foldr_enqueue (leavesOf F)
  have hlen := hperm.length_eq.trans (length_leavesOf hF)
  have hmerges : (leavesOf F) ≠ [] → ∃ t, buildTree F = some t ∧ MergesTo (card F) (leavesOf F) t := by
    intro hne
    obtain ⟨t, ht, hto⟩ := mergeRoots_mergesTo (card F) (isQueue_leavesOf hF)
      (fun hnil => hne (List.nil_perm.1 (hnil ▸ hperm))) (by omega)
    exact ⟨t, (buildTree_eq hF).trans ht, hto.perm hperm⟩
  constructor
  · intro h
    have hcard : card F ≠ 0 := fun h0 => by
      rw [(buildTree_eq_none_iff hF).2 h0] at h
      cases h
    obtain ⟨t', ht', hto⟩ := hmerges (List.length_pos_iff.1 (by rw [length_leavesOf hF]; omega))
    cases h.symm.trans ht'
    exact hto
  · intro hto
    obtain ⟨t', ht', hto'⟩ := hmerges hto.ne_nil
    rw [ht', hto'.unique hto]

end
end Sys2Proof.Machine

namespace Sys2Proof.Machine

/-! ## The codes of a table of counts (R265, R266) -/

theorem lookup_eq_of_mem {codes : List (Byte × List Bool)} (hnodup : (codes.map Prod.fst).Nodup) {p : Byte × List Bool}
    (hp : p ∈ codes) : codes.lookup p.1 = some p.2 := by
  obtain ⟨l₁, l₂, rfl⟩ := List.append_of_mem hp
  rw [List.map_append, List.map_cons, List.nodup_append] at hnodup
  refine List.lookup_eq_some_iff.2 ⟨l₁, l₂, rfl, fun q hq => bne_iff_ne.2 fun heq => ?_⟩
  exact hnodup.2.2 q.1 (List.mem_map_of_mem hq) p.1 (List.mem_cons_self ..) heq.symm

/-- The code a table of counts gives a symbol. -/
def codeFor (F : List Nat) (sym : Nat) : List Bool := codeIn (treeCodes (buildTree F)) sym

section
variable {F : List Nat} (hF : F.length = 256)
include hF

theorem perm_map_fst_treeCodes :
    ((treeCodes (buildTree F)).map Prod.fst).Perm ((countedSymbols F).map (BitVec.ofNat 8)) := by
  cases htree : buildTree F with
  | none =>
    have hnil : countedSymbols F = [] :=
      List.length_eq_zero_iff.1 ((length_countedSymbols hF).trans ((buildTree_eq_none_iff hF).1 htree))
    rw [hnil]
    exact .refl _
  | some t =>
    rw [map_fst_treeCodes, ← flatMap_treeSymbols_leavesOf]
    exact ((buildTree_eq_some_iff hF).1 htree).perm_treeSymbols

/-- Each symbol with a count has one code, and no other symbol has one (R263, R265). -/
theorem perm_treeCodes :
    (treeCodes (buildTree F)).Perm ((countedSymbols F).map fun sym => (BitVec.ofNat 8 sym, codeFor F sym)) := by
  have hperm := perm_map_fst_treeCodes hF
  have hnodup := hperm.nodup_iff.2 (nodup_map_countedSymbols F)
  have hlookup : ∀ p ∈ treeCodes (buildTree F), (p.1, codeFor F p.1.toNat) = p := fun p hp => by
    rw [codeFor, codeIn, BitVec.ofNat_toNat, BitVec.setWidth_eq, lookup_eq_of_mem hnodup hp, Option.getD_some]
  have hcodes := hperm.map fun b => (b, codeFor F b.toNat)
  rw [List.map_map, List.map_map, List.map_congr_left (f := _ ∘ Prod.fst) (g := id) hlookup, List.map_id] at hcodes
  refine hcodes.trans (.of_eq (List.map_congr_left fun sym hsym => ?_))
  have hsym := (mem_countedSymbols.1 hsym).1
  rw [Function.comp_apply, BitVec.toNat_ofNat, Nat.mod_eq_of_lt hsym]

theorem mem_treeCodes_of_count {sym : Nat} (hsym : sym < 256) (hcount : F.getD sym 0 ≠ 0) :
    (BitVec.ofNat 8 sym, codeFor F sym) ∈ treeCodes (buildTree F) :=
  (perm_treeCodes hF).mem_iff.2 (List.mem_map.2 ⟨sym, mem_countedSymbols.2 ⟨hsym, hcount⟩, rfl⟩)

theorem codeFor_eq_nil_iff {sym : Nat} (hsym : sym < 256) : codeFor F sym = [] ↔ F.getD sym 0 = 0 := by
  constructor
  · intro hnil
    by_contra hcount
    exact code_ne_nil (mem_treeCodes_of_count hF hsym hcount) hnil
  · intro hcount
    have hnone : (treeCodes (buildTree F)).lookup (BitVec.ofNat 8 sym) = none := by
      refine List.lookup_eq_none_iff.2 fun p hp => bne_iff_ne.2 fun heq => ?_
      obtain ⟨sym', hsym', hfst⟩ := List.mem_map.1 ((perm_map_fst_treeCodes hF).mem_iff.1 (List.mem_map_of_mem hp))
      obtain ⟨hlt, hcount'⟩ := mem_countedSymbols.1 hsym'
      rw [eq_of_ofNat_eq hlt hsym (hfst.trans heq.symm)] at hcount'
      exact hcount' hcount
    rw [codeFor, codeIn, hnone, Option.getD_none]

/-- A code of a table of counts has at most 255 bits: there are at most 256 leaves. -/
theorem length_codeFor_le {sym : Nat} (hsym : sym < 256) : (codeFor F sym).length ≤ 255 := by
  by_cases hcount : F.getD sym 0 = 0
  · rw [(codeFor_eq_nil_iff hF hsym).2 hcount]
    exact Nat.zero_le _
  · have hmem := mem_treeCodes_of_count hF hsym hcount
    cases htree : buildTree F with
    | none =>
      rw [htree] at hmem
      cases hmem
    | some t =>
      have hlen := (perm_map_fst_treeCodes hF).length_eq
      rw [htree, map_fst_treeCodes, List.length_map, length_countedSymbols hF] at hlen
      rw [htree] at hmem
      have hcode := length_code_le hmem
      have hcard := card_le F
      rw [hlen] at hcode
      simp only at hcode
      omega

end

theorem getD_hist (T : List Byte) {sym : Nat} (hsym : sym < 256) : (hist T).getD sym 0 = T.count (BitVec.ofNat 8 sym) := by
  simp [hist, hsym]

theorem getD_hist_toNat (T : List Byte) (b : Byte) : (hist T).getD b.toNat 0 = T.count b := by
  rw [getD_hist T b.isLt, BitVec.ofNat_toNat, BitVec.setWidth_eq]

/-- Every byte of a stream has a code in the tree of the stream's counts. -/
theorem mem_treeCodes_hist {T : List Byte} {b : Byte} (hb : b ∈ T) :
    (b, codeFor (hist T) b.toNat) ∈ treeCodes (buildTree (hist T)) := by
  have hcount : (hist T).getD b.toNat 0 ≠ 0 := by
    rw [getD_hist_toNat]
    exact (List.count_pos_iff.2 hb).ne'
  have hmem := mem_treeCodes_of_count (length_hist T) b.isLt hcount
  rwa [BitVec.ofNat_toNat, BitVec.setWidth_eq] at hmem

/-! ## The decoder (R270) -/

/-- The decoder at the root with the symbols so far. -/
def unpackFrom (tree : Option CodeTree) (lim : Nat) (out : List Byte) (bits : List Bool) : Except ErrorKind (List Byte) :=
  match tree with
  | none => if bits.length = 0 then .ok out else .error .inconsistentFreqTable
  | some (.leaf sym _ _) => unpackLeaf sym lim out bits
  | some (.node l r freq seq) => unpackTree (.node l r freq seq) lim (.node l r freq seq) out bits

theorem unpackBits_eq (tree : Option CodeTree) (lim : Nat) (bits : List Bool) :
    unpackBits tree lim bits = unpackFrom tree lim [] bits := by
  unfold unpackBits unpackFrom
  split <;> rfl

/-- With no bits left the decoder returns the symbols so far. -/
theorem unpackFrom_nil (tree : Option CodeTree) (lim : Nat) (out : List Byte) : unpackFrom tree lim out [] = .ok out := by
  match tree with
  | none => rfl
  | some (.leaf sym freq seq) => rfl
  | some (.node l r freq seq) => exact if_pos rfl

/-- What the walk does at a node: at a leaf below it emits the leaf's symbol, at a node below it goes on. -/
theorem unpackTree_cons (root l r : CodeTree) (lim freq seq : Nat) (out : List Byte) (bit : Bool) (bits : List Bool) :
    unpackTree root lim (.node l r freq seq) out (bit :: bits)
      = match (if bit then r else l) with
        | .leaf sym _ _ =>
          if lim < out.length + 1 then .error .outputOverflow else unpackTree root lim root (out ++ [sym]) bits
        | .node l' r' freq' seq' => unpackTree root lim (.node l' r' freq' seq') out bits := by
  cases bit <;> rfl

/-- A path to a leaf emits its symbol, and the walk begins again at the root. -/
theorem unpackTree_path (root : CodeTree) (lim : Nat) (out : List Byte) (bits path : List Bool) {sym : Byte} :
    ∀ {here : CodeTree} {leafFreq leafSeq : Nat}, descend here path = some (.leaf sym leafFreq leafSeq) → path ≠ [] →
      unpackTree root lim here out (path ++ bits)
        = if lim < out.length + 1 then .error .outputOverflow else unpackTree root lim root (out ++ [sym]) bits := by
  induction path with
  | nil => intro _ _ _ _ hne; exact absurd rfl hne
  | cons bit path ih =>
    intro here leafFreq leafSeq hleaf _
    match here with
    | .leaf _ _ _ => cases hleaf
    | .node l r freq seq =>
      rw [descend_node] at hleaf
      rw [List.cons_append, unpackTree_cons]
      match hchild : (if bit then r else l), path, hleaf with
      | .leaf sym' freq' seq', [], hleaf => 
        cases hleaf
        rfl
      | .leaf sym' freq' seq', _ :: _, hleaf => cases hleaf
      | .node l' r' freq' seq', [], hleaf => cases hleaf
      | .node l' r' freq' seq', bit' :: path, hleaf => exact ih hleaf (List.cons_ne_nil _ _)

theorem cons_mem_treePaths_node {l r : CodeTree} {freq seq : Nat} {sym : Byte} {bit : Bool} {bits : List Bool} :
    (sym, bit :: bits) ∈ treePaths (.node l r freq seq) ↔ (sym, bits) ∈ treePaths (if bit then r else l) := by
  rw [mem_treePaths_iff, mem_treePaths_iff, descend_node]

theorem length_treePaths_child_lt (l r : CodeTree) (freq seq : Nat) (bit : Bool) :
    (treePaths (if bit then r else l)).length < (treePaths (.node l r freq seq)).length := by
  have hl := List.length_pos_iff.2 (treePaths_ne_nil l)
  have hr := List.length_pos_iff.2 (treePaths_ne_nil r)
  cases bit <;> simp [treePaths, hl, hr]

/-- The walk fails on bits that begin with no path to a leaf: they end at a node below the root. -/
theorem unpackTree_noPath (root : CodeTree) (lim : Nat) (out : List Byte) (bits : List Bool) :
    ∀ {here : CodeTree}, (treePaths here).length ≤ (treePaths root).length →
      (bits = [] → (treePaths here).length < (treePaths root).length) → (∀ p ∈ treePaths here, ¬p.2 <+: bits) →
      unpackTree root lim here out bits = .error .inconsistentFreqTable := by
  induction bits with
  | nil =>
    intro here _ hlt _
    exact if_neg fun (heq : here = root) => absurd (hlt rfl) (heq ▸ Nat.lt_irrefl _)
  | cons bit bits ih =>
    intro here hle _ hnone
    match here with
    | .leaf sym freq seq => rfl
    | .node l r freq seq =>
      have hchild := (length_treePaths_child_lt l r freq seq bit).trans_le hle
      have hnone : ∀ p ∈ treePaths (if bit then r else l), ¬p.2 <+: bits := fun p hp hprefix =>
        hnone (p.1, bit :: p.2) (cons_mem_treePaths_node.2 hp) ((List.prefix_cons_inj bit).2 hprefix)
      rw [unpackTree_cons]
      match hc : (if bit then r else l) with
      | .leaf sym _ _ => exact absurd List.nil_prefix (hnone (sym, []) (by rw [hc]; exact List.mem_singleton_self _))
      | .node l' r' freq' seq' =>
        rw [hc] at hchild hnone
        exact ih hchild.le (fun _ => hchild) hnone

/-- Bits that begin with a leaf's code emit its symbol, if one more is allowed, and the decoder goes on after the code. -/
theorem unpackFrom_code {tree : Option CodeTree} (lim : Nat) (out : List Byte) {p : Byte × List Bool}
    (hp : p ∈ treeCodes tree) (bits : List Bool) :
    unpackFrom tree lim out (p.2 ++ bits)
      = if lim < out.length + 1 then .error .outputOverflow else unpackFrom tree lim (out ++ [p.1]) bits := by
  match tree with
  | none => cases hp
  | some (.leaf sym freq seq) =>
    cases List.mem_singleton.1 hp
    rfl
  | some (.node l r freq seq) =>
    obtain ⟨leafFreq, leafSeq, hleaf⟩ := mem_treePaths_iff.1 hp
    exact unpackTree_path _ lim out bits p.2 hleaf (code_ne_nil hp)

/-- Bits that begin with no code are INCONSISTENT_FREQ_TABLE. -/
theorem unpackFrom_noCode {tree : Option CodeTree} (lim : Nat) (out : List Byte) {bits : List Bool} (hne : bits ≠ [])
    (hnone : ∀ p ∈ treeCodes tree, ¬p.2 <+: bits) :
    unpackFrom tree lim out bits = .error .inconsistentFreqTable := by
  match tree with
  | none => exact if_neg fun hlen => hne (List.length_eq_zero_iff.1 hlen)
  | some (.leaf sym freq seq) =>
    match bits with
    | true :: bits => rfl
    | false :: bits => exact absurd (List.prefix_append [false] bits) (hnone (sym, [false]) (List.mem_singleton_self _))
  | some (.node l r freq seq) => exact unpackTree_noPath _ lim out bits (le_refl _) (fun hnil => absurd hnil hne) hnone

/-- The decoder takes the codes of allowed symbols one after another. -/
theorem unpackFrom_codesThen {tree : Option CodeTree} {lim : Nat} {rest : List Bool} {leaves : List (Byte × List Bool)} :
    ∀ {bits : List Bool} {out : List Byte}, CodesThen tree bits leaves rest → out.length + leaves.length ≤ lim →
      unpackFrom tree lim out bits = unpackFrom tree lim (out ++ leaves.map Prod.fst) rest := by
  induction leaves with
  | nil =>
    rintro _ out ⟨-, rfl⟩ _
    rw [List.map_nil, List.append_nil]
  | cons p leaves ih =>
    rintro _ out ⟨hcodes, rfl⟩ hlim
    obtain ⟨hp, hcodes⟩ := List.forall_mem_cons.1 hcodes
    rw [List.length_cons] at hlim
    rw [List.flatMap_cons, List.append_assoc, unpackFrom_code lim out hp, if_neg (by omega),
      ih ⟨hcodes, rfl⟩ (by rw [List.length_append, List.length_singleton]; omega), List.append_assoc]
    rfl

section
variable {tree : Option CodeTree} {lim : Nat} {bits rest : List Bool} {leaves : List (Byte × List Bool)}

/-- Codes of at most `lim` leaves that make up all the bits decode to their symbols. -/
theorem unpackBits_of_codes (h : CodesThen tree bits leaves []) (hlim : leaves.length ≤ lim) :
    unpackBits tree lim bits = .ok (leaves.map Prod.fst) := by
  rw [unpackBits_eq, unpackFrom_codesThen h (by simpa using hlim), unpackFrom_nil, List.nil_append]

/-- Bits that begin with no code after at most `lim` codes are INCONSISTENT_FREQ_TABLE. -/
theorem unpackBits_of_noCode (h : CodesThen tree bits leaves rest) (hlim : leaves.length ≤ lim) (hne : rest ≠ [])
    (hnone : ∀ p ∈ treeCodes tree, ¬p.2 <+: rest) : unpackBits tree lim bits = .error .inconsistentFreqTable := by
  rw [unpackBits_eq, unpackFrom_codesThen h (by simpa using hlim), unpackFrom_noCode lim _ hne hnone]

/-- One code more than `lim` is OUTPUT_OVERFLOW, whatever follows it. -/
theorem unpackBits_of_overflow (h : CodesThen tree bits leaves rest) (hlim : leaves.length = lim + 1) :
    unpackBits tree lim bits = .error .outputOverflow := by
  obtain ⟨hcodes, rfl⟩ := h
  rcases List.eq_nil_or_concat leaves with rfl | ⟨leaves, p, rfl⟩
  · cases hlim
  · rw [List.concat_eq_append] at hcodes hlim
    rw [List.length_append, List.length_singleton, Nat.succ_inj] at hlim
    obtain ⟨hcodes, hp⟩ := List.forall_mem_append.1 hcodes
    rw [List.concat_eq_append, List.flatMap_append, List.flatMap_singleton, List.append_assoc, unpackBits_eq,
      unpackFrom_codesThen ⟨hcodes, rfl⟩ (by simp [hlim]), unpackFrom_code lim _ (hp p (List.mem_singleton_self p)),
      if_pos (by simp [hlim])]

/-- Bits divide into at most `n` codes and a rest that begins with no code, or begin with `n` codes. -/
theorem exists_codesThen (tree : Option CodeTree) (n : Nat) : ∀ bits, ∃ leaves rest, CodesThen tree bits leaves rest
    ∧ (leaves.length = n ∨ (leaves.length < n ∧ ∀ p ∈ treeCodes tree, ¬p.2 <+: rest)) := by
  induction n with
  | zero => exact fun bits => ⟨[], bits, codesThen_nil tree bits, .inl rfl⟩
  | succ n ih =>
    intro bits
    by_cases hcode : ∃ p ∈ treeCodes tree, p.2 <+: bits
    · obtain ⟨p, hp, bits, rfl⟩ := hcode
      obtain ⟨leaves, rest, hcodes, hend⟩ := ih bits
      refine ⟨p :: leaves, rest, codesThen_cons hp hcodes, ?_⟩
      rwa [List.length_cons, Nat.succ_inj, Nat.succ_lt_succ_iff]
    · push Not at hcode
      exact ⟨[], bits, codesThen_nil tree bits, .inr ⟨Nat.succ_pos n, hcode⟩⟩
end

/-! ## The payload's data bits and ECunpack (R268, R270) -/

theorem length_payloadBits (payload : List Byte) : (payloadBits payload).length = 8 * payload.length := by
  induction payload with
  | nil => rfl
  | cons b payload ih =>
    rw [payloadBits, List.flatMap_cons, List.length_append, ← payloadBits, ih, byteBits, List.length_map, List.length_range,
      List.length_cons, Nat.mul_succ, Nat.add_comm]

/-- The data bits of a payload are what stands before its pad bits. -/
theorem dataBits_of_append {payload : List Byte} {bits padding : List Bool} (h : payloadBits payload = bits ++ padding) :
    dataBits payload padding.length = bits := by
  have hlen := congrArg List.length h
  rw [length_payloadBits, List.length_append] at hlen
  rw [dataBits, hlen, Nat.add_sub_cancel, h, List.take_left]

/-- The pad counts ECunpack rejects before it reads a bit (R270). -/
def BadPadCount (payload : List Byte) (pad : Nat) : Prop := 8 ≤ pad ∨ (payload = [] ∧ pad ≠ 0)

section
variable {tree : Option CodeTree} {F : List Nat} {lim : Nat} {payload : List Byte} {pad : Nat}

theorem ecUnpack_of_badPadCount (h : BadPadCount payload pad) :
    ecUnpack tree F lim payload pad = .error .paddingOutOfRange :=
  if_pos (h.imp_right fun hempty => ⟨List.length_eq_zero_iff.2 hempty.1, hempty.2⟩)

theorem ecUnpack_of_padCount (h : ¬BadPadCount payload pad) : ecUnpack tree F lim payload pad
    = (unpackBits tree lim (dataBits payload pad)).bind fun out =>
        if hist out = F then .ok out else .error .inconsistentFreqTable := by
  rw [ecUnpack, if_neg (by rwa [List.length_eq_zero_iff]), dataBits]
  cases unpackBits tree lim _ <;> rfl

/-- A payload without bits has no pad bits, so a pad count below 8 that the payload shows is allowed. -/
theorem not_badPadCount {bits padding : List Bool} (h : payloadBits payload = bits ++ padding) (hpad : padding.length ≤ 7) :
    ¬BadPadCount payload padding.length := by
  rintro (hlarge | ⟨rfl, hne⟩)
  · omega
  · exact hne (List.length_eq_zero_iff.2 (List.append_eq_nil_iff.1 h.symm).2)

end

/-- The codes of a stream in its own tree. -/
def ownLeaves (T : List Byte) : List (Byte × List Bool) := T.map fun b => (b, codeFor (hist T) b.toNat)

theorem codesThen_ownLeaves (T : List Byte) :
    CodesThen (buildTree (hist T)) (T.flatMap fun b => codeFor (hist T) b.toNat) (ownLeaves T) [] := by
  refine ⟨fun p hp => ?_, ?_⟩
  · obtain ⟨b, hb, rfl⟩ := List.mem_map.1 hp
    exact mem_treeCodes_hist hb
  · rw [ownLeaves, List.flatMap_map, List.append_nil]

/-- A payload that shows the codes of a stream and then 0 to 7 bits of any value unpacks to the stream (R270, R272). -/
theorem ecUnpack_ownCodes {T payload : List Byte} {padding : List Bool} {lim : Nat} (hlim : T.length ≤ lim)
    (hbits : payloadBits payload = (T.flatMap fun b => codeFor (hist T) b.toNat) ++ padding) (hpad : padding.length ≤ 7) :
    ecUnpack (buildTree (hist T)) (hist T) lim payload padding.length = .ok T := by
  have hsymbols : (ownLeaves T).map Prod.fst = T := by
    rw [ownLeaves, List.map_map]
    exact List.map_id T
  have hdecode := unpackBits_of_codes (codesThen_ownLeaves T) (by simpa [ownLeaves] using hlim)
  rw [ecUnpack_of_padCount (not_badPadCount hbits hpad), dataBits_of_append hbits, hdecode, hsymbols]
  exact if_pos rfl

/-! ## What packing returns -/

/-- What packing returns is the padded codes of the stream (R268). -/
theorem packBits_eq_ok {code : Byte → List Bool} {maxBytes : Nat} {T : List Byte} : ∀ {bits out : List Bool},
    packBits code maxBytes bits T = .ok out → out = bits ++ T.flatMap code := by
  induction T with
  | nil =>
    intro bits out h
    cases h
    exact (List.append_nil _).symm
  | cons b T ih =>
    intro bits out h
    rw [packBits] at h
    split at h
    · cases h
    · split at h
      · cases h
      · rw [ih h, List.append_assoc, List.flatMap_cons]

theorem ecPack_eq_ok {code : Byte → List Bool} {maxBytes : Nat} {T payload : List Byte} {pad : Nat}
    (h : ecPack code maxBytes T = .ok (payload, pad)) : (payload, pad) = padBits (T.flatMap code) := by
  rw [ecPack] at h
  split at h
  · cases h
  · next bits hbits =>
    rw [packBits_eq_ok hbits, List.nil_append] at h
    exact (Except.ok.inj h).symm

/-- Settles O36: the payload shows the stream's codes and its pad bits, and these decode to the stream. -/
theorem entropyCoderRoundTrip : Obligations.EntropyCoderRoundTrip := by
  intro T maxBytes lim payload pad hlim h
  have hpack := ecPack_eq_ok h
  obtain ⟨-, hpad, -⟩ := padBits_spec (T.flatMap fun b => codeFor (hist T) b.toNat)
  have hbits := payloadBits_padBits (T.flatMap fun b => codeFor (hist T) b.toNat)
  have hunpack := ecUnpack_ownCodes hlim hbits (by rw [List.length_replicate]; exact Nat.le_of_lt_succ hpad)
  rw [List.length_replicate] at hunpack
  cases hpack
  exact hunpack

theorem exec_ecUnpack_ok {s : State} {payload T : List Byte} (hlen : s.payLenValue.toNat ≤ payloadMax s.cfg)
    (hread : s.readBuf .p s.payLenValue.toNat = some payload)
    (h : ecUnpack s.treeValue s.freqTable (tokenMax s.cfg) payload s.padCntValue.toNat = .ok T) :
    exec .ecUnpack s
      = .next (State.finished { s.writeBuf .t T with tokLen := .val (BitVec.ofNat 32 T.length) }) := by
  simp only [exec, execEcUnpack, if_neg (Nat.not_lt.2 hlen), hread, h]

/-- Settles O38: the data bits are the stream's codes whatever the pad bits are, and they decode to the stream. -/
theorem ecUnpackCompletes : Obligations.EcUnpackCompletes := by
  intro s T payload bits padding hc hlen hread hT hfreq htree hbits hpayload hpad hcnt
  subst hbits
  have hunpack : ecUnpack s.treeValue s.freqTable (tokenMax s.cfg) payload s.padCntValue.toNat = .ok T := by
    rw [hfreq, htree, hcnt]
    exact ecUnpack_ownCodes hT hpayload hpad
  have hstored := changesOnly_writeBuf (· == .tokLen) hc (b := .t) hT
  exact ⟨_, exec_ecUnpack_ok hlen hread hunpack, readBuf_of_memWriteBuf rfl, rfl, rfl, ⟨rfl, rfl, rfl⟩,
    ChangesOnly.finished { hstored with tokLen := .inl rfl }⟩

end Sys2Proof.Machine

namespace Sys2Proof.Machine

/-! ## What the decoder answers (R270) -/

section
variable {tree : Option CodeTree} {lim : Nat} {bits : List Bool} {T : List Byte}

/-- The three ways in which data bits divide into codes, and what the decoder answers for each. -/
theorem unpackBits_parse (tree : Option CodeTree) (lim : Nat) (bits : List Bool) :
    (∃ leaves, CodesThen tree bits leaves [] ∧ leaves.length ≤ lim ∧ unpackBits tree lim bits = .ok (leaves.map Prod.fst))
      ∨ (∃ leaves rest, CodesThen tree bits leaves rest ∧ leaves.length = lim + 1
          ∧ unpackBits tree lim bits = .error .outputOverflow)
      ∨ ∃ leaves rest, CodesThen tree bits leaves rest ∧ leaves.length ≤ lim ∧ rest ≠ []
          ∧ (∀ p ∈ treeCodes tree, ¬p.2 <+: rest) ∧ unpackBits tree lim bits = .error .inconsistentFreqTable := by
  obtain ⟨leaves, rest, hcodes, hfull | ⟨hlt, hnone⟩⟩ := exists_codesThen tree (lim + 1) bits
  · exact .inr (.inl ⟨leaves, rest, hcodes, hfull, unpackBits_of_overflow hcodes hfull⟩)
  · have hlim := Nat.le_of_lt_succ hlt
    by_cases hrest : rest = []
    · subst hrest
      exact .inl ⟨leaves, hcodes, hlim, unpackBits_of_codes hcodes hlim⟩
    · exact .inr (.inr ⟨leaves, rest, hcodes, hlim, hrest, hnone, unpackBits_of_noCode hcodes hlim hrest hnone⟩)

theorem unpackBits_eq_ok : unpackBits tree lim bits = .ok T ↔
    ∃ leaves, CodesThen tree bits leaves [] ∧ leaves.length ≤ lim ∧ T = leaves.map Prod.fst := by
  constructor
  · intro h
    rcases unpackBits_parse tree lim bits with ⟨leaves, hcodes, hlim, heq⟩ | ⟨_, _, -, -, heq⟩ | ⟨_, _, -, -, -, -, heq⟩
      <;> cases heq.symm.trans h
    exact ⟨leaves, hcodes, hlim, rfl⟩
  · rintro ⟨leaves, hcodes, hlim, rfl⟩
    exact unpackBits_of_codes hcodes hlim

theorem unpackBits_eq_overflow : unpackBits tree lim bits = .error .outputOverflow ↔
    ∃ leaves rest, CodesThen tree bits leaves rest ∧ leaves.length = lim + 1 := by
  constructor
  · intro h
    rcases unpackBits_parse tree lim bits with ⟨_, -, -, heq⟩ | ⟨leaves, rest, hcodes, hover, heq⟩
      | ⟨_, _, -, -, -, -, heq⟩ <;> cases heq.symm.trans h
    exact ⟨leaves, rest, hcodes, hover⟩
  · rintro ⟨leaves, rest, hcodes, hover⟩
    exact unpackBits_of_overflow hcodes hover

theorem unpackBits_eq_inconsistent : unpackBits tree lim bits = .error .inconsistentFreqTable ↔
    ∃ leaves rest, CodesThen tree bits leaves rest ∧ leaves.length ≤ lim ∧ rest ≠ []
      ∧ ∀ p ∈ treeCodes tree, ¬p.2 <+: rest := by
  constructor
  · intro h
    rcases unpackBits_parse tree lim bits with ⟨_, -, -, heq⟩ | ⟨_, _, -, -, heq⟩
      | ⟨leaves, rest, hcodes, hlim, hne, hnone, heq⟩ <;> cases heq.symm.trans h
    exact ⟨leaves, rest, hcodes, hlim, hne, hnone⟩
  · rintro ⟨leaves, rest, hcodes, hlim, hne, hnone⟩
    exact unpackBits_of_noCode hcodes hlim hne hnone

end

section
variable {tree : Option CodeTree} {F : List Nat} {lim : Nat} {payload : List Byte} {pad : Nat}
  (hpad : ¬BadPadCount payload pad)
include hpad

theorem ecUnpack_eq_ok {T : List Byte} : ecUnpack tree F lim payload pad = .ok T ↔
    ∃ leaves, CodesThen tree (dataBits payload pad) leaves [] ∧ T = leaves.map Prod.fst ∧ T.length ≤ lim
      ∧ hist T = F := by
  have hunpack : ecUnpack tree F lim payload pad = .ok T ↔
      unpackBits tree lim (dataBits payload pad) = .ok T ∧ hist T = F := by
    rw [ecUnpack_of_padCount hpad]
    cases unpackBits tree lim (dataBits payload pad) with
    | error e => simp [Except.bind]
    | ok out =>
      by_cases h : hist out = F
      · rw [Except.bind, if_pos h, and_iff_left_of_imp fun heq => Except.ok.inj heq ▸ h]
      · rw [Except.bind, if_neg h]
        exact iff_of_false nofun fun heq => h (Except.ok.inj heq.1 ▸ heq.2)
  rw [hunpack, unpackBits_eq_ok, exists_and_right.symm]
  refine exists_congr fun leaves => ?_
  constructor
  · rintro ⟨⟨hcodes, hlim, rfl⟩, hhist⟩
    exact ⟨hcodes, rfl, by rwa [List.length_map], hhist⟩
  · rintro ⟨hcodes, rfl, hlim, hhist⟩
    exact ⟨⟨hcodes, by rwa [List.length_map] at hlim, rfl⟩, hhist⟩

theorem ecUnpack_eq_overflow : ecUnpack tree F lim payload pad = .error .outputOverflow ↔
    ∃ leaves rest, CodesThen tree (dataBits payload pad) leaves rest ∧ leaves.length = lim + 1 := by
  rw [← unpackBits_eq_overflow, ecUnpack_of_padCount hpad]
  cases unpackBits tree lim (dataBits payload pad) with
  | error e => rfl
  | ok out => by_cases h : hist out = F <;> simp [Except.bind, h]

theorem ecUnpack_eq_inconsistent : ecUnpack tree F lim payload pad = .error .inconsistentFreqTable ↔
    ∃ leaves rest, CodesThen tree (dataBits payload pad) leaves rest ∧ leaves.length ≤ lim
      ∧ ((rest ≠ [] ∧ ∀ p ∈ treeCodes tree, ¬(p.2 <+: rest)) ∨ (rest = [] ∧ hist (leaves.map Prod.fst) ≠ F)) := by
  have hunpack : ecUnpack tree F lim payload pad = .error .inconsistentFreqTable ↔
      unpackBits tree lim (dataBits payload pad) = .error .inconsistentFreqTable
        ∨ ∃ out, unpackBits tree lim (dataBits payload pad) = .ok out ∧ hist out ≠ F := by
    rw [ecUnpack_of_padCount hpad]
    cases unpackBits tree lim (dataBits payload pad) with
    | error e => simp [Except.bind]
    | ok out => by_cases h : hist out = F <;> simp [Except.bind, h]
  rw [hunpack, unpackBits_eq_inconsistent]
  constructor
  · rintro (⟨leaves, rest, hcodes, hlim, hnone⟩ | ⟨out, hout, hhist⟩)
    · exact ⟨leaves, rest, hcodes, hlim, .inl hnone⟩
    · obtain ⟨leaves, hcodes, hlim, rfl⟩ := unpackBits_eq_ok.1 hout
      exact ⟨leaves, [], hcodes, hlim, .inr ⟨rfl, hhist⟩⟩
  · rintro ⟨leaves, rest, hcodes, hlim, hnone | ⟨rfl, hhist⟩⟩
    · exact .inl ⟨leaves, rest, hcodes, hlim, hnone⟩
    · exact .inr ⟨_, unpackBits_of_codes hcodes hlim, hhist⟩

end

/-- Data bits under the empty tree are INCONSISTENT_FREQ_TABLE: there is no code (R270). -/
theorem ecUnpack_emptyTree {F : List Nat} {lim : Nat} {payload : List Byte} {pad : Nat} (hpad : pad < 8)
    (hne : payload ≠ []) : ecUnpack none F lim payload pad = .error .inconsistentFreqTable := by
  have hbits : dataBits payload pad ≠ [] := by
    have hlen := List.length_pos_iff.2 hne
    rw [← List.length_pos_iff, dataBits, List.length_take, length_payloadBits]
    omega
  refine (ecUnpack_eq_inconsistent ?_).2 ⟨[], _, codesThen_nil none _, Nat.zero_le _, .inl ⟨hbits, ?_⟩⟩
  · rintro (hlarge | ⟨hempty, -⟩)
    · omega
    · exact hne hempty
  · intro p hp
    cases hp

/-! ## What the packer rejects (R268) -/

/-- The packer goes through tokens that have codes and fit. -/
theorem packBits_append {code : Byte → List Bool} {maxBytes : Nat} {pre : List Byte} (post : List Byte)
    (hcode : ∀ b ∈ pre, (code b).length ≠ 0) :
    ∀ bits, bytesForBits (bits.length + (pre.flatMap code).length) ≤ maxBytes →
      packBits code maxBytes bits (pre ++ post) = packBits code maxBytes (bits ++ pre.flatMap code) post := by
  induction pre with
  | nil => intro bits _; simp
  | cons b pre ih =>
    intro bits hfit
    obtain ⟨hb, hcode⟩ := List.forall_mem_cons.1 hcode
    rw [List.flatMap_cons, List.length_append, ← Nat.add_assoc] at hfit
    have hfirst : bytesForBits (bits.length + (code b).length) ≤ maxBytes :=
      (Nat.div_le_div_right (by omega)).trans hfit
    rw [List.cons_append, packBits, if_neg hb, if_neg (Nat.not_lt.2 hfirst), ih hcode _ (by rwa [List.length_append]),
      List.append_assoc, List.flatMap_cons]

section
variable {code : Byte → List Bool} {maxBytes : Nat} {pre post : List Byte} {b : Byte}
  (hcode : ∀ x ∈ pre, (code x).length ≠ 0) (hfit : bytesForBits (pre.flatMap code).length ≤ maxBytes)
include hcode hfit

theorem ecPack_symbolNotInCode (hb : (code b).length = 0) :
    ecPack code maxBytes (pre ++ b :: post) = .error .symbolNotInCode := by
  rw [ecPack, packBits_append _ hcode [] (by simpa using hfit), packBits, if_pos hb]

theorem ecPack_overflow (hb : (code b).length ≠ 0)
    (hover : maxBytes < bytesForBits ((pre.flatMap code).length + (code b).length)) :
    ecPack code maxBytes (pre ++ b :: post) = .error .outputOverflow := by
  rw [ecPack, packBits_append _ hcode [] (by simpa using hfit), packBits, if_neg hb, if_pos (by simpa using hover)]

end

section
variable {s : State} {e : ErrorKind}

theorem exec_ecPack_error {T : List Byte} (hlen : s.tokLenValue.toNat ≤ tokenMax s.cfg)
    (hread : s.readBuf .t s.tokLenValue.toNat = some T) (h : ecPack s.codeOf (payloadMax s.cfg) T = .error e) :
    exec .ecPack s = raiseIn .ecPack e s := by
  simp only [exec, execEcPack, if_neg (Nat.not_lt.2 hlen), hread, h]

theorem exec_ecUnpack_error {payload : List Byte} (hlen : s.payLenValue.toNat ≤ payloadMax s.cfg)
    (hread : s.readBuf .p s.payLenValue.toNat = some payload)
    (h : ecUnpack s.treeValue s.freqTable (tokenMax s.cfg) payload s.padCntValue.toNat = .error e) :
    exec .ecUnpack s = raiseIn .ecUnpack e s := by
  simp only [exec, execEcUnpack, if_neg (Nat.not_lt.2 hlen), hread, h]

end

theorem length_codeOf_eq_zero_iff {s : State} {b : Byte} : (s.codeOf b).length = 0 ↔ s.codeLenAt b.toNat = 0#8 := by
  rw [length_codeOf]
  exact BitVec.toNat_inj (y := 0#8)

/-- Settles O39: the packer stops at the first token that fails, and the decoder's answer is read off how the data bits divide
into codes. -/
theorem ecPackAndEcUnpackRejectBadInputs : Obligations.EcPackAndEcUnpackRejectBadInputs := by
  refine ⟨fun s T pre post b hlen hread hT hcodes hfit => ?_, fun tree F lim payload pad => ?_,
    fun s payload hlen hread => ?_⟩
  · subst hT
    have hcode : ∀ x ∈ pre, (s.codeOf x).length ≠ 0 := fun x hx => mt length_codeOf_eq_zero_iff.1 (hcodes x hx)
    have hbits := length_flatMap_codeOf s pre
    have hfit : bytesForBits (pre.flatMap s.codeOf).length ≤ payloadMax s.cfg := (congrArg bytesForBits hbits).trans_le hfit
    refine ⟨fun hb => ?_, fun hb hover => ?_⟩
    · have hpack := ecPack_symbolNotInCode (post := post) hcode hfit (length_codeOf_eq_zero_iff.2 hb)
      exact ⟨_, exec_ecPack_error hlen hread hpack, rfl⟩
    · rw [← hbits, ← length_codeOf] at hover
      have hpack := ecPack_overflow (post := post) hcode hfit (mt length_codeOf_eq_zero_iff.1 hb) hover
      exact ⟨_, exec_ecPack_error hlen hread hpack, rfl⟩
  · split
    · exact ecUnpack_of_badPadCount ‹_›
    · exact ⟨fun T => ecUnpack_eq_ok ‹_›, ecUnpack_eq_overflow ‹_›, ecUnpack_eq_inconsistent ‹_›⟩
  · have hraise : ∀ e, ecUnpack s.treeValue s.freqTable (tokenMax s.cfg) payload s.padCntValue.toNat = .error e →
        ∃ t, exec .ecUnpack s = .next t ∧ t.status.err = true ∧ t.errCode = some e :=
      fun e he => ⟨_, exec_ecUnpack_error hlen hread he, rfl, rfl⟩
    have hempty : payload = [] ↔ s.payLenValue = 0#32 := by
      rw [← List.length_eq_zero_iff, length_of_readBuf hread]
      exact BitVec.toNat_inj (y := 0#32)
    refine ⟨hraise, fun hpad => ?_, fun hpad hne htree => ?_⟩
    · have hbad : BadPadCount payload s.padCntValue.toNat :=
        hpad.imp_right fun h => ⟨hempty.2 h.1, fun h0 => h.2 (BitVec.toNat_inj.1 h0)⟩
      obtain ⟨t, ht, -, herr⟩ := hraise _ (ecUnpack_of_badPadCount hbad)
      exact ⟨t, ht, herr⟩
    · obtain ⟨t, ht, -, herr⟩ := hraise _ (htree ▸ ecUnpack_emptyTree hpad (mt hempty.1 hne))
      exact ⟨t, ht, herr⟩

end Sys2Proof.Machine

namespace Sys2Proof.Machine

/-! ## EC_COUNT (R260, R261) -/

theorem hist_eq_map (T : List Byte) : hist T = identityList.map fun b => T.count b := by
  rw [hist, identityList, List.map_map]
  rfl

/-- The counts of a stream add up to its length: every byte is one of the 256 symbols. -/
theorem sum_hist (T : List Byte) : (hist T).sum = T.length := by
  rw [hist_eq_map, ← List.sum_toFinset _ nodup_identityList]
  have hcounts := Multiset.sum_count_eq_card (s := identityList.toFinset) (m := (T : Multiset Byte)) fun b _ =>
    List.mem_toFinset.2 (mem_identityList b)
  simpa only [Multiset.coe_count, Multiset.coe_card] using hcounts

/-- The four bytes of an entry give back its 32-bit count (R85). -/
theorem freqAt_writeFreq (s : State) {F : List Nat} {sym : Nat} (hsym : sym < F.length) (h32 : F[sym] < 2 ^ 32) :
    (s.writeFreq F).freqAt sym = F[sym] := by
  have hentry : (s.writeFreq F).freq.getD sym FreqEntry.zero = freqEntryOf F[sym] := by simp [hsym]
  simp only [State.freqAt, State.freqByteAt, hentry]
  simp only [freqEntryByte, freqEntryOf, heldValue, unbe, List.foldl_cons, List.foldl_nil, BitVec.toNat_ofNat]
  omega

theorem freqTable_writeFreq (s : State) {F : List Nat} (hF : F.length = 256) (h32 : ∀ c ∈ F, c < 2 ^ 32) :
    (s.writeFreq F).freqTable = F := by
  refine List.ext_getElem (by simp [hF]) fun i hi hi' => ?_
  rw [← freqAt_writeFreq s hi' (h32 _ (List.getElem_mem hi'))]
  simp [State.freqTable]

theorem exec_ecCount {s : State} {T : List Byte} (hlen : s.tokLenValue.toNat ≤ tokenMax s.cfg)
    (hread : s.readBuf .t s.tokLenValue.toNat = some T) : exec .ecCount s
      = .next (State.finished { s.writeFreq (hist T) with freqCount := .val (BitVec.ofNat 32 (card (hist T))) }) := by
  simp only [exec, execEcCount, if_neg (Nat.not_lt.2 hlen), hread]

/-- Settles O32: the counts fit their entries, since no stream is longer than TOKEN_MAX. -/
theorem ecCountCounts : Obligations.EcCountCounts := by
  intro s T hc hlen hread
  have hT : T.length < 2 ^ 32 := by
    have hmax := length_le_of_readBuf hread hlen
    have hcfg := hc.2
    rw [tokenMax] at hmax
    omega
  have h32 : ∀ c ∈ hist T, c < 2 ^ 32 := fun c hcount => by
    obtain ⟨sym, -, rfl⟩ := List.mem_map.1 hcount
    exact List.count_le_length.trans_lt hT
  have htable := freqTable_writeFreq s (length_hist T) h32
  have hstored := (ChangesOnly.refl (fun o => o == .freq || o == .freqCount) (fun _ => 0) s).writeFreq rfl (hist T)
  refine ⟨_, exec_ecCount hlen hread, fun sym hsym => ?_, (congrArg List.sum htable).trans (sum_hist T), ?_, rfl,
    ⟨rfl, rfl, rfl⟩, ChangesOnly.finished { hstored with freqCount := .inl rfl }⟩
  · have hlt : sym < (hist T).length := (length_hist T).symm ▸ hsym
    refine (freqAt_writeFreq s hlt (h32 _ (List.getElem_mem hlt))).trans ?_
    simp [hist]
  · exact congrArg (fun F => Held.val (BitVec.ofNat 32 (card F))) htable.symm

/-! ## What the codes look like in the tree (R265, R266) -/

/-- The leaves of a tree hold the counts of their symbols. -/
def LeavesCount (F : List Nat) (t : CodeTree) : Prop :=
  ∀ bits sym freq seq, descend t bits = some (.leaf sym freq seq) → freq = F.getD sym.toNat 0

section
variable {F : List Nat} (hF : F.length = 256) {t : CodeTree} (htree : buildTree F = some t)
include hF htree

theorem length_treeSymbols_buildTree : (treeSymbols t).length = card F := by
  have hlen := (perm_map_fst_treeCodes hF).length_eq
  rwa [htree, map_fst_treeCodes, List.length_map, length_countedSymbols hF] at hlen

/-- The tree is a single leaf exactly when one symbol has a count (R266). -/
theorem isLeaf_iff_card_eq_one : (∃ sym freq seq, t = .leaf sym freq seq) ↔ card F = 1 := by
  rw [← length_treeSymbols_buildTree hF htree]
  cases t with
  | leaf sym freq seq => exact iff_of_true ⟨sym, freq, seq, rfl⟩ rfl
  | node l r freq seq =>
    have hl := List.length_pos_iff.2 (treePaths_ne_nil l)
    have hr := List.length_pos_iff.2 (treePaths_ne_nil r)
    refine iff_of_false (by simp) ?_
    simp only [treeSymbols, treePaths, List.length_append, List.length_map]
    omega

/-- A leaf of the tree holds its symbol's count (R263). -/
theorem freq_of_descend {bits : List Bool} {sym : Byte} {freq seq : Nat}
    (hleaf : descend t bits = some (.leaf sym freq seq)) : freq = F.getD sym.toNat 0 := by
  have hall : LeavesCount F t := by
    refine ((buildTree_eq_some_iff hF).1 htree).induction_roots (fun a b next ha hb => ?_) fun u hu => ?_
    · intro bits
      match bits with
      | [] => rintro _ _ _ ⟨⟩
      | false :: bits => exact ha bits
      | true :: bits => exact hb bits
    · obtain ⟨⟨sym, i⟩, hp, rfl⟩ := List.mem_map.1 hu
      have hsym : sym < 256 := (mem_countedSymbols.1 (List.fst_mem_of_mem_zipIdx hp)).1
      intro bits
      match bits with
      | [] =>
        rintro _ _ _ ⟨⟩
        rw [BitVec.toNat_ofNat, Nat.mod_eq_of_lt hsym]
      | _ :: _ => rintro _ _ _ ⟨⟩
  exact hall _ _ _ _ hleaf

/-- A symbol's code leads from the root to its leaf, and is the one bit 0 where there is one leaf (R265, R266). -/
theorem codeFor_leads_to_leaf {sym : Nat} (hsym : sym < 256) (hcount : F.getD sym 0 ≠ 0) :
    if card F = 1 then codeFor F sym = [false]
    else ∃ seq, descend t (codeFor F sym) = some (.leaf (BitVec.ofNat 8 sym) (F.getD sym 0) seq) := by
  have hmem := mem_treeCodes_of_count hF hsym hcount
  rw [htree] at hmem
  split
  · obtain ⟨sym', freq, seq, rfl⟩ := (isLeaf_iff_card_eq_one hF htree).2 ‹_›
    exact congrArg Prod.snd (List.mem_singleton.1 hmem)
  · have hleaf := mt (isLeaf_iff_card_eq_one hF htree).1 ‹_›
    have hpath : (BitVec.ofNat 8 sym, codeFor F sym) ∈ treePaths t := by
      cases t with
      | leaf sym' freq seq => exact absurd ⟨sym', freq, seq, rfl⟩ hleaf
      | node l r freq seq => exact hmem
    obtain ⟨freq, seq, hleaf⟩ := mem_treePaths_iff.1 hpath
    have hfreq := freq_of_descend hF htree hleaf
    rw [BitVec.toNat_ofNat, Nat.mod_eq_of_lt hsym] at hfreq
    exact ⟨seq, hfreq ▸ hleaf⟩

end

/-! ## Kraft's equality (R272) -/

section
variable {F : List Nat} (hF : F.length = 256)
include hF

/-- No code of a table of counts begins another symbol's. -/
theorem codeFor_prefix_free {x y : Nat} (hx : x < 256) (hy : y < 256) (hxy : x ≠ y) (hcx : codeFor F x ≠ [])
    (hcy : codeFor F y ≠ []) : ¬codeFor F x <+: codeFor F y := by
  intro hprefix
  have hmemx := mem_treeCodes_of_count hF hx (mt (codeFor_eq_nil_iff hF hx).2 hcx)
  have hmemy := mem_treeCodes_of_count hF hy (mt (codeFor_eq_nil_iff hF hy).2 hcy)
  exact hxy (eq_of_ofNat_eq hx hy (congrArg Prod.fst (eq_of_prefix_of_mem_treeCodes hmemx hmemy hprefix)))

/-- A sum over the symbols that have a code is a sum over the codes of the tree. -/
theorem sum_codeFor (f : List Bool → Nat) :
    (((List.range 256).filter fun sym => codeFor F sym ≠ []).map fun sym => f (codeFor F sym)).sum
      = ((treeCodes (buildTree F)).map fun p => f p.2).sum := by
  have hcounted : ((List.range 256).filter fun sym => codeFor F sym ≠ []) = countedSymbols F :=
    List.filter_congr fun sym hsym => by
      rw [decide_eq_decide, Ne, codeFor_eq_nil_iff hF (List.mem_range.1 hsym)]
  rw [hcounted, ((perm_treeCodes hF).map fun p => f p.2).sum_eq, List.map_map]
  rfl

theorem length_le_255_of_mem_treeCodes {p : Byte × List Bool} (hp : p ∈ treeCodes (buildTree F)) : p.2.length ≤ 255 := by
  obtain ⟨sym, hsym, rfl⟩ := List.mem_map.1 ((perm_treeCodes hF).mem_iff.1 hp)
  exact length_codeFor_le hF (mem_countedSymbols.1 hsym).1

/-- The codes of two or more symbols share out the whole of the code space. -/
theorem kraft_of_two_le_card (hcard : 2 ≤ card F) :
    ((treeCodes (buildTree F)).map fun p => 2 ^ (255 - p.2.length)).sum = 2 ^ 255 := by
  have hle := fun p => length_le_255_of_mem_treeCodes hF (p := p)
  match htree : buildTree F with
  | none => rw [(buildTree_eq_none_iff hF).1 htree] at hcard; omega
  | some (.leaf sym freq seq) => rw [(isLeaf_iff_card_eq_one hF htree).1 ⟨sym, freq, seq, rfl⟩] at hcard; omega
  | some (.node l r freq seq) =>
    rw [htree] at hle
    exact kraft_treePaths (.node l r freq seq) 255 hle

/-- The one code of a single symbol is one bit, half of the code space (R266). -/
theorem kraft_of_card_eq_one (hcard : card F = 1) :
    ((treeCodes (buildTree F)).map fun p => 2 ^ (255 - p.2.length)).sum = 2 ^ 254 := by
  cases htree : buildTree F with
  | none => rw [(buildTree_eq_none_iff hF).1 htree] at hcard; omega
  | some t =>
    obtain ⟨sym, freq, seq, rfl⟩ := (isLeaf_iff_card_eq_one hF htree).2 hcard
    simp [treeCodes]

end

/-- Settles O34: codes are paths to different leaves of one binary tree. -/
theorem codesArePrefixFreeAndMeetKraft : Obligations.CodesArePrefixFreeAndMeetKraft := fun _ hF =>
  ⟨fun _ hsym => ⟨length_codeFor_le hF hsym, codeFor_eq_nil_iff hF hsym⟩,
    fun _ hx _ hy hxy => codeFor_prefix_free hF hx hy hxy,
    fun hcard => (sum_codeFor hF fun code => 2 ^ (255 - code.length)).trans (kraft_of_two_le_card hF hcard),
    fun hcard => (sum_codeFor hF fun code => 2 ^ (255 - code.length)).trans (kraft_of_card_eq_one hF hcard)⟩

/-! ## EC_BUILD (R267, R147) -/

theorem bitsToNat_append_replicate (bits : List Bool) (k : Nat) :
    bitsToNat (bits ++ List.replicate k false) = bitsToNat bits * 2 ^ k := by
  induction k with
  | zero => simp
  | succ k ih =>
    rw [List.replicate_succ', ← List.append_assoc, bitsToNat, List.foldl_append, ← bitsToNat, ih, pow_succ]
    simp only [List.foldl_cons, List.foldl_nil, Bool.toNat_false]
    ring

/-- A CODE entry shows its code from the most significant end, and 0 beyond it (R147). -/
theorem getMsbD_packCode {bits : List Bool} (h : bits.length ≤ 256) (i : Nat) :
    (packCode bits).getMsbD i = bits.getD i false := by
  by_cases hi : i < 256
  · have hlen : (bits ++ List.replicate (256 - bits.length) false).length = 256 := by simp [h]
    rw [packCode, ← bitsToNat_append_replicate, bitsToNat_eq_foldr, BitVec.getMsbD, getLsbD_ofNat_foldr_bit (by simp [h]),
      List.getD_eq_getElem?_getD, List.getElem?_reverse (by omega), hlen, show 256 - 1 - (256 - 1 - i) = i by omega]
    by_cases hbit : i < bits.length
    · simp [hi, hbit, List.getElem?_append_left]
    · simp [hi, Nat.not_lt.1 hbit, List.getElem?_append_right]
  · rw [List.getD_eq_default _ _ (by omega), BitVec.getMsbD_of_ge _ _ (by omega)]

section
variable {F : List Nat} (hF : F.length = 256) (s : State) {sym : Nat} (hsym : sym < 256)

theorem codeAt_buildCodes (hsym : sym < 256) : (s.buildCodes F).codeAt sym = packCode (codeFor F sym) := by
  simp [State.codeAt, State.buildCodes, tableAt, codeWords, codeFor, hsym]

include hF hsym

theorem toNat_codeLenAt_buildCodes : ((s.buildCodes F).codeLenAt sym).toNat = (codeFor F sym).length := by
  have hentry : (s.buildCodes F).codeLenAt sym = BitVec.ofNat 8 (codeFor F sym).length := by
    simp [State.codeLenAt, State.buildCodes, tableAt, codeLengths, codeFor, hsym]
  rw [hentry, toNat_ofNat_of_le_255 (length_codeFor_le hF hsym)]

theorem getMsbD_codeAt_buildCodes (i : Nat) : ((s.buildCodes F).codeAt sym).getMsbD i = (codeFor F sym).getD i false := by
  rw [codeAt_buildCodes s hsym, getMsbD_packCode ((length_codeFor_le hF hsym).trans (by decide))]

end

/-- CODELEN and CODE give each byte its code in the tree (R267, R268). -/
theorem codeOf_buildCodes_eq {F : List Nat} (hF : F.length = 256) (s : State) (b : Byte) :
    (s.buildCodes F).codeOf b = codeFor F b.toNat := by
  have hlen := toNat_codeLenAt_buildCodes hF s b.isLt
  refine List.ext_getElem (by rw [length_codeOf, hlen]) fun i hi hi' => ?_
  simp [State.codeOf, codeBits, getMsbD_codeAt_buildCodes hF s b.isLt, hi']

/-- Settles O33: the queue of roots makes the merges of R264, and EC_BUILD stores the codes of the tree. -/
theorem ecBuildMakesTheTreeOfTheMerges : Obligations.EcBuildMakesTheTreeOfTheMerges := by
  refine ⟨fun F hF => ⟨buildTree_eq_none_iff hF, fun tree => buildTree_eq_some_iff hF,
      fun tree htree sym hsym hcount => ?_⟩,
    fun s => ⟨_, rfl, fun sym hsym => ?_, fun sym hsym => ?_, codeOf_buildCodes_eq (length_freqTable s) s,
      fun sym hsym i hi => ?_, rfl, rfl, rfl, ⟨rfl, rfl, rfl⟩, ?_⟩⟩
  · have hleaf := codeFor_leads_to_leaf hF htree hsym hcount
    rwa [codeFor, htree] at hleaf
  · have hcount : s.freqTable.getD sym 0 = s.freqAt sym := by simp [State.freqTable, hsym]
    rw [← hcount, ← codeFor_eq_nil_iff (length_freqTable s) hsym, ← List.length_eq_zero_iff,
      ← toNat_codeLenAt_buildCodes (length_freqTable s) s hsym]
    exact (BitVec.toNat_inj (y := 0#8)).symm
  · refine ⟨toNat_codeLenAt_buildCodes (length_freqTable s) s hsym, fun i hi => ?_⟩
    exact (getMsbD_codeAt_buildCodes (length_freqTable s) s hsym i).trans (List.getD_eq_getElem _ _ hi)
  · have hlen := toNat_codeLenAt_buildCodes (length_freqTable s) s hsym
    exact (getMsbD_codeAt_buildCodes (length_freqTable s) s hsym i).trans (List.getD_eq_default _ _ (hlen.symm.trans_le hi))
  · exact ((ChangesOnly.refl _ _ s).buildCodes rfl rfl rfl rfl _).finished

end Sys2Proof.Machine

namespace Sys2Proof.Machine

/-! ## The bits that a stream's own codes take (R262)

The cost of a tree is the sum of the freqs of its inner nodes, which is what the merges of R264 add up. A phase that halves the
number of roots costs at most the freqs of the roots at its start: its `j`-th merge takes the two least roots, and at least two of
the `2 * j` least roots of the start are still there. 256 leaves need at most 8 phases. -/

/-- The bits that coding every symbol as often as `F` counts takes under the paths of a tree. -/
def pathCost (F : List Nat) (t : CodeTree) : Nat := ((treePaths t).map fun p => F.getD p.1.toNat 0 * p.2.length).sum

/-- The counts of a tree's leaves. -/
def leafWeight (F : List Nat) (t : CodeTree) : Nat := ((treeSymbols t).map fun b => F.getD b.toNat 0).sum

theorem pathCost_leaf (F : List Nat) (sym : Byte) (freq seq : Nat) : pathCost F (.leaf sym freq seq) = 0 := rfl

theorem leafWeight_node (F : List Nat) (l r : CodeTree) (freq seq : Nat) :
    leafWeight F (.node l r freq seq) = leafWeight F l + leafWeight F r := by simp [leafWeight]

/-- One more branch bit for every leaf of a tree costs the leaves' counts. -/
theorem sum_map_cons_path (F : List Nat) (t : CodeTree) (bit : Bool) :
    (((treePaths t).map fun p => (p.1, bit :: p.2)).map fun p => F.getD p.1.toNat 0 * p.2.length).sum
      = pathCost F t + leafWeight F t := by
  simp only [pathCost, leafWeight, treeSymbols, List.map_map, Function.comp_def, List.length_cons, Nat.mul_succ,
    List.sum_map_add]

theorem pathCost_node (F : List Nat) (l r : CodeTree) (freq seq : Nat) :
    pathCost F (.node l r freq seq) = pathCost F l + pathCost F r + (leafWeight F l + leafWeight F r) := by
  rw [pathCost, treePaths, List.map_append, List.sum_append, sum_map_cons_path, sum_map_cons_path]
  omega

/-- The freqs of a set of roots. -/
def rootFreqs (Q : List CodeTree) : Nat := (Q.map treeFreq).sum

/-- The costs of a set of roots. -/
def rootCosts (F : List Nat) (Q : List CodeTree) : Nat := (Q.map (pathCost F)).sum

@[simp] theorem rootFreqs_cons (t : CodeTree) (Q : List CodeTree) : rootFreqs (t :: Q) = treeFreq t + rootFreqs Q := rfl

@[simp] theorem rootCosts_cons (F : List Nat) (t : CodeTree) (Q : List CodeTree) :
    rootCosts F (t :: Q) = pathCost F t + rootCosts F Q := rfl

theorem rootFreqs_perm {Q R : List CodeTree} (h : Q.Perm R) : rootFreqs Q = rootFreqs R := (h.map _).sum_eq

theorem rootCosts_perm (F : List Nat) {Q R : List CodeTree} (h : Q.Perm R) : rootCosts F Q = rootCosts F R :=
  (h.map _).sum_eq

/-- A queue whose roots carry the counts of their leaves, with the fuel that `mergeRoots` needs for it. -/
structure Mergeable (F : List Nat) (fuel next : Nat) (Q : List CodeTree) : Prop where
  queue : IsQueue next Q
  weighed : ∀ t ∈ Q, treeFreq t = leafWeight F t
  enough : Q.length ≤ fuel + 1

section
variable {F : List Nat} {fuel next : Nat} {a b : CodeTree} {rest : List CodeTree}

theorem Mergeable.round (h : Mergeable F (fuel + 1) next (a :: b :: rest)) :
    Mergeable F fuel (next + 1) (enqueue (mergedRoot next a b) rest) where
  queue := h.queue.round.2
  weighed := by
    obtain ⟨ha, hb, hrest⟩ : treeFreq a = leafWeight F a ∧ treeFreq b = leafWeight F b
        ∧ ∀ t ∈ rest, treeFreq t = leafWeight F t := by simpa using h.weighed
    intro t ht
    rcases List.mem_cons.1 ((perm_enqueue _ rest).mem_iff.1 ht) with rfl | ht
    · rw [mergedRoot, leafWeight_node, ← ha, ← hb]
      rfl
    · exact hrest t ht
  enough := by simpa using h.enough

/-- A merge costs the freqs of the two roots it takes. -/
theorem Mergeable.rootCosts_round (h : Mergeable F fuel next (a :: b :: rest)) :
    rootCosts F (enqueue (mergedRoot next a b) rest) = rootCosts F (a :: b :: rest) + (treeFreq a + treeFreq b) := by
  rw [rootCosts_perm F (perm_enqueue ..), rootCosts_cons, mergedRoot, pathCost_node, ← h.weighed a (by simp),
    ← h.weighed b (by simp), rootCosts_cons, rootCosts_cons]
  omega

theorem rootFreqs_round (next : Nat) (a b : CodeTree) (rest : List CodeTree) :
    rootFreqs (enqueue (mergedRoot next a b) rest) = rootFreqs (a :: b :: rest) := by
  rw [rootFreqs_perm (perm_enqueue ..), rootFreqs_cons, rootFreqs_cons, rootFreqs_cons, ← Nat.add_assoc]
  rfl

end

theorem treeFreq_head_le {t u : CodeTree} {Q : List CodeTree} (h : (t :: Q).Pairwise KeyBelow) (hu : u ∈ t :: Q) :
    treeFreq t ≤ treeFreq u := by
  rcases List.mem_cons.1 hu with rfl | hu
  · exact le_refl _
  · rcases (List.pairwise_cons.1 h).1 u hu with hlt | ⟨heq, -⟩
    · exact hlt.le
    · exact heq.le

/-- Of any roots of a queue the first two are at least as heavy as the two a merge takes, and the others outlast it. -/
theorem rootFreqs_sublist {a b x y : CodeTree} {rest xs : List CodeTree} (hQ : (a :: b :: rest).Pairwise KeyBelow)
    (hxs : (x :: y :: xs).Sublist (a :: b :: rest)) :
    treeFreq a + treeFreq b ≤ treeFreq x + treeFreq y ∧ xs.Sublist rest := by
  have hx := treeFreq_head_le hQ (hxs.subset (List.mem_cons_self ..))
  have hy := treeFreq_head_le (List.pairwise_cons.1 hQ).2 (hxs.tail.subset (List.mem_cons_self ..))
  exact ⟨Nat.add_le_add hx hy, hxs.tail.tail⟩

/-- The tree made of at most `2 ^ k` roots costs their freqs at most `k` times more than they do. -/
def CostBound (F : List Nat) (k : Nat) : Prop := ∀ {fuel next : Nat} {Q : List CodeTree} {t : CodeTree},
  Mergeable F fuel next Q → Q.length ≤ 2 ^ k → mergeRoots fuel next Q = some t →
    pathCost F t ≤ rootCosts F Q + k * rootFreqs Q

section
variable {F : List Nat}

theorem costBound_zero : CostBound F 0 := by
  intro fuel next Q t _ hlen hmerge
  match Q with
  | [] =>
    rw [mergeRoots] at hmerge
    cases hmerge
  | [u] =>
    rw [mergeRoots_singleton] at hmerge
    cases hmerge
    exact Nat.le_add_right _ _
  | _ :: _ :: _ => simp at hlen

/-- `j` merges down to `2 ^ k` roots cost at most the freqs of any `2 * j` of the roots. -/
theorem pathCost_le_of_phase {k : Nat} (hk : CostBound F k) (j : Nat) : ∀ {fuel next : Nat} {Q xs : List CodeTree}
    {t : CodeTree}, Mergeable F fuel next Q → Q.length ≤ 2 ^ k + j → xs.Sublist Q → 2 * j ≤ xs.length →
    mergeRoots fuel next Q = some t → pathCost F t ≤ rootCosts F Q + rootFreqs xs + k * rootFreqs Q := by
  induction j with
  | zero =>
    intro fuel next Q xs t hQ hlen _ _ hmerge
    have := hk hQ hlen hmerge
    omega
  | succ j ih =>
    intro fuel next Q xs t hQ hlen hxs hj hmerge
    have htwo := hj.trans hxs.length_le
    match Q, xs, fuel with
    | a :: b :: rest, x :: y :: xs, fuel + 1 =>
      obtain ⟨hfreqs, hothers⟩ := rootFreqs_sublist hQ.queue.sorted hxs
      have hcosts := hQ.rootCosts_round
      rw [mergeRoots_round] at hmerge
      simp only [List.length_cons] at hlen hj
      have hrest := ih hQ.round (by rw [length_enqueue]; omega) (hothers.trans (sublist_enqueue ..)) (by omega) hmerge
      rw [rootFreqs_round, hcosts] at hrest
      rw [rootFreqs_cons x, rootFreqs_cons y]
      omega
    | _ :: _ :: _, _, 0 => exact absurd hQ.enough (by simp)
    | [], _, _ => simp at htwo
    | [_], _, _ => simp at htwo; omega
    | _, [], _ => simp at hj
    | _, [_], _ => simp at hj; omega

theorem costBound (k : Nat) : CostBound F k := by
  induction k with
  | zero => exact costBound_zero
  | succ k ih =>
    intro fuel next Q t hQ hlen hmerge
    rw [pow_succ] at hlen
    have hphase := pathCost_le_of_phase ih (Q.length - 2 ^ k) hQ (by omega) (List.Sublist.refl Q) (by omega) hmerge
    rw [Nat.succ_mul]
    omega

end

/-! ## The bound of R262 -/

theorem rootCosts_leavesOf (F : List Nat) : rootCosts F (leavesOf F) = 0 := by
  rw [rootCosts, leavesOf, List.map_map]
  exact List.sum_eq_zero fun c hc => by
    obtain ⟨p, -, rfl⟩ := List.mem_map.1 hc
    exact pathCost_leaf ..

section
variable {F : List Nat} (hF : F.length = 256)
include hF

theorem sum_countedSymbols : ((countedSymbols F).map (F.getD · 0)).sum = F.sum := by
  conv_rhs => rw [← map_getD_range hF]
  rw [countedSymbols]
  induction List.range 256 with
  | nil => rfl
  | cons sym syms ih =>
    rw [List.filter_cons]
    by_cases h : F.getD sym 0 = 0
    · rw [if_neg (by simpa using h), ih, List.map_cons, List.sum_cons, h, Nat.zero_add]
    · rw [if_pos (by simpa using h), List.map_cons, List.sum_cons, ih, List.map_cons, List.sum_cons]

theorem rootFreqs_leavesOf : rootFreqs (leavesOf F) = F.sum := by
  rw [← sum_countedSymbols hF, rootFreqs, leavesOf, List.map_map, ← List.zipIdx_map_fst 0 (countedSymbols F), List.map_map]
  rfl

theorem mergeable_leavesOf : Mergeable F (card F) (card F) ((leavesOf F).foldr enqueue []) where
  queue := isQueue_leavesOf hF
  weighed t ht := by
    obtain ⟨⟨sym, i⟩, hp, rfl⟩ := List.mem_map.1 ((perm_foldr_enqueue _).mem_iff.1 ht)
    have hsym : sym < 256 := (mem_countedSymbols.1 (List.fst_mem_of_mem_zipIdx hp)).1
    simp [treeFreq, leafWeight, Nat.mod_eq_of_lt hsym]
  enough := by
    rw [(perm_foldr_enqueue _).length_eq, length_leavesOf hF]
    exact Nat.le_succ _

/-- The tree of at most 256 counts costs at most 8 bits for each occurrence. -/
theorem pathCost_buildTree_le {t : CodeTree} (htree : buildTree F = some t) : pathCost F t ≤ 8 * F.sum := by
  have hperm := perm_foldr_enqueue (leavesOf F)
  have hlen : ((leavesOf F).foldr enqueue []).length ≤ 2 ^ 8 := by
    rw [hperm.length_eq, length_leavesOf hF]
    exact (card_le F).trans hF.le
  have hcost := costBound 8 (mergeable_leavesOf hF) hlen ((buildTree_eq hF).symm.trans htree)
  rwa [rootFreqs_perm hperm, rootCosts_perm F hperm, rootFreqs_leavesOf hF, rootCosts_leavesOf F, Nat.zero_add] at hcost

/-- The codes of a table of counts take at most 8 bits for each occurrence; a single leaf takes one. -/
theorem sum_codes_le :
    ((treeCodes (buildTree F)).map fun p => F.getD p.1.toNat 0 * p.2.length).sum ≤ 8 * F.sum := by
  match htree : buildTree F with
  | none => exact Nat.zero_le _
  | some (.leaf sym freq seq) =>
    have hmem : F.getD sym.toNat 0 ∈ F := by
      rw [List.getD_eq_getElem _ _ (hF ▸ sym.isLt)]
      exact List.getElem_mem _
    have hle := List.le_sum_of_mem hmem
    simp only [treeCodes, List.map_cons, List.map_nil, List.sum_cons, List.sum_nil, List.length_cons, List.length_nil]
    omega
  | some (.node l r freq seq) => exact pathCost_buildTree_le hF htree

end

/-- The symbols with a count in the histogram of a stream are its bytes. -/
theorem mem_map_countedSymbols_hist {T : List Byte} {b : Byte} :
    b ∈ (countedSymbols (hist T)).map (BitVec.ofNat 8) ↔ b ∈ T := by
  rw [← List.count_pos_iff (l := T), ← getD_hist_toNat, Nat.pos_iff_ne_zero, List.mem_map]
  constructor
  · rintro ⟨sym, hsym, rfl⟩
    obtain ⟨hlt, hcount⟩ := mem_countedSymbols.1 hsym
    rwa [BitVec.toNat_ofNat, Nat.mod_eq_of_lt hlt]
  · intro hcount
    exact ⟨b.toNat, mem_countedSymbols.2 ⟨b.isLt, hcount⟩, by simp⟩

/-- The bits of a stream's own codes are the codes' lengths, each as often as its symbol occurs. -/
theorem length_flatMap_codeFor (T : List Byte) : (T.flatMap fun b => codeFor (hist T) b.toNat).length
    = ((treeCodes (buildTree (hist T))).map fun p => (hist T).getD p.1.toNat 0 * p.2.length).sum := by
  have hsymbols : T.toFinset = ((countedSymbols (hist T)).map (BitVec.ofNat 8)).toFinset := by
    ext b
    rw [List.mem_toFinset, List.mem_toFinset, mem_map_countedSymbols_hist]
  rw [List.length_flatMap, Finset.sum_list_map_count, hsymbols, List.sum_toFinset _ (nodup_map_countedSymbols _),
    ((perm_treeCodes (length_hist T)).map _).sum_eq, List.map_map, List.map_map]
  refine congrArg List.sum (List.map_congr_left fun sym hsym => ?_)
  simp only [Function.comp_apply, getD_hist_toNat, smul_eq_mul, BitVec.toNat_ofNat,
    Nat.mod_eq_of_lt (mem_countedSymbols.1 hsym).1]

/-- Settles O35: at most 256 leaves merge in 8 phases, each of which costs at most one bit a token. -/
theorem ownCodesTakeAtMostEightBitsAToken : Obligations.OwnCodesTakeAtMostEightBitsAToken := by
  intro T maxBytes hfit code
  have hbits : (T.flatMap code).length ≤ 8 * T.length := by
    rw [← sum_hist T]
    exact (length_flatMap_codeFor T).trans_le (sum_codes_le (length_hist T))
  have hbytes : bytesForBits (T.flatMap code).length ≤ T.length := by
    rw [bytesForBits]
    omega
  have hcode : ∀ b ∈ T, (code b).length ≠ 0 := fun b hb h =>
    code_ne_nil (mem_treeCodes_hist hb) (List.length_eq_zero_iff.1 h)
  obtain ⟨hlen, -⟩ := padBits_spec (T.flatMap code)
  exact ⟨hbits, _, _, ecPack_ok hcode (hbytes.trans hfit), hlen.trans_le hbytes⟩

end Sys2Proof.Machine

namespace Sys2Proof.Machine

/-! ## Bytes of integers and of windows (R18, R310) -/

theorem toNat_ofNat_of_lt {w n : Nat} (h : n < 2 ^ w) : (BitVec.ofNat w n).toNat = n :=
  (BitVec.toNat_ofNat ..).trans (Nat.mod_eq_of_lt h)

theorem unbe_be32 {v : Nat} (h : v < 2 ^ 32) : unbe (be32 v) = v := by
  simp only [be32, unbe, List.foldl_cons, List.foldl_nil, BitVec.toNat_ofNat]
  omega

theorem unbe_be16 {v : Nat} (h : v < 2 ^ 16) : unbe (be16 v) = v := by
  simp only [be16, unbe, List.foldl_cons, List.foldl_nil, BitVec.toNat_ofNat]
  omega

/-- Two byte strings of one length with one value are the same. -/
theorem unbe_injective : ∀ {xs ys : List Byte}, xs.length = ys.length → unbe xs = unbe ys → xs = ys
  | [], [], _, _ => rfl
  | x :: xs, y :: ys, hlen, h => by
    have hlen : xs.length = ys.length := Nat.succ.inj hlen
    have hx := unbe_lt xs
    have hy := unbe_lt ys
    rw [unbe_cons, unbe_cons, hlen] at h
    rw [hlen] at hx
    have hpos : 0 < 256 ^ ys.length := by positivity
    have hhead : x.toNat = y.toNat := by
      have hdiv := congrArg (· / 256 ^ ys.length) h
      simpa only [Nat.mul_add_div hpos, Nat.div_eq_of_lt hx, Nat.div_eq_of_lt hy, Nat.add_zero] using hdiv
    rw [hhead] at h
    rw [BitVec.eq_of_toNat_eq hhead, unbe_injective hlen (Nat.add_left_cancel h)]

theorem be32_unbe {bytes : List Byte} (h : bytes.length = 4) : be32 (unbe bytes) = bytes := by
  have hlt := unbe_lt bytes
  rw [h] at hlt
  exact unbe_injective h.symm (unbe_be32 hlt)

theorem be16_unbe {bytes : List Byte} (h : bytes.length = 2) : be16 (unbe bytes) = bytes := by
  have hlt := unbe_lt bytes
  rw [h] at hlt
  exact unbe_injective h.symm (unbe_be16 hlt)

theorem need_eq_ok {x : Nat} {w rest : List (Option Byte)} {bytes : List Byte} :
    need x w = .ok (bytes, rest) ↔ w = bytes.map some ++ rest ∧ bytes.length = x :=
  ⟨need_ok, fun ⟨hw, hlen⟩ => hw ▸ need_append hlen⟩

/-! ## The frequency table of a frame (R130, R300, R310) -/

/-- Table entries that FrameDes accepts: counts of 32 bits that are not 0, symbols strictly rising and none below `above` (R310). -/
def TableFrom : Nat → List (Byte × Nat) → Prop
  | _, [] => True
  | above, e :: E => e.2 ≠ 0 ∧ e.2 < 2 ^ 32 ∧ above ≤ e.1.toNat ∧ TableFrom (e.1.toNat + 1) E

/-- The counts with those of table entries stored (R310). -/
def setEntries (F : List Nat) (E : List (Byte × Nat)) : List Nat := E.foldl (fun F e => F.set e.1.toNat e.2) F

theorem TableFrom.mono {E : List (Byte × Nat)} {a b : Nat} (h : TableFrom b E) (hab : a ≤ b) : TableFrom a E := by
  cases E with
  | nil => trivial
  | cons e E =>
    obtain ⟨hne, h32, hsym, hrest⟩ := h
    exact ⟨hne, h32, hab.trans hsym, hrest⟩

/-- The entries of counts are a table FrameDes accepts. -/
theorem tableFrom_entriesFrom {G : List Nat} (h32 : ∀ c ∈ G, c < 2 ^ 32) :
    ∀ {sym : Nat}, sym + G.length ≤ 256 → TableFrom sym (entriesFrom sym G) := by
  induction G with
  | nil => intro sym _; trivial
  | cons f fs ih =>
    intro sym hlen
    rw [List.length_cons] at hlen
    obtain ⟨hf, h32⟩ := List.forall_mem_cons.1 h32
    have hrest := ih h32 (sym := sym + 1) (by omega)
    have hsym : (BitVec.ofNat 8 sym).toNat = sym := by rw [BitVec.toNat_ofNat]; omega
    rw [entriesFrom]
    split
    · exact hrest.mono (Nat.le_succ sym)
    · exact ⟨‹_›, hf, hsym.ge, hsym.symm ▸ hrest⟩

theorem entriesFrom_replicate_zero (n : Nat) : ∀ sym, entriesFrom sym (List.replicate n 0) = [] := by
  induction n with
  | zero => intro sym; rfl
  | succ n ih => intro sym; exact ih (sym + 1)

/-- A table FrameDes accepts lists the entries of some counts. -/
theorem exists_entriesFrom_eq (n : Nat) : ∀ {sym : Nat} {E : List (Byte × Nat)}, sym + n = 256 → TableFrom sym E →
    ∃ G : List Nat, G.length = n ∧ entriesFrom sym G = E := by
  induction n with
  | zero =>
    intro sym E hn hE
    cases E with
    | nil => exact ⟨[], rfl, rfl⟩
    | cons e E =>
      obtain ⟨-, -, hsym, -⟩ := hE
      have := e.1.isLt
      omega
  | succ n ih =>
    intro sym E hn hE
    cases E with
    | nil => exact ⟨List.replicate (n + 1) 0, List.length_replicate, entriesFrom_replicate_zero (n + 1) sym⟩
    | cons e E =>
      obtain ⟨hne, h32, hsym, hrest⟩ := hE
      by_cases heq : e.1.toNat = sym
      · rw [heq] at hrest
        obtain ⟨G, hlen, hG⟩ := ih (by omega) hrest
        refine ⟨e.2 :: G, by rw [List.length_cons, hlen], ?_⟩
        rw [entriesFrom, if_neg hne, hG, ← heq, BitVec.ofNat_toNat, BitVec.setWidth_eq]
      · obtain ⟨G, hlen, hG⟩ := ih (sym := sym + 1) (E := e :: E) (by omega) ⟨hne, h32, by omega, hrest⟩
        exact ⟨0 :: G, by rw [List.length_cons, hlen], hG⟩

/-- Storing the entries of counts in a table of zeros gives the counts back. -/
theorem setEntries_entriesFrom (G : List Nat) : ∀ pre : List Nat, pre.length + G.length ≤ 256 →
    setEntries (pre ++ List.replicate G.length 0) (entriesFrom pre.length G) = pre ++ G := by
  induction G with
  | nil => intro pre _; rfl
  | cons f fs ih =>
    intro pre hlen
    rw [List.length_cons] at hlen
    have hrest := ih (pre ++ [f]) (by rw [List.length_append, List.length_singleton]; omega)
    rw [List.length_append, List.length_singleton, List.append_assoc, List.append_assoc, List.singleton_append,
      List.singleton_append] at hrest
    rw [entriesFrom, List.length_cons, List.replicate_succ]
    split
    · next hf => rwa [hf] at hrest ⊢
    · have hsym : (BitVec.ofNat 8 pre.length).toNat = pre.length := by rw [BitVec.toNat_ofNat]; omega
      rw [setEntries, List.foldl_cons, hsym, List.set_append_right _ _ (le_refl _), Nat.sub_self, List.set_cons_zero]
      exact hrest

/-- FrameDes's table of zeros, with the entries of 256 counts stored. -/
theorem setEntries_zeros {F : List Nat} (hF : F.length = 256) :
    setEntries (List.replicate 256 0) (entriesFrom 0 F) = F := by
  have h := setEntries_entriesFrom F [] (by rw [hF]; rfl)
  rwa [hF] at h

/-- A step of a reader that may stop answers only where each of its parts does. -/
theorem bind_eq_ok {ε α β : Type} {x : Except ε α} {f : α → Except ε β} {b : β} :
    x.bind f = .ok b ↔ ∃ a, x = .ok a ∧ f a = .ok b := by
  cases x <;> simp [Except.bind]

theorem map_some_append (xs ys : List Byte) (rest : List (Option Byte)) :
    (xs ++ ys).map some ++ rest = xs.map some ++ (ys.map some ++ rest) := by
  rw [List.map_append, List.append_assoc]

theorem ite_error_eq_ok {ε α : Type} {c : Prop} [Decidable c] {stop : ε} {x : Except ε α} {a : α} :
    (if c then .error stop else x) = .ok a ↔ ¬c ∧ x = .ok a := by
  split <;> simp [*]

theorem readEntries_succ (count above : Nat) (F : List Nat) (w : List (Option Byte)) :
    readEntries (count + 1) above F w = (need 5 w).bind fun (e, w) =>
      if unbe (e.drop 1) = 0 then .error (.error .inconsistentFreqTable)
      else if (e.getD 0 0).toNat < above then .error (.error .inconsistentFreqTable)
      else readEntries count ((e.getD 0 0).toNat + 1) (F.set (e.getD 0 0).toNat (unbe (e.drop 1))) w := by
  rw [readEntries]
  rcases need 5 w with - | ⟨e, w⟩ <;> rfl

/-- One entry is read as its five bytes. -/
theorem readEntries_succ_eq_ok {count above : Nat} {F F' : List Nat} {w rest : List (Option Byte)} :
    readEntries (count + 1) above F w = .ok (F', rest) ↔
      ∃ e w', e.2 ≠ 0 ∧ e.2 < 2 ^ 32 ∧ above ≤ e.1.toNat ∧ w = (entryBytes e).map some ++ w'
        ∧ readEntries count (e.1.toNat + 1) (F.set e.1.toNat e.2) w' = .ok (F', rest) := by
  simp only [readEntries_succ, bind_eq_ok, ite_error_eq_ok, need_eq_ok, Prod.exists, Nat.not_lt]
  constructor
  · rintro ⟨bytes, w', ⟨rfl, hlen⟩, hne, hsym, hread⟩
    obtain ⟨b, bs, rfl⟩ := List.exists_cons_of_length_eq_add_one hlen
    have hbs : bs.length = 4 := Nat.succ.inj hlen
    have h32 := unbe_lt bs
    rw [hbs] at h32
    exact ⟨b, unbe bs, w', hne, h32, hsym, by rw [entryBytes, be32_unbe hbs], hread⟩
  · rintro ⟨b, f, w', hne, h32, hsym, rfl, hread⟩
    have hcount : unbe ((entryBytes (b, f)).drop 1) = f := unbe_be32 h32
    exact ⟨entryBytes (b, f), w', ⟨rfl, rfl⟩, hcount.symm ▸ hne, hsym, hcount.symm ▸ hread⟩

/-- The entry reader accepts exactly the bytes of table entries in rising order, and stores their counts (R310). -/
theorem readEntries_eq_ok {count : Nat} : ∀ {above : Nat} {F F' : List Nat} {w rest : List (Option Byte)},
    readEntries count above F w = .ok (F', rest) ↔
      ∃ E, E.length = count ∧ TableFrom above E ∧ F' = setEntries F E ∧ w = (E.flatMap entryBytes).map some ++ rest := by
  induction count with
  | zero =>
    intro above F F' w rest
    constructor
    · intro h
      cases h
      exact ⟨[], rfl, trivial, rfl, rfl⟩
    · rintro ⟨E, hlen, -, rfl, rfl⟩
      rw [List.length_eq_zero_iff.1 hlen]
      rfl
  | succ count ih =>
    intro above F F' w rest
    rw [readEntries_succ_eq_ok]
    constructor
    · rintro ⟨e, w', hne, h32, hsym, rfl, hread⟩
      obtain ⟨E, hlen, hE, rfl, rfl⟩ := ih.1 hread
      refine ⟨e :: E, by rw [List.length_cons, hlen], ⟨hne, h32, hsym, hE⟩, rfl, ?_⟩
      rw [List.flatMap_cons, List.map_append, List.append_assoc]
    · rintro ⟨E, hlen, hE, rfl, rfl⟩
      obtain ⟨e, E, rfl⟩ := List.exists_cons_of_length_eq_add_one hlen
      obtain ⟨hne, h32, hsym, hrest⟩ := hE
      refine ⟨e, (E.flatMap entryBytes).map some ++ rest, hne, h32, hsym, ?_, ih.2 ⟨E, Nat.succ.inj hlen, hrest, rfl, rfl⟩⟩
      rw [List.flatMap_cons, List.map_append, List.append_assoc]

/-! ## FrameDes accepts exactly the frames of FrameSer (R310, R315) -/

theorem TableFrom.length_le {E : List (Byte × Nat)} (h : TableFrom 0 E) : E.length ≤ 256 := by
  obtain ⟨G, hlen, rfl⟩ := exists_entriesFrom_eq 256 (Nat.zero_add 256) h
  exact (length_entriesFrom 0 G).trans_le (hlen ▸ card_le G)

theorem length_frameOf (rot : Word) (pad : Byte) (E : List (Byte × Nat)) (payload : List Byte) :
    (frameOf rot pad E payload).length = 11 + 5 * E.length + payload.length := by
  simp only [frameOf, List.length_append, length_flatMap_entryBytes]
  simp only [be32, be16, List.length_cons, List.length_nil]
  omega

/-- The checks FrameDes makes of the fields of a frame (R310). -/
structure FrameFields (lim : Nat) (pad : Nat) (E : List (Byte × Nat)) (payload : List Byte) : Prop where
  table : TableFrom 0 E
  fits : payload.length ≤ lim
  word : payload.length < 2 ^ 32
  hasTable : ¬(E.length = 0 ∧ payload.length ≠ 0)
  hasBits : ¬(payload.length = 0 ∧ pad ≠ 0)

/-- What FrameDes returns of a frame with these fields. -/
def frameRead (rot pad : Nat) (E : List (Byte × Nat)) (payload : List Byte) : Frame where
  rot := rot
  pad := pad
  freq := setEntries (List.replicate 256 0) E
  count := E.length
  payload := payload
  length := 11 + 5 * E.length + payload.length

section
variable {lim : Nat}

theorem readFrameBody_eq_bind (lim rot pad count : Nat) (w : List (Option Byte)) :
    readFrameBody lim rot pad count w = (readEntries count 0 (List.replicate 256 0) w).bind fun (F, w) =>
      (need 4 w).bind fun (lengthBytes, w) =>
        if lim < unbe lengthBytes then .error (.error .frameTooLarge)
        else if count = 0 ∧ unbe lengthBytes ≠ 0 then .error (.error .inconsistentFreqTable)
        else if unbe lengthBytes = 0 ∧ pad ≠ 0 then .error (.error .paddingOutOfRange)
        else (need (unbe lengthBytes) w).bind fun (payload, _) =>
          .ok ⟨rot, pad, F, count, payload, 11 + 5 * count + unbe lengthBytes⟩ := by
  rw [readFrameBody]
  rcases readEntries count 0 (List.replicate 256 0) w with - | ⟨F, w⟩
  · rfl
  · dsimp only [Except.bind]
    rcases need 4 w with - | ⟨lengthBytes, w⟩
    · rfl
    · dsimp only
      rcases need (unbe lengthBytes) w with - | ⟨payload, w⟩ <;> rfl

theorem readFrame_eq_bind (lim : Nat) (w : List (Option Byte)) :
    readFrame lim w = (need 4 w).bind fun (rotBytes, w) => (need 1 w).bind fun (padBytes, w) =>
      if 8 ≤ unbe padBytes then .error (.error .paddingOutOfRange)
      else (need 2 w).bind fun (countBytes, w) =>
        if 256 < unbe countBytes then .error (.error .inconsistentFreqTable)
        else readFrameBody lim (unbe rotBytes) (unbe padBytes) (unbe countBytes) w := by
  rw [readFrame]
  rcases need 4 w with - | ⟨rotBytes, w⟩
  · rfl
  · dsimp only [Except.bind]
    rcases need 1 w with - | ⟨padBytes, w⟩
    · rfl
    · dsimp only
      rcases need 2 w with - | ⟨countBytes, w⟩ <;> rfl

/-- From its table on, a frame is read exactly where its fields pass the checks, whatever bytes follow it (R312). -/
theorem readFrameBody_eq_ok {rot pad count : Nat} {w : List (Option Byte)} {fr : Frame} :
    readFrameBody lim rot pad count w = .ok fr ↔ ∃ E payload rest, FrameFields lim pad E payload ∧ E.length = count
      ∧ w = (E.flatMap entryBytes ++ (be32 payload.length ++ payload)).map some ++ rest
      ∧ fr = frameRead rot pad E payload := by
  simp only [readFrameBody_eq_bind, bind_eq_ok, ite_error_eq_ok, need_eq_ok, readEntries_eq_ok, Prod.exists, Nat.not_lt]
  constructor
  · rintro ⟨F, w, ⟨E, rfl, htable, rfl, rfl⟩, bytes, w, ⟨rfl, hbytes⟩, hfits, hhasTable, hhasBits, payload, rest,
      ⟨rfl, hpayload⟩, hfr⟩
    cases hfr
    have hword := unbe_lt bytes
    have hlength := be32_unbe hbytes
    rw [hbytes] at hword
    rw [← hpayload] at hword hlength hfits hhasTable hhasBits ⊢
    refine ⟨E, payload, rest, ⟨htable, hfits, hword, hhasTable, hhasBits⟩, rfl, ?_, rfl⟩
    rw [hlength]
    simp only [List.map_append, List.append_assoc]
  · rintro ⟨E, payload, rest, ⟨htable, hfits, hword, hhasTable, hhasBits⟩, rfl, rfl, rfl⟩
    have hlen := unbe_be32 hword
    refine ⟨_, _, ⟨E, rfl, htable, rfl, map_some_append ..⟩, be32 payload.length, _, ⟨map_some_append .., rfl⟩, ?_⟩
    rw [hlen]
    exact ⟨hfits, hhasTable, hhasBits, payload, rest, ⟨rfl, rfl⟩, rfl⟩

/-- FrameDes accepts exactly the windows that start with a frame whose fields pass the checks (R310, R312). -/
theorem readFrame_eq_ok {w : List (Option Byte)} {fr : Frame} :
    readFrame lim w = .ok fr ↔ ∃ (rot : Word) (pad : Byte) (E : List (Byte × Nat)) (payload : List Byte)
      (rest : List (Option Byte)), FrameFields lim pad.toNat E payload ∧ pad.toNat < 8
        ∧ w = (frameOf rot pad E payload).map some ++ rest ∧ fr = frameRead rot.toNat pad.toNat E payload := by
  simp only [readFrame_eq_bind, bind_eq_ok, ite_error_eq_ok, need_eq_ok, readFrameBody_eq_ok, Prod.exists, Nat.not_lt,
    Nat.not_le]
  constructor
  · rintro ⟨rotBytes, w, ⟨rfl, hrot⟩, padBytes, w, ⟨rfl, hpad⟩, hpad8, countBytes, w, ⟨rfl, hcount⟩, -, E, payload, rest,
      hfields, hE, rfl, rfl⟩
    obtain ⟨pad, rfl⟩ := List.length_eq_one_iff.1 hpad
    have hpadValue : unbe [pad] = pad.toNat := by simp [unbe]
    have hrotValue : (BitVec.ofNat 32 (unbe rotBytes)).toNat = unbe rotBytes := by
      have hlt := unbe_lt rotBytes
      rw [hrot] at hlt
      exact toNat_ofNat_of_lt hlt
    rw [hpadValue] at hfields hpad8 ⊢
    refine ⟨BitVec.ofNat 32 (unbe rotBytes), pad, E, payload, rest, hfields, hpad8, ?_, by rw [hrotValue]⟩
    rw [frameOf, hrotValue, be32_unbe hrot, hE, be16_unbe hcount]
    simp only [List.map_append, List.append_assoc]
  · rintro ⟨rot, pad, E, payload, rest, hfields, hpad8, rfl, rfl⟩
    have hcount := hfields.table.length_le
    have hcountValue := unbe_be16 (v := E.length) (by omega)
    have hpadValue : unbe [pad] = pad.toNat := by simp [unbe]
    refine ⟨be32 rot.toNat, _, ⟨map_some_append .., rfl⟩, [pad], _, ⟨map_some_append .., rfl⟩, by rwa [hpadValue],
      be16 E.length, _, ⟨map_some_append .., rfl⟩, by rwa [hcountValue], E, payload, rest, hpadValue.symm ▸ hfields,
      hcountValue.symm, rfl, ?_⟩
    rw [unbe_be32 rot.isLt, hpadValue]

end

/-- FrameSer succeeds exactly on fields that pass its three checks, with the frame of R300. -/
theorem serializeFrame_eq_ok {lim : Nat} {rot : Word} {pad : Byte} {F : List Nat} {payload f : List Byte} :
    serializeFrame lim rot pad F payload = .ok f ↔ payload.length ≤ lim ∧ pad.toNat < 8
      ∧ ¬(payload.length = 0 ∧ pad.toNat ≠ 0) ∧ ¬(card F = 0 ∧ payload.length ≠ 0)
      ∧ f = frameOf rot pad (entriesFrom 0 F) payload := by
  have hpad : pad ≠ 0 ↔ pad.toNat ≠ 0 := not_congr BitVec.toNat_inj.symm
  rw [serializeFrame, ite_error_eq_ok, ite_error_eq_ok, ite_error_eq_ok, length_entriesFrom, not_or, Nat.not_lt, Nat.not_le,
    hpad, Except.ok.injEq, and_assoc, frameOf, length_entriesFrom]
  simp only [List.append_assoc, eq_comm]

theorem deserializeFrame_eq_ok_some {lim : Nat} {w : List (Option Byte)} {fr : Frame} :
    deserializeFrame lim w = .ok (some fr) ↔ w.length ≠ 0 ∧ readFrame lim w = .ok fr := by
  rw [deserializeFrame]
  split
  · simp [*]
  · cases readFrame lim w <;> simp [*]

/-- FrameDes of a window that starts with a frame of FrameSer returns what the frame was made from (R315). -/
theorem deserializeFrame_serialized {lim : Nat} {rot : Word} {pad : Byte} {F : List Nat} {payload f : List Byte}
    (hF : F.length = 256) (h32 : ∀ c ∈ F, c < 2 ^ 32) (hword : payload.length < 2 ^ 32)
    (h : serializeFrame lim rot pad F payload = .ok f) (rest : List (Option Byte)) :
    deserializeFrame lim (f.map some ++ rest) = .ok (some ⟨rot.toNat, pad.toNat, F, card F, payload, f.length⟩) := by
  obtain ⟨hfits, hpad, hhasBits, hhasTable, rfl⟩ := serializeFrame_eq_ok.1 h
  have hE : (entriesFrom 0 F).length = card F := length_entriesFrom 0 F
  have hfields : FrameFields lim pad.toNat (entriesFrom 0 F) payload :=
    ⟨tableFrom_entriesFrom h32 (by omega), hfits, hword, hE.symm ▸ hhasTable, hhasBits⟩
  refine deserializeFrame_eq_ok_some.2 ⟨?_, readFrame_eq_ok.2 ⟨rot, pad, _, payload, rest, hfields, hpad, rfl, ?_⟩⟩
  · rw [List.length_append, List.length_map, length_frameOf]
    omega
  · rw [frameRead, setEntries_zeros hF, hE, length_frameOf, hE]

/-- Every frame FrameDes accepts is FrameSer of what it returns (R315). -/
theorem serializeFrame_of_deserializeFrame {lim : Nat} {w : List (Option Byte)} {fr : Frame}
    (h : deserializeFrame lim w = .ok (some fr)) :
    ∃ f, serializeFrame lim (BitVec.ofNat 32 fr.rot) (BitVec.ofNat 8 fr.pad) fr.freq fr.payload = .ok f
      ∧ w.take fr.length = f.map some ∧ f.length = fr.length ∧ fr.count = card fr.freq ∧ fr.freq.length = 256 := by
  obtain ⟨rot, pad, E, payload, rest, ⟨htable, hfits, -, hhasTable, hhasBits⟩, hpad, rfl, rfl⟩ :=
    readFrame_eq_ok.1 (deserializeFrame_eq_ok_some.1 h).2
  obtain ⟨F, hF, rfl⟩ := exists_entriesFrom_eq 256 (Nat.zero_add 256) htable
  have hlen := length_frameOf rot pad (entriesFrom 0 F) payload
  rw [length_entriesFrom] at hhasTable
  simp only [frameRead, setEntries_zeros hF, BitVec.ofNat_toNat, BitVec.setWidth_eq]
  refine ⟨_, serializeFrame_eq_ok.2 ⟨hfits, hpad, hhasBits, hhasTable, rfl⟩, ?_, hlen, length_entriesFrom 0 F, hF⟩
  rw [← hlen]
  exact List.take_left' (List.length_map _)

/-- Settles O40: FrameDes accepts exactly the windows that start with a frame whose fields pass its checks, and a table it accepts
lists the entries of one table of counts. -/
theorem frameCodecRoundTrip : Obligations.FrameCodecRoundTrip := by
  refine ⟨fun maxBytes rot pad F payload f rest hmax hF h32 h => ?_, fun maxBytes window fr =>
    serializeFrame_of_deserializeFrame⟩
  exact deserializeFrame_serialized hF h32 ((length_serializeFrame h).2.trans_lt hmax) h rest

end Sys2Proof.Machine

namespace Sys2Proof.Machine

/-! ## The engine step of the commands on frames -/

section
variable {s : State} (hlen : s.inLen.toNat ≤ frameMax s.cfg)
include hlen

theorem exec_frameDes_ok {fr : Frame}
    (h : deserializeFrame (payloadMax s.cfg) (s.bufWindow .f s.inLen.toNat) = .ok (some fr)) :
    exec .frameDes s = .next (s.writeFrame fr).finished := by
  simp only [exec, execFrameDes, if_neg (Nat.not_lt.2 hlen), h]

theorem exec_frameDes_error {e : ErrorKind}
    (h : deserializeFrame (payloadMax s.cfg) (s.bufWindow .f s.inLen.toNat) = .error (.error e)) :
    exec .frameDes s = raiseIn .frameDes e s := by
  simp only [exec, execFrameDes, if_neg (Nat.not_lt.2 hlen), h]

theorem exec_decompressFrame_badFrame {e : ErrorKind}
    (h : deserializeFrame (payloadMax s.cfg) (s.bufWindow .f s.inLen.toNat) = .error (.error e)) :
    exec .decompressFrame s = raiseIn .decompressFrame e s := by
  simp only [exec, execDecompressFrame, if_neg (Nat.not_lt.2 hlen), h]

end

/-- The state in which DECOMPRESS_FRAME completes on a frame (R322). -/
def State.decompressed (s : State) (fr : Frame) (T R B : List Byte) : State :=
  ((((s.writeFrame fr).buildCodes fr.freq).writeDecoded T R B).advance fr.length).finished

section
variable {s : State} {fr : Frame} (hlen : s.inLen.toNat ≤ frameMax s.cfg)
  (hdes : deserializeFrame (payloadMax s.cfg) (s.bufWindow .f s.inLen.toNat) = .ok (some fr))
include hlen hdes

theorem exec_decompressFrame_ok {T R B : List Byte} (h : decodeFrame s.cfg fr = .ok (T, R, B)) :
    exec .decompressFrame s = .next (s.decompressed fr T R B) := by
  simp only [exec, execDecompressFrame, if_neg (Nat.not_lt.2 hlen), hdes, h]
  rfl

theorem exec_decompressFrame_error {e : ErrorKind} (h : decodeFrame s.cfg fr = .error e) :
    exec .decompressFrame s = raiseKnowing (decodedLengths s.cfg fr) .decompressFrame e s := by
  simp only [exec, execDecompressFrame, if_neg (Nat.not_lt.2 hlen), hdes, h]

end

/-- The decoding stages of DECOMPRESS_FRAME one after another (R322). -/
theorem decodeFrame_eq_bind (cfg : Config) (fr : Frame) :
    decodeFrame cfg fr = (ecUnpack (buildTree fr.freq) fr.freq (tokenMax cfg) fr.payload fr.pad).bind fun T =>
      (rlcDec T cfg.blockMax).bind fun R => (rtInv (mtfDec R).1 fr.rot).bind fun B => .ok (T, R, B) := by
  rw [decodeFrame]
  rcases ecUnpack (buildTree fr.freq) fr.freq (tokenMax cfg) fr.payload fr.pad with - | T
  · rfl
  · dsimp only [Except.bind]
    rcases rlcDec T cfg.blockMax with - | R
    · rfl
    · dsimp only
      rcases rtInv (mtfDec R).1 fr.rot with - | B <;> rfl

theorem decodeFrame_eq_ok {cfg : Config} {fr : Frame} {T R B : List Byte} :
    decodeFrame cfg fr = .ok (T, R, B) ↔ ecUnpack (buildTree fr.freq) fr.freq (tokenMax cfg) fr.payload fr.pad = .ok T
      ∧ rlcDec T cfg.blockMax = .ok R ∧ rtInv (mtfDec R).1 fr.rot = .ok B := by
  simp only [decodeFrame_eq_bind, bind_eq_ok, Except.ok.injEq, Prod.mk.injEq]
  constructor
  · rintro ⟨T, hT, R, hR, B, hB, rfl, rfl, rfl⟩
    exact ⟨hT, hR, hB⟩
  · rintro ⟨hT, hR, hB⟩
    exact ⟨T, hT, R, hR, B, hB, rfl, rfl, rfl⟩

section
variable {s : State} (h : s.inLen = 0)
include h

/-- The window of no bytes is empty, and FrameDes finds the end of the stream (R313). -/
theorem deserializeFrame_end (lim : Nat) : deserializeFrame lim (s.bufWindow .f s.inLen.toNat) = .ok none :=
  if_pos ((length_bufWindow ..).trans (congrArg BitVec.toNat h))

theorem exec_frameDes_end : exec .frameDes s = .next s.endFound.finished := by
  have hlen : ¬frameMax s.cfg < s.inLen.toNat := h ▸ Nat.not_lt_zero _
  simp only [exec, execFrameDes, if_neg hlen, deserializeFrame_end h]

theorem exec_decompressFrame_end : exec .decompressFrame s = .next s.endFound.finished := by
  have hlen : ¬frameMax s.cfg < s.inLen.toNat := h ▸ Nat.not_lt_zero _
  simp only [exec, execDecompressFrame, if_neg hlen, deserializeFrame_end h]

end

/-- Settles O43: both commands find the end of the stream in the empty window. -/
theorem emptyWindowIsTheEndOfTheStream : Obligations.EmptyWindowIsTheEndOfTheStream := fun _ h =>
  ⟨exec_frameDes_end h, (exec_decompressFrame_end h).trans (exec_frameDes_end h).symm⟩

/-- Settles O55: an error keeps STREAM_OFFSET, and of the commands that complete only these three change it. -/
theorem streamOffsetAdvancesByTheFrameLength : Obligations.StreamOffsetAdvancesByTheFrameLength := by
  intro i s t herr hend h
  rcases exec_next_cases h with ⟨e, rfl, hrow⟩ | hcomplete
  · have hreset : i ≠ .streamReset := by
      rintro rfl
      rcases hrow with hrow | hrow
      · cases e <;> simp [raisedBy] at hrow
      · cases hrow
    rw [if_neg hreset, if_neg (fun hok => by cases hok.2.1), latched_streamOffset, spoilAll_streamOffset]
  · obtain ⟨-, -, -, hkept, -⟩ := hcomplete.control
    obtain ⟨-, -, hflag⟩ := hcomplete.flags
    cases i with
    | streamReset => cases hcomplete; rfl
    | compressBlock =>
      have hclear : s.status.err = false := by simpa using herr
      obtain ⟨-, B, payload, pad, frame, -, -, -, rfl⟩ := hcomplete
      exact (if_pos ⟨.inl rfl, hclear, hend⟩).symm
    | decompressFrame =>
      have hclear : s.status.err = false := by simpa using herr
      obtain ⟨-, r, -, ht⟩ := hcomplete
      cases r with
      | none => cases ht; exact (if_neg fun hok => by cases hok.2.2).symm
      | some fr => obtain ⟨T, R, B, -, rfl⟩ := ht; exact (if_pos ⟨.inr rfl, hclear, hend⟩).symm
    | _ => exact hkept nofun nofun nofun

/-! ## Bytes that later stores leave in a memory -/

/-- The memory lists these bytes as the first of a buffer. -/
def Stores (m : Memory) (b : Buf) (bytes : List Byte) : Prop := ∀ i < bytes.length, memGet m (bufBase b + i) = bytes[i]?

theorem stores_memWriteBuf (m : Memory) (b : Buf) (bytes : List Byte) : Stores (memWriteBuf m b bytes) b bytes := by
  intro i hi
  rw [memWriteBuf, memGet_memWriteBytes, if_pos ⟨by omega, by omega⟩, Nat.add_sub_cancel_left]

/-- A store to another buffer leaves them (R82). -/
theorem Stores.memWriteBuf {c : Config} {m : Memory} {b b' : Buf} {bytes other : List Byte} (h : Stores m b bytes)
    (hc : c.Legal) (hfit : bytes.length ≤ bufCapacity c b) (hother : other.length ≤ bufCapacity c b') (hne : b ≠ b') :
    Stores (memWriteBuf m b' other) b bytes := by
  intro i hi
  rw [memGet_memWriteBuf hc hother (hi.trans_le hfit), if_neg fun heq => hne heq.1, h i hi]

theorem readBuf_of_stores {t : State} {b : Buf} {bytes : List Byte} (h : Stores t.mem b bytes) :
    t.readBuf b bytes.length = some bytes := by
  refine readBuf_iff.2 ⟨rfl, fun i hi => ?_⟩
  rw [State.bufByte, State.cell, h i hi, List.getElem?_eq_getElem hi]
  rfl

/-! ## Tables of two states that hold the same -/

section
variable {s t : State} (he : t.epoch = s.epoch)
include he

theorem freqAt_congr (h : t.freq = s.freq) : t.freqAt = s.freqAt := by
  funext sym
  simp only [State.freqAt, State.freqByteAt, h, he]

theorem freqTable_congr (h : t.freq = s.freq) : t.freqTable = s.freqTable := by
  rw [State.freqTable, State.freqTable, freqAt_congr he h]

theorem codeLenAt_congr (h : t.codeLen = s.codeLen) : t.codeLenAt = s.codeLenAt := by
  funext sym
  rw [State.codeLenAt, State.codeLenAt, h, he]

theorem codeAt_congr (h : t.code = s.code) : t.codeAt = s.codeAt := by
  funext sym
  rw [State.codeAt, State.codeAt, h, he]

end

/-! ## The frame of a block (R321) -/

/-- What COMPRESS_BLOCK packs of a block, and the frame it makes of it. -/
structure BlockPacks (cfg : Config) (B payload : List Byte) (pad : Nat) (frame : List Byte) : Prop where
  packed : ecPack (fun b => codeFor (hist (blockTokens B)) b.toNat) (payloadMax cfg) (blockTokens B) = .ok (payload, pad)
  serialized : serializeFrame (payloadMax cfg) (BitVec.ofNat 32 (rt B).2) (BitVec.ofNat 8 pad) (hist (blockTokens B)) payload
    = .ok frame

section
variable {cfg : Config} {B payload frame : List Byte} {pad : Nat}

theorem blockFrame_eq_some : blockFrame cfg B = some frame ↔ ∃ payload pad, BlockPacks cfg B payload pad frame := by
  rw [blockFrame]
  constructor
  · intro h
    split at h
    · cases h
    · next payload pad hpack =>
      split at h
      · cases h
      · next f hframe =>
        cases h
        exact ⟨payload, pad, hpack, hframe⟩
  · rintro ⟨payload, pad, hpack, hframe⟩
    unfold codeFor at hpack
    simp only [hpack, hframe]

theorem BlockPacks.pad_lt (h : BlockPacks cfg B payload pad frame) : pad < 8 := by
  rcases ecPack_cases _ _ _ with ⟨payload', pad', hpack, -, hpad, -⟩ | hpack | hpack <;>
    cases hpack.symm.trans h.packed
  exact hpad

theorem BlockPacks.length_payload_le (h : BlockPacks cfg B payload pad frame) : payload.length ≤ payloadMax cfg :=
  length_ecPack_le h.packed

theorem BlockPacks.length_frame_le (h : BlockPacks cfg B payload pad frame) : frame.length ≤ frameMax cfg :=
  length_serializeFrame_le (length_hist _) h.serialized

/-- The codes that EC_BUILD stores for the block's tokens pack them, in whatever state. -/
theorem BlockPacks.packed_codeOf (h : BlockPacks cfg B payload pad frame) (u : State) :
    ecPack (u.buildCodes (hist (blockTokens B))).codeOf (payloadMax cfg) (blockTokens B) = .ok (payload, pad) := by
  rw [funext (codeOf_buildCodes_eq (length_hist _) u)]
  exact h.packed

/-- Every block has a frame: its token stream takes at most eight bits a token, and an empty one needs no table (R262, R341). -/
theorem exists_blockPacks (hB : B.length ≤ cfg.blockMax) : ∃ payload pad frame, BlockPacks cfg B payload pad frame := by
  obtain ⟨-, payload, pad, hpack, hpayload⟩ :=
    ownCodesTakeAtMostEightBitsAToken (blockTokens B) (payloadMax cfg) (length_blockTokens_le_tokenMax hB)
  rcases ecPack_cases _ _ _ with ⟨payload', pad', hpack', hfits, hpad, hempty⟩ | hpack' | hpack' <;>
    cases hpack'.symm.trans hpack
  have hpadValue := toNat_ofNat_of_lt (w := 8) (n := pad) (by omega)
  have htable : card (hist (blockTokens B)) = 0 → payload.length = 0 := fun hcard => by
    have hzero : ∀ c ∈ hist (blockTokens B), c = 0 := by
      simpa [card, List.countP_eq_zero] using hcard
    have hsum := sum_hist (blockTokens B)
    rw [List.sum_eq_zero hzero] at hsum
    omega
  refine ⟨payload, pad, _, hpack, serializeFrame_eq_ok.2 ⟨hfits, by omega, ?_, fun h => h.2 (htable h.1), rfl⟩⟩
  rintro ⟨hnone, hne⟩
  exact hne (hpadValue.trans (hempty hnone))

end

theorem rt_nil : rt [] = ([], 0) := rfl

theorem mtfEnc_nil : mtfEnc [] = ([], identityList) := rfl

theorem blockTokens_nil : blockTokens [] = [] := rfl

theorem hist_nil : hist [] = List.replicate 256 0 := by
  simp [hist]

theorem card_hist_nil : card (hist []) = 0 := by
  rw [hist_nil, card, List.countP_replicate, if_neg (by decide)]

theorem buildTree_hist_nil : buildTree (hist []) = none := (buildTree_eq_none_iff (length_hist [])).2 card_hist_nil

theorem codeFor_hist_nil {sym : Nat} (hsym : sym < 256) : codeFor (hist []) sym = [] := by
  rw [codeFor_eq_nil_iff (length_hist []) hsym, getD_hist [] hsym, List.count_nil]

/-- The frame of no tokens has an empty table and no payload. -/
theorem serializeFrame_empty (lim : Nat) (rot : Word) :
    serializeFrame lim rot 0 (hist []) [] = .ok (be32 rot.toNat ++ List.replicate 7 0) := by
  refine serializeFrame_eq_ok.2 ⟨Nat.zero_le _, by decide, by decide, fun h => h.2 rfl, ?_⟩
  rw [hist_nil, entriesFrom_replicate_zero]
  rfl

theorem blockPacks_nil (cfg : Config) : BlockPacks cfg [] [] 0 (List.replicate 11 0) :=
  ⟨rfl, serializeFrame_empty (payloadMax cfg) 0⟩

/-! ## COMPRESS_BLOCK and its stages (R321) -/

theorem execAll_cons {i : Instr} {is : List Instr} {s t : State} (h : exec i s = .next t) :
    execAll s (i :: is) = execAll t is := by
  rw [execAll, h]

/-- Bytes stored to a buffer read back under a length register that holds their number. -/
theorem readBuf_of_length {t : State} {m : Memory} {b : Buf} {bytes : List Byte} {n : Nat} (hn : n = bytes.length)
    (hm : t.mem = memWriteBuf m b bytes) : t.readBuf b n = some bytes :=
  hn ▸ readBuf_of_memWriteBuf hm

/-- A capacity is a 32-bit value (R11, R12). -/
theorem tokenMax_lt {c : Config} (hc : c.Legal) : tokenMax c < 2 ^ 32 := by
  have := hc.2
  rw [tokenMax]
  omega

theorem payloadMax_lt {c : Config} (hc : c.Legal) : payloadMax c < 2 ^ 32 := tokenMax_lt hc

theorem frameMax_lt {c : Config} (hc : c.Legal) : frameMax c < 2 ^ 32 := by
  have := hc.2
  rw [frameMax]
  omega

/-- The counts of a stream that fits BUF_T are 32-bit values. -/
theorem hist_lt {c : Config} (hc : c.Legal) {T : List Byte} (hT : T.length ≤ tokenMax c) : ∀ n ∈ hist T, n < 2 ^ 32 := by
  intro n hn
  obtain ⟨sym, -, rfl⟩ := List.mem_map.1 hn
  exact (List.count_le_length.trans hT).trans_lt (tokenMax_lt hc)

/-- The state after the six unit commands of COMPRESS_BLOCK that precede FRAME_SER (R321). -/
def State.packedBlock (s : State) (B payload : List Byte) (pad : Nat) : State :=
  ((((s.compressToTokens B).writeFreq (hist (blockTokens B))).buildCodes (hist (blockTokens B))).writePayload payload
    pad).finished

section
variable (s : State) (B payload : List Byte) (pad : Nat)

@[simp] theorem packedBlock_cfg : (s.packedBlock B payload pad).cfg = s.cfg := by simp [State.packedBlock]

@[simp] theorem packedBlock_status :
    (s.packedBlock B payload pad).status = { s.status with busy := false, done := true } := by simp [State.packedBlock]

@[simp] theorem packedBlock_errCode : (s.packedBlock B payload pad).errCode = s.errCode := by simp [State.packedBlock]

@[simp] theorem packedBlock_errOffset : (s.packedBlock B payload pad).errOffset = s.errOffset := by simp [State.packedBlock]

@[simp] theorem packedBlock_inLen : (s.packedBlock B payload pad).inLen = s.inLen := by simp [State.packedBlock]

@[simp] theorem packedBlock_blkLen : (s.packedBlock B payload pad).blkLen = s.blkLen := by simp [State.packedBlock]

@[simp] theorem packedBlock_streamOffset : (s.packedBlock B payload pad).streamOffset = s.streamOffset := by
  simp [State.packedBlock]

@[simp] theorem packedBlock_epoch : (s.packedBlock B payload pad).epoch = s.epoch := by simp [State.packedBlock]

@[simp] theorem packedBlock_undet : (s.packedBlock B payload pad).undet = s.undet := by simp [State.packedBlock]

@[simp] theorem packedBlock_rotIdx : (s.packedBlock B payload pad).rotIdx = .val (BitVec.ofNat 32 (rt B).2) := by
  simp [State.packedBlock]

@[simp] theorem packedBlock_rlist : (s.packedBlock B payload pad).rlist = .val (mtfEnc (rt B).1).2 := by
  simp [State.packedBlock]

@[simp] theorem packedBlock_tokLen :
    (s.packedBlock B payload pad).tokLen = .val (BitVec.ofNat 32 (blockTokens B).length) := by simp [State.packedBlock]

@[simp] theorem packedBlock_payLen : (s.packedBlock B payload pad).payLen = .val (BitVec.ofNat 32 payload.length) := by
  simp [State.packedBlock]

@[simp] theorem packedBlock_padCnt : (s.packedBlock B payload pad).padCnt = .val (BitVec.ofNat 8 pad) := by
  simp [State.packedBlock]

@[simp] theorem packedBlock_freq : (s.packedBlock B payload pad).freq = (hist (blockTokens B)).map freqEntryOf := by
  simp [State.packedBlock]

@[simp] theorem packedBlock_freqCount :
    (s.packedBlock B payload pad).freqCount = .val (BitVec.ofNat 32 (card (hist (blockTokens B)))) := by
  simp [State.packedBlock]

@[simp] theorem packedBlock_tree : (s.packedBlock B payload pad).tree = .val (buildTree (hist (blockTokens B))) := by
  simp [State.packedBlock]

@[simp] theorem packedBlock_codeLen :
    (s.packedBlock B payload pad).codeLen = .val (codeLengths (buildTree (hist (blockTokens B)))) := by
  simp [State.packedBlock]

@[simp] theorem packedBlock_code :
    (s.packedBlock B payload pad).code = .val (codeWords (buildTree (hist (blockTokens B)))) := by simp [State.packedBlock]

@[simp] theorem packedBlock_mem : (s.packedBlock B payload pad).mem
    = memWriteBuf (memWriteBuf (memWriteBuf (memWriteBuf s.mem .c (rt B).1) .r (mtfEnc (rt B).1).1) .t (blockTokens B)) .p
      payload := by simp [State.packedBlock]

end

section
variable {s : State} {B payload frame : List Byte} {pad : Nat} (hlen : s.blkLenValue.toNat ≤ s.cfg.blockMax)
  (hread : s.readBuf .a s.blkLenValue.toNat = some B)
include hlen hread

/-- COMPRESS_BLOCK emits the frame of a block that is not empty, and no byte for the empty block (R321, R323). -/
theorem completes_compressBlock (h : BlockPacks s.cfg B payload pad frame) :
    Completes s ((s.packedBlock B payload pad).emitFrame (if B = [] then [] else frame)) .compressBlock := by
  have hempty : s.blkLenValue.toNat = 0 ↔ B = [] := by rw [← length_of_readBuf hread, List.length_eq_zero_iff]
  refine ⟨hlen, B, payload, pad, _, hread, h.packed_codeOf _, ?_, rfl⟩
  by_cases hB : B = []
  · rw [if_pos (hempty.2 hB), if_pos hB]
  · rw [if_neg (mt hempty.1 hB), if_neg hB]
    exact h.serialized

theorem exec_compressBlock_ok (h : BlockPacks s.cfg B payload pad frame) :
    exec .compressBlock s = .next ((s.packedBlock B payload pad).emitFrame (if B = [] then [] else frame)) := by
  have hempty : s.blkLenValue.toNat = 0 ↔ B = [] := by rw [← length_of_readBuf hread, List.length_eq_zero_iff]
  simp only [exec, execCompressBlock, if_neg (Nat.not_lt.2 hlen), hread, h.packed_codeOf, hempty]
  by_cases hB : B = []
  · simp only [if_pos hB]
    rfl
  · simp only [if_neg hB, h.serialized]
    rfl

/-- RT_FWD, RRT_ENC and RLC_ENC each read what the one before them has written (R321). -/
theorem execAll_tokenStages (rest : List Instr) :
    execAll s (.rtFwd :: .rrtEnc :: .rlcEnc :: rest) = execAll (s.compressToTokens B).finished rest := by
  have hcolumn : (rt B).1.length = s.blkLenValue.toNat := (rt_lengths B).1.trans (length_of_readBuf hread)
  obtain ⟨C, I, hrt⟩ : ∃ C I, rt B = (C, I) := ⟨_, _, rfl⟩
  have hstored : s.compressToTokens B = { s with
      mem := memWriteBuf (memWriteBuf (memWriteBuf s.mem .c C) .r (mtfEnc C).1) .t (rlcEnc (mtfEnc C).1)
      rotIdx := .val (BitVec.ofNat 32 I)
      rlist := .val (mtfEnc C).2
      tokLen := .val (BitVec.ofNat 32 (rlcEnc (mtfEnc C).1).length) } := by
    rw [State.compressToTokens, blockTokens, hrt]
  rw [hrt] at hcolumn
  obtain ⟨R, l, hranks⟩ : ∃ R l, mtfEnc C = (R, l) := ⟨_, _, rfl⟩
  have hn : R.length = s.blkLenValue.toNat := by
    rw [← hcolumn, ← length_mtfEnc C, hranks]
  rw [hstored, hranks]
  refine (execAll_cons (exec_rtFwd_ok hlen hread hrt)).trans ?_
  refine (execAll_cons (exec_rrtEnc (S := C) ?_ ?_)).trans ?_
  · exact hlen
  · exact readBuf_of_length hcolumn.symm rfl
  rw [hranks]
  refine (execAll_cons (exec_rlcEnc (S := R) ?_ ?_)).trans ?_
  · exact hlen
  · exact readBuf_of_length hn.symm rfl
  cases s
  rfl

end

theorem exec_ecBuild {s : State} {F : List Nat} (h : s.freqTable = F) :
    exec .ecBuild s = .next (s.buildCodes F).finished := by
  subst h
  rfl

/-- EC_COUNT, EC_BUILD and EC_PACK on a token stream, whose own codes they pack it with (R321). -/
theorem execAll_codeStages {s : State} {T payload : List Byte} {pad : Nat} (hc : s.cfg.Legal)
    (hlen : s.tokLenValue.toNat ≤ tokenMax s.cfg) (hread : s.readBuf .t s.tokLenValue.toNat = some T)
    (hpack : ecPack (fun b => codeFor (hist T) b.toNat) (payloadMax s.cfg) T = .ok (payload, pad)) (rest : List Instr) :
    execAll s (.ecCount :: .ecBuild :: .ecPack :: rest)
      = execAll (((s.writeFreq (hist T)).buildCodes (hist T)).writePayload payload pad).finished rest := by
  have hfreq : (s.writeFreq (hist T)).freqTable = hist T :=
    freqTable_writeFreq s (length_hist T) (hist_lt hc (length_le_of_readBuf hread hlen))
  have hcode (u : State) : (u.buildCodes (hist T)).codeOf = fun b => codeFor (hist T) b.toNat :=
    funext (codeOf_buildCodes_eq (length_hist T) u)
  refine (execAll_cons (exec_ecCount hlen hread)).trans ?_
  refine (execAll_cons (exec_ecBuild (F := hist T) hfreq)).trans ?_
  refine (execAll_cons (exec_ecPack_ok (T := T) (payload := payload) (pad := pad) ?_ ?_ ?_)).trans ?_
  · exact hlen
  · exact hread
  · exact (congrArg (ecPack · _ _) (hcode s)).trans hpack
  · rfl

/-- Settles O44: every block has a frame, which fits BUF_F; the stages of the empty block store nothing. -/
theorem compressBlockNeverFails : Obligations.CompressBlockNeverFails := by
  intro s B hc hlen hread
  obtain ⟨payload, pad, frame, hpacks⟩ := exists_blockPacks (length_le_of_readBuf hread hlen)
  have hchanges := changesOnly_compressBlock hc (completes_compressBlock hlen hread hpacks)
  refine ⟨_, if B = [] then [] else frame, exec_compressBlock_ok hlen hread hpacks, fun h => if_pos h, fun h => ?_,
    readBuf_of_memWriteBuf (emitFrame_mem ..), emitFrame_frameLen .., by simp, by simp, by simp, by simp, by simp, by simp,
    fun i hi => hchanges.cells .a i (Nat.zero_le i) hi, ?_⟩
  · rw [if_neg h]
    exact blockFrame_eq_some.2 ⟨payload, pad, hpacks⟩
  · rintro rfl
    cases hpacks.packed.symm.trans (blockPacks_nil s.cfg).packed
    rw [if_pos rfl]
    refine ⟨by simp [rt_nil], by simp [blockTokens_nil], by simp, by simp, by simp [blockTokens_nil, card_hist_nil],
      fun sym hsym => ?_, by simp [rt_nil, mtfEnc_nil], by simp [blockTokens_nil, buildTree_hist_nil], fun b i => ?_⟩
    · have hlt : sym < (hist []).length := (length_hist []).symm ▸ hsym
      have hcount : (hist [])[sym] = 0 := by
        rw [← List.getD_eq_getElem _ 0 hlt, getD_hist [] hsym, List.count_nil]
      have hcode := codeFor_hist_nil hsym
      have hepoch : ((s.packedBlock [] [] 0).emitFrame []).epoch = s.epoch := by simp
      refine ⟨?_, BitVec.eq_of_toNat_eq ?_, ?_⟩
      · rw [freqAt_congr (s := s.writeFreq (hist [])) hepoch (by simp [blockTokens_nil]),
          freqAt_writeFreq s hlt (by rw [hcount]; decide), hcount]
      · rw [codeLenAt_congr (s := s.buildCodes (hist [])) hepoch (by simp [blockTokens_nil]),
          toNat_codeLenAt_buildCodes (length_hist []) s hsym, hcode]
        rfl
      · rw [codeAt_congr (s := s.buildCodes (hist [])) hepoch (by simp [blockTokens_nil]), codeAt_buildCodes s hsym, hcode]
        rfl
    · rw [State.cell, State.cell]
      simp [blockTokens_nil, rt_nil, mtfEnc_nil, memWriteBuf, memWriteBytes]

theorem execAll_packStages {s : State} {B payload frame : List Byte} {pad : Nat} (hc : s.cfg.Legal)
    (hlen : s.blkLenValue.toNat ≤ s.cfg.blockMax) (hread : s.readBuf .a s.blkLenValue.toNat = some B)
    (h : BlockPacks s.cfg B payload pad frame) (rest : List Instr) :
    execAll s (.rtFwd :: .rrtEnc :: .rlcEnc :: .ecCount :: .ecBuild :: .ecPack :: rest)
      = execAll (s.packedBlock B payload pad) rest := by
  have hT : (blockTokens B).length ≤ tokenMax s.cfg := length_blockTokens_le_tokenMax (length_le_of_readBuf hread hlen)
  have htokLen : (s.compressToTokens B).finished.tokLenValue.toNat = (blockTokens B).length := by
    rw [State.tokLenValue, finished_tokLen, compressToTokens_tokLen]
    exact toNat_ofNat_of_lt (hT.trans_lt (tokenMax_lt hc))
  have htokens := readBuf_of_length (t := (s.compressToTokens B).finished) htokLen (compressToTokens_mem ..)
  exact (execAll_tokenStages hlen hread _).trans
    (execAll_codeStages (s := (s.compressToTokens B).finished) hc (htokLen.trans_le hT) htokens h.packed rest)

/-- Settles O45: each stage reads what the stages before it wrote, and writes what COMPRESS_BLOCK does. -/
theorem compressBlockEqualsItsStages : Obligations.CompressBlockEqualsItsStages := by
  intro s t hc _ h herr
  obtain ⟨hlen, B, -, -, -, hread, -⟩ := completes_of_exec h herr
  obtain ⟨payload, pad, frame, hpacks⟩ := exists_blockPacks (length_le_of_readBuf hread hlen)
  cases h.symm.trans (exec_compressBlock_ok hlen hread hpacks)
  have hT : (blockTokens B).length ≤ tokenMax s.cfg := length_blockTokens_le_tokenMax (length_le_of_readBuf hread hlen)
  have hstages := execAll_packStages hc hlen hread hpacks
  have hempty : s.blkLenValue = 0#32 ↔ B = [] := by
    rw [← List.length_eq_zero_iff, length_of_readBuf hread, ← BitVec.toNat_inj]
    rfl
  refine ⟨fun hne => ?_, fun hzero => ⟨_, hstages [], ?_⟩⟩
  · have hpayload := hpacks.length_payload_le
    have hpayLen : (s.packedBlock B payload pad).payLenValue.toNat = payload.length := by
      rw [State.payLenValue, packedBlock_payLen]
      exact toNat_ofNat_of_lt (hpayload.trans_lt (payloadMax_lt hc))
    have hfreq : (s.packedBlock B payload pad).freqTable = hist (blockTokens B) :=
      (freqTable_congr (s := s.writeFreq (hist (blockTokens B))) (packedBlock_epoch ..) (packedBlock_freq ..)).trans
        (freqTable_writeFreq s (length_hist _) (hist_lt hc hT))
    rw [if_neg (mt hempty.2 hne)]
    have hframe : serializeFrame (payloadMax (s.packedBlock B payload pad).cfg) (s.packedBlock B payload pad).rotIdxValue
        (s.packedBlock B payload pad).padCntValue (s.packedBlock B payload pad).freqTable payload = .ok frame := by
      rw [hfreq, packedBlock_cfg, State.rotIdxValue, packedBlock_rotIdx, State.padCntValue, packedBlock_padCnt]
      exact hpacks.serialized
    exact ⟨_, (hstages [.frameSer]).trans (execAll_cons (exec_frameSer_ok (hpayLen.trans_le hpayload)
      (readBuf_of_length hpayLen (packedBlock_mem ..)) hframe)), rfl⟩
  · rw [if_pos (hempty.1 hzero)]
    exact congrArg (fun offset => { s.packedBlock B payload pad with frameLen := .val 0, streamOffset := offset })
      (BitVec.add_zero _)

end Sys2Proof.Machine

namespace Sys2Proof.Machine

/-! ## DECOMPRESS_FRAME and its stages (R322) -/

/-- EC_UNPACK, RLC_DEC, RRT_DEC and RT_INV each read what the one before them has written (R322). -/
theorem execAll_decodeStages {s : State} {payload T R B : List Byte} (hlen : s.payLenValue.toNat ≤ payloadMax s.cfg)
    (hc : s.cfg.Legal) (hread : s.readBuf .p s.payLenValue.toNat = some payload)
    (hT : ecUnpack s.treeValue s.freqTable (tokenMax s.cfg) payload s.padCntValue.toNat = .ok T)
    (hR : rlcDec T s.cfg.blockMax = .ok R) (hB : rtInv (mtfDec R).1 s.rotIdxValue.toNat = .ok B) :
    execAll s [.ecUnpack, .rlcDec, .rrtDec, .rtInv] = .next (s.writeDecoded T R B).finished := by
  have htokLen : (BitVec.ofNat 32 T.length).toNat = T.length :=
    toNat_ofNat_of_lt ((length_ecUnpack_le hT).trans_lt (tokenMax_lt hc))
  have hRlen := length_rlcDec_le hR
  have hblkLen : (BitVec.ofNat 32 R.length).toNat = R.length :=
    toNat_ofNat_of_lt (by have := hc.2; omega)
  have hcolumn : (BitVec.ofNat 32 R.length).toNat = (mtfDec R).1.length := hblkLen.trans (length_mtfDec R).symm
  refine (execAll_cons (exec_ecUnpack_ok hlen hread hT)).trans ?_
  refine (execAll_cons (exec_rlcDec_ok (T := T) (S := R) ?_ ?_ ?_)).trans ?_
  · exact htokLen.trans_le (length_ecUnpack_le hT)
  · exact readBuf_of_length htokLen rfl
  · exact hR
  refine (execAll_cons (exec_rrtDec (S := R) ?_ ?_)).trans ?_
  · exact hblkLen.trans_le hRlen
  · exact readBuf_of_length hblkLen rfl
  refine (execAll_cons (exec_rtInv_ok (C := (mtfDec R).1) (B := B) ?_ ?_ ?_)).trans ?_
  · exact hblkLen.trans_le hRlen
  · exact readBuf_of_length hcolumn rfl
  · exact hB
  cases s
  rfl

/-- The state after FRAME_DES and EC_BUILD (R322). -/
def State.framed (s : State) (fr : Frame) : State := ((s.writeFrame fr).buildCodes fr.freq).finished

@[simp] theorem framed_mem (s : State) (fr : Frame) : (s.framed fr).mem = memWriteBuf s.mem .p fr.payload := rfl

/-- FREQ then holds the counts of the frame, which are 32-bit values. -/
theorem freqTable_writeFrame (s : State) {lim : Nat} {fr : Frame} (h : FrameBounds lim fr) :
    (s.writeFrame fr).freqTable = fr.freq :=
  (freqTable_congr (s := s.writeFreq fr.freq) rfl rfl).trans (freqTable_writeFreq s h.freq h.counts)

theorem freqTable_framed (s : State) {lim : Nat} {fr : Frame} (h : FrameBounds lim fr) :
    (s.framed fr).freqTable = fr.freq :=
  (freqTable_congr (s := s.writeFrame fr) rfl rfl).trans (freqTable_writeFrame s h)

theorem execAll_framed {s : State} {fr : Frame} (hlen : s.inLen.toNat ≤ frameMax s.cfg)
    (hdes : deserializeFrame (payloadMax s.cfg) (s.bufWindow .f s.inLen.toNat) = .ok (some fr)) (rest : List Instr) :
    execAll s (.frameDes :: .ecBuild :: rest) = execAll (s.framed fr) rest := by
  refine (execAll_cons (exec_frameDes_ok hlen hdes)).trans (execAll_cons (exec_ecBuild (F := fr.freq) ?_))
  exact (freqTable_congr (s := s.writeFrame fr) rfl rfl).trans
    (freqTable_writeFrame s (frameBounds_of_deserializeFrame hdes))

theorem length_eq_zero_of_deserializeFrame {lim : Nat} {w : List (Option Byte)}
    (h : deserializeFrame lim w = .ok none) : w.length = 0 := by
  rcases deserializeFrame_cases lim w with ⟨hzero, -⟩ | ⟨fr, hfr, -⟩ | ⟨e, -, he⟩ | ⟨-, he⟩
  · exact hzero
  · cases hfr.symm.trans h
  · cases he.symm.trans h
  · cases he.symm.trans h

/-- Settles O46: FRAME_DES and EC_BUILD write what the decoding stages read, and each of these what the next one reads. -/
theorem decompressFrameEqualsItsStages : Obligations.DecompressFrameEqualsItsStages := by
  intro s t hc hne _ h herr
  obtain ⟨hlen, r, hdes, hr⟩ := completes_of_exec h herr
  cases r with
  | none =>
    have hzero := (length_bufWindow ..).symm.trans (length_eq_zero_of_deserializeFrame hdes)
    exact absurd (BitVec.eq_of_toNat_eq hzero) hne
  | some fr =>
    obtain ⟨T, R, B, hdecode, rfl⟩ := hr
    obtain ⟨hT, hR, hB⟩ := decodeFrame_eq_ok.1 hdecode
    have hbounds := frameBounds_of_deserializeFrame hdes
    have hpad := hbounds.pad
    have hpayLen : (s.framed fr).payLenValue.toNat = fr.payload.length :=
      toNat_ofNat_of_lt (hbounds.payload.trans_lt (payloadMax_lt hc))
    have hpadCnt : (s.framed fr).padCntValue.toNat = fr.pad := toNat_ofNat_of_lt (by omega)
    have hrotIdx : (s.framed fr).rotIdxValue.toNat = fr.rot := toNat_ofNat_of_lt hbounds.rot
    have hunpack : ecUnpack (s.framed fr).treeValue (s.framed fr).freqTable (tokenMax (s.framed fr).cfg) fr.payload
        (s.framed fr).padCntValue.toNat = .ok T := by
      rw [freqTable_framed s hbounds, hpadCnt]
      exact hT
    have hstages := execAll_decodeStages (s := s.framed fr) (hpayLen.trans_le hbounds.payload) hc
      (readBuf_of_length hpayLen (framed_mem s fr)) hunpack hR (hrotIdx.symm ▸ hB)
    exact ⟨_, (execAll_framed hlen hdes _).trans hstages, rfl⟩

/-! ## What DECOMPRESS_FRAME leaves when a stage fails (R184, R322) -/

/-- How many bytes of a buffer a DECOMPRESS_FRAME that fails makes UNSPECIFIED, by the lengths its stages computed (R124, R184). -/
def spoiledLength (c : Config) (known : Computed) : Buf → Nat
  | .p => known.payload.getD (payloadMax c)
  | .t => known.tokens.getD (tokenMax c)
  | .r | .c | .a => known.block.getD c.blockMax
  | .f => 0

theorem any_covers_decompressFrame {s : State} (known : Computed) {b : Buf} {i : Nat} (hi : i < bufCapacity s.cfg b) :
    (outputSet s known .decompressFrame).any (covers b i) = true ↔ i < spoiledLength s.cfg known b := by
  cases b <;> simp [outputSet, covers, rangeOf_eq, spoiledLength] <;> exact and_iff_left hi

section
variable {s : State} {fr : Frame} {e : ErrorKind} {known : Computed}

/-- A stage that fails ends in its error, and only the ranges that the stages bound become UNSPECIFIED. -/
theorem decompressFrame_fails (hc : s.cfg.Legal) (hlen : s.inLen.toNat ≤ frameMax s.cfg)
    (hdes : deserializeFrame (payloadMax s.cfg) (s.bufWindow .f s.inLen.toNat) = .ok (some fr))
    (h : decodeFrame s.cfg fr = .error e) (hknown : decodedLengths s.cfg fr = known) :
    ∃ t, exec .decompressFrame s = .next t ∧ t.status.err = true ∧ t.errCode = some e
      ∧ ∀ b i, i < bufCapacity s.cfg b →
        t.cell b i = if i < spoiledLength s.cfg known b then some .unspecified else s.cell b i := by
  subst hknown
  refine ⟨_, exec_decompressFrame_error hlen hdes h, rfl, rfl, fun b i hi => ?_⟩
  refine (cell_spoilAll hc (fits_outputSet s _ .decompressFrame) hi).trans ?_
  simp only [any_covers_decompressFrame _ hi]

theorem decodeFrame_unpackError (h : ecUnpack (buildTree fr.freq) fr.freq (tokenMax s.cfg) fr.payload fr.pad = .error e) :
    decodeFrame s.cfg fr = .error e := by
  rw [decodeFrame_eq_bind, h]
  rfl

variable {T : List Byte} (hT : ecUnpack (buildTree fr.freq) fr.freq (tokenMax s.cfg) fr.payload fr.pad = .ok T)
include hT

theorem decodeFrame_expandError (h : rlcDec T s.cfg.blockMax = .error e) : decodeFrame s.cfg fr = .error e := by
  rw [decodeFrame_eq_bind, hT, Except.bind, h]
  rfl

theorem decodeFrame_invertError {R : List Byte} (hR : rlcDec T s.cfg.blockMax = .ok R)
    (h : rtInv (mtfDec R).1 fr.rot = .error e) : decodeFrame s.cfg fr = .error e := by
  rw [decodeFrame_eq_bind, hT, Except.bind, hR, Except.bind, h]
  rfl

end

/-! ## What DECOMPRESS_FRAME leaves when no stage fails (R322) -/

section
variable (s : State) (fr : Frame) (T R B : List Byte)

theorem decompressed_mem : (s.decompressed fr T R B).mem
    = memWriteBuf (memWriteBuf (memWriteBuf (memWriteBuf (memWriteBuf s.mem .p fr.payload) .t T) .r R) .c (mtfDec R).1) .a
      B := rfl

theorem decompressed_status :
    (s.decompressed fr T R B).status = { s.status with busy := false, done := true } := by simp [State.decompressed]

/-- The string of each decoding stage stays in its buffer, since the later ones store to other buffers. -/
theorem readBuf_decompressed {s : State} {fr : Frame} {T R B : List Byte} (hc : s.cfg.Legal)
    (hT : T.length ≤ tokenMax s.cfg) (hR : R.length ≤ s.cfg.blockMax) (hB : B.length = R.length) :
    (s.decompressed fr T R B).readBuf .a B.length = some B ∧ (s.decompressed fr T R B).readBuf .t T.length = some T
      ∧ (s.decompressed fr T R B).readBuf .r R.length = some R
      ∧ (s.decompressed fr T R B).readBuf .c R.length = some (mtfDec R).1 := by
  have hC : (mtfDec R).1.length = R.length := length_mtfDec R
  have hmem := decompressed_mem s fr T R B
  have ha : Stores (s.decompressed fr T R B).mem .a B := hmem ▸ stores_memWriteBuf _ _ _
  have hcolumn : Stores (s.decompressed fr T R B).mem .c (mtfDec R).1 := by
    rw [hmem]
    exact (stores_memWriteBuf _ _ _).memWriteBuf hc (b := .c) (b' := .a) (hC.trans_le hR) (hB.trans_le hR) nofun
  have hranks : Stores (s.decompressed fr T R B).mem .r R := by
    rw [hmem]
    exact ((stores_memWriteBuf _ _ _).memWriteBuf hc (b := .r) (b' := .c) hR (hC.trans_le hR) nofun).memWriteBuf hc
      (b' := .a) hR (hB.trans_le hR) nofun
  have htokens : Stores (s.decompressed fr T R B).mem .t T := by
    rw [hmem]
    exact (((stores_memWriteBuf _ _ _).memWriteBuf hc (b := .t) (b' := .r) hT hR nofun).memWriteBuf hc (b' := .c) hT
      (hC.trans_le hR) nofun).memWriteBuf hc (b' := .a) hT (hB.trans_le hR) nofun
  exact ⟨readBuf_of_stores ha, readBuf_of_stores htokens, readBuf_of_stores hranks, hC ▸ readBuf_of_stores hcolumn⟩

end

/-! ## A block's frame decodes to the block (R314, R323) -/

/-- What FrameDes returns of a block's frame. -/
def blockFrameRead (B payload : List Byte) (pad : Nat) (frame : List Byte) : Frame :=
  ⟨(rt B).2, pad, hist (blockTokens B), card (hist (blockTokens B)), payload, frame.length⟩

section
variable {cfg : Config} {B payload frame : List Byte} {pad : Nat} (hc : cfg.Legal) (hB : B.length ≤ cfg.blockMax)
  (h : BlockPacks cfg B payload pad frame)
include hB h

include hc in
theorem deserializeFrame_blockFrame (rest : List (Option Byte)) :
    deserializeFrame (payloadMax cfg) (frame.map some ++ rest) = .ok (some (blockFrameRead B payload pad frame)) := by
  have hrot : (BitVec.ofNat 32 (rt B).2).toNat = (rt B).2 := toNat_ofNat_of_lt (by
    have hindex := (rt_lengths B).2
    have hmax := hc.2
    omega)
  have hpad : (BitVec.ofNat 8 pad).toNat = pad := toNat_ofNat_of_lt (by have := h.pad_lt; omega)
  have hdes := deserializeFrame_serialized (length_hist _) (hist_lt hc (length_blockTokens_le_tokenMax hB))
    (h.length_payload_le.trans_lt (payloadMax_lt hc)) h.serialized rest
  rwa [hrot, hpad] at hdes

/-- The stages of DECOMPRESS_FRAME undo those of COMPRESS_BLOCK (R207, R226, R245, R272). -/
theorem decodeFrame_blockFrame :
    decodeFrame cfg (blockFrameRead B payload pad frame) = .ok (blockTokens B, (mtfEnc (rt B).1).1, B) := by
  have hranks : (mtfEnc (rt B).1).1.length ≤ cfg.blockMax := by
    rw [length_mtfEnc, (rt_lengths B).1]
    exact hB
  have hcolumn : (mtfDec (mtfEnc (rt B).1).1).1 = (rt B).1 := congrArg Prod.fst (mtfDec_mtfEnc (rt B).1)
  refine decodeFrame_eq_ok.2 ⟨entropyCoderRoundTrip _ _ _ _ _ (length_blockTokens_le_tokenMax hB) h.packed,
    rlcDec_rlcEnc hranks, ?_⟩
  rw [hcolumn]
  exact rtInv_rt B

end

/-- DECOMPRESS_FRAME on a window that starts with a block's frame gives the block back. -/
theorem decompressFrame_blockFrame {s : State} {B payload frame : List Byte} {pad : Nat} {rest : List (Option Byte)}
    (hc : s.cfg.Legal) (hlen : s.inLen.toNat ≤ frameMax s.cfg) (hB : B.length ≤ s.cfg.blockMax)
    (h : BlockPacks s.cfg B payload pad frame) (hwindow : s.bufWindow .f s.inLen.toNat = frame.map some ++ rest) :
    ∃ t, exec .decompressFrame s = .next t ∧ t.readBuf .a B.length = some B ∧ t.blkLen = .val (BitVec.ofNat 32 B.length)
      ∧ t.frameLen = .val (BitVec.ofNat 32 frame.length) ∧ t.streamOffset = s.streamOffset + BitVec.ofNat 32 frame.length
      ∧ t.status = { s.status with busy := false, done := true } ∧ t.errCode = s.errCode ∧ t.errOffset = s.errOffset
      ∧ t.inLen = s.inLen ∧ ∀ i < frameMax s.cfg, t.cell .f i = s.cell .f i := by
  have hdes := deserializeFrame_blockFrame hc hB h rest
  rw [← hwindow] at hdes
  have hdecode := decodeFrame_blockFrame hB h
  have hranks : (mtfEnc (rt B).1).1.length = B.length := (length_mtfEnc _).trans (rt_lengths B).1
  have hchanges := changesOnly_decompressFrame hc ⟨hlen, _, hdes, _, _, _, hdecode, rfl⟩
  obtain ⟨hblock, -⟩ := readBuf_decompressed (fr := blockFrameRead B payload pad frame) hc
    (length_blockTokens_le_tokenMax hB) (hranks.trans_le hB) hranks.symm
  exact ⟨_, exec_decompressFrame_ok hlen hdes hdecode, hblock, congrArg (fun n => Held.val (BitVec.ofNat 32 n)) hranks, rfl,
    rfl, decompressed_status .., rfl, rfl, rfl, fun i hi => hchanges.cells .f i (Nat.zero_le i) hi⟩

/-- Settles O47: decoding undoes encoding stage by stage; a stage that fails spoils the ranges whose lengths bound it. -/
theorem decompressFrameRecoversTheBlockOrReportsTheFirstStage :
    Obligations.DecompressFrameRecoversTheBlockOrReportsTheFirstStage := by
  refine ⟨fun s B frame rest hc hlen hB hframe hwindow => ?_, ?_,
    fun cfg => blockFrame_eq_some.2 ⟨_, _, blockPacks_nil cfg⟩, fun s rot rest hlen hrot hwindow => ?_⟩
  · obtain ⟨payload, pad, hpacks⟩ := blockFrame_eq_some.1 hframe
    exact decompressFrame_blockFrame hc hlen hB hpacks hwindow
  · intro s rot pad F payload f rest hc hlen hF h32 hser hwindow fails
    have hdes := deserializeFrame_serialized hF h32 ((length_serializeFrame hser).2.trans_lt (payloadMax_lt hc)) hser rest
    rw [← hwindow] at hdes
    have hfails {e : ErrorKind} {tokens block : Option Nat}
        (hdecode : decodeFrame s.cfg ⟨rot.toNat, pad.toNat, F, card F, payload, f.length⟩ = .error e)
        (hknown : decodedLengths s.cfg ⟨rot.toNat, pad.toNat, F, card F, payload, f.length⟩
          = ⟨some payload.length, tokens, block⟩) :
        fails e (tokens.getD (tokenMax s.cfg)) (block.getD s.cfg.blockMax) := by
      obtain ⟨t, ht, herr, hcode, hcell⟩ := decompressFrame_fails hc hlen hdes hdecode hknown
      refine ⟨t, ht, herr, hcode, fun b i hi => (hcell b i hi).trans ?_⟩
      cases b <;> rfl
    refine ⟨fun e h => hfails (decodeFrame_unpackError h) (decodedLengths_unpackError h), fun T hT =>
      ⟨fun e h => hfails (decodeFrame_expandError hT h) (decodedLengths_expandError hT h), fun R hR =>
      ⟨fun e h => hfails (decodeFrame_invertError hT hR h) (decodedLengths_expanded hT hR), fun B hB => ?_⟩⟩⟩
    have hlength : B.length = R.length := (rtInv_length hB).trans (length_mtfDec R)
    obtain ⟨ha, ht, hr, hcolumn⟩ := readBuf_decompressed (fr := ⟨rot.toNat, pad.toNat, F, card F, payload, f.length⟩) hc
      (length_ecUnpack_le hT) (length_rlcDec_le hR) hlength
    exact ⟨_, exec_decompressFrame_ok hlen hdes (decodeFrame_eq_ok.2 ⟨hT, hR, hB⟩), ha, ht, hr, hcolumn, rfl, rfl,
      congrArg (fun n => Held.val (BitVec.ofNat 32 n)) hlength.symm, decompressed_status ..⟩
  · have hpos : 0 < rot.toNat := Nat.pos_of_ne_zero fun h => hrot (BitVec.eq_of_toNat_eq h)
    have hcounts : ∀ n ∈ hist [], n < 2 ^ 32 := by
      rw [hist_nil]
      exact fun n hn => (List.eq_of_mem_replicate hn).trans_lt (Nat.two_pow_pos 32)
    have hdes := (congrArg (deserializeFrame (payloadMax s.cfg)) hwindow).trans
      (deserializeFrame_serialized (length_hist []) hcounts (by decide) (serializeFrame_empty (payloadMax s.cfg) rot) rest)
    have hunpack := entropyCoderRoundTrip [] (payloadMax s.cfg) (tokenMax s.cfg) [] 0 (Nat.zero_le _) rfl
    have hindex : rtInv (mtfDec []).1 rot.toNat = .error .invalidRotationIndex := if_pos hpos
    exact ⟨_, exec_decompressFrame_error hlen hdes (decodeFrame_invertError hunpack rfl hindex), rfl, rfl⟩

/-- The host gives the frame that was emitted last to the decoder (R322). -/
def State.frameAsInput (s : State) : State := { s with inLen := s.frameLenValue }

section
variable (s : State)

@[simp] theorem frameAsInput_cfg : s.frameAsInput.cfg = s.cfg := rfl
@[simp] theorem frameAsInput_status : s.frameAsInput.status = s.status := rfl
@[simp] theorem frameAsInput_blkLen : s.frameAsInput.blkLen = s.blkLen := rfl
@[simp] theorem frameAsInput_undet : s.frameAsInput.undet = s.undet := rfl
@[simp] theorem frameAsInput_epoch : s.frameAsInput.epoch = s.epoch := rfl
@[simp] theorem frameAsInput_mem : s.frameAsInput.mem = s.mem := rfl
@[simp] theorem frameAsInput_inLen : s.frameAsInput.inLen = s.frameLenValue := rfl

end

@[simp] theorem emitFrame_frameLenValue (s : State) (frame : List Byte) :
    (s.emitFrame frame).frameLenValue = BitVec.ofNat 32 frame.length := rfl

/-- Settles O48: FRAME_LEN bounds a window that is the block's frame; the empty block leaves the empty window. -/
theorem compressThenDecompressGivesTheBlockBack : Obligations.CompressThenDecompressGivesTheBlockBack := by
  intro s B hc hlen hread
  have hB := length_le_of_readBuf hread hlen
  obtain ⟨payload, pad, frame, hpacks⟩ := exists_blockPacks hB
  have hcompress := exec_compressBlock_ok hlen hread hpacks
  by_cases hempty : B = []
  · subst hempty
    have hblkLen : s.blkLenValue = 0 := BitVec.eq_of_toNat_eq (length_of_readBuf hread).symm
    have hdecompress := exec_decompressFrame_end (s := ((s.packedBlock [] payload pad).emitFrame []).frameAsInput) rfl
    refine ⟨_, _, hcompress, hdecompress, rfl, Eq.trans ?_ hblkLen, by simp⟩
    rw [State.blkLenValue, State.blkLenValue]
    simp
  · rw [if_neg hempty] at hcompress
    have hframeLen : (BitVec.ofNat 32 frame.length).toNat = frame.length :=
      toNat_ofNat_of_lt (hpacks.length_frame_le.trans_lt (frameMax_lt hc))
    have hwindow := readBuf_eq_some.1 (readBuf_of_length (t := ((s.packedBlock B payload pad).emitFrame frame).frameAsInput)
      hframeLen (emitFrame_mem ..))
    obtain ⟨u, hu, hblock, hblkLen, -, -, hstatus, -⟩ := decompressFrame_blockFrame
      (s := ((s.packedBlock B payload pad).emitFrame frame).frameAsInput) (by simpa using hc)
      (by simpa [hframeLen] using hpacks.length_frame_le) (by simpa using hB) (by simpa using hpacks)
      (hwindow.trans (List.append_nil _).symm)
    refine ⟨_, u, hcompress, hu, hblock, ?_, ?_⟩
    · rw [State.blkLenValue, hblkLen]
      rfl
    · rw [hstatus, if_neg hempty]
      simp

end Sys2Proof.Machine

namespace Sys2Proof.Machine

/-! ## The first field of a frame that fails (R310) -/

/-- A reader of frame fields stops with this error, or with none. -/
def Reports {α : Type} (x : Except FrameStop α) : Option ErrorKind → Prop
  | some e => x = .error (.error e)
  | none => ∃ a, x = .ok a

section
variable {α β : Type} {r : Option ErrorKind}

theorem reports_ite {c : Prop} [Decidable c] {e : ErrorKind} {x : Except FrameStop α} (h : ¬c → Reports x r) :
    Reports (if c then .error (.error e) else x) (if c then some e else r) := by
  split
  · rfl
  · exact h ‹_›

/-- Bytes that all have a value are read unless the window ends before. -/
theorem need_map_some (x : Nat) (V : List Byte) :
    need x (V.map some) = if V.length < x then .error (.error .truncatedFrame) else .ok (V.take x, (V.drop x).map some) := by
  split
  · next h => exact if_pos (by rwa [List.length_map])
  · next h =>
    rw [← need_append (List.length_take_of_le (Nat.le_of_not_lt h)) (rest := (V.drop x).map some), ← List.map_append,
      List.take_append_drop]

/-- The bytes of a field that starts at an offset, and the window after it. -/
theorem need_drop {W : List Byte} {o x : Nat} (hx : 0 < x ∨ o ≤ W.length) : need x ((W.drop o).map some) =
    if W.length < o + x then .error (.error .truncatedFrame)
    else .ok ((W.drop o).take x, (W.drop (o + x)).map some) := by
  rw [need_map_some, List.length_drop, List.drop_drop]
  exact if_congr (by omega) rfl rfl

theorem reports_need {W : List Byte} {o x : Nat} {f : List Byte × List (Option Byte) → Except FrameStop β}
    (hx : 0 < x ∨ o ≤ W.length) (hcut : W.length < o + x → r = some .truncatedFrame)
    (h : o + x ≤ W.length → Reports (f ((W.drop o).take x, (W.drop (o + x)).map some)) r) :
    Reports ((need x ((W.drop o).map some)).bind f) r := by
  rw [need_drop hx]
  split
  · rw [hcut ‹_›]
    rfl
  · exact h (Nat.le_of_not_lt ‹_›)

end

theorem unbe_take_one (W : List Byte) (o : Nat) : unbe ((W.drop o).take 1) = (W.getD o 0).toNat := by
  rw [List.getD_eq_getElem?_getD, ← List.head?_drop]
  cases W.drop o <;> simp [unbe]

section
variable (W : List Byte)

/-- The least symbol that entry `j` of a table may have: above the one of the entry before it (R310). -/
def leastSymbol (j : Nat) : Nat := if j = 0 then 0 else (W.getD (2 + 5 * j) 0).toNat + 1

theorem badEntry_iff (j : Nat) : badEntry W j = true ↔ W.length < 12 + 5 * j ∨ unbe ((W.drop (8 + 5 * j)).take 4) = 0
    ∨ (W.getD (7 + 5 * j) 0).toNat < leastSymbol W j := by
  simp only [badEntry, leastSymbol, Bool.or_eq_true, Bool.and_eq_true, decide_eq_true_eq, beq_iff_eq, or_assoc]
  rcases j with - | j
  · simp
  · simp

theorem readEntries_succ_drop (count above : Nat) (F : List Nat) (j : Nat) :
    readEntries (count + 1) above F ((W.drop (7 + 5 * j)).map some) =
      if W.length < 12 + 5 * j then .error (.error .truncatedFrame)
      else if unbe ((W.drop (8 + 5 * j)).take 4) = 0 then .error (.error .inconsistentFreqTable)
      else if (W.getD (7 + 5 * j) 0).toNat < above then .error (.error .inconsistentFreqTable)
      else readEntries count (leastSymbol W (j + 1))
        (F.set (W.getD (7 + 5 * j) 0).toNat (unbe ((W.drop (8 + 5 * j)).take 4))) ((W.drop (7 + 5 * (j + 1))).map some) := by
  have hsym : ((W.drop (7 + 5 * j)).take 5).getD 0 0 = W.getD (7 + 5 * j) 0 := by
    simp
  have hcount : ((W.drop (7 + 5 * j)).take 5).drop 1 = (W.drop (8 + 5 * j)).take 4 := by
    rw [List.drop_take, List.drop_drop]
    congr 2
    omega
  have hleast : leastSymbol W (j + 1) = (W.getD (7 + 5 * j) 0).toNat + 1 := by
    rw [leastSymbol, if_neg (Nat.succ_ne_zero j)]
    congr 3
    omega
  have hlength : 7 + 5 * j + 5 = 12 + 5 * j := by omega
  have hnext : 7 + 5 * (j + 1) = 12 + 5 * j := by omega
  rw [readEntries_succ, need_drop (.inl (by decide)), hlength, hleast, hnext]
  split
  · rfl
  · simp only [Except.bind, hsym, hcount]

/-- Entry by entry: the first bad one stops the reader, which otherwise stands after the last (R310). -/
theorem readEntries_drop (count : Nat) : ∀ (j : Nat) (F : List Nat),
    (∃ i, (List.range' j count).find? (badEntry W) = some i
      ∧ readEntries count (leastSymbol W j) F ((W.drop (7 + 5 * j)).map some)
        = .error (.error (if W.length < 12 + 5 * i then .truncatedFrame else .inconsistentFreqTable)))
    ∨ ((List.range' j count).find? (badEntry W) = none
      ∧ ∃ F', readEntries count (leastSymbol W j) F ((W.drop (7 + 5 * j)).map some)
        = .ok (F', (W.drop (7 + 5 * (j + count))).map some)) := by
  induction count with
  | zero => exact fun j F => .inr ⟨rfl, F, rfl⟩
  | succ count ih =>
    intro j F
    have hbad := badEntry_iff W j
    rw [List.range'_succ, List.find?_cons, readEntries_succ_drop]
    by_cases hcut : W.length < 12 + 5 * j
    · rw [hbad.2 (.inl hcut), if_pos hcut]
      exact .inl ⟨j, rfl, by rw [if_pos hcut]⟩
    · rw [if_neg hcut]
      by_cases hzero : unbe ((W.drop (8 + 5 * j)).take 4) = 0
      · rw [hbad.2 (.inr (.inl hzero)), if_pos hzero]
        exact .inl ⟨j, rfl, by rw [if_neg hcut]⟩
      · rw [if_neg hzero]
        by_cases hsym : (W.getD (7 + 5 * j) 0).toNat < leastSymbol W j
        · rw [hbad.2 (.inr (.inr hsym)), if_pos hsym]
          exact .inl ⟨j, rfl, by rw [if_neg hcut]⟩
        · have hgood : badEntry W j = false :=
            Bool.eq_false_iff.2 fun h => (hbad.1 h).elim hcut fun h => h.elim hzero hsym
          have hlast : j + (count + 1) = j + 1 + count := by omega
          rw [hgood, if_neg hsym, hlast]
          exact ih (j + 1) _

variable {W}

/-- The first bad entry of the table decides what a reader of the table reports (R310). -/
theorem reports_table {β : Type} {count : Nat} {F : List Nat} {r : Option ErrorKind}
    {f : List Nat × List (Option Byte) → Except FrameStop β}
    (hbad : ∀ i, (List.range count).find? (badEntry W) = some i →
      r = some (if W.length < 12 + 5 * i then .truncatedFrame else .inconsistentFreqTable))
    (h : (List.range count).find? (badEntry W) = none →
      ∀ F', Reports (f (F', (W.drop (7 + 5 * count)).map some)) r) :
    Reports ((readEntries count 0 F ((W.drop 7).map some)).bind f) r := by
  rw [List.range_eq_range'] at hbad h
  rcases readEntries_drop W count 0 F with ⟨i, hfind, hread⟩ | ⟨hfind, F', hread⟩
  · rw [hbad i hfind]
    exact congrArg (Except.bind · f) hread
  · rw [Nat.zero_add] at hread
    have hstep := congrArg (Except.bind · f) hread
    exact hstep ▸ h hfind F'

/-- FrameDes on a window of bytes that all have a value reports the first field in wire order that fails (R310). -/
theorem reports_readFrame (lim : Nat) : Reports (readFrame lim (W.map some)) (frameFailure lim W) := by
  rw [readFrame_eq_bind, frameFailure]
  refine reports_need (o := 0) (.inl (by decide)) (fun h => if_pos (by omega)) fun _ => ?_
  refine reports_need (o := 4) (.inl (by decide)) (fun h => if_pos h) fun h => ?_
  rw [if_neg (Nat.not_lt.2 h)]
  dsimp only
  rw [unbe_take_one]
  refine reports_ite fun _ => reports_need (o := 5) (.inl (by decide)) (fun h => if_pos h) fun h => ?_
  rw [if_neg (Nat.not_lt.2 h)]
  refine reports_ite fun _ => ?_
  dsimp only
  rw [readFrameBody_eq_bind]
  refine reports_table (fun i hi => hi ▸ (apply_ite some ..).symm) fun hnone F => ?_
  rw [hnone]
  refine reports_need (.inl (by decide)) (fun h => if_pos (by omega)) fun h => ?_
  have hlength : 7 + 5 * unbe ((W.drop 5).take 2) + 4 = 11 + 5 * unbe ((W.drop 5).take 2) := by omega
  rw [hlength] at h ⊢
  dsimp only
  rw [if_neg (Nat.not_lt.2 h)]
  refine reports_ite fun _ => reports_ite fun _ => reports_ite fun _ => reports_need (.inr h) (fun h => if_pos h) fun h => ?_
  rw [if_neg (Nat.not_lt.2 h)]
  exact ⟨_, rfl⟩

end

theorem deserializeFrame_error {lim : Nat} {w : List (Option Byte)} {stop : FrameStop} (hne : w.length ≠ 0)
    (h : readFrame lim w = .error stop) : deserializeFrame lim w = .error stop := by
  rw [deserializeFrame, if_neg hne, h]

/-- Settles O42: the reader answers with what the frame was made from, and stops at the first field that fails. -/
theorem frameDesReadsTheFrameOrReportsTheFirstBadField : Obligations.FrameDesReadsTheFrameOrReportsTheFirstBadField := by
  refine ⟨fun s rot pad F payload f rest hc hlen hF h32 hser hwindow => ?_, fun s W hlen hread hne herr => ?_⟩
  · have hfits := (length_serializeFrame hser).2
    have hdes := (congrArg (deserializeFrame (payloadMax s.cfg)) hwindow).trans
      (deserializeFrame_serialized hF h32 (hfits.trans_lt (payloadMax_lt hc)) hser rest)
    have hfreq := freqTable_writeFrame s (frameBounds_of_deserializeFrame hdes)
    refine ⟨_, exec_frameDes_ok hlen hdes, ?_, ?_, hfreq, rfl, rfl, readBuf_of_memWriteBuf rfl, rfl, rfl, ⟨rfl, rfl, rfl⟩,
      ((ChangesOnly.refl _ _ s).writeFrame hc (by decide) hfits ?_).finished⟩
    · simp
    · simp
    · exact (if_pos rfl).ge
  · have hwindow := readBuf_eq_some.1 hread
    have hwindowNe : (W.map some).length ≠ 0 := by simpa using hne
    have hreports := reports_readFrame (W := W) (payloadMax s.cfg)
    cases hfail : frameFailure (payloadMax s.cfg) W with
    | some e =>
      rw [hfail] at hreports
      have hdes := (congrArg (deserializeFrame (payloadMax s.cfg)) hwindow).trans
        (deserializeFrame_error hwindowNe hreports)
      exact ⟨⟨_, exec_frameDes_error hlen hdes, rfl, rfl⟩, _, exec_decompressFrame_badFrame hlen hdes, rfl, rfl⟩
    | none =>
      rw [hfail] at hreports
      obtain ⟨fr, hfr⟩ := hreports
      have hdes := (congrArg (deserializeFrame (payloadMax s.cfg)) hwindow).trans
        (deserializeFrame_eq_ok_some.2 ⟨hwindowNe, hfr⟩)
      exact ⟨_, exec_frameDes_ok hlen hdes, herr⟩

end Sys2Proof.Machine

namespace Sys2Proof.Machine

/-! ## The idle engine, and which errors a command raises -/

section
variable {s t : State}

/-- With BUSY = 0 a silent turn changes nothing but the step count (R369). -/
theorem engineTurn_idle (hb : s.status.busy = false) : engineTurn s = .next s.ticked := by
  simp [engineTurn, hb, tickedResult]

/-- Settles O5: a silent host and a pause both give the engine its turn, and an idle engine does nothing with it. -/
theorem idleStepHoldsAllState : Obligations.IdleStepHoldsAllState := by
  refine fun s hb => ⟨fun hq => ?_, fun rest hq => ?_⟩
  · rw [step_silent hq, engineTurn_idle hb]
    rfl
  · rw [step_action hq]
    exact engineTurn_idle (s := { s with hostQueue := rest }) hb

/-- The only error of COMPRESS_BLOCK is its length check: every block that it can read has a frame (R341). -/
theorem errCode_of_compressBlock (h : exec .compressBlock s = .next t) (hclear : s.status.err = false)
    (herr : t.status.err = true) : t.errCode = some .lengthOutOfRange := by
  rcases Nat.lt_or_ge s.cfg.blockMax s.blkLenValue.toNat with hover | hlen
  · cases (exec_lengthOutOfRange (i := .compressBlock) rfl hover).symm.trans h
    rfl
  · cases hread : s.readBuf .a s.blkLenValue.toNat with
    | none => cases (exec_fault (i := .compressBlock) rfl hlen nofun hread).symm.trans h
    | some B =>
      obtain ⟨payload, pad, frame, hpacks⟩ := exists_blockPacks (length_le_of_readBuf hread hlen)
      obtain ⟨-, -, hkept⟩ := (completes_compressBlock hlen hread hpacks).flags
      cases (exec_compressBlock_ok hlen hread hpacks).symm.trans h
      cases herr.symm.trans (hkept.trans hclear)

/-- Settles O54: a raised error is one of its command's row, and COMPRESS_BLOCK raises only LENGTH_OUT_OF_RANGE. -/
theorem raisedErrorsAreThoseOfTheTable : Obligations.RaisedErrorsAreThoseOfTheTable := by
  intro i s t hclear h herr
  obtain ⟨e, rfl, hrow | rfl⟩ := raised_of_exec h hclear herr
  · exact ⟨e, rfl, hrow⟩
  · exact ⟨.lengthOutOfRange, errCode_of_compressBlock h hclear herr, by decide⟩

end

/-! ## What a host write does to the interrupt output and to a latched error -/

/-- `t` has the latched error of `s`, or none where `s` has none: ERR, ERR_CODE and ERR_OFFSET (R352). -/
structure KeepsError (s t : State) : Prop where
  err : t.status.err = s.status.err
  errCode : t.errCode = s.errCode
  errOffset : t.errOffset = s.errOffset

/-- `t` has also the enables and DONE of `s`: with ERR, all that the interrupt output is made of (R56). -/
structure KeepsSignals (s t : State) : Prop extends KeepsError s t where
  ctrl : t.ctrl = s.ctrl
  done : t.status.done = s.status.done

section
variable {s t : State}

theorem keepsSignals_refl (s : State) : KeepsSignals s s := ⟨⟨rfl, rfl, rfl⟩, rfl, rfl⟩

theorem KeepsSignals.trans {u : State} (h : KeepsSignals s t) (h' : KeepsSignals t u) : KeepsSignals s u :=
  ⟨⟨h'.err.trans h.err, h'.errCode.trans h.errCode, h'.errOffset.trans h.errOffset⟩, h'.ctrl.trans h.ctrl,
    h'.done.trans h.done⟩

theorem keepsSignals_violated (s : State) : KeepsSignals s s.violated := ⟨⟨rfl, rfl, rfl⟩, rfl, rfl⟩

theorem keepsSignals_storeOperand (s : State) (r : RegName) (v : Word) : KeepsSignals s (s.storeOperand r v) := by
  cases r <;> exact ⟨⟨rfl, rfl, rfl⟩, rfl, rfl⟩

theorem keepsSignals_pokeBytes (s : State) (a : Nat) (bytes : List Byte) : KeepsSignals s (s.pokeBytes a bytes) := by
  induction bytes generalizing s a with
  | nil => exact keepsSignals_refl s
  | cons b bytes ih =>
    have hfirst : KeepsSignals s (s.pokeByte a b) := by
      unfold State.pokeByte
      split <;> exact ⟨⟨rfl, rfl, rfl⟩, rfl, rfl⟩
    exact hfirst.trans (ih (s.pokeByte a b) (a + 1))

/-- The interrupt output is a function of these signals (R56). -/
theorem KeepsSignals.irq (h : KeepsSignals s t) : t.irq = s.irq := by
  rw [State.irq, State.irq, h.ctrl, h.done, h.err]

/-- A host write keeps these signals, unless it writes CTRL or STATUS, or issues a word while BUSY = 0 (R33, R35, R93, R170). -/
theorem memWrite_signals (s : State) (a : Nat) (w : Width) (v : Word) :
    KeepsSignals s (s.memWrite a w v)
      ∨ (a = 0x18 ∧ w = .w4 ∧ s.memWrite a w v = s.writeCtrl v)
      ∨ (a = 0x20 ∧ w = .w4 ∧ s.memWrite a w v = { s with status := statusCleared s.status v })
      ∨ (s.status.busy = false ∧ s.memWrite a w v = s.issue v) := by
  rcases memWrite_cases s a w v with heq | ⟨r, rfl, rfl, heq⟩ | ⟨-, heq⟩ | ⟨-, bytes, heq⟩ <;> rw [heq]
  · exact .inl (keepsSignals_refl s)
  · rcases writeReg_cases s r v with hreg | ⟨-, hreg⟩ | ⟨rfl, hreg⟩ | ⟨rfl, hreg⟩ | ⟨hb, -, hreg⟩ | ⟨-, hreg⟩ <;> rw [hreg]
    · exact .inl (keepsSignals_refl s)
    · exact .inl (keepsSignals_violated s)
    · exact .inr (.inl ⟨rfl, rfl, rfl⟩)
    · exact .inr (.inr (.inl ⟨rfl, rfl, rfl⟩))
    · exact .inr (.inr (.inr ⟨hb, rfl⟩))
    · exact .inl (keepsSignals_storeOperand s r v)
  · exact .inl (keepsSignals_violated s)
  · exact .inl (keepsSignals_pokeBytes s a bytes)

/-- The issue of a word is its rejection or its acceptance (R171). -/
theorem issue_cases (s : State) (w : Word) :
    s.issue w = State.rejected { s with cmd := w } ∨ s.issue w = State.accepted { s with cmd := w } := by
  rw [issue_eq]
  exact ite_eq_or_eq ..

/-- A host write keeps a latched error, unless it is a soft reset (R352, R381). -/
theorem memWrite_keepsError (s : State) (a : Nat) (w : Width) (v : Word) :
    KeepsError s (s.memWrite a w v) ∨ s.memWrite a w v = s.blockReset := by
  rcases memWrite_signals s a w v with hkept | ⟨-, -, heq⟩ | ⟨-, -, heq⟩ | ⟨-, heq⟩
  · exact .inl hkept.toKeepsError
  · rw [heq, State.writeCtrl]
    split
    · exact .inr rfl
    · exact .inl ⟨rfl, rfl, rfl⟩
  · rw [heq]
    exact .inl ⟨rfl, rfl, rfl⟩
  · rcases issue_cases s v with hissue | hissue <;> rw [heq, hissue] <;> exact .inl ⟨rfl, rfl, rfl⟩

/-- Under a latched error the pending command is NOP or CLEAR_ERROR (R171), so performing it keeps the error or clears it. -/
theorem performPending_keepsError (hcmd : s.cmd = encode .nop ∨ s.cmd = encode .clearError)
    (h : performPending s = .next t) : KeepsError s t ∨ (s.cmd = encode .clearError ∧ t = s.errorCleared.finished) := by
  rcases hcmd with hcmd | hcmd <;> rw [performPending, State.fetch, hcmd, decode_encode] at h <;> cases h
  · exact .inl ⟨rfl, rfl, rfl⟩
  · exact .inr ⟨hcmd, rfl⟩

/-- Settles O57: of what a step can do, only a reset and CLEAR_ERROR touch the latched error. -/
theorem theFirstErrorStaysLatched : Obligations.TheFirstErrorStaysLatched := by
  intro s t hinv herr hstep
  have latched {queue : List HostAction} {u : State} (h : KeepsError { s with hostQueue := queue } u) :
      u.ticked.status.err = true ∧ u.ticked.errCode = s.errCode ∧ u.ticked.errOffset = s.errOffset :=
    ⟨h.err.trans herr, h.errCode, h.errOffset⟩
  rcases step_cases hstep with ⟨queue, reads, rfl⟩ | ⟨a, w, v, rest, -, rfl⟩ | ⟨rest, -, rfl⟩ | ⟨hb, queue, u, hu, rfl⟩
  · exact .inl ⟨herr, rfl, rfl⟩
  · rcases memWrite_keepsError { s with hostQueue := rest } a w v with hkept | hreset
    · exact .inl (latched hkept)
    · rw [hreset]
      exact .inr (.inr ⟨rest, rfl⟩)
  · exact .inr (.inr ⟨rest, rfl⟩)
  · rcases performPending_keepsError (s := { s with hostQueue := queue }) (hinv.sticky hb herr) hu with
      hkept | ⟨hcmd, rfl⟩
    · exact .inl (latched hkept)
    · exact .inr (.inl ⟨hb, hcmd, rfl, rfl, rfl⟩)

/-! ## The interrupt output -/

/-- Under the same enables, the interrupt output stays 1 where DONE and ERR do (R56). -/
theorem irq_mono (hctrl : t.ctrl = s.ctrl) (hdone : s.status.done = true → t.status.done = true)
    (herr : s.status.err = true → t.status.err = true) (h : s.irq = true) : t.irq = true := by
  simp only [State.irq, hctrl, Bool.or_eq_true, Bool.and_eq_true] at h ⊢
  exact h.imp (And.imp_left hdone) (And.imp_left herr)

/-- No command writes CTRL (R124). -/
theorem Completes.ctrl {i : Instr} (ht : Completes s t i) : t.ctrl = s.ctrl := by
  cases i with
  | nop | ecBuild | streamReset | clearError => cases ht; rfl
  | rtFwd | rrtEnc | rrtDec | rlcEnc | ecCount => obtain ⟨-, _, -, rfl⟩ := ht; rfl
  | rtInv | rlcDec | ecUnpack | frameSer => obtain ⟨-, _, _, -, -, rfl⟩ := ht; rfl
  | ecPack => obtain ⟨-, T, payload, pad, -, -, rfl⟩ := ht; rfl
  | frameDes => obtain ⟨-, r, -, rfl⟩ := ht; cases r <;> rfl
  | compressBlock => obtain ⟨-, B, payload, pad, frame, -, -, -, rfl⟩ := ht; rfl
  | decompressFrame =>
    obtain ⟨-, r, -, ht⟩ := ht
    cases r with
    | none => cases ht; rfl
    | some fr => obtain ⟨T, R, B, -, rfl⟩ := ht; rfl

/-- The end of a pending word: BUSY is cleared, and the interrupt output stays 1 unless the word is CLEAR_ERROR's (R174, R361). -/
theorem performPending_irq (h : performPending s = .next t) :
    t.status.busy = false ∧ (s.irq = true → t.irq = true ∨ s.cmd = encode .clearError) := by
  rcases performPending_cases h with ⟨e, rfl⟩ | ⟨i, hd, ⟨e, rfl⟩ | hcomplete⟩
  · exact ⟨rfl, fun hs => .inl (irq_mono (latched_ctrl s e 0) (fun _ => rfl) (fun _ => rfl) hs)⟩
  · exact ⟨rfl, fun hs => .inl (irq_mono (spoilAll_ctrl s _) (fun _ => rfl) (fun _ => rfl) hs)⟩
  · obtain ⟨hbusy, hdone, herr⟩ := hcomplete.flags
    refine ⟨hbusy, fun hs => ?_⟩
    by_cases hi : i = .clearError
    · exact .inr (hi ▸ decode_eq_ok_iff_encode.1 hd)
    · rw [if_neg hi] at herr
      exact .inl (irq_mono hcomplete.ctrl (fun _ => hdone) herr.trans hs)

/-- A host write raises the interrupt output only at CTRL, and lowers it only at CTRL or STATUS or by the acceptance of a command
(R361). -/
theorem memWrite_irq (s : State) (a : Nat) (w : Width) (v : Word) :
    (s.memWrite a w v).irq = s.irq ∨ (a = 0x18 ∧ w = .w4)
      ∨ (((s.memWrite a w v).irq = true → s.irq = true)
        ∧ ((a = 0x20 ∧ w = .w4) ∨ (s.status.busy = false ∧ (s.memWrite a w v).status.busy = true))) := by
  rcases memWrite_signals s a w v with hkept | ⟨ha, hw, -⟩ | ⟨ha, hw, heq⟩ | ⟨hb, heq⟩
  · exact .inl hkept.irq
  · exact .inr (.inl ⟨ha, hw⟩)
  · rw [heq]
    exact .inr (.inr ⟨irq_mono rfl (fun h => (Bool.and_eq_true_iff.1 h).1) id, .inl ⟨ha, hw⟩⟩)
  · rcases issue_cases s v with hissue | hissue <;> rw [heq, hissue]
    · exact .inl rfl
    · exact .inr (.inr ⟨irq_mono rfl nofun id, .inr ⟨hb, rfl⟩⟩)

/-- Settles O58: each thing a step can do, with its own effect on the interrupt output. -/
theorem interruptRisesAndFallsOnlyOnTheseEvents : Obligations.InterruptRisesAndFallsOnlyOnTheseEvents := by
  intro s t hstep
  rcases step_cases hstep with ⟨queue, reads, rfl⟩ | ⟨a, w, v, rest, hq, rfl⟩ | ⟨rest, hq, rfl⟩ | ⟨hb, queue, u, hu, rfl⟩
  · refine ⟨fun hs ht => ?_, fun hs ht => ?_⟩ <;> cases hs.symm.trans ht
  · rcases memWrite_irq { s with hostQueue := rest } a w v with hkept | ⟨rfl, rfl⟩ | ⟨hlow, hcause⟩
    · refine ⟨fun hs ht => ?_, fun hs ht => ?_⟩ <;> cases (hkept.trans hs).symm.trans ht
    · exact ⟨fun _ _ => .inr ⟨v, rest, hq⟩, fun _ _ => .inl ⟨v, rest, .inl hq⟩⟩
    · refine ⟨fun hs ht => absurd (hlow ht) (ne_true_of_eq_false hs), fun _ _ => ?_⟩
      rcases hcause with ⟨rfl, rfl⟩ | haccept
      · exact .inl ⟨v, rest, .inr hq⟩
      · exact .inr (.inl haccept)
  · exact ⟨fun _ ht => (nomatch ht), fun _ _ => .inr (.inr (.inr ⟨rest, hq⟩))⟩
  · obtain ⟨hidle, hfall⟩ := performPending_irq hu
    refine ⟨fun _ _ => .inl ⟨hb, hidle⟩, fun hs ht => .inr (.inr (.inl ⟨hb, hidle, ?_⟩))⟩
    exact (hfall hs).resolve_left (ne_true_of_eq_false ht)

end

end Sys2Proof.Machine

namespace Sys2Proof.Machine

/-! ## What COMPRESS_BLOCK stores is a function of the block (R385) -/

/-- A byte that the memory lists holds its value, whatever the state's marks say (R23). -/
theorem cell_of_stores {t : State} {b : Buf} {bytes : List Byte} (h : Stores t.mem b bytes) {i : Nat}
    (hi : i < bytes.length) : t.cell b i = some (.val bytes[i]) := by
  rw [State.cell, h i hi, List.getElem?_eq_getElem hi]

/-- The bytes COMPRESS_BLOCK stores from byte 0 of each buffer on, of a block with this payload and frame (R321, R323). -/
def blockStores (B payload frame : List Byte) : Buf → List Byte
  | .a => []
  | .c => (rt B).1
  | .r => (mtfEnc (rt B).1).1
  | .t => blockTokens B
  | .p => payload
  | .f => if B = [] then [] else frame

section
variable {s : State} {B payload frame : List Byte} {pad : Nat}

theorem BlockPacks.blockPayload_eq (h : BlockPacks s.cfg B payload pad frame) : blockPayload s B = payload := by
  rw [blockPayload, h.packed_codeOf s, payloadOf]

/-- `storedLength` counts the bytes of `blockStores`. -/
theorem storedLength_compressBlock (hread : s.readBuf .a s.blkLenValue.toNat = some B)
    (h : BlockPacks s.cfg B payload pad frame) (b : Buf) :
    storedLength s .compressBlock b = (blockStores B payload frame b).length := by
  have hcolumn : (rt B).1.length = B.length := (rt_lengths B).1
  have hranks : (mtfEnc (rt B).1).1.length = B.length := (length_mtfEnc _).trans hcolumn
  rw [storedLength, inputBytes_eq .compressBlock rfl hread]
  cases b with
  | a | t => rfl
  | c => exact hcolumn.symm
  | r => exact hranks.symm
  | p => exact congrArg List.length h.blockPayload_eq
  | f =>
    rw [compressStores, blockStores, h.blockPayload_eq, ← (length_serializeFrame h.serialized).1, apply_ite List.length]
    exact if_congr List.length_eq_zero_iff rfl rfl

/-- Each stage of COMPRESS_BLOCK stores to a buffer of its own, so what an earlier stage stored stands at the end (R321). -/
theorem stores_compressed (hc : s.cfg.Legal) (hB : B.length ≤ s.cfg.blockMax) (h : BlockPacks s.cfg B payload pad frame)
    (b : Buf) : Stores ((s.packedBlock B payload pad).emitFrame (if B = [] then [] else frame)).mem b
      (blockStores B payload frame b) := by
  have hcolumn : (rt B).1.length ≤ bufCapacity s.cfg .c := (rt_lengths B).1.trans_le hB
  have hranks : (mtfEnc (rt B).1).1.length ≤ bufCapacity s.cfg .r := (length_mtfEnc _).trans_le hcolumn
  have htokens : (blockTokens B).length ≤ bufCapacity s.cfg .t := length_blockTokens_le_tokenMax hB
  have hpayload : payload.length ≤ bufCapacity s.cfg .p := h.length_payload_le
  have hframe : (if B = [] then [] else frame).length ≤ bufCapacity s.cfg .f := by
    split
    · exact Nat.zero_le _
    · exact h.length_frame_le
  rw [emitFrame_mem, packedBlock_mem]
  cases b with
  | a => exact nofun
  | c =>
    exact ((((stores_memWriteBuf _ _ _).memWriteBuf hc hcolumn hranks nofun).memWriteBuf hc hcolumn htokens
      nofun).memWriteBuf hc hcolumn hpayload nofun).memWriteBuf hc hcolumn hframe nofun
  | r =>
    exact (((stores_memWriteBuf _ _ _).memWriteBuf hc hranks htokens nofun).memWriteBuf hc hranks hpayload nofun).memWriteBuf
      hc hranks hframe nofun
  | t => exact ((stores_memWriteBuf _ _ _).memWriteBuf hc htokens hpayload nofun).memWriteBuf hc htokens hframe nofun
  | p => exact (stores_memWriteBuf _ _ _).memWriteBuf hc hpayload hframe nofun
  | f => exact stores_memWriteBuf _ _ _

end

/-- Settles O56: both states pack the block into one payload and one frame, and every output is a function of the block, these
two and STREAM_OFFSET. -/
theorem compressBlockDependsOnlyOnItsInputs : Obligations.CompressBlockDependsOnlyOnItsInputs := by
  intro s s' t B hc hcfg hblkLen hoffset hread hread' hlen h
  have hB : B.length ≤ s.cfg.blockMax := length_le_of_readBuf hread hlen
  obtain ⟨payload, pad, frame, hpacks⟩ := exists_blockPacks hB
  have hpacks' : BlockPacks s'.cfg B payload pad frame := hcfg ▸ hpacks
  cases h.symm.trans (exec_compressBlock_ok hlen hread hpacks)
  have hcells : ∀ b i, i < storedLength s .compressBlock b →
      ((s'.packedBlock B payload pad).emitFrame (if B = [] then [] else frame)).cell b i
        = ((s.packedBlock B payload pad).emitFrame (if B = [] then [] else frame)).cell b i := by
    intro b i hi
    rw [storedLength_compressBlock hread hpacks b] at hi
    rw [cell_of_stores (stores_compressed (hcfg ▸ hc) (hcfg ▸ hB) hpacks' b) hi,
      cell_of_stores (stores_compressed hc hB hpacks b) hi]
  exact ⟨_, exec_compressBlock_ok (hblkLen ▸ hcfg ▸ hlen) (hblkLen ▸ hread') hpacks', by simpa [hoffset] using hcells⟩

end Sys2Proof.Machine
